-- ==== Sys2Proof/Word.lean ====
section
/-! DEFINITION. The word types of the engine's interface (spec/00_scope.md R6, R7). -/

namespace Sys2Proof

/-- One command word `c[15:0]`, `CMD_W` = 16 (R6, R90). -/
abbrev CmdWord := BitVec 16

/-- One byte of the sink or the source (R60). -/
abbrev Byte := BitVec 8

/-- One symbol, `SYM_W` = 8, 0 to 255 (R6). -/
abbrev Symbol := BitVec 8

/-- One value of a readable register or of the data field of a response, `RSP_DATA_W` = 64 (R6). -/
abbrev RegWord := BitVec 64

end Sys2Proof
end

