-- ==== Sys2Proof/Syntax.lean ====
section
/-! DEFINITION. The commands: one constructor of `Instr` per row of spec/opcode_table.json (spec/30_encoding.md R91, R92). -/

namespace Sys2Proof

/-- `MODE`, the direction of a stream (R31): 0 encoder, 1 decoder. -/
inductive Mode where
  | enc
  | dec
deriving DecidableEq, Repr

/-- `STRATEGY`, the update algorithm of a stream (R31): 0 FGK, 1 Vitter. -/
inductive Strategy where
  | fgk
  | vitter
deriving DecidableEq, Repr

/-- The register number of `RDREG` (R34, R35): 0 `STATUS`, 1 `BYTE_COUNT`, 2 `SYM_COUNT`, 3 `NODE_COUNT`. -/
inductive Reg where
  | status
  | byteCount
  | symCount
  | nodeCount
deriving DecidableEq, Repr

/-- A command. Every operand type holds exactly the values its field of the word admits (R92). -/
inductive Instr where
  /-- `INIT mode, strategy` (R260). -/
  | init (mode : Mode) (strategy : Strategy)
  /-- `ENCODE sym` (R220). -/
  | encode (sym : Symbol)
  /-- `FLUSH` (R221). -/
  | flush
  /-- `DECODE` (R240). -/
  | decode
  /-- `RDREG reg` (R261). -/
  | rdreg (reg : Reg)
deriving DecidableEq, Repr

end Sys2Proof
end

