-- ==== Sys2Proof/WellFormed.lean ====
section
/-! DEFINITION. Which command words are well formed, written from the match and mask columns of spec/30_encoding.md
R91, independently of the decoder; and that a command as `Instr` needs no check of its own. -/

namespace Sys2Proof

/-- One row of the opcode table: "a word `c` selects the row when `c & mask = match`" (R91). -/
structure OpRow where
  mnemonic : String
  bits : CmdWord
  mask : CmdWord
deriving DecidableEq, Repr

/-- `c & mask = match` (R91). -/
def OpRow.selects (r : OpRow) (c : CmdWord) : Bool := (c &&& r.mask) == r.bits

/-- The opcode table of R91, in its order. -/
def opTable : List OpRow :=
  [ { mnemonic := "INIT",   bits := 0x1000, mask := 0xFFFC },
    { mnemonic := "ENCODE", bits := 0x2000, mask := 0xFF00 },
    { mnemonic := "FLUSH",  bits := 0x3000, mask := 0xFFFF },
    { mnemonic := "DECODE", bits := 0x4000, mask := 0xFFFF },
    { mnemonic := "RDREG",  bits := 0x5000, mask := 0xFFFC } ]

/-- The row of the table a command belongs to. -/
def Instr.row : Instr → OpRow
  | .init _ _ => { mnemonic := "INIT",   bits := 0x1000, mask := 0xFFFC }
  | .encode _ => { mnemonic := "ENCODE", bits := 0x2000, mask := 0xFF00 }
  | .flush    => { mnemonic := "FLUSH",  bits := 0x3000, mask := 0xFFFF }
  | .decode   => { mnemonic := "DECODE", bits := 0x4000, mask := 0xFFFF }
  | .rdreg _  => { mnemonic := "RDREG",  bits := 0x5000, mask := 0xFFFC }

/-- A word is well formed when it matches a row (R91); every other word is an illegal encoding (R93). -/
def CmdWord.wellFormed (c : CmdWord) : Bool := opTable.any (fun r => r.selects c)

/-- A command of type `Instr` is well formed as it stands: its operand types hold exactly what R92 admits ("no `sym`
value is illegal"; all four modes and strategies, all four registers). -/
def Instr.wellFormed : Instr → Bool
  | .init _ _ => true
  | .encode _ => true
  | .flush    => true
  | .decode   => true
  | .rdreg _  => true

end Sys2Proof
end

