-- ==== Sys2Proof/Decode.lean ====
section
/-! DEFINITION. The command decoder and encoder, from the fields of spec/30_encoding.md R90 to R93. -/

namespace Sys2Proof

/-- Why a word is an illegal encoding (R93). -/
inductive DecodeError where
  /-- `op` in `{0x0, 0x6 .. 0xF}`. -/
  | noSuchOperation
  /-- `rsv != 0`. -/
  | reservedNonzero
  /-- a must-be-zero bit of `arg` is set: `arg[7:2]` of `INIT` and `RDREG`, all of `arg` of `FLUSH` and `DECODE`. -/
  | argNonzero
deriving DecidableEq, Repr

/-- `op = c[15:12]` (R90). -/
def CmdWord.op (c : CmdWord) : BitVec 4 := c.extractLsb' 12 4

/-- `rsv = c[11:8]` (R90). -/
def CmdWord.rsv (c : CmdWord) : BitVec 4 := c.extractLsb' 8 4

/-- `arg = c[7:0]` (R90). -/
def CmdWord.arg (c : CmdWord) : BitVec 8 := c.extractLsb' 0 8

/-- `arg[7:2]`, the bits of `arg` that `INIT` and `RDREG` want zero (R91). -/
def CmdWord.argHigh (c : CmdWord) : BitVec 6 := c.extractLsb' 2 6

/-- `mode = c[0]` (R92). -/
def Mode.ofBit (b : Bool) : Mode := if b then .dec else .enc

/-- The bit of a mode (R31). -/
def Mode.toBit : Mode → Bool
  | .enc => false
  | .dec => true

/-- `strategy = c[1]` (R92). -/
def Strategy.ofBit (b : Bool) : Strategy := if b then .vitter else .fgk

/-- The bit of a strategy (R31). -/
def Strategy.toBit : Strategy → Bool
  | .fgk => false
  | .vitter => true

/-- `reg = c[1:0]`, bit 1 and bit 0 (R92). -/
def Reg.ofBits (b1 b0 : Bool) : Reg :=
  match b1, b0 with
  | false, false => .status
  | false, true  => .byteCount
  | true,  false => .symCount
  | true,  true  => .nodeCount

/-- The number of a register (R34, R35). -/
def Reg.number : Reg → BitVec 8
  | .status    => 0
  | .byteCount => 1
  | .symCount  => 2
  | .nodeCount => 3

/-- The decoder: the command a word stands for, or why it is an illegal encoding (R91, R93). -/
def decode (c : CmdWord) : Except DecodeError Instr :=
  if c.op = 0x0 ∨ 0x6 ≤ c.op then .error .noSuchOperation
  else if c.rsv ≠ 0 then .error .reservedNonzero
  else if c.op = 0x1 then
    if c.argHigh ≠ 0 then .error .argNonzero
    else .ok (.init (Mode.ofBit (c.getLsbD 0)) (Strategy.ofBit (c.getLsbD 1)))
  else if c.op = 0x2 then .ok (.encode c.arg)
  else if c.op = 0x3 then
    if c.arg ≠ 0 then .error .argNonzero else .ok .flush
  else if c.op = 0x4 then
    if c.arg ≠ 0 then .error .argNonzero else .ok .decode
  else
    if c.argHigh ≠ 0 then .error .argNonzero
    else .ok (.rdreg (Reg.ofBits (c.getLsbD 1) (c.getLsbD 0)))

/-- A word from its three fields `{op, rsv = 0, arg}` (R90). -/
def CmdWord.make (op : BitVec 4) (arg : BitVec 8) : CmdWord := op ++ (0x0#4 ++ arg)

/-- `arg` of `INIT`: `arg[0] = mode`, `arg[1] = strategy`, `arg[7:2] = 0` (R91). -/
def initArg (m : Mode) (s : Strategy) : BitVec 8 :=
  (0x00#6 ++ (BitVec.ofBool s.toBit ++ BitVec.ofBool m.toBit))

/-- The encoder: the word of a command (R91, R102). -/
def encode : Instr → CmdWord
  | .init m s => CmdWord.make 0x1 (initArg m s)
  | .encode sym => CmdWord.make 0x2 sym
  | .flush => CmdWord.make 0x3 0x00
  | .decode => CmdWord.make 0x4 0x00
  | .rdreg r => CmdWord.make 0x5 r.number

/-- The command read from an instruction of `nbits` bits whose value is `w`: the command channel carries one whole
16-bit word and nothing longer (R90), so a value that does not fit in one word is no command. -/
def decodeTableWord (nbits w : Nat) : Option Instr :=
  if nbits ≤ 16 ∧ w < 2 ^ nbits then (decode (BitVec.ofNat 16 w)).toOption else none

end Sys2Proof
end

