-- ==== Sys2Proof/Config.lean ====
section
/-! DEFINITION. The parameters of spec/00_scope.md R6, and the free values of spec/93_implementation_defined.md U2, U3. -/

namespace Sys2Proof

/-- What an implementation fixes: `WEIGHT_W`, the one parameter the spec leaves OPEN ("a model takes `WEIGHT_W`
as an argument", R6, D11, U13). A machine's State carries it and no step writes it, so that a statement over all
states is a statement for every `WEIGHT_W`. DESIGN CHOICE (log 3), safe. -/
structure Config where
  /-- `WEIGHT_W`, at least 1. -/
  weightW : Nat
deriving DecidableEq, Repr

/-- The default parameters: `WEIGHT_W = 32` (R6). -/
def Config.default : Config := { weightW := 32 }

/-- `WMAX = 2^WEIGHT_W - 1`, the largest weight (R6). -/
def Config.wmax (c : Config) : Nat := 2 ^ c.weightW - 1

/-- `NODE_CAP`, the number of node slots, `2*NSYM + 1` (R6). -/
abbrev nodeCap : Nat := 513

/-- The unspecified value the `n`-th `RDREG` issued in `UNINIT` or `FAULTED` draws: "returns a free value (a draw,
under no law)" (U2, U3). Nothing constrains it. Free value (log 2), safe. -/
opaque Config.freeRegWord : Nat → RegWord

end Sys2Proof
end

