-- ==== Sys2Proof/Machine/State.lean ====
section
/-! DEFINITION. The state of the engine and of what stands around it, as plain data (spec/10_state.md R20 to R47,
spec/20_memory.md R60 to R62), the state after hardware reset, and the ways a step could stop. -/

namespace Sys2Proof.Machine

/-- A node handle, 0 to 512 (R63: "Handles 0 to 512 are the whole space"). `NULL` is `none` of `Option Handle`:
handles 513 to 1022 do not exist, and the 10-bit encoding of handles is not observable (D13). DEDUCED (log 5), safe. -/
abbrev Handle := Fin 513

/-- `ROOT = 0`: the root is always the node with handle 0 (R26). -/
def root : Handle := ⟨0, by decide⟩

/-- The role of a node (R22). The symbol stands with the Leaf it belongs to: the `sym` field of other roles is
"unspecified ... and never read for them" (R21, U4), and role value 3 is never written (U6). -/
inductive Role where
  | internal
  | leaf (sym : Symbol)
  | escape
deriving DecidableEq, Repr

/-- One entry of the node table (R21). `weight` and `rank` are numbers, held within `WEIGHT_W` and `RANK_W` bits by
the invariants of R41(g) and R286 (log 4). -/
structure Node where
  weight : Nat
  rank : Nat
  role : Role
  isLeft : Bool
  parent : Option Handle
  left : Option Handle
  right : Option Handle
deriving DecidableEq, Repr

/-- A node entry nothing has written: every number 0, every handle `NULL`. DESIGN CHOICE (log 1), unsafe. -/
def Node.blank : Node :=
  { weight := 0, rank := 0, role := .internal, isLeft := false, parent := none, left := none, right := none }

/-- The coding tree: the node table, `NODE_COUNT`, `ESC` and the SymbolTable `SEEN` (R20 to R27). -/
structure Tree where
  /-- `NODE[0..512]` (R21). -/
  node : Vector Node 513
  /-- `NODE_COUNT`, values 0 to 513 (R24). -/
  nodeCount : Fin 514
  /-- `ESC`, the handle of the current Escape node (R25). -/
  esc : Handle
  /-- `SEEN[255:0]`: bit `s` is 1 once symbol `s` has a leaf (R27). -/
  seen : BitVec 256
deriving DecidableEq, Repr

/-- `STATE` (R32). -/
inductive EngineState where
  | uninit
  | active
  | flushed
  | faulted
deriving DecidableEq, Repr

/-- The spec's faults (R280). Each is TAKEN by the machine (R284): a next state, never a stop of the model. -/
inductive FaultKind where
  | illegalCommand
  | streamExhausted
  | invariantViolation
  | allocationFailure
  | weightOverflow
deriving DecidableEq, Repr

/-- One response `(status[3:0], data[63:0])` (R94). -/
structure Response where
  status : BitVec 4
  data : RegWord
deriving DecidableEq, Repr

/-- One act of the host (R9, R318), in the order the host issues them. -/
inductive HostInput where
  /-- a command word on the command channel (R262). -/
  | command (word : CmdWord)
  /-- the reset input, or the return of power, between commands (R310, R297). -/
  | reset
  /-- the reset input while `word` runs, when `done` of its byte accesses are complete (R310, R317). -/
  | resetDuring (word : CmdWord) (done : Nat)
  /-- attach a byte source positioned at its first byte (R313); in any state (log 6). -/
  | attachSource (bytes : List Byte)
  /-- attach a byte sink, with the content it already has (R313); in any state (log 6). -/
  | attachSink (bytes : List Byte)
deriving DecidableEq, Repr

/-- Why a step would stop with a fault. Nobody raises one: the spec gives every command word in every state an effect
and exactly one response (R94, R262), and its own faults are states of the machine (R284). Safe. -/
inductive Fault where
deriving DecidableEq, Repr

/-- Why a step would be refused. -/
inductive Refusal where
  /-- an instruction that has no meaning yet; raised by an arm of `exec` alone, and no arm raises it. Safe. -/
  | notModelled (mnemonic : String)
deriving DecidableEq, Repr

end Sys2Proof.Machine

namespace Sys2Proof.Machine

/-- The complete state. The first group is R20's list; the second is what stands around the engine (R60 to R62); the
last field is the model's own. -/
structure State where
  /-- the parameters, never written (R6; log 3) -/
  cfg : Sys2Proof.Config
  /-- `NODE[*]`, `NODE_COUNT`, `ESC`, `SEEN` -/
  tree : Tree
  /-- `ACC[7:0]` (R28) -/
  acc : BitVec 8
  /-- `CNT[3:0]` (R28) -/
  cnt : BitVec 4
  /-- `BYTE_COUNT` (R29; at 2^64, log 11) -/
  byteCount : BitVec 64
  /-- `PEND_VALID` (R30) -/
  pendValid : Bool
  /-- `PEND_BIT` (R30) -/
  pendBit : Bool
  /-- `MODE` (R31) -/
  mode : Mode
  /-- `STRATEGY` (R31) -/
  strategy : Strategy
  /-- `STATE` (R32) -/
  engine : EngineState
  /-- `FAULT_CODE` (R33) -/
  faultCode : BitVec 4
  /-- the byte sink's content, the sequence `O` of R62 -/
  sink : List Byte
  /-- the byte source's bytes, the sequence `S` of R61 -/
  src : List Byte
  /-- the byte source's read position, `i` of R61 -/
  srcPos : Nat
  /-- what the host does next, first to last (R60, R318) -/
  channel : List HostInput
  /-- the responses delivered, first to last (R94) -/
  responses : List Response
  /-- how many free values were drawn (U2, U3; log 2): the model's own -/
  freeCount : Nat
deriving DecidableEq, Repr

/-- A node table nothing has written. DESIGN CHOICE (log 1), unsafe. -/
def Tree.blank : Tree :=
  { node := Vector.replicate 513 Node.blank, nodeCount := ⟨0, by decide⟩, esc := root, seen := 0 }

/-- The state after hardware reset: `STATE = UNINIT`, `FAULT_CODE = 0` (R46). "Every other element ... is unspecified":
its value here is the model's, DESIGN CHOICE (log 1), and `RDREG` does not show it (log 2). The channels, the sink and
the source are empty (log 6). -/
def State.reset : State :=
  { cfg := Sys2Proof.Config.default
    tree := Tree.blank
    acc := 0
    cnt := 0
    byteCount := 0
    pendValid := false
    pendBit := false
    mode := .enc
    strategy := .fgk
    engine := .uninit
    faultCode := 0
    sink := []
    src := []
    srcPos := 0
    channel := []
    responses := []
    freeCount := 0 }

end Sys2Proof.Machine
end

