-- ==== Sys2Proof/Machine/Ops.lean ====
section
/-! DEFINITION. The named operations every command uses: the response, taking a fault (spec/60_exceptions.md R284), the
refusal in `FAULTED` (spec/46_system_commands.md R265), the dispatch order (R262), the two byte accesses
(spec/20_memory.md R61, R62), node-table access, and hardware reset (spec/70_reset_and_hazards.md R310). -/

namespace Sys2Proof.Machine

/-- What a command answers. -/
abbrev Result := Host.Outcome State Fault Refusal

/-- The outcome of an internal operation that may `raise Fault`: a value and the state, or the fault's kind and the
state the aborted command left (R284, R290). -/
inductive Res (α : Type) where
  | ok (a : α) (s : State)
  | raised (k : FaultKind) (s : State)

/-- Run the rest of the pseudocode, unless a fault was raised: "nothing after it ... runs" (R284). -/
def Res.bind {α β : Type} (r : Res α) (f : α → State → Res β) : Res β :=
  match r with
  | .ok a s => f a s
  | .raised k s => .raised k s

/-- A tree operation's result put into the state: a raised fault keeps the tree as the command found it, one of the
contents R284 leaves open (log 8). -/
def Res.ofTree {α : Type} (s : State) (r : Except FaultKind α) : Res α :=
  match r with
  | .ok a => .ok a s
  | .error k => .raised k s

/-! ### Encodings of the named values -/

/-- The code of a fault (R280, R95). -/
def FaultKind.code : FaultKind → BitVec 4
  | .illegalCommand => 1
  | .streamExhausted => 2
  | .invariantViolation => 3
  | .allocationFailure => 4
  | .weightOverflow => 5

/-- Status 0, `OK` (R95). -/
def statusOk : BitVec 4 := 0

/-- The encoding of `STATE` (R32). -/
def EngineState.code : EngineState → BitVec 2
  | .uninit => 0
  | .active => 1
  | .flushed => 2
  | .faulted => 3

/-! ### Bits -/

/-- `v[i] <- b`. -/
def setBit {n : Nat} (v : BitVec n) (i : Nat) (b : Bool) : BitVec n :=
  if b then v ||| (1#n <<< i) else v &&& ~~~(1#n <<< i)

/-! ### Response, fault entry, dispatch -/

/-- `respond(status, data)` (R94): the one response of a command. -/
def State.respond (s : State) (status : BitVec 4) (data : RegWord) : State :=
  { s with responses := s.responses ++ [{ status := status, data := data }] }

/-- `raise Fault(code)` (R284): `FAULT_CODE <- code`, `STATE <- FAULTED`, `respond(code, 0)`. There is no handler, no
vector and no saved context; the return is `INIT` alone (R289). -/
def State.raiseFault (s : State) (k : FaultKind) : State :=
  { s with faultCode := k.code, engine := .faulted }.respond k.code 0

/-- A word refused in `FAULTED`: the response is `(FAULT_CODE, 0)` and nothing changes (R265). -/
def State.refuse (s : State) : State := s.respond s.faultCode 0

/-- The end of a command's pseudocode: its state, or the fault it raised (R284). -/
def Res.finish {α : Type} (r : Res α) (done : α → State → State) : Result :=
  match r with
  | .ok a s => .next (done a s)
  | .raised k s => .next (s.raiseFault k)

/-- The last four lines of `step` (R262) for a command other than `INIT` and `RDREG`: refused in `FAULTED` (R265),
`IllegalCommand` where R263's table says fault, else the command's own pseudocode. -/
def guarded (legal : Bool) (s : State) (body : State → Result) : Result :=
  if s.engine = .faulted then .next s.refuse
  else if legal then body s
  else .next (s.raiseFault .illegalCommand)

/-- What a word that matches no row does (R264, R265): never legal. -/
def illegalEncoding (s : State) : Result := guarded false s (fun t => .next t)

/-! ### The byte sink and the byte source -/

/-- `MemWrite(SINK, 1, b)`, and `BYTE_COUNT <- BYTE_COUNT + 1` in the same step (R62, R29). That the count
wraps at 2^64 is the model's: R29 and D12 leave it open for `WEIGHT_W` above 58. DESIGN CHOICE (log 11), unsafe. -/
def State.memWrite (s : State) (b : Byte) : State :=
  { s with sink := s.sink ++ [b], byteCount := s.byteCount + 1 }

/-- `MemRead(SRC, 1)` (R61): the next byte, consumed and counted (R29; at 2^64, log 11), or `none` for `Eof` with
nothing changed. -/
def State.memRead (s : State) : Option (Byte × State) :=
  match s.src[s.srcPos]? with
  | some b => some (b, { s with srcPos := s.srcPos + 1, byteCount := s.byteCount + 1 })
  | none => none

/-! ### The node table -/

/-- `NODE[h]` (R8). -/
def Tree.get (t : Tree) (h : Handle) : Node := t.node[h.val]

/-- `NODE[h] <- n` (R8). -/
def Tree.put (t : Tree) (h : Handle) (n : Node) : Tree := { t with node := t.node.set h.val n }

/-- `NODE[h].f <- v` for the fields `f` changes (R8). -/
def Tree.modify (t : Tree) (h : Handle) (f : Node → Node) : Tree := t.put h (f (t.get h))

/-- The allocated handles `0 .. NODE_COUNT-1`, in order (R24). -/
def Tree.allocated (t : Tree) : List Handle :=
  (List.range t.nodeCount.val).filterMap (fun i => if hi : i < 513 then some ⟨i, hi⟩ else none)

/-- Following a handle that may be `NULL`: following `NULL` is an `InvariantViolation` (R23). -/
def followed (h : Option Handle) : Except FaultKind Handle :=
  match h with
  | some x => .ok x
  | none => .error .invariantViolation

/-- The one element of a list of candidates; none, or two, is an `InvariantViolation` (R140, R143). -/
def exactlyOne (c : List Handle) : Except FaultKind Handle :=
  match c with
  | [h] => .ok h
  | _ => .error .invariantViolation

/-- The weight of the root, the number of symbols processed since `INIT` (R35). -/
def Tree.rootWeight (t : Tree) : Nat := (t.get root).weight

/-! ### Hardware reset and the host's other acts -/

/-- Hardware reset (R310, R46): `STATE = UNINIT`, `FAULT_CODE = 0`, `SEEN` cleared (R27), no response; every other
element is unspecified until `INIT` and keeps its value here (log 1); what is outside the engine stays as it is. -/
def State.hardwareReset (s : State) : State :=
  { s with engine := .uninit, faultCode := 0, tree := { s.tree with seen := 0 } }

/-- The reset input during a command that would have ended in `full`, when `done` of its byte accesses are complete
(R310, R317): no response, "whatever it already wrote to the sink or consumed from the source stays so". A command
writes or reads, never both (R224, R240). -/
def State.cutByReset (s full : State) (done : Nat) : State :=
  { s with
    sink := s.sink ++ (full.sink.drop s.sink.length).take done
    srcPos := s.srcPos + min done (full.srcPos - s.srcPos) }.hardwareReset

/-- Attach a byte source positioned at its first byte (R313). That it may replace the source of an open stream is the
model's: U15 gives a host that alters the source no move. DESIGN CHOICE (log 6), safe. -/
def State.attachSource (s : State) (bytes : List Byte) : State := { s with src := bytes, srcPos := 0 }

/-- Attach a byte sink; "its content before the stream is none of the engine's concern" (R313). That it may replace
the sink of an open stream, and with it bytes already appended, is the model's: U15 gives such a host act no move. DESIGN
CHOICE (log 6), safe. -/
def State.attachSink (s : State) (bytes : List Byte) : State := { s with sink := bytes }

/-- The engine's state is updated by an operation on the tree. -/
def State.withTree (s : State) (t : Tree) : State := { s with tree := t }

end Sys2Proof.Machine
end

