-- ==== Sys2Proof/Machine/Flags.lean ====
section
/-! DEFINITION. The predicates a rule tests (spec/10_state.md R38), the legality table (spec/46_system_commands.md R263)
and the assembly of `STATUS` (spec/10_state.md R34). The engine has no condition codes (R38). -/

namespace Sys2Proof.Machine

/-- `ENCODE` and `FLUSH` are legal when `STATE = ACTIVE` and `MODE = 0` (R263). -/
def encoderLegal (s : State) : Bool := s.engine == .active && s.mode == .enc

/-- `DECODE` is legal when `STATE = ACTIVE` and `MODE = 1` (R263). -/
def decoderLegal (s : State) : Bool := s.engine == .active && s.mode == .dec

/-- Whether every register is specified: `STATE` is `ACTIVE` or `FLUSHED` (R34, R35). -/
def registersSpecified (s : State) : Bool := s.engine == .active || s.engine == .flushed

/-- The weight pre-check of `ENCODE` and `DECODE` (R286): the root weight is `WMAX`. -/
def weightFull (s : State) : Bool := s.tree.rootWeight == s.cfg.wmax

/-- A bit as a 64-bit word. -/
def bitWord (b : Bool) : RegWord := (BitVec.ofBool b).setWidth 64

/-- The fields of `STATUS` that are specified in every state: `[1:0] STATE` and `[7:4] FAULT_CODE` (R34). -/
def statusAlways (s : State) : RegWord :=
  (s.engine.code.setWidth 64) ||| (s.faultCode.setWidth 64 <<< 4)

/-- `STATUS` in `ACTIVE` and `FLUSHED` (R34): `[2] MODE`, `[3] STRATEGY`, `[11:8] CNT`, `[12] PEND_VALID`,
`[13] PEND_BIT`, `[63:14]` zero. `PEND_BIT` is a copy of the register also while `PEND_VALID = 0` (U5, log 7). -/
def statusSpecified (s : State) : RegWord :=
  statusAlways s ||| (bitWord s.mode.toBit <<< 2) ||| (bitWord s.strategy.toBit <<< 3)
    ||| (s.cnt.setWidth 64 <<< 8) ||| (bitWord s.pendValid <<< 12) ||| (bitWord s.pendBit <<< 13)

/-- `STATUS` in `UNINIT` and `FAULTED`: "only `STATE` and `FAULT_CODE` are specified" (R34), every other bit is a free
value (R267, U2, U3, log 2). -/
def statusUnspecified (s : State) (free : RegWord) : RegWord := (free &&& ~~~0xF3#64) ||| statusAlways s

end Sys2Proof.Machine
end

