-- ==== Sys2Proof/Machine/Operands.lean ====
section
/-! DEFINITION. The operand forms: a register read by its number (spec/10_state.md R34, R35) and the raw bits of a
symbol operand (spec/30_encoding.md R97). -/

namespace Sys2Proof.Machine

/-- The value of a register while `STATE` is `ACTIVE` or `FLUSHED` (R34, R35). -/
def readRegSpecified (s : State) : Reg → RegWord
  | .status => statusSpecified s
  | .byteCount => s.byteCount
  | .symCount => BitVec.ofNat 64 s.tree.rootWeight
  | .nodeCount => BitVec.ofNat 64 s.tree.nodeCount.val

/-- The value of a register in `UNINIT` and `FAULTED`: unspecified but for `STATE` and `FAULT_CODE` (R34, R35, U2, U3). -/
def readRegUnspecified (s : State) (free : RegWord) : Reg → RegWord
  | .status => statusUnspecified s free
  | .byteCount => free
  | .symCount => free
  | .nodeCount => free

/-- The raw bits of a symbol in stream order: `sym[7], sym[6], ..., sym[0]` (R97). -/
def symbolBits (sym : Symbol) : List Bool :=
  [sym.getLsbD 7, sym.getLsbD 6, sym.getLsbD 5, sym.getLsbD 4,
   sym.getLsbD 3, sym.getLsbD 2, sym.getLsbD 1, sym.getLsbD 0]

end Sys2Proof.Machine
end

