-- ==== Sys2Proof/Machine/BitStream.lean ====
section
/-! DEFINITION. The BitStream operations (spec/40_bitstream.md R120 to R125). -/

namespace Sys2Proof.Machine

/-- `putBit(b)` (R120): the bit goes to `ACC[7 - CNT]`; the eighth completes a byte, which is written. -/
def putBit (s : State) (b : Bool) : State :=
  let acc := setBit s.acc (7 - s.cnt.toNat) b
  let cnt := s.cnt + 1
  if cnt = 8 then { s.memWrite acc with acc := 0, cnt := 0 }
  else { s with acc := acc, cnt := cnt }

/-- `putBit` for each bit of a sequence, first bit first (R220). -/
def putBits (s : State) : List Bool → State
  | [] => s
  | b :: bs => putBits (putBit s b) bs

/-- `putSymbol(s)` (R124): the symbol as 8 raw bits, most significant first. -/
def putSymbol (s : State) (sym : Symbol) : State := putBits s (symbolBits sym)

/-- `flushBits()` (R121): a partial byte is written, its unused low bits zero; with `CNT = 0` nothing is. -/
def flushBits (s : State) : State :=
  if s.cnt ≠ 0 then { s.memWrite s.acc with acc := 0, cnt := 0 } else s

/-- Deliver the next bit of the byte in `ACC`: `CNT <- CNT - 1`, then `ACC[CNT]` (R122). -/
def takeBit (s : State) : Bool × State :=
  (s.acc.getLsbD (s.cnt - 1).toNat, { s with cnt := s.cnt - 1 })

/-- `getBitOpt()` (R122): the next bit, or `none` for `Eos` with no state change; a byte is read only when a bit is
asked for and none is left. -/
def getBitOpt (s : State) : Option Bool × State :=
  if s.cnt = 0 then
    match s.memRead with
    | none => (none, s)
    | some (b, t) =>
      let r := takeBit { t with acc := b, cnt := 8 }
      (some r.1, r.2)
  else
    let r := takeBit s
    (some r.1, r.2)

/-- `getBit()` (R123): the demanding form, `StreamExhausted` at the end of data. -/
def getBit (s : State) : Res Bool :=
  match getBitOpt s with
  | (some b, t) => .ok b t
  | (none, t) => .raised .streamExhausted t

end Sys2Proof.Machine
end

