-- ==== Sys2Proof/Machine/CodeTree.lean ====
section
/-! DEFINITION. The CodeTree operations (spec/41_codetree.md R140 to R148). Each works on the tree alone; a raised fault
is the error of the result. -/

namespace Sys2Proof.Machine

/-- `nodeAtRank(r)` (R140): the one allocated node of rank `r`. -/
def nodeAtRank (t : Tree) (r : Nat) : Except FaultKind Handle :=
  exactlyOne (t.allocated.filter (fun h => (t.get h).rank == r))

/-- `sibling(h)` (R141): the other child of `h`'s parent, `none` for the root. -/
def sibling (t : Tree) (h : Handle) : Option Handle :=
  match (t.get h).parent with
  | none => none
  | some p => if (t.get h).isLeft then (t.get p).right else (t.get p).left

/-- The loop of `isProperAncestor` (R142): is `a` on the parent chain that begins at `x`? `fuel` is how many more
iterations the guard `n > NODE_COUNT` allows. -/
def onChain (t : Tree) (a : Handle) : Nat → Option Handle → Except FaultKind Bool
  | _, none => .ok false
  | 0, some x => if x = a then .ok true else .error .invariantViolation
  | fuel + 1, some x => if x = a then .ok true else onChain t a fuel (t.get x).parent

/-- `isProperAncestor(a, b)` (R142): `a` is reached from `b` by one or more `parent` steps. -/
def isProperAncestor (t : Tree) (a b : Handle) : Except FaultKind Bool :=
  onChain t a t.nodeCount.val (t.get b).parent

/-- Is this node a Leaf, and of which symbol? (R22) -/
def Role.isLeafOf (r : Role) (sym : Symbol) : Bool :=
  match r with
  | .leaf x => x == sym
  | _ => false

/-- A leaf without qualification: role Leaf or Escape (R22). -/
def Role.childless (r : Role) : Bool :=
  match r with
  | .internal => false
  | .leaf _ => true
  | .escape => true

/-- Role Leaf, role 1 (R22). -/
def Role.isLeaf (r : Role) : Bool :=
  match r with
  | .internal => false
  | .leaf _ => true
  | .escape => false

/-- `locate(s)` (R143): the one Leaf of a seen symbol, else the Escape node. -/
def locate (t : Tree) (sym : Symbol) : Except FaultKind Handle :=
  if t.seen.getLsbD sym.toNat then
    exactlyOne (t.allocated.filter (fun h => (t.get h).role.isLeafOf sym))
  else .ok t.esc

/-- The loop of `pathTo` (R144): the bits recorded so far stand reversed, root side first. `fuel` is how many more
bits the guard `PLEN = 256` allows. -/
def pathUp (t : Tree) : Nat → Handle → List Bool → Except FaultKind (List Bool)
  | fuel, x, bits =>
    match (t.get x).parent with
    | none => .ok bits
    | some p =>
      match fuel with
      | 0 => .error .invariantViolation
      | fuel + 1 => pathUp t fuel p ((!(t.get x).isLeft) :: bits)

/-- `pathTo(h)` (R144): the path code of a node, first bit nearest the root; left is 0, right is 1. -/
def pathTo (t : Tree) (h : Handle) : Except FaultKind (List Bool) := pathUp t 256 h []

/-- `introduce(s)` (R145): the Escape node becomes Internal in place; its left child is the new Leaf, its right child
the new Escape node. Answers the tree and the new Leaf. -/
def introduce (t : Tree) (sym : Symbol) : Except FaultKind (Tree × Handle) :=
  if t.seen.getLsbD sym.toNat then .error .invariantViolation
  else if hcap : t.nodeCount.val + 2 ≤ nodeCap then
    let n := t.nodeCount.val
    let e := t.esc
    let lf : Handle := ⟨n, by unfold nodeCap at hcap; omega⟩
    let e' : Handle := ⟨n + 1, by unfold nodeCap at hcap; omega⟩
    let t1 := t.modify e (fun x => { x with role := .internal, left := some lf, right := some e' })
    let t2 := t1.put lf { weight := 0, rank := n + 1, role := .leaf sym, isLeft := true, parent := some e,
                          left := none, right := none }
    let t3 := t2.put e' { weight := 0, rank := n + 2, role := .escape, isLeft := false, parent := some e,
                          left := none, right := none }
    .ok ({ t3 with
            nodeCount := ⟨n + 2, by unfold nodeCap at hcap; omega⟩
            esc := e'
            seen := setBit t.seen sym.toNat true }, lf)
  else .error .allocationFailure

/-- Write a child slot of `p`: its left child if `side` is 1, else its right child. -/
def setChild (t : Tree) (p : Handle) (side : Bool) (c : Handle) : Tree :=
  t.modify p (fun x => if side then { x with left := some c } else { x with right := some c })

/-- Write a node's position: the triple (parent, side, rank). -/
def setPosition (t : Tree) (h : Handle) (p : Handle) (side : Bool) (rank : Nat) : Tree :=
  t.modify h (fun x => { x with parent := some p, isLeft := side, rank := rank })

/-- The exchange of positions, once the guards of R146 are passed: `pa` and `pb` are the parents. -/
def exchange (t : Tree) (a b pa pb : Handle) : Tree :=
  let na := t.get a
  let nb := t.get b
  let t1 := setChild t pa na.isLeft b
  let t2 := setChild t1 pb nb.isLeft a
  let t3 := setPosition t2 a pb nb.isLeft nb.rank
  setPosition t3 b pa na.isLeft na.rank

/-- `swapPositions(a, b)` (R146): exchange the positions of two nodes, refused for a node with itself, for the root,
and for a node with its ancestor. -/
def swapPositions (t : Tree) (a b : Handle) : Except FaultKind Tree :=
  if a = b then .error .invariantViolation
  else
    match (t.get a).parent, (t.get b).parent with
    | some pa, some pb => do
      if ← isProperAncestor t a b then .error .invariantViolation
      else if ← isProperAncestor t b a then .error .invariantViolation
      else .ok (exchange t a b pa pb)
    | _, _ => .error .invariantViolation

/-- The lower-ranked of the best candidate so far and one more. -/
def lowerRank (t : Tree) (best : Option Handle) (h : Handle) : Option Handle :=
  match best with
  | none => some h
  | some b => if (t.get h).rank < (t.get b).rank then some h else some b

/-- Does `lowestRank(w, leavesOnly)` consider this node? (R147) -/
def Node.candidate (n : Node) (w : Nat) (leavesOnly : Bool) : Bool :=
  n.weight == w && (!leavesOnly || n.role.childless)

/-- `lowestRank(w, leavesOnly)` (R147): the candidate of smallest rank. -/
def lowestRank (t : Tree) (w : Nat) (leavesOnly : Bool) : Except FaultKind Handle :=
  followed ((t.allocated.filter (fun h => (t.get h).candidate w leavesOnly)).foldl (lowerRank t) none)

/-- `incWeight(h)` (R148). -/
def incWeight (wmax : Nat) (t : Tree) (h : Handle) : Except FaultKind Tree :=
  if (t.get h).weight = wmax then .error .weightOverflow
  else .ok (t.modify h (fun x => { x with weight := x.weight + 1 }))

end Sys2Proof.Machine
end

