-- ==== Sys2Proof/Machine/Fgk.lean ====
section
/-! DEFINITION. The FGK update strategy (spec/42_fgk_update.md R170 to R176). -/

namespace Sys2Proof.Machine

/-- Bring `x` to the position of the lowest-ranked node of its weight: `t <- lowestRank(...)`, `if t != x:
swapPositions(x, t)` (R171, R172, R192). -/
def promote (t : Tree) (x : Handle) (leavesOnly : Bool) : Except FaultKind Tree := do
  let leader ← lowestRank t (t.get x).weight leavesOnly
  if leader = x then .ok t else swapPositions t x leader

/-- One level of the FGK update: promote the cursor, increment it, and move it to its parent, read after the swap
(R171, R172). Moving on from a node without a parent follows `NULL` (R23). -/
def fgkLevel (wmax : Nat) (t : Tree) (x : Handle) (leavesOnly : Bool) : Except FaultKind (Tree × Handle) := do
  let t1 ← promote t x leavesOnly
  let t2 ← incWeight wmax t1 x
  let p ← followed (t2.get x).parent
  .ok (t2, p)

/-- Step 2 (R172): the climb, `while iter != ROOT`. `fuel` bounds a loop that visits every node at most once (R175); on
a corrupt tree whose chain does not end it runs out, which is an `InvariantViolation` (log 8). -/
def fgkClimb (wmax : Nat) : Nat → Tree → Handle → Except FaultKind Tree
  | fuel, t, x =>
    if x = root then .ok t
    else
      match fuel with
      | 0 => .error .invariantViolation
      | fuel + 1 => do
        let r ← fgkLevel wmax t x false
        fgkClimb wmax fuel r.1 r.2

/-- Where the update's cursor starts: the new Leaf of a first occurrence, else the located node (R170). -/
def startNode (t : Tree) (h : Handle) (sym : Symbol) (first : Bool) : Except FaultKind (Tree × Handle) :=
  if first then introduce t sym else .ok (t, h)

/-- Step 1 (R171): one level among the leaves, when the cursor is the sibling of the Escape node. -/
def fgkStepOne (wmax : Nat) (t : Tree) (x : Handle) : Except FaultKind (Tree × Handle) :=
  if sibling t x = some t.esc then fgkLevel wmax t x true else .ok (t, x)

/-- `updateFGK(h, s, first)` (R170): step 1, the climb, and the root's own increment (R173). -/
def updateFGK (wmax : Nat) (t : Tree) (h : Handle) (sym : Symbol) (first : Bool) : Except FaultKind Tree := do
  let a ← startNode t h sym first
  let b ← fgkStepOne wmax a.1 a.2
  let c ← fgkClimb wmax nodeCap b.1 b.2
  incWeight wmax c root

end Sys2Proof.Machine
end

