-- ==== Sys2Proof/Machine/Vitter.lean ====
section
/-! DEFINITION. The Vitter update strategy (spec/43_vitter_update.md R190 to R202), and the dispatch to the active
strategy (spec/41_codetree.md R149). -/

namespace Sys2Proof.Machine

/-- `inBlock(x, p, w)` (R198): an Internal `p` slides past Leaves of weight `w+1`, a leaf past Internal nodes of weight
`w`. -/
def inBlock (t : Tree) (x p : Handle) (w : Nat) : Bool :=
  if (t.get p).role = .internal then (t.get x).role.isLeaf && (t.get x).weight == w + 1
  else (t.get x).role = .internal && (t.get x).weight == w

/-- The scan of R197: from rank `r` downward, the lowest rank of the block; rank 1 is never in a block. -/
def blockTop (t : Tree) (p : Handle) (w : Nat) : Nat → Except FaultKind Nat
  | 0 => .ok 0
  | r + 1 =>
    if 2 ≤ r then do
      let x ← nodeAtRank t r
      if inBlock t x p w then blockTop t p w r else .ok (r + 1)
    else .ok (r + 1)

/-- The loop of `slide(p, t)` (R199): `count` swaps, with the nodes at ranks `j`, `j-1`, ... -/
def slideLoop (p : Handle) : Nat → Nat → Tree → Except FaultKind Tree
  | 0, _, t => .ok t
  | count + 1, j, t => do
    let x ← nodeAtRank t j
    let t1 ← swapPositions t p x
    slideLoop p count (j - 1) t1

/-- `slide(p, top)` (R199): `p` to the position of rank `top`, every block member one rank up. -/
def slide (t : Tree) (p : Handle) (top : Nat) : Except FaultKind Tree :=
  slideLoop p ((t.get p).rank - top) ((t.get p).rank - 1) t

/-- `slideAndIncrement(p)` (R197): the tree and the node the cursor moves to, the former parent of an Internal node,
the new parent of a leaf (R200). -/
def slideAndIncrement (wmax : Nat) (t : Tree) (p : Handle) : Except FaultKind (Tree × Option Handle) := do
  let n := t.get p
  let top ← blockTop t p n.weight n.rank
  let t1 ← if top < n.rank then slide t p top else .ok t
  let t2 ← incWeight wmax t1 p
  .ok (t2, if n.role = .internal then n.parent else (t2.get p).parent)

/-- The climb (R194), `while q != ROOT`. `fuel` bounds it by the number of node slots: the ranks at which successive
calls start strictly decrease (R201); running out is an `InvariantViolation` (log 8). -/
def vitterClimb (wmax : Nat) : Nat → Tree → Handle → Except FaultKind Tree
  | fuel, t, q =>
    if q = root then .ok t
    else
      match fuel with
      | 0 => .error .invariantViolation
      | fuel + 1 => do
        let r ← slideAndIncrement wmax t q
        let q' ← followed r.2
        vitterClimb wmax fuel r.1 q'

/-- The part of `updateVitter` before the climb: the tree, the cursor, and the deferred leaf if there is one (R191 for
a first occurrence, R192 and R193 for a repeat). -/
def vitterStart (t : Tree) (h : Handle) (sym : Symbol) (first : Bool) :
    Except FaultKind (Tree × Handle × Option Handle) :=
  if first then do
    let a ← introduce t sym
    let q ← followed (a.1.get a.2).parent
    .ok (a.1, q, some a.2)
  else do
    let t1 ← promote t h true
    if sibling t1 h = some t1.esc then do
      let q ← followed (t1.get h).parent
      .ok (t1, q, some h)
    else .ok (t1, h, none)

/-- The deferred leaf's own slide and increment (R196); the cursor it answers is not used. -/
def vitterDeferred (wmax : Nat) (t : Tree) (leaf : Option Handle) : Except FaultKind Tree :=
  match leaf with
  | none => .ok t
  | some lf => do
    let r ← slideAndIncrement wmax t lf
    .ok r.1

/-- `updateVitter(h, s, first)` (R190). -/
def updateVitter (wmax : Nat) (t : Tree) (h : Handle) (sym : Symbol) (first : Bool) : Except FaultKind Tree := do
  let a ← vitterStart t h sym first
  let b ← vitterClimb wmax nodeCap a.1 a.2.1
  let c ← incWeight wmax b root
  vitterDeferred wmax c a.2.2

/-- `update(h, s)` (R149): `first <- (h = ESC)`, computed before any mutation; then the active strategy. -/
def update (strategy : Strategy) (wmax : Nat) (t : Tree) (h : Handle) (sym : Symbol) : Except FaultKind Tree :=
  match strategy with
  | .fgk => updateFGK wmax t h sym (h = t.esc)
  | .vitter => updateVitter wmax t h sym (h = t.esc)

end Sys2Proof.Machine
end

