-- ==== Sys2Proof/Machine/Decoder.lean ====
section
/-! DEFINITION. The decoder command `DECODE` (spec/45_decoder_commands.md R240 to R246). -/

namespace Sys2Proof.Machine

/-- The first branch bit: the pending bit, which is consumed, else one from the stream; `none` is `Eos` (R240). -/
def firstBit (s : State) : Option Bool × State :=
  if s.pendValid then (some s.pendBit, { s with pendValid := false }) else getBitOpt s

/-- The descent (R240): while the current node is Internal, follow the bit and read the next one on arrival. `fuel` is
how many more moves the guard `n > 256` allows. Answers the landing leaf and its own next bit. -/
def descend : Nat → Handle → Option Bool → State → Res (Handle × Option Bool)
  | fuel, cur, bit, s =>
    if (s.tree.get cur).role = .internal then
      match bit with
      | none => .raised .streamExhausted s
      | some b =>
        match (if b then (s.tree.get cur).right else (s.tree.get cur).left) with
        | none => .raised .invariantViolation s
        | some nxt =>
          match fuel with
          | 0 => .raised .invariantViolation s
          | fuel + 1 =>
            let r := getBitOpt s
            descend fuel nxt r.1 r.2
    else .ok (cur, bit) s

/-- The landing leaf's next bit becomes the pending bit, or the pending bit becomes absent; `PEND_BIT` is not cleared
(R240, U5). -/
def holdBit (s : State) (bit : Option Bool) : State :=
  match bit with
  | none => { s with pendValid := false }
  | some b => { s with pendValid := true, pendBit := b }

/-- `for i from k-1 down to 0: sym[i] <- getBit()` (R240, R241). -/
def rawBits : Nat → Symbol → State → Res Symbol
  | 0, sym, s => .ok sym s
  | k + 1, sym, s => (getBit s).bind fun b s => rawBits k (setBit sym k b) s

/-- The raw symbol at the Escape node (R240, R241): the pending bit is `sym[7]` and is consumed, then seven bits. -/
def rawSymbol (s : State) : Res Symbol :=
  if s.pendValid then rawBits 7 (setBit 0 7 s.pendBit) { s with pendValid := false }
  else .raised .streamExhausted s

/-- The symbol at the landing leaf (R240): raw at the Escape node, else the Leaf's. The descent lands on no Internal
node (R243). -/
def landedSymbol (cur : Handle) (s : State) : Res Symbol :=
  match (s.tree.get cur).role with
  | .escape => rawSymbol s
  | .leaf sym => .ok sym s
  | .internal => .raised .invariantViolation s

/-- The pseudocode of `DECODE` (R240), legality apart. -/
def decodeBody (s : State) : Res Symbol :=
  if weightFull s then .raised .weightOverflow s
  else
    (descend 256 root (firstBit s).1 (firstBit s).2).bind fun r s =>
    (landedSymbol r.1 (holdBit s r.2)).bind fun sym s =>
    (Res.ofTree s (update s.strategy s.cfg.wmax s.tree r.1 sym)).bind fun t s =>
    .ok sym (s.withTree t)

/-- `DECODE` (R240): the decoded symbol in `data[7:0]`. -/
def execDecode (s : State) : Result :=
  guarded (decoderLegal s) s fun s => (decodeBody s).finish fun sym s => s.respond statusOk (sym.setWidth 64)

end Sys2Proof.Machine
end

