-- ==== Sys2Proof/Machine/Encoder.lean ====
section
/-! DEFINITION. The encoder commands `ENCODE` and `FLUSH` (spec/44_encoder_commands.md R220 to R224). -/

namespace Sys2Proof.Machine

/-- The code of a symbol is emitted: the path, and the raw symbol after the Escape path (R220, R96). -/
def emitCode (s : State) (h : Handle) (path : List Bool) (sym : Symbol) : State :=
  if h = s.tree.esc then putSymbol (putBits s path) sym else putBits s path

/-- The pseudocode of `ENCODE sym` (R220), legality apart: the pre-check before anything moves, the code on the tree as
it stands, then the update. -/
def encodeBody (sym : Symbol) (s : State) : Res Unit :=
  if weightFull s then .raised .weightOverflow s
  else
    (Res.ofTree s (locate s.tree sym)).bind fun h s =>
    (Res.ofTree s (pathTo s.tree h)).bind fun path s =>
    (Res.ofTree (emitCode s h path sym) (update s.strategy s.cfg.wmax s.tree h sym)).bind fun t s =>
    .ok () (s.withTree t)

/-- `ENCODE sym` (R220). -/
def execEncode (sym : Symbol) (s : State) : Result :=
  guarded (encoderLegal s) s fun s => (encodeBody sym s).finish fun _ s => s.respond statusOk 0

/-- `FLUSH` (R221): the last partial byte, then `STATE <- FLUSHED`. -/
def execFlush (s : State) : Result :=
  guarded (encoderLegal s) s fun s => .next ({ flushBits s with engine := .flushed }.respond statusOk 0)

end Sys2Proof.Machine
end

