-- ==== Sys2Proof/Machine/System.lean ====
section
/-! DEFINITION. The system commands `INIT` and `RDREG`, legal in every state (spec/46_system_commands.md R260, R261). -/

namespace Sys2Proof.Machine

/-- The single Escape root of a fresh stream (R47). -/
def Node.freshRoot : Node :=
  { weight := 0, rank := 1, role := .escape, isLeft := false, parent := none, left := none, right := none }

/-- The tree of a fresh stream (R47): one node. The other entries become unallocated: "a model may omit them or give
them any content" (U1), and here they are blank, so that equal trees are equal data (log 1). -/
def Tree.fresh : Tree :=
  { Tree.blank.put root Node.freshRoot with nodeCount := ⟨1, by decide⟩, esc := root, seen := 0 }

/-- The state of a fresh stream (R47, R260); the sink and the source are not touched. -/
def State.openStream (s : State) (mode : Mode) (strategy : Strategy) : State :=
  { s with
    tree := Tree.fresh
    acc := 0
    cnt := 0
    byteCount := 0
    pendValid := false
    pendBit := false
    mode := mode
    strategy := strategy
    faultCode := 0
    engine := .active }

/-- `INIT mode, strategy` (R260). -/
def execInit (mode : Mode) (strategy : Strategy) (s : State) : Result :=
  .next ((s.openStream mode strategy).respond statusOk 0)

/-- `RDREG reg` (R261): status 0 in every state; in `UNINIT` and `FAULTED` the unspecified bits are a free value, one
drawn per read (U2, U3, log 2). -/
def execRdreg (reg : Reg) (s : State) : Result :=
  if registersSpecified s then .next (s.respond statusOk (readRegSpecified s reg))
  else
    .next ({ s with freeCount := s.freeCount + 1 }.respond statusOk
      (readRegUnspecified s (Sys2Proof.Config.freeRegWord s.freeCount) reg))

end Sys2Proof.Machine
end

