-- ==== Sys2Proof/Machine/Dispatch.lean ====
section
/-! DEFINITION. The dispatch: one arm per command, each one direct call of its meaning. -/

namespace Sys2Proof.Machine

def exec (i : Instr) (s : State) : Host.Outcome State Fault Refusal :=
  match i with
  | .init mode strategy => Sys2Proof.Machine.execInit mode strategy s
  | .encode sym => Sys2Proof.Machine.execEncode sym s
  | .flush => Sys2Proof.Machine.execFlush s
  | .decode => Sys2Proof.Machine.execDecode s
  | .rdreg reg => Sys2Proof.Machine.execRdreg reg s

end Sys2Proof.Machine
end

