-- ==== Sys2Proof/Machine/HostPort.lean ====
section
/-! DEFINITION. What one act of the host does to the machine (spec/46_system_commands.md R262,
spec/70_reset_and_hazards.md R310, R313, R318). -/

namespace Sys2Proof.Machine

/-- One command word (R262): decoded and executed, or an illegal encoding (R264, R265). -/
def runWord (c : CmdWord) (s : State) : Result :=
  match decode c with
  | .ok i => exec i s
  | .error _ => illegalEncoding s

/-- The reset input while a word runs (R310, R317): the command is lost without a response. -/
def runWordCut (c : CmdWord) (done : Nat) (s : State) : Result :=
  match runWord c s with
  | .next full => .next (s.cutByReset full done)
  | .fault k => .fault k
  | .refused r => .refused r

/-- One act of the host, taken from the channel. -/
def runInput (i : HostInput) (s : State) : Result :=
  match i with
  | .command c => runWord c s
  | .reset => .next s.hardwareReset
  | .resetDuring c done => runWordCut c done s
  | .attachSource bytes => .next (s.attachSource bytes)
  | .attachSink bytes => .next (s.attachSink bytes)

/-- The word of `w` placed next on the command channel. -/
def State.issueWord (s : State) (w : Nat) : State :=
  { s with channel := .command (BitVec.ofNat 16 w) :: s.channel }

end Sys2Proof.Machine
end

