-- ==== Sys2Proof/Machine/Step.lean ====
section
/-! DEFINITION. The step: the engine takes the host's next act from the channel and completes it (spec/00_scope.md R10,
spec/46_system_commands.md R262). -/

namespace Sys2Proof.Machine

/-- One step. With nothing in the channel "the engine is idle and holds its state" (R297, log 6). -/
def step (s : State) : Host.Outcome State Fault Refusal :=
  match s.channel with
  | [] => .next s
  | i :: rest => runInput i { s with channel := rest }

/-- `s` with the word `w` placed where the engine takes its next command: the head of the command channel. -/
def State.withFetchWord (s : State) (nbits w : Nat) : State := s.issueWord (w % 2 ^ nbits)

end Sys2Proof.Machine
end

