-- ==== Sys2Proof/Safety.lean ====
section
/-! DEFINITION. The terms claims are stated in: the invariants of spec/10_state.md R41 to R45, the bit sequences of a
stream (spec/20_memory.md R64), the legality table (spec/46_system_commands.md R263), and whole runs
(spec/70_reset_and_hazards.md R324). -/

namespace Sys2Proof.Machine

/-! ### The tree -/

/-- `h` is an allocated node: a handle below `NODE_COUNT` (R24). -/
def Tree.has (t : Tree) (h : Handle) : Prop := h.val < t.nodeCount.val

/-- The child a bit selects: 0 left, 1 right (R100). -/
def Tree.child (t : Tree) (h : Handle) (b : Bool) : Option Handle :=
  if b then (t.get h).right else (t.get h).left

/-- The node reached from `h` by following a bit sequence down the child links (R100). -/
def Tree.walk (t : Tree) : Handle → List Bool → Option Handle
  | h, [] => some h
  | h, b :: bs =>
    match t.child h b with
    | none => none
    | some c => Tree.walk t c bs

/-- The Escape node: handle, role, weight 0, rank `NODE_COUNT`, and no other node of that role (R41(e)). -/
structure Tree.EscapeWf (t : Tree) : Prop where
  allocated : t.has t.esc
  role : (t.get t.esc).role = .escape
  weight : (t.get t.esc).weight = 0
  rank : (t.get t.esc).rank = t.nodeCount.val
  unique : ∀ h, t.has h → (t.get h).role = .escape → h = t.esc

/-- The links (R41(b), (c), (d)). -/
structure Tree.LinksWf (t : Tree) : Prop where
  rootParent : ∀ h, t.has h → ((t.get h).parent = none ↔ h = root)
  internal : ∀ p, t.has p → (t.get p).role = .internal →
    ∃ l r, (t.get p).left = some l ∧ (t.get p).right = some r ∧ l ≠ r ∧ t.has l ∧ t.has r ∧
      (t.get l).parent = some p ∧ (t.get l).isLeft = true ∧
      (t.get r).parent = some p ∧ (t.get r).isLeft = false
  childless : ∀ h, t.has h → (t.get h).role ≠ .internal → (t.get h).left = none ∧ (t.get h).right = none
  reached : ∀ h, t.has h → ∃ path, t.walk root path = some h
  once : ∀ path path' h, t.walk root path = some h → t.walk root path' = some h → path = path'

/-- The Leaves and `SEEN` (R41(f)). -/
structure Tree.LeavesWf (t : Tree) : Prop where
  seen : ∀ sym : Symbol, t.seen.getLsbD sym.toNat = true ↔ ∃ h, t.has h ∧ (t.get h).role = .leaf sym
  unique : ∀ (sym : Symbol) h h', t.has h → t.has h' →
    (t.get h).role = .leaf sym → (t.get h').role = .leaf sym → h = h'

/-- The ranks (R41(g)). -/
structure Tree.RanksWf (t : Tree) : Prop where
  range : ∀ h, t.has h → 1 ≤ (t.get h).rank ∧ (t.get h).rank ≤ t.nodeCount.val
  inj : ∀ h h', t.has h → t.has h' → (t.get h).rank = (t.get h').rank → h = h'
  onto : ∀ r, 1 ≤ r → r ≤ t.nodeCount.val → ∃ h, t.has h ∧ (t.get h).rank = r
  root : (t.get root).rank = 1

/-- Tree well-formedness (R41); (a) is `has` and `odd`. -/
structure Tree.WellFormed (t : Tree) : Prop where
  odd : t.nodeCount.val % 2 = 1
  links : t.LinksWf
  escape : t.EscapeWf
  leaves : t.LeavesWf
  ranks : t.RanksWf

/-- The sibling property (R42). -/
structure Tree.SiblingProperty (t : Tree) : Prop where
  weights : ∀ h h', t.has h → t.has h' → (t.get h).rank ≤ (t.get h').rank → (t.get h').weight ≤ (t.get h).weight
  pairs : ∀ j h h', 1 ≤ j → t.has h → t.has h' → (t.get h).rank = 2 * j → (t.get h').rank = 2 * j + 1 →
    (t.get h).parent = (t.get h').parent ∧ (t.get h).isLeft = true ∧ (t.get h').isLeft = false
  parents : ∀ h p, t.has h → (t.get h).parent = some p → (t.get p).rank < (t.get h).rank

/-- The weight sums of R44, and that a symbol's Leaf was counted at least once. That a Leaf's weight is the number of its
symbol's occurrences is `Tree.LeafWeights`. -/
structure Tree.WeightSums (t : Tree) : Prop where
  sum : ∀ p l r, t.has p → (t.get p).left = some l → (t.get p).right = some r →
    (t.get p).weight = (t.get l).weight + (t.get r).weight
  counted : ∀ h, t.has h → h ≠ t.esc → (t.get h).role ≠ .internal → 1 ≤ (t.get h).weight

/-- The weight of the Leaf of every symbol is `n` of that symbol, and `n` is 0 for a symbol that has none: with `n` the
numbers of occurrences so far, the last clause of R44. -/
structure Tree.LeafWeights (t : Tree) (n : Symbol → Nat) : Prop where
  leaf : ∀ h sym, t.has h → (t.get h).role = .leaf sym → (t.get h).weight = n sym
  unseen : ∀ sym : Symbol, t.seen.getLsbD sym.toNat = false → n sym = 0

/-- The numbers of occurrences after one more `sym`. -/
def countOne (n : Symbol → Nat) (sym : Symbol) : Symbol → Nat := fun x => n x + if x = sym then 1 else 0

/-- Block ordering (R43): within one weight every Internal node has a lower rank than every leaf. -/
def Tree.BlockOrder (t : Tree) : Prop :=
  ∀ p h, t.has p → t.has h → (t.get p).weight = (t.get h).weight →
    (t.get p).role = .internal → (t.get h).role ≠ .internal → (t.get p).rank < (t.get h).rank

/-- What FGK keeps beyond R41, R42, R44: the Escape node's parent stands directly before its two children in rank.
The model's own strengthening: without it R42 is not kept from every tree that has it (log 10). -/
def Tree.EscapeParentLast (t : Tree) : Prop :=
  ∀ p, (t.get t.esc).parent = some p → (t.get p).rank + 2 = t.nodeCount.val

/-- What Vitter keeps beyond R41 to R44: parents stand in the rank order of their children. The model's own
strengthening: without it R42 is not kept from every tree that has R43 (log 10). -/
def Tree.ParentsInOrder (t : Tree) : Prop :=
  ∀ h h' p p', t.has h → t.has h' → (t.get h).parent = some p → (t.get h').parent = some p' →
    (t.get h).rank ≤ (t.get h').rank → (t.get p).rank ≤ (t.get p').rank

/-- A tree between two symbols of a stream: R41, R42, R44, and what the strategy keeps besides. -/
structure Tree.Coding (t : Tree) (strategy : Strategy) : Prop where
  wf : t.WellFormed
  siblings : t.SiblingProperty
  sums : t.WeightSums
  fgk : strategy = .fgk → t.EscapeParentLast
  vitterOrder : strategy = .vitter → t.BlockOrder
  vitterParents : strategy = .vitter → t.ParentsInOrder

/-- The canonical form of the table: an unallocated entry is blank, so that equal trees are equal data (log 1). -/
def Tree.Canonical (t : Tree) : Prop := ∀ h, ¬ t.has h → t.get h = Node.blank

/-- How many symbols are seen: the number of bits set in `SEEN` (R24). -/
def Tree.seenCount (t : Tree) : Nat := (List.range 256).countP (fun i => t.seen.getLsbD i)

/-- A node's position: the triple (parent, child side, rank) (glossary of 00_scope.md). -/
def Tree.position (t : Tree) (h : Handle) : Option Handle × Bool × Nat :=
  ((t.get h).parent, (t.get h).isLeft, (t.get h).rank)

/-- The tree after the first symbol of a stream: root, Leaf and Escape node (95_test_vectors.md F1, V1). -/
structure Tree.AfterFirst (t : Tree) (sym : Symbol) : Prop where
  count : t.nodeCount.val = 3
  esc : t.esc = 2
  seen : t.seen = setBit 0 sym.toNat true
  root : t.get 0 = { weight := 1, rank := 1, role := .internal, isLeft := false, parent := none,
                     left := some 1, right := some 2 }
  leaf : t.get 1 = { weight := 1, rank := 2, role := .leaf sym, isLeft := true, parent := some 0,
                     left := none, right := none }
  escape : t.get 2 = { weight := 0, rank := 3, role := .escape, isLeft := false, parent := some 0,
                       left := none, right := none }

/-! ### The state -/

/-- A stream is open or closed, and its tree valid (R32, R41: "whenever `STATE` is `ACTIVE` or `FLUSHED`"). -/
def State.live (s : State) : Prop := s.engine = .active ∨ s.engine = .flushed

/-- The tree is well formed whenever there is one (R41). -/
def State.TreeOk (s : State) : Prop := s.live → s.tree.WellFormed

/-- The tree is a coding tree of the stream's strategy whenever there is one (R41 to R44), and its root weight fits in
`WEIGHT_W` bits (R286). -/
def State.CodingOk (s : State) : Prop := s.live → s.tree.Coding s.strategy ∧ s.tree.rootWeight ≤ s.cfg.wmax

/-- `NODE_COUNT = 2k + 1` for `k` bits set in `SEEN` (R24), whenever there is a tree. -/
def State.CountOk (s : State) : Prop := s.live → s.tree.nodeCount.val = 2 * s.tree.seenCount + 1

/-- The buffered bits of an encoder: `CNT` is 0 to 7 and the bits of `ACC` below the buffered ones are zero (R28). -/
def State.BufferOk (s : State) : Prop := s.cnt.toNat < 8 ∧ ∀ i, i < 8 - s.cnt.toNat → s.acc.getLsbD i = false

/-- The control registers and the bit buffer (R28, R30, R32, R33). -/
structure State.ControlOk (s : State) : Prop where
  noFault : s.engine ≠ .faulted → s.faultCode = 0
  faulted : s.engine = .faulted → ∃ k : FaultKind, s.faultCode = k.code
  flushed : s.engine = .flushed → s.mode = .enc ∧ s.cnt = 0
  encoder : s.live → s.mode = .enc → s.BufferOk ∧ s.pendValid = false ∧ s.pendBit = false
  decoder : s.live → s.mode = .dec → s.cnt.toNat ≤ 8

/-! ### Legality -/

/-- The legality table of R263 outside `FAULTED`. -/
def legalNow (i : Instr) (s : State) : Bool :=
  match i with
  | .init _ _ => true
  | .encode _ => s.engine == .active && s.mode == .enc
  | .flush => s.engine == .active && s.mode == .enc
  | .decode => s.engine == .active && s.mode == .dec
  | .rdreg _ => true

/-- `ENCODE`, `FLUSH` and `DECODE`: the commands that are not legal in every state (R263). -/
def isStreamCommand : Instr → Bool
  | .init _ _ => false
  | .encode _ => true
  | .flush => true
  | .decode => true
  | .rdreg _ => false

/-- The status of the last response is 0: the command ended without a fault (R94, R95). -/
def State.succeeded (before after : State) : Prop :=
  ∃ data, after.responses = before.responses ++ [{ status := statusOk, data := data }]

/-! ### The bits of a stream -/

/-- The bits of bytes in stream order, most significant first (R64). -/
def byteBits (bytes : List Byte) : List Bool := bytes.flatMap symbolBits

/-- Every bit emitted: those of the sink, then the `CNT` buffered ones, `ACC[7 : 8-CNT]` (R28, R71). -/
def State.bitsOut (s : State) : List Bool := byteBits s.sink ++ (symbolBits s.acc).take s.cnt.toNat

/-- The bits the source still delivers through `getBitOpt`: `ACC[CNT-1 : 0]`, then the unread bytes (R28, R61). -/
def State.bitsAhead (s : State) : List Bool :=
  (symbolBits s.acc).drop (8 - s.cnt.toNat) ++ byteBits (s.src.drop s.srcPos)

/-- The bits the next `DECODE` starts from: the pending bit, if there is one, then those of the source (R30, R240). -/
def State.bitsLeft (s : State) : List Bool := (if s.pendValid then [s.pendBit] else []) ++ s.bitsAhead

/-! ### Runs -/

/-- Commands executed one after another (R262), if none of them stops the model. -/
def execAll : List Instr → State → Option State
  | [], s => some s
  | i :: rest, s =>
    match exec i s with
    | .next t => execAll rest t
    | .fault _ => none
    | .refused _ => none

/-- An encoding run (R324): `INIT ENC, s`; `ENCODE x_1 ... x_N`; `FLUSH`. -/
def encodingRun (strategy : Strategy) (input : List Symbol) : List Instr :=
  .init .enc strategy :: (input.map .encode ++ [.flush])

/-- A decoding run of count `N` (R324): `INIT DEC, s`; `DECODE` `N` times. -/
def decodingRun (strategy : Strategy) (count : Nat) : List Instr :=
  .init .dec strategy :: List.replicate count .decode

end Sys2Proof.Machine
end

