-- ==== Sys2Proof/Certificates/Slice0/Obligations.lean ====
section
/-! DEFINITION. The statements for the provers. Each docstring names the rules of spec/ it rests on. Where
a statement counts bytes, `BYTE_COUNT` grows modulo 2^64 (log 11). -/

open Sys2Proof Sys2Proof.Machine

/-! ### Encoding -/

/-- Words of spec/30_encoding.md R102 and R104 decode to the commands they are written for, and the illegal samples of
R93 and R104 are refused by name. -/
def Obligations.TableWordsDecode : Prop :=
  decode 0x1000 = .ok (.init .enc .fgk) ∧ decode 0x1001 = .ok (.init .dec .fgk) ∧
  decode 0x1002 = .ok (.init .enc .vitter) ∧ decode 0x1003 = .ok (.init .dec .vitter) ∧
  decode 0x2041 = .ok (.encode 0x41) ∧ decode 0x3000 = .ok .flush ∧ decode 0x4000 = .ok .decode ∧
  decode 0x5000 = .ok (.rdreg .status) ∧ decode 0x5001 = .ok (.rdreg .byteCount) ∧
  decode 0x5002 = .ok (.rdreg .symCount) ∧ decode 0x5003 = .ok (.rdreg .nodeCount) ∧
  decode 0x0000 = .error .noSuchOperation ∧ decode 0xFFFF = .error .noSuchOperation ∧
  decode 0x2141 = .error .reservedNonzero ∧ decode 0x1004 = .error .argNonzero ∧
  decode 0x3001 = .error .argNonzero ∧ decode 0x5004 = .error .argNonzero

/-- Decoding the word of a command gives the command back, with every operand at every value (R90 to R92). -/
def Obligations.DecodeOfEncode : Prop := ∀ i : Instr, decode (encode i) = .ok i

/-- A word that decodes is the word of the command it decodes to: no bit of it is ignored (R91, R92). -/
def Obligations.EncodeOfDecode : Prop := ∀ (c : CmdWord) (i : Instr), decode c = .ok i → encode i = c

/-- The words that decode are exactly those that match a row of R91's table, and the others are exactly those of R93's
list. -/
def Obligations.DecodeFollowsTheTable : Prop :=
  ∀ c : CmdWord,
    ((∃ i, decode c = .ok i) ↔ ∃ r ∈ opTable, c &&& r.mask = r.bits) ∧
    ((∃ e, decode c = .error e) ↔
      (c.op = 0 ∨ 6 ≤ c.op.toNat) ∨ c.rsv ≠ 0 ∨ ((c.op = 1 ∨ c.op = 5) ∧ c.argHigh ≠ 0) ∨
        ((c.op = 3 ∨ c.op = 4) ∧ c.arg ≠ 0))

/-! ### The step -/

/-- When a word stands at the head of the command channel, the step is `runWord` of it on the state whose channel has moved
past it, for every word. When the word decodes to `i`, that is `exec i`; when it decodes to nothing, the word is refused
in `FAULTED` with `(FAULT_CODE, 0)`, and raises `IllegalCommand` in every other state (R262, R264, R265). -/
def Obligations.StepRunsDecodedCommand : Prop :=
  ∀ (s : State) (c : CmdWord) (rest : List HostInput), s.channel = .command c :: rest →
    step s = runWord c { s with channel := rest } ∧
    (∀ i, decode c = .ok i → step s = exec i { s with channel := rest }) ∧
    (∀ e, decode c = .error e →
      (s.engine = .faulted →
        step s = .next { s with channel := rest, responses := s.responses ++ [{ status := s.faultCode, data := 0 }] }) ∧
      (s.engine ≠ .faulted →
        step s = .next { s with channel := rest, engine := .faulted, faultCode := 1,
                                responses := s.responses ++ [{ status := 1, data := 0 }] }))

/-- No step of the model stops: every host act in every state leads to a next state (R94, R262, R284). -/
def Obligations.StepNeverStops : Prop := ∀ s : State, ∃ t, step s = .next t

/-- Every command word is answered by exactly one response. `RDREG` and `INIT` answer status 0; any other word answers
either its success (status 0, and data 0 unless it is `DECODE`, whose data is a byte) or, in `FAULTED`, the fault code
and 0; and the status is one of R95's six (R94, R95). -/
def Obligations.OneResponsePerWord : Prop :=
  ∀ (s : State) (c : CmdWord), s.ControlOk →
    ∃ t r, runWord c s = .next t ∧ t.responses = s.responses ++ [r] ∧
      (r.status = statusOk ∨ ∃ k : FaultKind, r.status = k.code) ∧
      ((∃ reg, decode c = .ok (.rdreg reg)) → r.status = 0) ∧
      ((∃ m st, decode c = .ok (.init m st)) → r = { status := 0, data := 0 }) ∧
      ((∀ reg, decode c ≠ .ok (.rdreg reg)) → (∀ m st, decode c ≠ .ok (.init m st)) →
        (t.engine = .faulted ∧ r = { status := t.faultCode, data := 0 }) ∨
        (t.engine ≠ .faulted ∧ r.status = 0 ∧
          (decode c ≠ .ok .decode → r.data = 0) ∧ (decode c = .ok .decode → r.data.toNat < 256)))

/-- An illegal encoding, or a command not legal in the current state, raises `IllegalCommand` when `STATE` is not
`FAULTED`: `FAULTED`, code 1, response (1, 0), and nothing else of the state changes, so no byte is written or read
(R264; the legality table is R263). -/
def Obligations.IllegalCommandFaults : Prop :=
  ∀ (s : State) (c : CmdWord) (rest : List HostInput),
    s.channel = .command c :: rest → s.engine ≠ .faulted →
    ((∃ e, decode c = .error e) ∨ ∃ i, decode c = .ok i ∧ legalNow i s = false) →
    step s = .next { s with channel := rest, engine := .faulted, faultCode := 1,
                            responses := s.responses ++ [{ status := 1, data := 0 }] }

/-- In `FAULTED` every word but a well-formed `INIT` or `RDREG` is answered `(FAULT_CODE, 0)` and changes nothing else;
`RDREG` answers status 0 and leaves `STATE` and `FAULT_CODE`; `INIT` clears the fault and opens a fresh stream; hardware
reset clears the fault. A word that takes the engine into `FAULTED` leaves a fault's code in `FAULT_CODE` (R265). -/
def Obligations.FaultedRefuses : Prop :=
  (∀ (s t : State) (c : CmdWord), s.engine ≠ .faulted → runWord c s = .next t → t.engine = .faulted →
    ∃ k : FaultKind, t.faultCode = k.code ∧ t.responses = s.responses ++ [{ status := k.code, data := 0 }]) ∧
  ∀ (s : State) (c : CmdWord), s.engine = .faulted →
    (((∃ e, decode c = .error e) ∨ ∃ i, decode c = .ok i ∧ isStreamCommand i = true) →
      runWord c s = .next { s with responses := s.responses ++ [{ status := s.faultCode, data := 0 }] }) ∧
    (∀ reg, decode c = .ok (.rdreg reg) → ∃ t, runWord c s = .next t ∧ s.succeeded t ∧
      t.engine = .faulted ∧ t.faultCode = s.faultCode ∧ t.tree = s.tree ∧ t.sink = s.sink ∧ t.srcPos = s.srcPos) ∧
    (∀ m st, decode c = .ok (.init m st) → ∃ t, runWord c s = .next t ∧ s.succeeded t ∧
      t.engine = .active ∧ t.faultCode = 0 ∧ t.tree.nodeCount.val = 1 ∧ t.tree.seen = 0) ∧
    s.hardwareReset.engine = .uninit ∧ s.hardwareReset.faultCode = 0

/-- The complete list of state transitions (R266): what one word can do to `STATE`, hardware reset, and that attaching a
source or a sink does nothing to it. -/
def Obligations.StateTransitions : Prop :=
  (∀ (s t : State) (c : CmdWord), runWord c s = .next t →
    (∀ m st, decode c = .ok (.init m st) → t.engine = .active) ∧
    (∀ reg, decode c = .ok (.rdreg reg) → t.engine = s.engine) ∧
    ((∀ m st, decode c ≠ .ok (.init m st)) → (∀ reg, decode c ≠ .ok (.rdreg reg)) →
      match s.engine with
      | .uninit => t.engine = .faulted ∧ t.faultCode = 1
      | .flushed => t.engine = .faulted ∧ t.faultCode = 1
      | .faulted => t.engine = .faulted ∧ t.faultCode = s.faultCode
      | .active =>
        t.engine = .faulted ∨ (t.engine = .flushed ∧ decode c = .ok .flush) ∨
          (t.engine = .active ∧ ((∃ sym, decode c = .ok (.encode sym)) ∨ decode c = .ok .decode)))) ∧
  (∀ s : State, s.hardwareReset.engine = .uninit) ∧
  ∀ (s : State) (bytes : List Byte),
    (s.attachSource bytes).engine = s.engine ∧ (s.attachSink bytes).engine = s.engine

/-- What a raised fault does (R284): `FAULT_CODE` is the code, `STATE` is `FAULTED`, the response is (code, 0); no
byte in the sink before the command is withdrawn, and no byte consumed before it is given back. What the faulting command
itself wrote or consumed is `FaultKeepsByteAccesses`. -/
def Obligations.FaultEntry : Prop :=
  ∀ (c : CmdWord) (s t : State), runWord c s = .next t → s.engine ≠ .faulted → t.engine = .faulted →
    ∃ k : FaultKind, t.faultCode = k.code ∧ t.responses = s.responses ++ [{ status := k.code, data := 0 }] ∧
      s.sink <+: t.sink ∧ s.srcPos ≤ t.srcPos ∧ t.src = s.src

/-- The reset input between commands (R310, R46, R27): `UNINIT`, `FAULT_CODE` 0, no response, the byte streams and the
host's queue as they were. That `SEEN` is clear afterwards is the model's choice (log 1): R27 says that hardware reset
clears it, and R46 calls it unspecified. -/
def Obligations.HardwareResetStep : Prop :=
  ∀ (s : State) (rest : List HostInput), s.channel = .reset :: rest →
    ∃ t, step s = .next t ∧ t.engine = .uninit ∧ t.faultCode = 0 ∧ t.tree.seen = 0 ∧ t.responses = s.responses ∧
      t.sink = s.sink ∧ t.src = s.src ∧ t.srcPos = s.srcPos ∧ t.channel = rest ∧ t.cfg = s.cfg

/-- The reset input during a command (R310, R317), against the state `full` the whole command would have ended in: the
command is lost without a response; of the bytes it writes, exactly the first `done` are in the sink, and of those it
reads, exactly the first `done` are consumed (all of them, where it has no more than `done`). Here `done` is the number
of its byte accesses completed before the reset. -/
def Obligations.ResetDuringCommand : Prop :=
  ∀ (s : State) (c : CmdWord) (done : Nat) (rest : List HostInput), s.channel = .resetDuring c done :: rest →
    ∃ full t, runWord c { s with channel := rest } = .next full ∧ step s = .next t ∧
      s.sink <+: full.sink ∧ s.srcPos ≤ full.srcPos ∧
      t.sink = s.sink ++ (full.sink.drop s.sink.length).take done ∧
      t.srcPos = s.srcPos + min done (full.srcPos - s.srcPos) ∧ t.src = s.src ∧
      t.engine = .uninit ∧ t.faultCode = 0 ∧ t.responses = s.responses ∧ t.channel = rest ∧ t.cfg = s.cfg

/-! ### Reset -/

/-- What reset leaves: `STATE = UNINIT` and `FAULT_CODE = 0` (R46). -/
def Obligations.ResetState : Prop := State.reset.engine = .uninit ∧ State.reset.faultCode = 0

/-- The invariants of this file hold at reset. -/
def Obligations.ResetMeetsInvariants : Prop :=
  State.reset.ControlOk ∧ State.reset.TreeOk ∧ State.reset.CountOk ∧ State.reset.CodingOk

/-! ### INIT and RDREG -/

/-- `INIT` in every state: every element of R47's table, response (0, 0), the sink and the source not touched (R260,
R47). -/
def Obligations.InitResult : Prop :=
  ∀ (s : State) (m : Mode) (st : Strategy), ∃ t, exec (.init m st) s = .next t ∧
    t.tree.get root = { weight := 0, rank := 1, role := .escape, isLeft := false, parent := none,
                        left := none, right := none } ∧
    t.tree.nodeCount.val = 1 ∧ t.tree.esc = root ∧ t.tree.seen = 0 ∧ t.acc = 0 ∧ t.cnt = 0 ∧ t.byteCount = 0 ∧
    t.pendValid = false ∧ t.pendBit = false ∧ t.mode = m ∧ t.strategy = st ∧ t.faultCode = 0 ∧ t.engine = .active ∧
    t.responses = s.responses ++ [{ status := 0, data := 0 }] ∧
    t.sink = s.sink ∧ t.src = s.src ∧ t.srcPos = s.srcPos ∧ t.channel = s.channel ∧ t.cfg = s.cfg ∧
    t.freeCount = s.freeCount

/-- `INIT` leaves the engine in the same state whatever came before: two engines with the same parameters agree in every
register, `STATUS` and all, once each has executed the same `INIT` (R312). The unallocated entries of the table agree
too, which is the model's choice (log 1). -/
def Obligations.InitErasesThePast : Prop :=
  ∀ (s₁ s₂ t₁ t₂ : State) (m : Mode) (st : Strategy), s₁.cfg = s₂.cfg →
    exec (.init m st) s₁ = .next t₁ → exec (.init m st) s₂ = .next t₂ →
    t₁ = { t₂ with sink := t₁.sink, src := t₁.src, srcPos := t₁.srcPos, channel := t₁.channel,
                   responses := t₁.responses, freeCount := t₁.freeCount }

/-- `RDREG` while a stream is open or flushed: the response is (0, v), nothing else changes, and v is `STATUS` field by
field (R34), `BYTE_COUNT`, the root weight, or `NODE_COUNT` (R261, R35). While `PEND_VALID = 0` bit 13 of `STATUS` is left
open (U5); that it is the register's last value then too is the model's choice (log 7). -/
def Obligations.RdregValue : Prop :=
  ∀ (s : State) (reg : Reg), s.live → ∃ v : RegWord,
    exec (.rdreg reg) s = .next { s with responses := s.responses ++ [{ status := 0, data := v }] } ∧
    (reg = .status →
      v.extractLsb' 0 2 = s.engine.code ∧ v.getLsbD 2 = s.mode.toBit ∧ v.getLsbD 3 = s.strategy.toBit ∧
      v.extractLsb' 4 4 = s.faultCode ∧ v.extractLsb' 8 4 = s.cnt ∧ v.getLsbD 12 = s.pendValid ∧
      v.getLsbD 13 = s.pendBit ∧ v.extractLsb' 14 50 = 0) ∧
    (reg = .byteCount → v = s.byteCount) ∧
    (reg = .symCount → s.tree.rootWeight < 2 ^ 64 → v.toNat = s.tree.rootWeight) ∧
    (reg = .nodeCount → v.toNat = s.tree.nodeCount.val)

/-- `RDREG` in `UNINIT` and `FAULTED`: status 0, and of `STATUS` only `STATE` and `FAULT_CODE` are specified; no state of
the engine changes (R261, R34, R35, R267). The other bits are a free value (log 2): nothing is said of them. -/
def Obligations.RdregUnspecified : Prop :=
  ∀ (s : State) (reg : Reg), ¬ s.live → ∃ v n,
    exec (.rdreg reg) s = .next { s with responses := s.responses ++ [{ status := 0, data := v }], freeCount := n } ∧
    (reg = .status → v.extractLsb' 0 2 = s.engine.code ∧ v.extractLsb' 4 4 = s.faultCode)

/-! ### The bit stream -/

/-- Bits put are the bits emitted, most significant first (R120, R64): the emitted sequence grows by exactly them, and
the buffer keeps its form (R28). -/
def Obligations.PutBitsEmits : Prop :=
  ∀ (s : State) (bits : List Bool), s.BufferOk →
    (putBits s bits).bitsOut = s.bitsOut ++ bits ∧ (putBits s bits).BufferOk

/-- `putSymbol` emits the symbol most significant bit first, completes exactly one byte write and leaves the number of
buffered bits as it was (R124). -/
def Obligations.PutSymbolWritesOneByte : Prop :=
  ∀ (s : State) (sym : Symbol), s.BufferOk →
    (putSymbol s sym).bitsOut = s.bitsOut ++ symbolBits sym ∧ (putSymbol s sym).cnt = s.cnt ∧
    (∃ b, (putSymbol s sym).sink = s.sink ++ [b]) ∧ (putSymbol s sym).byteCount = s.byteCount + 1

/-- `flushBits` completes the last byte with zero bits, writes nothing when no bit is buffered, and empties the buffer
(R121, R98). -/
def Obligations.FlushBitsPads : Prop :=
  ∀ s : State, s.BufferOk →
    (s.cnt = 0 → flushBits s = s) ∧
    (s.cnt ≠ 0 → flushBits s = { s with sink := s.sink ++ [s.acc], byteCount := s.byteCount + 1, acc := 0, cnt := 0 }) ∧
    byteBits (flushBits s).sink = s.bitsOut ++ List.replicate ((8 - s.cnt.toNat) % 8) false ∧
    (flushBits s).acc = 0 ∧ (flushBits s).cnt = 0

/-- `getBitOpt` answers `Eos` with no state change exactly when no bit is left; else it delivers the next bit, most
significant first, and moves past it. With `CNT = 0` it reads and counts one byte into `ACC` first; otherwise it touches
`CNT` alone (R122, R61). -/
def Obligations.GetBitDelivers : Prop :=
  ∀ s : State, s.cnt.toNat ≤ 8 →
    (s.bitsAhead = [] → getBitOpt s = (none, s)) ∧
    (∀ b rest, s.bitsAhead = b :: rest → ∃ t, getBitOpt s = (some b, t) ∧ t.bitsAhead = rest ∧ t.cnt.toNat ≤ 7) ∧
    (∀ byte, s.cnt = 0 → s.src[s.srcPos]? = some byte →
      getBitOpt s = (some (byte.getLsbD 7),
        { s with acc := byte, cnt := 7, srcPos := s.srcPos + 1, byteCount := s.byteCount + 1 })) ∧
    (∀ n, s.cnt.toNat = n + 1 → getBitOpt s = (some (s.acc.getLsbD n), { s with cnt := BitVec.ofNat 4 n }))

/-! ### The tree -/

/-- `introduce` of an unseen symbol: the Escape node becomes Internal in place and keeps its position and weight; its
left child is the new Leaf, its right child the new Escape node, of the next two handles and ranks; every other node is
unchanged. A symbol already seen is refused as `InvariantViolation`; two more nodes that do not fit as
`AllocationFailure` (R145). -/
def Obligations.IntroduceResult : Prop :=
  (∀ (t : Tree) (sym : Symbol), t.seen.getLsbD sym.toNat = true → introduce t sym = .error .invariantViolation) ∧
  (∀ (t : Tree) (sym : Symbol), t.seen.getLsbD sym.toNat = false → 513 < t.nodeCount.val + 2 →
    introduce t sym = .error .allocationFailure) ∧
  ∀ (t : Tree) (sym : Symbol), t.seen.getLsbD sym.toNat = false → t.nodeCount.val + 2 ≤ 513 → t.has t.esc →
    ∃ (u : Tree) (lf e : Handle), introduce t sym = .ok (u, lf) ∧
      lf.val = t.nodeCount.val ∧ e.val = t.nodeCount.val + 1 ∧
      u.nodeCount.val = t.nodeCount.val + 2 ∧ u.esc = e ∧
      (∀ x : Symbol, u.seen.getLsbD x.toNat = (t.seen.getLsbD x.toNat || x == sym)) ∧
      u.get t.esc = { t.get t.esc with role := .internal, left := some lf, right := some e } ∧
      u.get lf = { weight := 0, rank := t.nodeCount.val + 1, role := .leaf sym, isLeft := true,
                   parent := some t.esc, left := none, right := none } ∧
      u.get e = { weight := 0, rank := t.nodeCount.val + 2, role := .escape, isLeft := false,
                  parent := some t.esc, left := none, right := none } ∧
      ∀ h, h ≠ t.esc → h ≠ lf → h ≠ e → u.get h = t.get h

/-- `swapPositions` exchanges the positions of two nodes and nothing else: each takes the other's parent, side and rank,
every child slot that held one holds the other, and every weight and role is unchanged (R146). -/
def Obligations.SwapExchangesPositions : Prop :=
  ∀ (t u : Tree) (a b : Handle), t.WellFormed → t.has a → t.has b → swapPositions t a b = .ok u →
    u.position a = t.position b ∧ u.position b = t.position a ∧
    (∀ h, h ≠ a → h ≠ b → u.position h = t.position h) ∧
    (∀ h, (u.get h).weight = (t.get h).weight ∧ (u.get h).role = (t.get h).role) ∧
    (∀ p side, t.has p → u.child p side = (t.child p side).map (fun c => if c = a then b else if c = b then a else c)) ∧
    u.nodeCount = t.nodeCount ∧ u.esc = t.esc ∧ u.seen = t.seen

/-- `swapPositions` is refused exactly for a node with itself, for the root, and for a node with one of its ancestors
(R146), and the refusal is `InvariantViolation` (R283). The empty path covers `a = b`. -/
def Obligations.SwapGuards : Prop :=
  ∀ (t : Tree) (a b : Handle), t.WellFormed → t.has a → t.has b →
    ((a = root ∨ b = root ∨ (∃ path, t.walk a path = some b) ∨ (∃ path, t.walk b path = some a)) →
      swapPositions t a b = .error .invariantViolation) ∧
    (a ≠ root → b ≠ root → (∀ path, t.walk a path ≠ some b) → (∀ path, t.walk b path ≠ some a) →
      ∃ u, swapPositions t a b = .ok u)

/-- The path code of every node of a well-formed tree exists, has at most 256 bits, and leads from the root to the node,
left by 0 and right by 1 (R144, R100). -/
def Obligations.PathLeadsToTheNode : Prop :=
  ∀ (t : Tree) (h : Handle), t.WellFormed → t.has h →
    ∃ path, pathTo t h = .ok path ∧ path.length ≤ 256 ∧ t.walk root path = some h

/-- The path codes of the leaves are prefix-free and complete: no leaf's code begins another's, and every sequence of
256 bits begins with some leaf's code (R100). -/
def Obligations.LeafCodesPrefixFreeAndComplete : Prop :=
  ∀ t : Tree, t.WellFormed →
    (∀ h h' path more, t.has h → t.has h' → (t.get h).role ≠ .internal → t.walk root path = some h →
      t.walk root (path ++ more) = some h' → more = [] ∧ h = h') ∧
    (∀ bits : List Bool, 256 ≤ bits.length →
      ∃ path rest h, bits = path ++ rest ∧ t.walk root path = some h ∧ t.has h ∧ (t.get h).role ≠ .internal)

/-- The net effect of a slide (R199): `p` takes the position of rank `top`, every block member the position of the next
higher rank, no other node's position changes, and every node keeps its weight and role. -/
def Obligations.SlideNetEffect : Prop :=
  ∀ (t u : Tree) (p : Handle) (top : Nat), t.WellFormed → t.has p → 2 ≤ top → top ≤ (t.get p).rank →
    slide t p top = .ok u →
    (∀ m, t.has m → (t.get m).rank = top → u.position p = t.position m) ∧
    (∀ h m, t.has h → t.has m → top ≤ (t.get h).rank → (t.get h).rank < (t.get p).rank →
      (t.get m).rank = (t.get h).rank + 1 → u.position h = t.position m) ∧
    (∀ h, t.has h → (t.get h).rank < top ∨ (t.get p).rank < (t.get h).rank → u.position h = t.position h) ∧
    (∀ h, (u.get h).weight = (t.get h).weight ∧ (u.get h).role = (t.get h).role)

/-- The sibling of the Escape node is a Leaf (R45). -/
def Obligations.EscapeSiblingIsLeaf : Prop :=
  ∀ t : Tree, t.WellFormed → t.SiblingProperty → 1 < t.nodeCount.val →
    ∃ x sym, sibling t t.esc = some x ∧ t.has x ∧ (t.get x).role = .leaf sym

/-! ### The update strategies -/

/-- The FGK update of the located node completes on every coding tree whose root weight is below `WMAX`, and leaves a
coding tree whose root weight is one more (R170 to R174, R41, R42, R44). The clause on the Escape node's parent is the
model's own (log 10). -/
def Obligations.FgkUpdateKeepsCoding : Prop :=
  ∀ (wmax : Nat) (t : Tree) (h : Handle) (sym : Symbol),
    t.Coding .fgk → t.rootWeight < wmax → locate t sym = .ok h →
    ∃ u, update .fgk wmax t h sym = .ok u ∧ u.Coding .fgk ∧ u.rootWeight = t.rootWeight + 1

/-- The Vitter update of the located node completes on every coding tree whose root weight is below `WMAX`, and leaves
a coding tree whose root weight is one more (R190 to R200, R41 to R44). The clause on the order of the parents is the
model's own (log 10). -/
def Obligations.VitterUpdateKeepsCoding : Prop :=
  ∀ (wmax : Nat) (t : Tree) (h : Handle) (sym : Symbol),
    t.Coding .vitter → t.rootWeight < wmax → locate t sym = .ok h →
    ∃ u, update .vitter wmax t h sym = .ok u ∧ u.Coding .vitter ∧ u.rootWeight = t.rootWeight + 1

/-! ### ENCODE and FLUSH -/

/-- What an `ENCODE` that ends without a fault did (R220, R222, R96): the path code of the located node, and after the
Escape path the raw symbol, are the bits emitted, on the tree as it stood; then the tree was updated. -/
def Obligations.EncodeResult : Prop :=
  ∀ (s t : State) (sym : Symbol), s.engine = .active → s.mode = .enc → s.BufferOk →
    exec (.encode sym) s = .next t → s.succeeded t →
    ∃ h path, locate s.tree sym = .ok h ∧ pathTo s.tree h = .ok path ∧
      t.bitsOut = s.bitsOut ++ path ++ (if h = s.tree.esc then symbolBits sym else []) ∧
      update s.strategy s.cfg.wmax s.tree h sym = .ok t.tree ∧
      t.responses = s.responses ++ [{ status := 0, data := 0 }] ∧ t.engine = .active ∧ t.BufferOk

/-- The first `ENCODE` of a stream completes for every symbol under either strategy: it writes exactly the symbol's byte
and leaves the three-node tree (R220). -/
def Obligations.EncodeFirstSymbol : Prop :=
  ∀ (s : State) (st : Strategy) (sym : Symbol), 1 ≤ s.cfg.weightW →
    ∃ t, exec (.encode sym) (s.openStream .enc st) = .next t ∧
      t.responses = s.responses ++ [{ status := 0, data := 0 }] ∧ t.engine = .active ∧
      t.sink = s.sink ++ [sym] ∧ t.acc = 0 ∧ t.cnt = 0 ∧ t.byteCount = 1 ∧ t.tree.AfterFirst sym

/-- `ENCODE` completes for every symbol in every encoder state with a coding tree whose root weight is below `WMAX`
(R220: "None but the first is reachable from a well-formed tree"): the next state is that of its own effect. The coding
tree carries one clause of the model's own per strategy (log 10). -/
def Obligations.EncodeCompletes : Prop :=
  ∀ (s : State) (sym : Symbol), s.engine = .active → s.mode = .enc → s.tree.Coding s.strategy → s.BufferOk →
    s.tree.rootWeight < s.cfg.wmax →
    ∃ h path u t, locate s.tree sym = .ok h ∧ pathTo s.tree h = .ok path ∧
      update s.strategy s.cfg.wmax s.tree h sym = .ok u ∧ u.Coding s.strategy ∧
      exec (.encode sym) s = .next t ∧ t.tree = u ∧ t.engine = .active ∧
      t.responses = s.responses ++ [{ status := 0, data := 0 }] ∧
      t.bitsOut = s.bitsOut ++ path ++ (if s.tree.seen.getLsbD sym.toNat then [] else symbolBits sym)

/-- One `ENCODE` emits 1 to 264 bits and writes 0 to 33 bytes, each counted (R222, R67, R29). -/
def Obligations.EncodeBounds : Prop :=
  ∀ (s t : State) (sym : Symbol), s.engine = .active → s.mode = .enc → s.BufferOk → s.tree.WellFormed →
    exec (.encode sym) s = .next t → s.succeeded t →
    (∃ code, t.bitsOut = s.bitsOut ++ code ∧ 1 ≤ code.length ∧ code.length ≤ 264) ∧
    (∃ bytes, t.sink = s.sink ++ bytes ∧ bytes.length ≤ 33 ∧ t.byteCount = s.byteCount + BitVec.ofNat 64 bytes.length)

/-- What `ENCODE` leaves unchanged, whatever it ends in (R220, R224): the pending bit, the direction and strategy, the
source and its position; the sink's bytes stay and only grow, each byte counted; one response is added; `STATE` unless a fault is raised; and
for a symbol already seen the node count, `ESC`, `SEEN` and every node's role. -/
def Obligations.EncodeFrame : Prop :=
  ∀ (s t : State) (sym : Symbol), exec (.encode sym) s = .next t →
    t.pendValid = s.pendValid ∧ t.pendBit = s.pendBit ∧ t.mode = s.mode ∧ t.strategy = s.strategy ∧
    t.src = s.src ∧ t.srcPos = s.srcPos ∧ t.cfg = s.cfg ∧ t.channel = s.channel ∧ t.freeCount = s.freeCount ∧
    (∃ bytes, t.sink = s.sink ++ bytes ∧ t.byteCount = s.byteCount + BitVec.ofNat 64 bytes.length) ∧
    (∃ r, t.responses = s.responses ++ [r]) ∧
    (t.engine = s.engine ∧ t.faultCode = s.faultCode ∨ t.engine = .faulted) ∧
    (s.tree.seen.getLsbD sym.toNat = true → s.tree.WellFormed →
      t.tree.nodeCount = s.tree.nodeCount ∧ t.tree.esc = s.tree.esc ∧ t.tree.seen = s.tree.seen ∧
      ∀ h, (t.tree.get h).role = (s.tree.get h).role)

/-- `FLUSH` completes in every open encoder: the sink then holds every bit emitted, those still buffered too, padded
with zero bits to a whole byte, `STATE` is `FLUSHED`, and nothing but `ACC`, `CNT`, `BYTE_COUNT`, the sink and `STATE`
changes (R221, R98, R72). After it `ENCODE`, `FLUSH` and `DECODE` raise `IllegalCommand`. -/
def Obligations.FlushCompletes : Prop :=
  ∀ s : State, s.engine = .active → s.mode = .enc → s.BufferOk →
    ∃ t, exec .flush s = .next t ∧
      byteBits t.sink = s.bitsOut ++ List.replicate ((8 - s.cnt.toNat) % 8) false ∧
      (∃ bytes, t.sink = s.sink ++ bytes ∧ bytes.length ≤ 1 ∧
        t.byteCount = s.byteCount + BitVec.ofNat 64 bytes.length) ∧
      t = { s with acc := 0, cnt := 0, byteCount := t.byteCount, sink := t.sink, engine := .flushed,
                   responses := s.responses ++ [{ status := 0, data := 0 }] } ∧
      ∀ i, isStreamCommand i = true →
        exec i t = .next { t with engine := .faulted, faultCode := 1,
                                  responses := t.responses ++ [{ status := 1, data := 0 }] }

/-! ### DECODE -/

/-- What a `DECODE` that ends without a fault did (R240, R241, R245): it consumed exactly the path code of a node, and
at the Escape node 8 raw bits after it, returned that node's symbol, and updated the tree with it. -/
def Obligations.DecodeResult : Prop :=
  ∀ s t : State, s.engine = .active → s.mode = .dec → s.tree.WellFormed → s.cnt.toNat ≤ 8 →
    exec .decode s = .next t → s.succeeded t →
    ∃ h path sym, s.tree.walk root path = some h ∧ s.tree.has h ∧
      ((s.tree.get h).role = .leaf sym ∧ s.bitsLeft = path ++ t.bitsLeft ∨
        h = s.tree.esc ∧ s.bitsLeft = path ++ symbolBits sym ++ t.bitsLeft ∧ t.pendValid = false) ∧
      update s.strategy s.cfg.wmax s.tree h sym = .ok t.tree ∧
      t.responses = s.responses ++ [{ status := 0, data := sym.setWidth 64 }] ∧
      t.engine = .active ∧ t.cnt.toNat ≤ 8

/-- The first `DECODE` of a stream completes under either strategy whenever the source has a byte: that byte is the
symbol, and the tree is the three-node tree (R244). -/
def Obligations.DecodeFirstSymbol : Prop :=
  ∀ (s : State) (st : Strategy) (b : Byte), 1 ≤ s.cfg.weightW → s.src[s.srcPos]? = some b →
    ∃ t, exec .decode (s.openStream .dec st) = .next t ∧
      t.responses = s.responses ++ [{ status := 0, data := b.setWidth 64 }] ∧ t.engine = .active ∧
      t.srcPos = s.srcPos + 1 ∧ t.byteCount = 1 ∧ t.acc = b ∧ t.cnt = 0 ∧ t.pendValid = false ∧ t.tree.AfterFirst b

/-- `DECODE` completes in every decoder state with a coding tree whose root weight is below `WMAX`, when the bits left
begin with a Leaf's code, or with the Escape path and an unseen symbol: it returns the symbol, moves exactly past its
bits and updates the tree (R240, R241, R245). The coding tree carries one clause of the model's own per strategy
(log 10). -/
def Obligations.DecodeCompletes : Prop :=
  ∀ (s : State) (h : Handle) (path rest : List Bool) (sym : Symbol),
    s.engine = .active → s.mode = .dec → s.tree.Coding s.strategy → s.cnt.toNat ≤ 8 →
    s.tree.rootWeight < s.cfg.wmax → s.tree.has h → s.tree.walk root path = some h →
    ((s.tree.get h).role = .leaf sym ∧ s.bitsLeft = path ++ rest ∨
      h = s.tree.esc ∧ s.tree.seen.getLsbD sym.toNat = false ∧ s.bitsLeft = path ++ symbolBits sym ++ rest) →
    ∃ u t, update s.strategy s.cfg.wmax s.tree h sym = .ok u ∧ u.Coding s.strategy ∧
      exec .decode s = .next t ∧ t.tree = u ∧ t.engine = .active ∧ t.bitsLeft = rest ∧
      t.responses = s.responses ++ [{ status := 0, data := sym.setWidth 64 }]

/-- `DECODE` raises `StreamExhausted` when the bits left end at an Internal node, or inside the raw bits after the
Escape path; then every byte of the source has been consumed and no symbol is delivered (R242, R282). That the tree is as
it was is R282's "the tree has not been updated". -/
def Obligations.DecodeExhausted : Prop :=
  ∀ s : State, s.engine = .active → s.mode = .dec → s.tree.WellFormed → s.cnt.toNat ≤ 8 →
    s.tree.rootWeight ≠ s.cfg.wmax →
    ((∃ x, s.tree.walk root s.bitsLeft = some x ∧ (s.tree.get x).role = .internal) ∨
      (∃ path raw, s.tree.walk root path = some s.tree.esc ∧ s.bitsLeft = path ++ raw ∧ raw.length < 8)) →
    ∃ t, exec .decode s = .next t ∧ t.engine = .faulted ∧ t.faultCode = 2 ∧
      t.responses = s.responses ++ [{ status := 2, data := 0 }] ∧ t.src.length ≤ t.srcPos ∧ t.tree = s.tree

/-- The Escape path followed by a symbol already seen raises `InvariantViolation` in the decoder (R145, R283, D34),
and the bytes consumed stay consumed (R240, R290): the source stands after the byte that holds the last raw bit, so that
of the bits left after the raw symbol only the whole bytes are still unread. -/
def Obligations.DecodeSeenSymbolFaults : Prop :=
  ∀ (s : State) (path rest : List Bool) (sym : Symbol), s.engine = .active → s.mode = .dec → s.tree.WellFormed →
    s.cnt.toNat ≤ 8 → s.tree.rootWeight ≠ s.cfg.wmax → s.tree.walk root path = some s.tree.esc →
    s.bitsLeft = path ++ symbolBits sym ++ rest → s.tree.seen.getLsbD sym.toNat = true →
    ∃ t, exec .decode s = .next t ∧ t.engine = .faulted ∧ t.faultCode = 3 ∧
      t.responses = s.responses ++ [{ status := 3, data := 0 }] ∧ t.src = s.src ∧
      (s.srcPos ≤ s.src.length → t.srcPos + rest.length / 8 = s.src.length)

/-- What `DECODE` leaves unchanged, whatever it ends in (R240): the sink, the direction and strategy, the source's bytes;
the source position only advances, by at most 33 bytes, each counted (R67, R29); one response is added; `STATE`
unless a fault is raised. -/
def Obligations.DecodeFrame : Prop :=
  ∀ s t : State, exec .decode s = .next t →
    t.sink = s.sink ∧ t.mode = s.mode ∧ t.strategy = s.strategy ∧ t.src = s.src ∧ t.cfg = s.cfg ∧
    t.channel = s.channel ∧ t.freeCount = s.freeCount ∧
    (∃ n, n ≤ 33 ∧ t.srcPos = s.srcPos + n ∧ t.byteCount = s.byteCount + BitVec.ofNat 64 n) ∧
    (∃ r, t.responses = s.responses ++ [r]) ∧
    (t.engine = s.engine ∧ t.faultCode = s.faultCode ∨ t.engine = .faulted)

/-- The weight pre-check: `ENCODE` and `DECODE` with the root weight at `WMAX` raise `WeightOverflow` before any bit is
emitted or read, and nothing else of the state changes (R286). -/
def Obligations.WeightOverflowPrecheck : Prop :=
  ∀ (s : State) (i : Instr), s.engine = .active → s.tree.rootWeight = s.cfg.wmax →
    ((∃ sym, i = .encode sym) ∧ s.mode = .enc ∨ i = .decode ∧ s.mode = .dec) →
    exec i s = .next { s with engine := .faulted, faultCode := 5,
                              responses := s.responses ++ [{ status := 5, data := 0 }] }

/-! ### The codec -/

/-- `DECODE` inverts `ENCODE`, one symbol: when a decoder holds the encoder's tree and its bits left begin with what a
successful `ENCODE` emitted, its `DECODE` returns that symbol, moves exactly past those bits, and ends with the
encoder's tree (R245, R149: "performing identical tree mutations after each symbol"). -/
def Obligations.DecodeInvertsEncode : Prop :=
  ∀ (e e' d : State) (sym : Symbol) (code rest : List Bool),
    e.engine = .active → e.mode = .enc → e.BufferOk → e.tree.WellFormed →
    d.engine = .active → d.mode = .dec → d.cnt.toNat ≤ 8 →
    d.tree = e.tree → d.strategy = e.strategy → d.cfg = e.cfg →
    exec (.encode sym) e = .next e' → e.succeeded e' →
    e'.bitsOut = e.bitsOut ++ code → d.bitsLeft = code ++ rest →
    ∃ d', exec .decode d = .next d' ∧ d'.responses = d.responses ++ [{ status := 0, data := sym.setWidth 64 }] ∧
      d'.tree = e'.tree ∧ d'.bitsLeft = rest ∧ d'.engine = .active ∧ d'.cnt.toNat ≤ 8

/-- The round trip (R245): for every input and either strategy, when an encoding run succeeds, decoding what it appended
to the sink with the input's length as count returns the input. -/
def Obligations.RoundTrip : Prop :=
  ∀ (st : Strategy) (input : List Symbol) (e e' d : State) (out : List Byte),
    execAll (encodingRun st input) e = some e' →
    (∀ r ∈ e'.responses.drop e.responses.length, r.status = 0) →
    e'.sink = e.sink ++ out → d.src = out → d.srcPos = 0 → d.cfg = e.cfg →
    ∃ d', execAll (decodingRun st input.length) d = some d' ∧
      d'.responses = d.responses ++ { status := 0, data := 0 } ::
        input.map (fun x => { status := 0, data := x.setWidth 64 })

/-- An encoding run of at most `WMAX` symbols succeeds from every state: every status is 0 (R324, R286). -/
def Obligations.EncodingRunSucceeds : Prop :=
  ∀ (st : Strategy) (input : List Symbol) (e : State), input.length ≤ e.cfg.wmax →
    ∃ e', execAll (encodingRun st input) e = some e' ∧
      e'.responses = e.responses ++ List.replicate (input.length + 2) { status := 0, data := 0 }

/-! ### Invariants -/

/-- Every step keeps the control registers and the bit buffer in form: `FAULT_CODE` is 0 unless `FAULTED` and then a
fault's code; `FLUSHED` only as an encoder, with nothing buffered; an encoder buffers 0 to 7 bits over zeros and holds no
pending bit; a decoder's `CNT` is at most 8 (R28, R30, R32, R33). -/
def Obligations.ControlInvariant : Prop := ∀ s t : State, s.ControlOk → step s = .next t → t.ControlOk

/-- Every step keeps the tree well formed (R41). -/
def Obligations.TreeInvariant : Prop := ∀ s t : State, s.TreeOk → step s = .next t → t.TreeOk

/-- Every step keeps `NODE_COUNT = 2k + 1` for `k` bits set in `SEEN` (R24). -/
def Obligations.CountInvariant : Prop := ∀ s t : State, s.CountOk → step s = .next t → t.CountOk

/-- Every step keeps the tree a coding tree of its strategy: R41, R42, R44, R43 under Vitter, and the model's own clause
per strategy (log 10). -/
def Obligations.CodingInvariant : Prop := ∀ s t : State, s.CodingOk → step s = .next t → t.CodingOk

/-- Every step keeps the table canonical: no step writes an unallocated entry. That unallocated entries are blank is the
model's choice (log 1). -/
def Obligations.CanonicalInvariant : Prop :=
  ∀ s t : State, s.TreeOk → (s.live → s.tree.Canonical) → step s = .next t → t.live → t.tree.Canonical

/-- `AllocationFailure` is never answered while the node count fits the seen symbols (R285, R145). -/
def Obligations.AllocationNeverFails : Prop :=
  ∀ (s t : State) (c : CmdWord), s.CountOk → s.engine ≠ .faulted → runWord c s = .next t →
    ∀ r, t.responses = s.responses ++ [r] → r.status ≠ FaultKind.allocationFailure.code

/-- Each successful `ENCODE` or `DECODE` advances `SYM_COUNT`, the root weight, by exactly one (R35, R173, R195). -/
def Obligations.SymbolCountAdvances : Prop :=
  ∀ (s t : State) (i : Instr), s.engine = .active → s.tree.WellFormed →
    ((∃ sym, i = .encode sym) ∨ i = .decode) → exec i s = .next t → s.succeeded t →
    t.tree.rootWeight = s.tree.rootWeight + 1

/-- `SEEN` bits never clear but by `INIT`: every other command keeps every bit that is set (R27). -/
def Obligations.SeenGrows : Prop :=
  ∀ (i : Instr) (s t : State) (x : Symbol), (∀ m st, i ≠ .init m st) → exec i s = .next t →
    s.tree.seen.getLsbD x.toNat = true → t.tree.seen.getLsbD x.toNat = true

/-- No step writes the parameters (R6): `WEIGHT_W` is fixed for the machine. The field is the model's (log 3). -/
def Obligations.ParametersFixed : Prop := ∀ s t : State, step s = .next t → t.cfg = s.cfg

/-! ### The weights of the Leaves -/

/-- A successful `ENCODE` of a symbol, or `DECODE` that returns it, adds one to the weight of that symbol's Leaf, which
starts at 0 with the symbol's first occurrence, and leaves the weight of every other Leaf (R44). -/
def Obligations.LeafWeightAdvances : Prop :=
  ∀ (s t : State) (n : Symbol → Nat) (sym : Symbol),
    s.engine = .active → s.tree.WellFormed → s.tree.LeafWeights n →
    (exec (.encode sym) s = .next t → s.succeeded t → t.tree.LeafWeights (countOne n sym)) ∧
    (exec .decode s = .next t → t.responses = s.responses ++ [{ status := 0, data := sym.setWidth 64 }] →
      t.tree.LeafWeights (countOne n sym))

/-- The weights count what was processed since `INIT` (R44), in an encoder and in a decoder, under either strategy: after
`INIT` and a list of symbols without a fault, the weight of every symbol's Leaf is the number of its occurrences in the
list, the weight of every Internal node is the sum of its children's, and the root's is the length of the list. -/
def Obligations.WeightsCountOccurrences : Prop :=
  (∀ (st : Strategy) (xs : List Symbol) (e e' : State),
    execAll (.init .enc st :: xs.map .encode) e = some e' →
    (∀ r ∈ e'.responses.drop e.responses.length, r.status = 0) →
    e'.tree.LeafWeights (fun x => xs.count x) ∧ e'.tree.WeightSums ∧ e'.tree.rootWeight = xs.length) ∧
  (∀ (st : Strategy) (xs : List Symbol) (d d' : State),
    execAll (decodingRun st xs.length) d = some d' →
    d'.responses = d.responses ++ { status := 0, data := 0 } :: xs.map (fun x => { status := 0, data := x.setWidth 64 }) →
    d'.tree.LeafWeights (fun x => xs.count x) ∧ d'.tree.WeightSums ∧ d'.tree.rootWeight = xs.length)

/-! ### What a faulting command did outside the engine -/

/-- Within a faulting command effects are not rolled back (R284, R290).
`ENCODE`: nothing was written when the pre-check, the search for the node or the path code raised the fault; when the
update raised it, the symbol's code had been emitted, and the sink holds every whole byte of it.
`DECODE`: nothing was consumed at the pre-check; every byte of the source was consumed at `StreamExhausted`; when the
update raised the fault, the code had been read, at a Leaf with one bit of lookahead if there was one, and the source
stands after the byte that holds the last bit read. -/
def Obligations.FaultKeepsByteAccesses : Prop :=
  (∀ (s t : State) (sym : Symbol), s.engine = .active → s.mode = .enc → s.BufferOk →
    exec (.encode sym) s = .next t → t.engine = .faulted →
    (s.tree.rootWeight = s.cfg.wmax ∧ t.faultCode = 5 ∧ t.sink = s.sink) ∨
    (s.tree.rootWeight ≠ s.cfg.wmax ∧ ∃ k : FaultKind, t.faultCode = k.code ∧
      ((locate s.tree sym = .error k ∧ t.sink = s.sink) ∨
        (∃ h, locate s.tree sym = .ok h ∧ pathTo s.tree h = .error k ∧ t.sink = s.sink) ∨
        ∃ h path tail, locate s.tree sym = .ok h ∧ pathTo s.tree h = .ok path ∧
          update s.strategy s.cfg.wmax s.tree h sym = .error k ∧ tail.length < 8 ∧
          s.bitsOut ++ path ++ (if h = s.tree.esc then symbolBits sym else []) = byteBits t.sink ++ tail))) ∧
  (∀ s t : State, s.engine = .active → s.mode = .dec → s.tree.WellFormed → s.cnt.toNat ≤ 8 → s.srcPos ≤ s.src.length →
    exec .decode s = .next t → t.engine = .faulted →
    (s.tree.rootWeight = s.cfg.wmax ∧ t.faultCode = 5 ∧ t.srcPos = s.srcPos) ∨
    (s.tree.rootWeight ≠ s.cfg.wmax ∧
      ((t.faultCode = 2 ∧ t.srcPos = s.src.length) ∨
        ∃ (k : FaultKind) (h : Handle) (path : List Bool) (sym : Symbol) (rest : List Bool),
          t.faultCode = k.code ∧ s.tree.has h ∧ s.tree.walk root path = some h ∧
          update s.strategy s.cfg.wmax s.tree h sym = .error k ∧
          (((s.tree.get h).role = .leaf sym ∧ s.bitsLeft = path ++ rest ∧
              t.srcPos + (rest.length - 1) / 8 = s.src.length) ∨
            (h = s.tree.esc ∧ s.bitsLeft = path ++ symbolBits sym ++ rest ∧
              t.srcPos + rest.length / 8 = s.src.length)))))
end

