-- ==== Sys2Proof/Laws/State.lean ====
section
/-! SUPPORT. One lemma per field per update of State, so that no proof unfolds a record update. -/

namespace Sys2Proof.Machine

variable (s : State)

/-! ### `State.respond` -/

@[simp] theorem State.respond_cfg (a : BitVec 4) (d : RegWord) : (s.respond a d).cfg = s.cfg := rfl
@[simp] theorem State.respond_tree (a : BitVec 4) (d : RegWord) : (s.respond a d).tree = s.tree := rfl
@[simp] theorem State.respond_acc (a : BitVec 4) (d : RegWord) : (s.respond a d).acc = s.acc := rfl
@[simp] theorem State.respond_cnt (a : BitVec 4) (d : RegWord) : (s.respond a d).cnt = s.cnt := rfl
@[simp] theorem State.respond_byteCount (a : BitVec 4) (d : RegWord) : (s.respond a d).byteCount = s.byteCount := rfl
@[simp] theorem State.respond_pendValid (a : BitVec 4) (d : RegWord) : (s.respond a d).pendValid = s.pendValid := rfl
@[simp] theorem State.respond_pendBit (a : BitVec 4) (d : RegWord) : (s.respond a d).pendBit = s.pendBit := rfl
@[simp] theorem State.respond_mode (a : BitVec 4) (d : RegWord) : (s.respond a d).mode = s.mode := rfl
@[simp] theorem State.respond_strategy (a : BitVec 4) (d : RegWord) : (s.respond a d).strategy = s.strategy := rfl
@[simp] theorem State.respond_engine (a : BitVec 4) (d : RegWord) : (s.respond a d).engine = s.engine := rfl
@[simp] theorem State.respond_faultCode (a : BitVec 4) (d : RegWord) : (s.respond a d).faultCode = s.faultCode := rfl
@[simp] theorem State.respond_sink (a : BitVec 4) (d : RegWord) : (s.respond a d).sink = s.sink := rfl
@[simp] theorem State.respond_src (a : BitVec 4) (d : RegWord) : (s.respond a d).src = s.src := rfl
@[simp] theorem State.respond_srcPos (a : BitVec 4) (d : RegWord) : (s.respond a d).srcPos = s.srcPos := rfl
@[simp] theorem State.respond_channel (a : BitVec 4) (d : RegWord) : (s.respond a d).channel = s.channel := rfl
@[simp] theorem State.respond_responses (a : BitVec 4) (d : RegWord) : (s.respond a d).responses = s.responses ++ [{ status := a, data := d }] := rfl
@[simp] theorem State.respond_freeCount (a : BitVec 4) (d : RegWord) : (s.respond a d).freeCount = s.freeCount := rfl

/-! ### `State.raiseFault` -/

@[simp] theorem State.raiseFault_cfg (k : FaultKind) : (s.raiseFault k).cfg = s.cfg := rfl
@[simp] theorem State.raiseFault_tree (k : FaultKind) : (s.raiseFault k).tree = s.tree := rfl
@[simp] theorem State.raiseFault_acc (k : FaultKind) : (s.raiseFault k).acc = s.acc := rfl
@[simp] theorem State.raiseFault_cnt (k : FaultKind) : (s.raiseFault k).cnt = s.cnt := rfl
@[simp] theorem State.raiseFault_byteCount (k : FaultKind) : (s.raiseFault k).byteCount = s.byteCount := rfl
@[simp] theorem State.raiseFault_pendValid (k : FaultKind) : (s.raiseFault k).pendValid = s.pendValid := rfl
@[simp] theorem State.raiseFault_pendBit (k : FaultKind) : (s.raiseFault k).pendBit = s.pendBit := rfl
@[simp] theorem State.raiseFault_mode (k : FaultKind) : (s.raiseFault k).mode = s.mode := rfl
@[simp] theorem State.raiseFault_strategy (k : FaultKind) : (s.raiseFault k).strategy = s.strategy := rfl
@[simp] theorem State.raiseFault_engine (k : FaultKind) : (s.raiseFault k).engine = .faulted := rfl
@[simp] theorem State.raiseFault_faultCode (k : FaultKind) : (s.raiseFault k).faultCode = k.code := rfl
@[simp] theorem State.raiseFault_sink (k : FaultKind) : (s.raiseFault k).sink = s.sink := rfl
@[simp] theorem State.raiseFault_src (k : FaultKind) : (s.raiseFault k).src = s.src := rfl
@[simp] theorem State.raiseFault_srcPos (k : FaultKind) : (s.raiseFault k).srcPos = s.srcPos := rfl
@[simp] theorem State.raiseFault_channel (k : FaultKind) : (s.raiseFault k).channel = s.channel := rfl
@[simp] theorem State.raiseFault_responses (k : FaultKind) : (s.raiseFault k).responses = s.responses ++ [{ status := k.code, data := 0 }] := rfl
@[simp] theorem State.raiseFault_freeCount (k : FaultKind) : (s.raiseFault k).freeCount = s.freeCount := rfl

/-! ### `State.refuse` -/

@[simp] theorem State.refuse_cfg : (s.refuse).cfg = s.cfg := rfl
@[simp] theorem State.refuse_tree : (s.refuse).tree = s.tree := rfl
@[simp] theorem State.refuse_acc : (s.refuse).acc = s.acc := rfl
@[simp] theorem State.refuse_cnt : (s.refuse).cnt = s.cnt := rfl
@[simp] theorem State.refuse_byteCount : (s.refuse).byteCount = s.byteCount := rfl
@[simp] theorem State.refuse_pendValid : (s.refuse).pendValid = s.pendValid := rfl
@[simp] theorem State.refuse_pendBit : (s.refuse).pendBit = s.pendBit := rfl
@[simp] theorem State.refuse_mode : (s.refuse).mode = s.mode := rfl
@[simp] theorem State.refuse_strategy : (s.refuse).strategy = s.strategy := rfl
@[simp] theorem State.refuse_engine : (s.refuse).engine = s.engine := rfl
@[simp] theorem State.refuse_faultCode : (s.refuse).faultCode = s.faultCode := rfl
@[simp] theorem State.refuse_sink : (s.refuse).sink = s.sink := rfl
@[simp] theorem State.refuse_src : (s.refuse).src = s.src := rfl
@[simp] theorem State.refuse_srcPos : (s.refuse).srcPos = s.srcPos := rfl
@[simp] theorem State.refuse_channel : (s.refuse).channel = s.channel := rfl
@[simp] theorem State.refuse_responses : (s.refuse).responses = s.responses ++ [{ status := s.faultCode, data := 0 }] := rfl
@[simp] theorem State.refuse_freeCount : (s.refuse).freeCount = s.freeCount := rfl

/-! ### `State.memWrite` -/

@[simp] theorem State.memWrite_cfg (b : Byte) : (s.memWrite b).cfg = s.cfg := rfl
@[simp] theorem State.memWrite_tree (b : Byte) : (s.memWrite b).tree = s.tree := rfl
@[simp] theorem State.memWrite_acc (b : Byte) : (s.memWrite b).acc = s.acc := rfl
@[simp] theorem State.memWrite_cnt (b : Byte) : (s.memWrite b).cnt = s.cnt := rfl
@[simp] theorem State.memWrite_byteCount (b : Byte) : (s.memWrite b).byteCount = s.byteCount + 1 := rfl
@[simp] theorem State.memWrite_pendValid (b : Byte) : (s.memWrite b).pendValid = s.pendValid := rfl
@[simp] theorem State.memWrite_pendBit (b : Byte) : (s.memWrite b).pendBit = s.pendBit := rfl
@[simp] theorem State.memWrite_mode (b : Byte) : (s.memWrite b).mode = s.mode := rfl
@[simp] theorem State.memWrite_strategy (b : Byte) : (s.memWrite b).strategy = s.strategy := rfl
@[simp] theorem State.memWrite_engine (b : Byte) : (s.memWrite b).engine = s.engine := rfl
@[simp] theorem State.memWrite_faultCode (b : Byte) : (s.memWrite b).faultCode = s.faultCode := rfl
@[simp] theorem State.memWrite_sink (b : Byte) : (s.memWrite b).sink = s.sink ++ [b] := rfl
@[simp] theorem State.memWrite_src (b : Byte) : (s.memWrite b).src = s.src := rfl
@[simp] theorem State.memWrite_srcPos (b : Byte) : (s.memWrite b).srcPos = s.srcPos := rfl
@[simp] theorem State.memWrite_channel (b : Byte) : (s.memWrite b).channel = s.channel := rfl
@[simp] theorem State.memWrite_responses (b : Byte) : (s.memWrite b).responses = s.responses := rfl
@[simp] theorem State.memWrite_freeCount (b : Byte) : (s.memWrite b).freeCount = s.freeCount := rfl

/-! ### `State.withTree` -/

@[simp] theorem State.withTree_cfg (t : Tree) : (s.withTree t).cfg = s.cfg := rfl
@[simp] theorem State.withTree_tree (t : Tree) : (s.withTree t).tree = t := rfl
@[simp] theorem State.withTree_acc (t : Tree) : (s.withTree t).acc = s.acc := rfl
@[simp] theorem State.withTree_cnt (t : Tree) : (s.withTree t).cnt = s.cnt := rfl
@[simp] theorem State.withTree_byteCount (t : Tree) : (s.withTree t).byteCount = s.byteCount := rfl
@[simp] theorem State.withTree_pendValid (t : Tree) : (s.withTree t).pendValid = s.pendValid := rfl
@[simp] theorem State.withTree_pendBit (t : Tree) : (s.withTree t).pendBit = s.pendBit := rfl
@[simp] theorem State.withTree_mode (t : Tree) : (s.withTree t).mode = s.mode := rfl
@[simp] theorem State.withTree_strategy (t : Tree) : (s.withTree t).strategy = s.strategy := rfl
@[simp] theorem State.withTree_engine (t : Tree) : (s.withTree t).engine = s.engine := rfl
@[simp] theorem State.withTree_faultCode (t : Tree) : (s.withTree t).faultCode = s.faultCode := rfl
@[simp] theorem State.withTree_sink (t : Tree) : (s.withTree t).sink = s.sink := rfl
@[simp] theorem State.withTree_src (t : Tree) : (s.withTree t).src = s.src := rfl
@[simp] theorem State.withTree_srcPos (t : Tree) : (s.withTree t).srcPos = s.srcPos := rfl
@[simp] theorem State.withTree_channel (t : Tree) : (s.withTree t).channel = s.channel := rfl
@[simp] theorem State.withTree_responses (t : Tree) : (s.withTree t).responses = s.responses := rfl
@[simp] theorem State.withTree_freeCount (t : Tree) : (s.withTree t).freeCount = s.freeCount := rfl

/-! ### `State.hardwareReset` -/

@[simp] theorem State.hardwareReset_cfg : (s.hardwareReset).cfg = s.cfg := rfl
@[simp] theorem State.hardwareReset_tree : (s.hardwareReset).tree = { s.tree with seen := 0 } := rfl
@[simp] theorem State.hardwareReset_acc : (s.hardwareReset).acc = s.acc := rfl
@[simp] theorem State.hardwareReset_cnt : (s.hardwareReset).cnt = s.cnt := rfl
@[simp] theorem State.hardwareReset_byteCount : (s.hardwareReset).byteCount = s.byteCount := rfl
@[simp] theorem State.hardwareReset_pendValid : (s.hardwareReset).pendValid = s.pendValid := rfl
@[simp] theorem State.hardwareReset_pendBit : (s.hardwareReset).pendBit = s.pendBit := rfl
@[simp] theorem State.hardwareReset_mode : (s.hardwareReset).mode = s.mode := rfl
@[simp] theorem State.hardwareReset_strategy : (s.hardwareReset).strategy = s.strategy := rfl
@[simp] theorem State.hardwareReset_engine : (s.hardwareReset).engine = .uninit := rfl
@[simp] theorem State.hardwareReset_faultCode : (s.hardwareReset).faultCode = 0 := rfl
@[simp] theorem State.hardwareReset_sink : (s.hardwareReset).sink = s.sink := rfl
@[simp] theorem State.hardwareReset_src : (s.hardwareReset).src = s.src := rfl
@[simp] theorem State.hardwareReset_srcPos : (s.hardwareReset).srcPos = s.srcPos := rfl
@[simp] theorem State.hardwareReset_channel : (s.hardwareReset).channel = s.channel := rfl
@[simp] theorem State.hardwareReset_responses : (s.hardwareReset).responses = s.responses := rfl
@[simp] theorem State.hardwareReset_freeCount : (s.hardwareReset).freeCount = s.freeCount := rfl

/-! ### `State.attachSource` -/

@[simp] theorem State.attachSource_cfg (l : List Byte) : (s.attachSource l).cfg = s.cfg := rfl
@[simp] theorem State.attachSource_tree (l : List Byte) : (s.attachSource l).tree = s.tree := rfl
@[simp] theorem State.attachSource_acc (l : List Byte) : (s.attachSource l).acc = s.acc := rfl
@[simp] theorem State.attachSource_cnt (l : List Byte) : (s.attachSource l).cnt = s.cnt := rfl
@[simp] theorem State.attachSource_byteCount (l : List Byte) : (s.attachSource l).byteCount = s.byteCount := rfl
@[simp] theorem State.attachSource_pendValid (l : List Byte) : (s.attachSource l).pendValid = s.pendValid := rfl
@[simp] theorem State.attachSource_pendBit (l : List Byte) : (s.attachSource l).pendBit = s.pendBit := rfl
@[simp] theorem State.attachSource_mode (l : List Byte) : (s.attachSource l).mode = s.mode := rfl
@[simp] theorem State.attachSource_strategy (l : List Byte) : (s.attachSource l).strategy = s.strategy := rfl
@[simp] theorem State.attachSource_engine (l : List Byte) : (s.attachSource l).engine = s.engine := rfl
@[simp] theorem State.attachSource_faultCode (l : List Byte) : (s.attachSource l).faultCode = s.faultCode := rfl
@[simp] theorem State.attachSource_sink (l : List Byte) : (s.attachSource l).sink = s.sink := rfl
@[simp] theorem State.attachSource_src (l : List Byte) : (s.attachSource l).src = l := rfl
@[simp] theorem State.attachSource_srcPos (l : List Byte) : (s.attachSource l).srcPos = 0 := rfl
@[simp] theorem State.attachSource_channel (l : List Byte) : (s.attachSource l).channel = s.channel := rfl
@[simp] theorem State.attachSource_responses (l : List Byte) : (s.attachSource l).responses = s.responses := rfl
@[simp] theorem State.attachSource_freeCount (l : List Byte) : (s.attachSource l).freeCount = s.freeCount := rfl

/-! ### `State.attachSink` -/

@[simp] theorem State.attachSink_cfg (l : List Byte) : (s.attachSink l).cfg = s.cfg := rfl
@[simp] theorem State.attachSink_tree (l : List Byte) : (s.attachSink l).tree = s.tree := rfl
@[simp] theorem State.attachSink_acc (l : List Byte) : (s.attachSink l).acc = s.acc := rfl
@[simp] theorem State.attachSink_cnt (l : List Byte) : (s.attachSink l).cnt = s.cnt := rfl
@[simp] theorem State.attachSink_byteCount (l : List Byte) : (s.attachSink l).byteCount = s.byteCount := rfl
@[simp] theorem State.attachSink_pendValid (l : List Byte) : (s.attachSink l).pendValid = s.pendValid := rfl
@[simp] theorem State.attachSink_pendBit (l : List Byte) : (s.attachSink l).pendBit = s.pendBit := rfl
@[simp] theorem State.attachSink_mode (l : List Byte) : (s.attachSink l).mode = s.mode := rfl
@[simp] theorem State.attachSink_strategy (l : List Byte) : (s.attachSink l).strategy = s.strategy := rfl
@[simp] theorem State.attachSink_engine (l : List Byte) : (s.attachSink l).engine = s.engine := rfl
@[simp] theorem State.attachSink_faultCode (l : List Byte) : (s.attachSink l).faultCode = s.faultCode := rfl
@[simp] theorem State.attachSink_sink (l : List Byte) : (s.attachSink l).sink = l := rfl
@[simp] theorem State.attachSink_src (l : List Byte) : (s.attachSink l).src = s.src := rfl
@[simp] theorem State.attachSink_srcPos (l : List Byte) : (s.attachSink l).srcPos = s.srcPos := rfl
@[simp] theorem State.attachSink_channel (l : List Byte) : (s.attachSink l).channel = s.channel := rfl
@[simp] theorem State.attachSink_responses (l : List Byte) : (s.attachSink l).responses = s.responses := rfl
@[simp] theorem State.attachSink_freeCount (l : List Byte) : (s.attachSink l).freeCount = s.freeCount := rfl

/-! ### `State.openStream` -/

@[simp] theorem State.openStream_cfg (m : Mode) (st : Strategy) : (s.openStream m st).cfg = s.cfg := rfl
@[simp] theorem State.openStream_tree (m : Mode) (st : Strategy) : (s.openStream m st).tree = Tree.fresh := rfl
@[simp] theorem State.openStream_acc (m : Mode) (st : Strategy) : (s.openStream m st).acc = 0 := rfl
@[simp] theorem State.openStream_cnt (m : Mode) (st : Strategy) : (s.openStream m st).cnt = 0 := rfl
@[simp] theorem State.openStream_byteCount (m : Mode) (st : Strategy) : (s.openStream m st).byteCount = 0 := rfl
@[simp] theorem State.openStream_pendValid (m : Mode) (st : Strategy) : (s.openStream m st).pendValid = false := rfl
@[simp] theorem State.openStream_pendBit (m : Mode) (st : Strategy) : (s.openStream m st).pendBit = false := rfl
@[simp] theorem State.openStream_mode (m : Mode) (st : Strategy) : (s.openStream m st).mode = m := rfl
@[simp] theorem State.openStream_strategy (m : Mode) (st : Strategy) : (s.openStream m st).strategy = st := rfl
@[simp] theorem State.openStream_engine (m : Mode) (st : Strategy) : (s.openStream m st).engine = .active := rfl
@[simp] theorem State.openStream_faultCode (m : Mode) (st : Strategy) : (s.openStream m st).faultCode = 0 := rfl
@[simp] theorem State.openStream_sink (m : Mode) (st : Strategy) : (s.openStream m st).sink = s.sink := rfl
@[simp] theorem State.openStream_src (m : Mode) (st : Strategy) : (s.openStream m st).src = s.src := rfl
@[simp] theorem State.openStream_srcPos (m : Mode) (st : Strategy) : (s.openStream m st).srcPos = s.srcPos := rfl
@[simp] theorem State.openStream_channel (m : Mode) (st : Strategy) : (s.openStream m st).channel = s.channel := rfl
@[simp] theorem State.openStream_responses (m : Mode) (st : Strategy) : (s.openStream m st).responses = s.responses := rfl
@[simp] theorem State.openStream_freeCount (m : Mode) (st : Strategy) : (s.openStream m st).freeCount = s.freeCount := rfl

/-! ### `State.cutByReset` -/

@[simp] theorem State.cutByReset_cfg (f : State) (n : Nat) : (s.cutByReset f n).cfg = s.cfg := rfl
@[simp] theorem State.cutByReset_tree (f : State) (n : Nat) : (s.cutByReset f n).tree = { s.tree with seen := 0 } := rfl
@[simp] theorem State.cutByReset_acc (f : State) (n : Nat) : (s.cutByReset f n).acc = s.acc := rfl
@[simp] theorem State.cutByReset_cnt (f : State) (n : Nat) : (s.cutByReset f n).cnt = s.cnt := rfl
@[simp] theorem State.cutByReset_byteCount (f : State) (n : Nat) : (s.cutByReset f n).byteCount = s.byteCount := rfl
@[simp] theorem State.cutByReset_pendValid (f : State) (n : Nat) : (s.cutByReset f n).pendValid = s.pendValid := rfl
@[simp] theorem State.cutByReset_pendBit (f : State) (n : Nat) : (s.cutByReset f n).pendBit = s.pendBit := rfl
@[simp] theorem State.cutByReset_mode (f : State) (n : Nat) : (s.cutByReset f n).mode = s.mode := rfl
@[simp] theorem State.cutByReset_strategy (f : State) (n : Nat) : (s.cutByReset f n).strategy = s.strategy := rfl
@[simp] theorem State.cutByReset_engine (f : State) (n : Nat) : (s.cutByReset f n).engine = .uninit := rfl
@[simp] theorem State.cutByReset_faultCode (f : State) (n : Nat) : (s.cutByReset f n).faultCode = 0 := rfl
@[simp] theorem State.cutByReset_sink (f : State) (n : Nat) : (s.cutByReset f n).sink = s.sink ++ (f.sink.drop s.sink.length).take n := rfl
@[simp] theorem State.cutByReset_src (f : State) (n : Nat) : (s.cutByReset f n).src = s.src := rfl
@[simp] theorem State.cutByReset_srcPos (f : State) (n : Nat) : (s.cutByReset f n).srcPos = s.srcPos + min n (f.srcPos - s.srcPos) := rfl
@[simp] theorem State.cutByReset_channel (f : State) (n : Nat) : (s.cutByReset f n).channel = s.channel := rfl
@[simp] theorem State.cutByReset_responses (f : State) (n : Nat) : (s.cutByReset f n).responses = s.responses := rfl
@[simp] theorem State.cutByReset_freeCount (f : State) (n : Nat) : (s.cutByReset f n).freeCount = s.freeCount := rfl

/-! ### `State.issueWord` -/

@[simp] theorem State.issueWord_cfg (w : Nat) : (s.issueWord w).cfg = s.cfg := rfl
@[simp] theorem State.issueWord_tree (w : Nat) : (s.issueWord w).tree = s.tree := rfl
@[simp] theorem State.issueWord_acc (w : Nat) : (s.issueWord w).acc = s.acc := rfl
@[simp] theorem State.issueWord_cnt (w : Nat) : (s.issueWord w).cnt = s.cnt := rfl
@[simp] theorem State.issueWord_byteCount (w : Nat) : (s.issueWord w).byteCount = s.byteCount := rfl
@[simp] theorem State.issueWord_pendValid (w : Nat) : (s.issueWord w).pendValid = s.pendValid := rfl
@[simp] theorem State.issueWord_pendBit (w : Nat) : (s.issueWord w).pendBit = s.pendBit := rfl
@[simp] theorem State.issueWord_mode (w : Nat) : (s.issueWord w).mode = s.mode := rfl
@[simp] theorem State.issueWord_strategy (w : Nat) : (s.issueWord w).strategy = s.strategy := rfl
@[simp] theorem State.issueWord_engine (w : Nat) : (s.issueWord w).engine = s.engine := rfl
@[simp] theorem State.issueWord_faultCode (w : Nat) : (s.issueWord w).faultCode = s.faultCode := rfl
@[simp] theorem State.issueWord_sink (w : Nat) : (s.issueWord w).sink = s.sink := rfl
@[simp] theorem State.issueWord_src (w : Nat) : (s.issueWord w).src = s.src := rfl
@[simp] theorem State.issueWord_srcPos (w : Nat) : (s.issueWord w).srcPos = s.srcPos := rfl
@[simp] theorem State.issueWord_channel (w : Nat) : (s.issueWord w).channel = .command (BitVec.ofNat 16 w) :: s.channel := rfl
@[simp] theorem State.issueWord_responses (w : Nat) : (s.issueWord w).responses = s.responses := rfl
@[simp] theorem State.issueWord_freeCount (w : Nat) : (s.issueWord w).freeCount = s.freeCount := rfl

end Sys2Proof.Machine
end

