-- ==== Sys2Proof/Laws/Bits.lean ====
section
/-! SUPPORT. What each BitStream operation can do (spec/40_bitstream.md): its frame, and the bit sequence it emits or
delivers. -/

namespace Sys2Proof.Machine

/-- `v[i] <- b` writes bit `i` and no other. -/
theorem getLsbD_setBit {n : Nat} (v : BitVec n) (i j : Nat) (b : Bool) (hj : j < n) :
    (setBit v i b).getLsbD j = if j = i then b else v.getLsbD j := by
  unfold setBit
  by_cases h : j = i
  · subst h; cases b <;> simp [hj]
  · have : ¬ (i ≤ j ∧ j - i = 0) := by omega
    cases b <;> simp [hj, h] <;> omega

theorem symbolBits_length (b : Byte) : (symbolBits b).length = 8 := rfl

/-- The bits of a byte, by index: most significant first. -/
theorem symbolBits_getElem (b : Byte) (i : Nat) (hi : i < (symbolBits b).length) :
    (symbolBits b)[i] = b.getLsbD (7 - i) := by
  have : i < 8 := hi
  interval_cases i <;> rfl

theorem byteBits_append (x y : List Byte) : byteBits (x ++ y) = byteBits x ++ byteBits y := by
  simp [byteBits]

theorem byteBits_singleton (b : Byte) : byteBits [b] = symbolBits b := by simp [byteBits]

theorem byteBits_cons (b : Byte) (x : List Byte) : byteBits (b :: x) = symbolBits b ++ byteBits x := by
  simp [byteBits]

theorem byteBits_length (x : List Byte) : (byteBits x).length = 8 * x.length := by
  induction x with
  | nil => rfl
  | cons b x ih => rw [byteBits_cons, List.length_append, symbolBits_length, ih, List.length_cons]; omega

/-! ### `putBit`, `putBits`, `flushBits` -/

/-- Everything `putBit` does while the byte is not full (R120). -/
theorem putBit_buffers (s : State) (b : Bool) (h : s.cnt.toNat < 7) :
    putBit s b = { s with acc := setBit s.acc (7 - s.cnt.toNat) b, cnt := s.cnt + 1 } := by
  have hne : ¬ s.cnt + 1 = 8 := by
    intro hc
    have : s.cnt = 7 := by bv_omega
    rw [this] at h; simp at h
  unfold putBit
  exact if_neg hne

/-- Everything `putBit` does when the bit completes a byte (R120). -/
theorem putBit_completes (s : State) (b : Bool) (h : s.cnt = 7) :
    putBit s b = { s.memWrite (setBit s.acc 0 b) with acc := 0, cnt := 0 } := by
  simp [putBit, h]

/-- `flushBits` with nothing buffered (R121). -/
theorem flushBits_empty (s : State) (h : s.cnt = 0) : flushBits s = s := by simp [flushBits, h]

/-- `flushBits` with a partial byte (R121). -/
theorem flushBits_partial (s : State) (h : s.cnt ≠ 0) :
    flushBits s = { s.memWrite s.acc with acc := 0, cnt := 0 } := if_pos h

@[simp] theorem putBit_cfg (s : State) (b : Bool) : (putBit s b).cfg = s.cfg := by
  simp only [putBit]; split <;> rfl
@[simp] theorem putBit_tree (s : State) (b : Bool) : (putBit s b).tree = s.tree := by
  simp only [putBit]; split <;> rfl
@[simp] theorem putBit_pendValid (s : State) (b : Bool) : (putBit s b).pendValid = s.pendValid := by
  simp only [putBit]; split <;> rfl
@[simp] theorem putBit_pendBit (s : State) (b : Bool) : (putBit s b).pendBit = s.pendBit := by
  simp only [putBit]; split <;> rfl
@[simp] theorem putBit_mode (s : State) (b : Bool) : (putBit s b).mode = s.mode := by
  simp only [putBit]; split <;> rfl
@[simp] theorem putBit_strategy (s : State) (b : Bool) : (putBit s b).strategy = s.strategy := by
  simp only [putBit]; split <;> rfl
@[simp] theorem putBit_engine (s : State) (b : Bool) : (putBit s b).engine = s.engine := by
  simp only [putBit]; split <;> rfl
@[simp] theorem putBit_faultCode (s : State) (b : Bool) : (putBit s b).faultCode = s.faultCode := by
  simp only [putBit]; split <;> rfl
@[simp] theorem putBit_src (s : State) (b : Bool) : (putBit s b).src = s.src := by
  simp only [putBit]; split <;> rfl
@[simp] theorem putBit_srcPos (s : State) (b : Bool) : (putBit s b).srcPos = s.srcPos := by
  simp only [putBit]; split <;> rfl
@[simp] theorem putBit_channel (s : State) (b : Bool) : (putBit s b).channel = s.channel := by
  simp only [putBit]; split <;> rfl
@[simp] theorem putBit_responses (s : State) (b : Bool) : (putBit s b).responses = s.responses := by
  simp only [putBit]; split <;> rfl
@[simp] theorem putBit_freeCount (s : State) (b : Bool) : (putBit s b).freeCount = s.freeCount := by
  simp only [putBit]; split <;> rfl

@[simp] theorem putBits_cfg (s : State) (l : List Bool) : (putBits s l).cfg = s.cfg := by
  induction l generalizing s with
  | nil => rfl
  | cons b l ih => simp [putBits, ih]
@[simp] theorem putBits_tree (s : State) (l : List Bool) : (putBits s l).tree = s.tree := by
  induction l generalizing s with
  | nil => rfl
  | cons b l ih => simp [putBits, ih]
@[simp] theorem putBits_pendValid (s : State) (l : List Bool) : (putBits s l).pendValid = s.pendValid := by
  induction l generalizing s with
  | nil => rfl
  | cons b l ih => simp [putBits, ih]
@[simp] theorem putBits_pendBit (s : State) (l : List Bool) : (putBits s l).pendBit = s.pendBit := by
  induction l generalizing s with
  | nil => rfl
  | cons b l ih => simp [putBits, ih]
@[simp] theorem putBits_mode (s : State) (l : List Bool) : (putBits s l).mode = s.mode := by
  induction l generalizing s with
  | nil => rfl
  | cons b l ih => simp [putBits, ih]
@[simp] theorem putBits_strategy (s : State) (l : List Bool) : (putBits s l).strategy = s.strategy := by
  induction l generalizing s with
  | nil => rfl
  | cons b l ih => simp [putBits, ih]
@[simp] theorem putBits_engine (s : State) (l : List Bool) : (putBits s l).engine = s.engine := by
  induction l generalizing s with
  | nil => rfl
  | cons b l ih => simp [putBits, ih]
@[simp] theorem putBits_faultCode (s : State) (l : List Bool) : (putBits s l).faultCode = s.faultCode := by
  induction l generalizing s with
  | nil => rfl
  | cons b l ih => simp [putBits, ih]
@[simp] theorem putBits_src (s : State) (l : List Bool) : (putBits s l).src = s.src := by
  induction l generalizing s with
  | nil => rfl
  | cons b l ih => simp [putBits, ih]
@[simp] theorem putBits_srcPos (s : State) (l : List Bool) : (putBits s l).srcPos = s.srcPos := by
  induction l generalizing s with
  | nil => rfl
  | cons b l ih => simp [putBits, ih]
@[simp] theorem putBits_channel (s : State) (l : List Bool) : (putBits s l).channel = s.channel := by
  induction l generalizing s with
  | nil => rfl
  | cons b l ih => simp [putBits, ih]
@[simp] theorem putBits_responses (s : State) (l : List Bool) : (putBits s l).responses = s.responses := by
  induction l generalizing s with
  | nil => rfl
  | cons b l ih => simp [putBits, ih]
@[simp] theorem putBits_freeCount (s : State) (l : List Bool) : (putBits s l).freeCount = s.freeCount := by
  induction l generalizing s with
  | nil => rfl
  | cons b l ih => simp [putBits, ih]

@[simp] theorem flushBits_cfg (s : State) : (flushBits s).cfg = s.cfg := by
  simp only [flushBits]; split <;> rfl
@[simp] theorem flushBits_tree (s : State) : (flushBits s).tree = s.tree := by
  simp only [flushBits]; split <;> rfl
@[simp] theorem flushBits_pendValid (s : State) : (flushBits s).pendValid = s.pendValid := by
  simp only [flushBits]; split <;> rfl
@[simp] theorem flushBits_pendBit (s : State) : (flushBits s).pendBit = s.pendBit := by
  simp only [flushBits]; split <;> rfl
@[simp] theorem flushBits_mode (s : State) : (flushBits s).mode = s.mode := by
  simp only [flushBits]; split <;> rfl
@[simp] theorem flushBits_strategy (s : State) : (flushBits s).strategy = s.strategy := by
  simp only [flushBits]; split <;> rfl
@[simp] theorem flushBits_engine (s : State) : (flushBits s).engine = s.engine := by
  simp only [flushBits]; split <;> rfl
@[simp] theorem flushBits_faultCode (s : State) : (flushBits s).faultCode = s.faultCode := by
  simp only [flushBits]; split <;> rfl
@[simp] theorem flushBits_src (s : State) : (flushBits s).src = s.src := by
  simp only [flushBits]; split <;> rfl
@[simp] theorem flushBits_srcPos (s : State) : (flushBits s).srcPos = s.srcPos := by
  simp only [flushBits]; split <;> rfl
@[simp] theorem flushBits_channel (s : State) : (flushBits s).channel = s.channel := by
  simp only [flushBits]; split <;> rfl
@[simp] theorem flushBits_responses (s : State) : (flushBits s).responses = s.responses := by
  simp only [flushBits]; split <;> rfl
@[simp] theorem flushBits_freeCount (s : State) : (flushBits s).freeCount = s.freeCount := by
  simp only [flushBits]; split <;> rfl

theorem putBits_append (s : State) (l m : List Bool) : putBits s (l ++ m) = putBits (putBits s l) m := by
  induction l generalizing s with
  | nil => rfl
  | cons b l ih => simp [putBits, ih]

/-- The sink only grows under `putBit`, by what `BYTE_COUNT` counts (R29, R62). -/
theorem putBit_sink (s : State) (b : Bool) :
    ∃ l, (putBit s b).sink = s.sink ++ l ∧ (putBit s b).byteCount = s.byteCount + BitVec.ofNat 64 l.length := by
  simp only [putBit]
  split
  · exact ⟨[_], rfl, rfl⟩
  · exact ⟨[], by simp, by simp⟩

/-- The sink only grows under `putBits`, by what `BYTE_COUNT` counts (R29, R62). -/
theorem putBits_sink (s : State) (bs : List Bool) :
    ∃ l, (putBits s bs).sink = s.sink ++ l ∧ (putBits s bs).byteCount = s.byteCount + BitVec.ofNat 64 l.length := by
  induction bs generalizing s with
  | nil => exact ⟨[], by simp [putBits], by simp [putBits]⟩
  | cons b bs ih =>
    obtain ⟨l, h1, h2⟩ := putBit_sink s b
    obtain ⟨m, h3, h4⟩ := ih (putBit s b)
    refine ⟨l ++ m, ?_, ?_⟩
    · simp [putBits, h3, h1]
    · simp [putBits, h4, h2, BitVec.add_assoc, BitVec.ofNat_add]

/-! ### `getBitOpt`, `getBit` -/

/-- `getBitOpt` with bits left in `ACC` (R122). -/
theorem getBitOpt_buffered (s : State) (h : s.cnt ≠ 0) :
    getBitOpt s = (some (s.acc.getLsbD (s.cnt - 1).toNat), { s with cnt := s.cnt - 1 }) := if_neg h

/-- `getBitOpt` at the end of data (R122): nothing changes. -/
theorem getBitOpt_eos (s : State) (h : s.cnt = 0) (hs : s.src.length ≤ s.srcPos) : getBitOpt s = (none, s) := by
  simp [getBitOpt, h, State.memRead, List.getElem?_eq_none hs]

/-- `getBitOpt` when a byte is fetched (R122, R61). -/
theorem getBitOpt_fetches (s : State) (h : s.cnt = 0) (hs : s.srcPos < s.src.length) :
    getBitOpt s = (some (s.src[s.srcPos].getLsbD 7),
      { s with acc := s.src[s.srcPos], cnt := 7, srcPos := s.srcPos + 1, byteCount := s.byteCount + 1 }) := by
  simp [getBitOpt, h, State.memRead, List.getElem?_eq_getElem hs, takeBit]

/-- One of the three things `getBitOpt` can do. -/
theorem getBitOpt_cases (s : State) :
    (s.cnt ≠ 0 ∧ getBitOpt s = (some (s.acc.getLsbD (s.cnt - 1).toNat), { s with cnt := s.cnt - 1 })) ∨
    (s.cnt = 0 ∧ s.src.length ≤ s.srcPos ∧ getBitOpt s = (none, s)) ∨
    (s.cnt = 0 ∧ ∃ hs : s.srcPos < s.src.length, getBitOpt s = (some (s.src[s.srcPos].getLsbD 7),
      { s with acc := s.src[s.srcPos], cnt := 7, srcPos := s.srcPos + 1, byteCount := s.byteCount + 1 })) := by
  by_cases h : s.cnt = 0
  · by_cases hs : s.srcPos < s.src.length
    · exact .inr (.inr ⟨h, hs, getBitOpt_fetches s h hs⟩)
    · exact .inr (.inl ⟨h, by omega, getBitOpt_eos s h (by omega)⟩)
  · exact .inl ⟨h, getBitOpt_buffered s h⟩

@[simp] theorem getBitOpt_cfg (s : State) : (getBitOpt s).2.cfg = s.cfg := by
  obtain ⟨_, h⟩ | ⟨_, _, h⟩ | ⟨_, _, h⟩ := getBitOpt_cases s <;> rw [h]
@[simp] theorem getBitOpt_tree (s : State) : (getBitOpt s).2.tree = s.tree := by
  obtain ⟨_, h⟩ | ⟨_, _, h⟩ | ⟨_, _, h⟩ := getBitOpt_cases s <;> rw [h]
@[simp] theorem getBitOpt_pendValid (s : State) : (getBitOpt s).2.pendValid = s.pendValid := by
  obtain ⟨_, h⟩ | ⟨_, _, h⟩ | ⟨_, _, h⟩ := getBitOpt_cases s <;> rw [h]
@[simp] theorem getBitOpt_pendBit (s : State) : (getBitOpt s).2.pendBit = s.pendBit := by
  obtain ⟨_, h⟩ | ⟨_, _, h⟩ | ⟨_, _, h⟩ := getBitOpt_cases s <;> rw [h]
@[simp] theorem getBitOpt_mode (s : State) : (getBitOpt s).2.mode = s.mode := by
  obtain ⟨_, h⟩ | ⟨_, _, h⟩ | ⟨_, _, h⟩ := getBitOpt_cases s <;> rw [h]
@[simp] theorem getBitOpt_strategy (s : State) : (getBitOpt s).2.strategy = s.strategy := by
  obtain ⟨_, h⟩ | ⟨_, _, h⟩ | ⟨_, _, h⟩ := getBitOpt_cases s <;> rw [h]
@[simp] theorem getBitOpt_engine (s : State) : (getBitOpt s).2.engine = s.engine := by
  obtain ⟨_, h⟩ | ⟨_, _, h⟩ | ⟨_, _, h⟩ := getBitOpt_cases s <;> rw [h]
@[simp] theorem getBitOpt_faultCode (s : State) : (getBitOpt s).2.faultCode = s.faultCode := by
  obtain ⟨_, h⟩ | ⟨_, _, h⟩ | ⟨_, _, h⟩ := getBitOpt_cases s <;> rw [h]
@[simp] theorem getBitOpt_sink (s : State) : (getBitOpt s).2.sink = s.sink := by
  obtain ⟨_, h⟩ | ⟨_, _, h⟩ | ⟨_, _, h⟩ := getBitOpt_cases s <;> rw [h]
@[simp] theorem getBitOpt_src (s : State) : (getBitOpt s).2.src = s.src := by
  obtain ⟨_, h⟩ | ⟨_, _, h⟩ | ⟨_, _, h⟩ := getBitOpt_cases s <;> rw [h]
@[simp] theorem getBitOpt_channel (s : State) : (getBitOpt s).2.channel = s.channel := by
  obtain ⟨_, h⟩ | ⟨_, _, h⟩ | ⟨_, _, h⟩ := getBitOpt_cases s <;> rw [h]
@[simp] theorem getBitOpt_responses (s : State) : (getBitOpt s).2.responses = s.responses := by
  obtain ⟨_, h⟩ | ⟨_, _, h⟩ | ⟨_, _, h⟩ := getBitOpt_cases s <;> rw [h]
@[simp] theorem getBitOpt_freeCount (s : State) : (getBitOpt s).2.freeCount = s.freeCount := by
  obtain ⟨_, h⟩ | ⟨_, _, h⟩ | ⟨_, _, h⟩ := getBitOpt_cases s <;> rw [h]

/-- `getBit` answers the bit `getBitOpt` delivers, or raises `StreamExhausted` with the state unchanged (R123). -/
theorem getBit_cases (s : State) :
    (∃ b, (getBitOpt s).1 = some b ∧ getBit s = .ok b (getBitOpt s).2) ∨
    ((getBitOpt s).1 = none ∧ getBit s = .raised .streamExhausted (getBitOpt s).2) := by
  unfold getBit
  rcases h : getBitOpt s with ⟨_ | b, t⟩ <;> simp

end Sys2Proof.Machine
end

