-- ==== Sys2Proof/Laws/Tree.lean ====
section
/-! SUPPORT. The node table: reading after writing, the allocated handles, and what each CodeTree operation answers
(spec/41_codetree.md R140 to R148). -/

namespace Sys2Proof.Machine

/-! ### Reading after writing -/

@[simp] theorem Tree.get_put_self (t : Tree) (h : Handle) (n : Node) : (t.put h n).get h = n := by
  simp [Tree.put, Tree.get]

theorem Tree.get_put_ne (t : Tree) {h x : Handle} (n : Node) (hx : x ≠ h) : (t.put h n).get x = t.get x := by
  have : h.val ≠ x.val := fun e => hx (Fin.ext e.symm)
  simp [Tree.put, Tree.get, Vector.getElem_set_ne, this]

theorem Tree.get_put (t : Tree) (h x : Handle) (n : Node) :
    (t.put h n).get x = if x = h then n else t.get x := by
  split
  · next e => subst e; simp
  · next e => exact t.get_put_ne n e

theorem Tree.get_modify (t : Tree) (h x : Handle) (f : Node → Node) :
    (t.modify h f).get x = if x = h then f (t.get h) else t.get x := t.get_put h x _

@[simp] theorem Tree.put_nodeCount (t : Tree) (h : Handle) (n : Node) : (t.put h n).nodeCount = t.nodeCount := rfl
@[simp] theorem Tree.put_esc (t : Tree) (h : Handle) (n : Node) : (t.put h n).esc = t.esc := rfl
@[simp] theorem Tree.put_seen (t : Tree) (h : Handle) (n : Node) : (t.put h n).seen = t.seen := rfl
@[simp] theorem Tree.modify_nodeCount (t : Tree) (h : Handle) (f : Node → Node) :
    (t.modify h f).nodeCount = t.nodeCount := rfl
@[simp] theorem Tree.modify_esc (t : Tree) (h : Handle) (f : Node → Node) : (t.modify h f).esc = t.esc := rfl
@[simp] theorem Tree.modify_seen (t : Tree) (h : Handle) (f : Node → Node) : (t.modify h f).seen = t.seen := rfl

/-- Two trees are equal when their entries and their three registers are. -/
theorem Tree.ext_get {t u : Tree} (hn : ∀ h, t.get h = u.get h) (hc : t.nodeCount = u.nodeCount)
    (he : t.esc = u.esc) (hs : t.seen = u.seen) : t = u := by
  cases t; cases u
  simp only [Tree.mk.injEq] at *
  refine ⟨?_, hc, he, hs⟩
  ext i hi : 1
  exact hn ⟨i, hi⟩

/-! ### The allocated handles -/

/-- The scan list holds exactly the allocated handles (R24). -/
theorem Tree.mem_allocated (t : Tree) (h : Handle) : h ∈ t.allocated ↔ t.has h := by
  simp only [Tree.allocated, Tree.has, List.mem_filterMap, List.mem_range]
  constructor
  · rintro ⟨i, hi, e⟩
    split at e
    · cases e; exact hi
    · cases e
  · intro hh
    exact ⟨h.val, hh, by simp [h.isLt]⟩

/-- A property of every allocated node, as a scan that `decide` runs. -/
theorem Tree.forall_has {t : Tree} {P : Handle → Prop} : (∀ h, t.has h → P h) ↔ ∀ h ∈ t.allocated, P h := by
  simp [Tree.mem_allocated]

/-- No handle stands twice in the scan list. -/
theorem Tree.allocated_nodup (t : Tree) : t.allocated.Nodup := by
  refine List.Nodup.filterMap ?_ List.nodup_range
  intro i j x hi hj
  simp only [Option.mem_def] at hi hj
  split at hi <;> split at hj <;> simp_all
  rw [← hj] at hi
  exact Fin.mk.inj_iff.mp hi

/-! ### Searches -/

theorem exactlyOne_ok {l : List Handle} {h : Handle} (e : exactlyOne l = .ok h) : l = [h] := by
  unfold exactlyOne at e
  split at e
  · cases e; rfl
  · cases e

/-- `nodeAtRank` answers the one allocated node of that rank (R140). -/
theorem nodeAtRank_ok_iff (t : Tree) (r : Nat) (h : Handle) :
    nodeAtRank t r = .ok h ↔ t.has h ∧ (t.get h).rank = r ∧ ∀ x, t.has x → (t.get x).rank = r → x = h := by
  unfold nodeAtRank
  constructor
  · intro e
    have hl := exactlyOne_ok e
    have hm : ∀ x, (t.has x ∧ (t.get x).rank = r) ↔ x = h := by
      intro x
      have := congrArg (x ∈ ·) hl
      simpa [Tree.mem_allocated] using this
    exact ⟨((hm h).2 rfl).1, ((hm h).2 rfl).2, fun x hx hr => (hm x).1 ⟨hx, hr⟩⟩
  · rintro ⟨hh, hr, hu⟩
    have hl : t.allocated.filter (fun x => (t.get x).rank == r) = [h] := by
      refine List.perm_singleton.mp ?_
      refine (List.perm_ext_iff_of_nodup (t.allocated_nodup.filter _) (List.nodup_singleton h)).mpr ?_
      intro x
      simp only [List.mem_filter, Tree.mem_allocated, beq_iff_eq, List.mem_singleton]
      exact ⟨fun ⟨hx, hxr⟩ => hu x hx hxr, fun e => e ▸ ⟨hh, hr⟩⟩
    rw [hl]; rfl

theorem Role.isLeafOf_iff (r : Role) (sym : Symbol) : r.isLeafOf sym = true ↔ r = .leaf sym := by
  cases r <;> simp [Role.isLeafOf]

/-- `locate` of a seen symbol answers its one Leaf (R143). -/
theorem locate_seen_ok_iff (t : Tree) (sym : Symbol) (h : Handle) (hs : t.seen.getLsbD sym.toNat = true) :
    locate t sym = .ok h ↔
      t.has h ∧ (t.get h).role = .leaf sym ∧ ∀ x, t.has x → (t.get x).role = .leaf sym → x = h := by
  unfold locate
  rw [if_pos hs]
  constructor
  · intro e
    have hl := exactlyOne_ok e
    have hm : ∀ x, (t.has x ∧ (t.get x).role = .leaf sym) ↔ x = h := by
      intro x
      have := congrArg (x ∈ ·) hl
      simpa [Tree.mem_allocated, Role.isLeafOf_iff] using this
    exact ⟨((hm h).2 rfl).1, ((hm h).2 rfl).2, fun x hx hr => (hm x).1 ⟨hx, hr⟩⟩
  · rintro ⟨hh, hr, hu⟩
    have hl : t.allocated.filter (fun x => (t.get x).role.isLeafOf sym) = [h] := by
      refine List.perm_singleton.mp ?_
      refine (List.perm_ext_iff_of_nodup (t.allocated_nodup.filter _) (List.nodup_singleton h)).mpr ?_
      intro x
      simp only [List.mem_filter, Tree.mem_allocated, Role.isLeafOf_iff, List.mem_singleton]
      exact ⟨fun ⟨hx, hxr⟩ => hu x hx hxr, fun e => e ▸ ⟨hh, hr⟩⟩
    rw [hl]; rfl

/-- `locate` of an unseen symbol answers the Escape node (R143). -/
theorem locate_unseen (t : Tree) (sym : Symbol) (hs : t.seen.getLsbD sym.toNat = false) :
    locate t sym = .ok t.esc := by simp [locate, hs]

/-- What a scan for the lowest rank ends with. -/
theorem foldl_lowerRank (t : Tree) (l : List Handle) (best : Option Handle) :
    match l.foldl (lowerRank t) best with
    | none => l = [] ∧ best = none
    | some h => (h ∈ l ∨ best = some h) ∧ (∀ x ∈ l, (t.get h).rank ≤ (t.get x).rank) ∧
        (∀ b, best = some b → (t.get h).rank ≤ (t.get b).rank) := by
  induction l generalizing best with
  | nil => cases best <;> simp
  | cons a l ih =>
    have h1 := ih (lowerRank t best a)
    rw [List.foldl_cons]
    split at h1
    · next e =>
      obtain ⟨_, hb⟩ := h1
      cases best <;> simp [lowerRank] at hb
      split at hb <;> simp at hb
    · next h e =>
      obtain ⟨hm, hl, hb⟩ := h1
      cases best with
      | none =>
        simp only [lowerRank, Option.some.injEq] at hm hb
        refine ⟨.inl ?_, ?_, by simp⟩
        · rcases hm with hm | hm <;> simp [hm]
        · simpa using ⟨hb a rfl, hl⟩
      | some b =>
        simp only [lowerRank] at hm hb
        split at hm <;> split at hb <;> simp_all
        · refine ⟨?_, ?_⟩
          · rcases hm with hm | hm <;> simp [hm]
          · omega
        · refine ⟨?_, ?_⟩
          · rcases hm with hm | hm <;> simp [hm]
          · omega

/-- `lowestRank` answers a candidate, and no candidate has a lower rank (R147). -/
theorem lowestRank_ok {t : Tree} {w : Nat} {leavesOnly : Bool} {h : Handle} (e : lowestRank t w leavesOnly = .ok h) :
    t.has h ∧ (t.get h).candidate w leavesOnly = true ∧
      ∀ x, t.has x → (t.get x).candidate w leavesOnly = true → (t.get h).rank ≤ (t.get x).rank := by
  unfold lowestRank at e
  have hf := foldl_lowerRank t (t.allocated.filter fun h => (t.get h).candidate w leavesOnly) none
  split at hf
  · next e1 => rw [e1] at e; simp [followed] at e
  · next x e1 =>
    rw [e1] at e
    simp only [followed, Except.ok.injEq] at e
    subst e
    simp only [List.mem_filter, Tree.mem_allocated, reduceCtorEq, or_false] at hf
    exact ⟨hf.1.1, hf.1.2, fun y hy hc => hf.2.1 y ⟨hy, hc⟩⟩

/-- `lowestRank` answers a handle whenever there is a candidate (R147). -/
theorem lowestRank_of_candidate {t : Tree} {w : Nat} {leavesOnly : Bool} {x : Handle} (hx : t.has x)
    (hc : (t.get x).candidate w leavesOnly = true) : ∃ h, lowestRank t w leavesOnly = .ok h := by
  unfold lowestRank
  have hf := foldl_lowerRank t (t.allocated.filter fun h => (t.get h).candidate w leavesOnly) none
  split at hf
  · have : x ∈ t.allocated.filter fun h => (t.get h).candidate w leavesOnly := by
      simp [Tree.mem_allocated, hx, hc]
    rw [hf.1] at this; simp at this
  · next h e1 => rw [e1]; exact ⟨h, rfl⟩

/-! ### Mutations -/

/-- `incWeight` adds one to one weight and changes nothing else (R148). -/
theorem incWeight_ok {wmax : Nat} {t u : Tree} {h : Handle} (e : incWeight wmax t h = .ok u) :
    (t.get h).weight ≠ wmax ∧ u = t.modify h (fun x => { x with weight := x.weight + 1 }) := by
  unfold incWeight at e
  split at e
  · cases e
  · next hw => cases e; exact ⟨hw, rfl⟩

/-- `swapPositions` answers only when its guards pass, and then exchanges the two positions (R146). -/
theorem swapPositions_ok {t u : Tree} {a b : Handle} (e : swapPositions t a b = .ok u) :
    a ≠ b ∧ ∃ pa pb, (t.get a).parent = some pa ∧ (t.get b).parent = some pb ∧
      isProperAncestor t a b = .ok false ∧ isProperAncestor t b a = .ok false ∧ u = exchange t a b pa pb := by
  unfold swapPositions at e
  split at e
  · cases e
  · next hab =>
    refine ⟨hab, ?_⟩
    split at e
    · next pa pb ha hb =>
      refine ⟨pa, pb, ha, hb, ?_⟩
      rcases h1 : isProperAncestor t a b with k | v
      · rw [h1] at e; cases e
      · rw [h1] at e
        cases v
        · rcases h2 : isProperAncestor t b a with k | v
          · rw [h2] at e; cases e
          · rw [h2] at e
            cases v
            · cases e; exact ⟨rfl, rfl, rfl⟩
            · cases e
        · cases e
    · cases e

/-- The guards of `swapPositions` are all it needs (R146). -/
theorem swapPositions_of_guards {t : Tree} {a b pa pb : Handle} (hab : a ≠ b) (ha : (t.get a).parent = some pa)
    (hb : (t.get b).parent = some pb) (h1 : isProperAncestor t a b = .ok false)
    (h2 : isProperAncestor t b a = .ok false) : swapPositions t a b = .ok (exchange t a b pa pb) := by
  simp only [swapPositions, if_neg hab, ha, hb, h1, h2]
  rfl

@[simp] theorem exchange_nodeCount (t : Tree) (a b pa pb : Handle) :
    (exchange t a b pa pb).nodeCount = t.nodeCount := rfl
@[simp] theorem exchange_esc (t : Tree) (a b pa pb : Handle) : (exchange t a b pa pb).esc = t.esc := rfl
@[simp] theorem exchange_seen (t : Tree) (a b pa pb : Handle) : (exchange t a b pa pb).seen = t.seen := rfl

/-- `introduce` answers only for an unseen symbol with room for two nodes (R145, R285). -/
theorem introduce_ok {t : Tree} {sym : Symbol} {r : Tree × Handle} (e : introduce t sym = .ok r) :
    t.seen.getLsbD sym.toNat = false ∧ t.nodeCount.val + 2 ≤ 513 ∧ r.2.val = t.nodeCount.val ∧
      r.1.nodeCount.val = t.nodeCount.val + 2 ∧ r.1.esc.val = t.nodeCount.val + 1 ∧
      r.1.seen = setBit t.seen sym.toNat true := by
  unfold introduce at e
  split at e
  · cases e
  · next hs =>
    split at e
    · next hc =>
      cases e
      exact ⟨by simpa using hs, hc, rfl, rfl, rfl, rfl⟩
    · cases e

end Sys2Proof.Machine
end

