-- ==== Sys2Proof/Laws/Walk.lean ====
section
/-! SUPPORT. Following child links (spec/30_encoding.md R100): the local link clauses of R41 make every path to a node
unique, and every node a path reaches is allocated. -/

namespace Sys2Proof.Machine

@[simp] theorem Tree.walk_nil (t : Tree) (h : Handle) : t.walk h [] = some h := rfl

theorem Tree.walk_cons (t : Tree) (h : Handle) (b : Bool) (bs : List Bool) :
    t.walk h (b :: bs) = (t.child h b).bind (fun c => t.walk c bs) := by
  simp only [Tree.walk]
  cases t.child h b <;> rfl

theorem Tree.walk_append (t : Tree) (h : Handle) (p q : List Bool) :
    t.walk h (p ++ q) = (t.walk h p).bind (fun c => t.walk c q) := by
  induction p generalizing h with
  | nil => rfl
  | cons b p ih =>
    rw [List.cons_append, Tree.walk_cons, Tree.walk_cons]
    cases t.child h b with
    | none => rfl
    | some c => exact ih c

theorem Tree.walk_snoc {t : Tree} {h x : Handle} {p : List Bool} {b : Bool} (e : t.walk h (p ++ [b]) = some x) :
    ∃ y, t.walk h p = some y ∧ t.child y b = some x := by
  rw [Tree.walk_append] at e
  cases hp : t.walk h p with
  | none => rw [hp] at e; cases e
  | some y =>
    rw [hp] at e
    simp only [Option.bind_some, Tree.walk_cons, Tree.walk_nil] at e
    cases hc : t.child y b with
    | none => rw [hc] at e; cases e
    | some c => rw [hc] at e; exact ⟨y, rfl, by simpa [hc] using e⟩

/-- The clauses of R41(b), (c) that speak of one node and its neighbours. -/
structure Tree.LocalLinks (t : Tree) : Prop where
  rootHas : t.has root
  rootParent : ∀ h, t.has h → ((t.get h).parent = none ↔ h = root)
  internal : ∀ p, t.has p → (t.get p).role = .internal →
    ∃ l r, (t.get p).left = some l ∧ (t.get p).right = some r ∧ l ≠ r ∧ t.has l ∧ t.has r ∧
      (t.get l).parent = some p ∧ (t.get l).isLeft = true ∧
      (t.get r).parent = some p ∧ (t.get r).isLeft = false
  childless : ∀ h, t.has h → (t.get h).role ≠ .internal → (t.get h).left = none ∧ (t.get h).right = none

/-- A child of an allocated node is allocated and points back; its parent is Internal (R41(c)). -/
theorem Tree.LocalLinks.child {t : Tree} (w : t.LocalLinks) {p c : Handle} {b : Bool} (hp : t.has p)
    (hc : t.child p b = some c) :
    t.has c ∧ (t.get c).parent = some p ∧ (t.get c).isLeft = !b ∧ (t.get p).role = .internal := by
  by_cases hi : (t.get p).role = .internal
  · obtain ⟨l, r, hl, hr, _, hla, hra, hlp, hli, hrp, hri⟩ := w.internal p hp hi
    cases b
    · simp only [Tree.child, hl, Bool.false_eq_true, if_false, Option.some.injEq] at hc
      subst hc; exact ⟨hla, hlp, hli, hi⟩
    · simp only [Tree.child, hr, if_true, Option.some.injEq] at hc
      subst hc; exact ⟨hra, hrp, hri, hi⟩
  · obtain ⟨hl, hr⟩ := w.childless p hp hi
    cases b <;> simp [Tree.child, hl, hr] at hc

/-- Every node a path reaches from an allocated node is allocated. -/
theorem Tree.LocalLinks.walk_has {t : Tree} (w : t.LocalLinks) {h x : Handle} (hh : t.has h) (p : List Bool)
    (e : t.walk h p = some x) : t.has x := by
  induction p generalizing h with
  | nil => cases e; exact hh
  | cons b p ih =>
    rw [Tree.walk_cons] at e
    cases hc : t.child h b with
    | none => rw [hc] at e; cases e
    | some c => rw [hc] at e; exact ih (w.child hh hc).1 e

/-- A node is reached from the root by one path only (R41(d)). -/
theorem Tree.LocalLinks.once {t : Tree} (w : t.LocalLinks) (p q : List Bool) (h : Handle)
    (hp : t.walk root p = some h) (hq : t.walk root q = some h) : p = q := by
  induction p using List.reverseRecOn generalizing q h with
  | nil =>
    cases hp
    induction q using List.reverseRecOn with
    | nil => rfl
    | append_singleton q b _ =>
      obtain ⟨y, hy, hc⟩ := Tree.walk_snoc hq
      have := (w.child (w.walk_has w.rootHas q hy) hc).2.1
      rw [(w.rootParent root w.rootHas).2 rfl] at this; cases this
  | append_singleton p a ih =>
    obtain ⟨x, hx, hxc⟩ := Tree.walk_snoc hp
    have hx' := w.child (w.walk_has w.rootHas p hx) hxc
    cases q using List.reverseRecOn with
    | nil =>
      cases hq
      rw [(w.rootParent root w.rootHas).2 rfl] at hx'; cases hx'.2.1
    | append_singleton q b =>
      obtain ⟨y, hy, hyc⟩ := Tree.walk_snoc hq
      have hy' := w.child (w.walk_has w.rootHas q hy) hyc
      have exy : x = y := Option.some.inj (hx'.2.1.symm.trans hy'.2.1)
      subst exy
      have : a = b := by simpa using hx'.2.2.1.symm.trans hy'.2.2.1
      rw [ih q x hx hy, this]

/-- The root is allocated whenever R41 holds. -/
theorem Tree.WellFormed.root_has {t : Tree} (w : t.WellFormed) : t.has root := by
  have := w.odd
  simp only [Tree.has, root]; omega

/-- R41 gives its local clauses. -/
theorem Tree.WellFormed.localLinks {t : Tree} (w : t.WellFormed) : t.LocalLinks :=
  { rootHas := w.root_has, rootParent := w.links.rootParent, internal := w.links.internal,
    childless := w.links.childless }

/-- A table write at an allocated handle keeps the canonical form. -/
theorem Tree.Canonical.put {t : Tree} (c : t.Canonical) {h : Handle} (hh : t.has h) (n : Node) :
    (t.put h n).Canonical := by
  intro x hx
  have hne : x ≠ h := fun e => hx (e ▸ hh)
  rw [t.get_put_ne n hne]
  exact c x hx

@[simp] theorem Tree.get_blank (h : Handle) : Tree.blank.get h = Node.blank := by
  simp [Tree.get, Tree.blank]

theorem Tree.get_fresh (h : Handle) : Tree.fresh.get h = if h = root then Node.freshRoot else Node.blank := by
  have : Tree.fresh.get h = (Tree.blank.put root Node.freshRoot).get h := rfl
  rw [this, Tree.get_put, Tree.get_blank]

/-- A blank table and the table of a fresh stream are canonical. -/
theorem Tree.canonical_blank : Tree.blank.Canonical := fun h _ => Tree.get_blank h

theorem Tree.canonical_fresh : Tree.fresh.Canonical := by
  intro h hh
  rw [Tree.get_fresh, if_neg]
  rintro rfl
  exact hh Nat.zero_lt_one

end Sys2Proof.Machine
end

