-- ==== Sys2Proof/Laws/Check.lean ====
section
/-! SUPPORT. A test of R41 to R44 that `decide` runs on one tree, and that what it accepts has the properties. The
witnesses of the tests use it. -/

namespace Sys2Proof.Machine

/-- R41(c) at one Internal node. -/
def Tree.checkInternal (t : Tree) (p : Handle) : Bool :=
  match (t.get p).left, (t.get p).right with
  | some l, some r =>
    l != r && decide (l.val < t.nodeCount.val) && decide (r.val < t.nodeCount.val) &&
      (t.get l).parent == some p && (t.get l).isLeft && (t.get r).parent == some p && !(t.get r).isLeft
  | _, _ => false

/-- R41(b), (c), (d) at one node. -/
def Tree.checkLinks (t : Tree) (h : Handle) : Bool :=
  ((t.get h).parent == none) == (h == root) &&
  (if (t.get h).role = .internal then t.checkInternal h else (t.get h).left == none && (t.get h).right == none) &&
  (match pathTo t h with
   | .ok p => t.walk root p == some h
   | .error _ => false)

/-- R41(e). -/
def Tree.checkEscape (t : Tree) : Bool :=
  decide (t.esc.val < t.nodeCount.val) && (t.get t.esc).role == .escape && (t.get t.esc).weight == 0 &&
  (t.get t.esc).rank == t.nodeCount.val && t.allocated.all (fun h => (t.get h).role != .escape || h == t.esc)

/-- R41(f). -/
def Tree.checkLeaves (t : Tree) : Bool :=
  (List.range 256).all (fun i =>
    t.seen.getLsbD i == t.allocated.any (fun h => (t.get h).role == .leaf (BitVec.ofNat 8 i))) &&
  t.allocated.all (fun h => t.allocated.all (fun h' =>
    h == h' || !(t.get h).role.isLeaf || (t.get h).role != (t.get h').role))

/-- R41(g). -/
def Tree.checkRanks (t : Tree) : Bool :=
  t.allocated.all (fun h => decide (1 ≤ (t.get h).rank) && decide ((t.get h).rank ≤ t.nodeCount.val)) &&
  t.allocated.all (fun h => t.allocated.all (fun h' => h == h' || (t.get h).rank != (t.get h').rank)) &&
  (List.range t.nodeCount.val).all (fun r => t.allocated.any (fun h => (t.get h).rank == r + 1)) &&
  (t.get root).rank == 1

/-- R41. -/
def Tree.checkWellFormed (t : Tree) : Bool :=
  t.nodeCount.val % 2 == 1 && t.allocated.all t.checkLinks && t.checkEscape && t.checkLeaves && t.checkRanks

/-- R42. -/
def Tree.checkSiblings (t : Tree) : Bool :=
  t.allocated.all fun h =>
    (t.allocated.all fun h' =>
      (decide ((t.get h').rank < (t.get h).rank) || decide ((t.get h').weight ≤ (t.get h).weight)) &&
      ((t.get h).rank == 0 || (t.get h).rank % 2 == 1 || (t.get h').rank != (t.get h).rank + 1 ||
        ((t.get h).parent == (t.get h').parent && (t.get h).isLeft && !(t.get h').isLeft))) &&
    (match (t.get h).parent with
     | none => true
     | some p => decide ((t.get p).rank < (t.get h).rank))

/-- R44. -/
def Tree.checkSums (t : Tree) : Bool :=
  t.allocated.all fun h =>
    (match (t.get h).left, (t.get h).right with
     | some l, some r => (t.get h).weight == (t.get l).weight + (t.get r).weight
     | _, _ => true) &&
    (h == t.esc || (t.get h).role == .internal || decide (1 ≤ (t.get h).weight))

/-- What FGK keeps besides. -/
def Tree.checkEscapeParent (t : Tree) : Bool :=
  match (t.get t.esc).parent with
  | none => true
  | some p => (t.get p).rank + 2 == t.nodeCount.val

/-- What Vitter keeps besides (R43 and the order of the parents). -/
def Tree.checkVitter (t : Tree) : Bool :=
  t.allocated.all fun p => t.allocated.all fun h =>
    ((t.get p).weight != (t.get h).weight || (t.get p).role != .internal || (t.get h).role == .internal ||
      decide ((t.get p).rank < (t.get h).rank)) &&
    (match (t.get p).parent, (t.get h).parent with
     | some a, some b => decide ((t.get h).rank < (t.get p).rank) || decide ((t.get a).rank ≤ (t.get b).rank)
     | _, _ => true)

/-- R41 to R44 and the strategy's own clauses. -/
def Tree.checkCoding (t : Tree) (st : Strategy) : Bool :=
  t.checkWellFormed && t.checkSiblings && t.checkSums &&
  (match st with
   | .fgk => t.checkEscapeParent
   | .vitter => t.checkVitter)

theorem Tree.checkLinks_sound {t : Tree} {h : Handle} (e : t.checkLinks h = true) :
    ((t.get h).parent = none ↔ h = root) ∧
    ((t.get h).role = .internal → ∃ l r, (t.get h).left = some l ∧ (t.get h).right = some r ∧ l ≠ r ∧ t.has l ∧
      t.has r ∧ (t.get l).parent = some h ∧ (t.get l).isLeft = true ∧
      (t.get r).parent = some h ∧ (t.get r).isLeft = false) ∧
    ((t.get h).role ≠ .internal → (t.get h).left = none ∧ (t.get h).right = none) ∧
    ∃ p, t.walk root p = some h := by
  unfold Tree.checkLinks at e
  simp only [Bool.and_eq_true] at e
  obtain ⟨⟨e1, e2⟩, e3⟩ := e
  refine ⟨?_, ?_, ?_, ?_⟩
  · have := beq_iff_eq.mp e1
    constructor
    · intro hn; rw [hn] at this; simpa using this.symm
    · intro hr; subst hr; simpa using this
  · intro hi
    rw [if_pos hi] at e2
    unfold Tree.checkInternal at e2
    split at e2
    · next l r hl hr =>
      simp only [Bool.and_eq_true, bne_iff_ne, decide_eq_true_eq, beq_iff_eq, Bool.not_eq_true'] at e2
      obtain ⟨⟨⟨⟨⟨⟨a1, a2⟩, a3⟩, a4⟩, a5⟩, a6⟩, a7⟩ := e2
      exact ⟨l, r, hl, hr, a1, a2, a3, a4, a5, a6, a7⟩
    · cases e2
  · intro hi
    rw [if_neg hi] at e2
    simpa using e2
  · split at e3
    · next p _ => exact ⟨p, by simpa using e3⟩
    · cases e3

theorem Tree.checkWellFormed_sound {t : Tree} (e : t.checkWellFormed = true) : t.WellFormed := by
  unfold Tree.checkWellFormed at e
  simp only [Bool.and_eq_true, beq_iff_eq, List.all_eq_true, Tree.mem_allocated] at e
  obtain ⟨⟨⟨⟨hodd, hl⟩, he⟩, hf⟩, hr⟩ := e
  have hl' := fun h hh => Tree.checkLinks_sound (hl h hh)
  have hroot : t.has root := by simp only [Tree.has, root]; omega
  have loc : t.LocalLinks := ⟨hroot, fun h hh => (hl' h hh).1, fun h hh => (hl' h hh).2.1, fun h hh => (hl' h hh).2.2.1⟩
  unfold Tree.checkEscape at he
  simp only [Bool.and_eq_true, beq_iff_eq, List.all_eq_true, Tree.mem_allocated, Bool.or_eq_true, bne_iff_ne,
    decide_eq_true_eq] at he
  obtain ⟨⟨⟨⟨e1, e2⟩, e3⟩, e4⟩, e5⟩ := he
  unfold Tree.checkLeaves at hf
  simp only [Bool.and_eq_true, beq_iff_eq, List.all_eq_true, Tree.mem_allocated, Bool.or_eq_true, bne_iff_ne,
    List.mem_range, Bool.not_eq_true'] at hf
  obtain ⟨f1, f2⟩ := hf
  unfold Tree.checkRanks at hr
  simp only [Bool.and_eq_true, beq_iff_eq, List.all_eq_true, List.any_eq_true, Tree.mem_allocated, Bool.or_eq_true,
    bne_iff_ne, List.mem_range, decide_eq_true_eq] at hr
  obtain ⟨⟨⟨g1, g2⟩, g3⟩, g4⟩ := hr
  refine ⟨hodd, ⟨loc.rootParent, loc.internal, loc.childless, fun h hh => (hl' h hh).2.2.2, loc.once⟩,
    ⟨e1, e2, e3, e4, fun h hh hr => (e5 h hh).resolve_left (fun hn => hn hr)⟩, ⟨?_, ?_⟩,
    ⟨g1, fun h h' hh hh' hr => (g2 h hh h' hh').resolve_right (fun hn => hn hr), ?_, g4⟩⟩
  · intro sym
    have := f1 sym.toNat sym.isLt
    rw [this]
    simp [List.any_eq_true, Tree.mem_allocated]
  · intro sym h h' hh hh' hr hr'
    rcases f2 h hh h' hh' with (h1 | h1) | h1
    · exact h1
    · rw [hr] at h1; simp [Role.isLeaf] at h1
    · exact absurd (hr.trans hr'.symm) h1
  · intro r h1 h2
    obtain ⟨h, hh, hr⟩ := g3 (r - 1) (by omega)
    exact ⟨h, hh, by omega⟩

theorem Tree.checkCoding_sound {t : Tree} {st : Strategy} (e : t.checkCoding st = true) : t.Coding st := by
  unfold Tree.checkCoding at e
  simp only [Bool.and_eq_true] at e
  obtain ⟨⟨⟨hw, hs⟩, hm⟩, hst⟩ := e
  unfold Tree.checkSiblings at hs
  simp only [List.all_eq_true, Tree.mem_allocated, Bool.and_eq_true, Bool.or_eq_true, decide_eq_true_eq, beq_iff_eq,
    bne_iff_ne, Bool.not_eq_true'] at hs
  unfold Tree.checkSums at hm
  simp only [List.all_eq_true, Tree.mem_allocated, Bool.and_eq_true, Bool.or_eq_true, decide_eq_true_eq,
    beq_iff_eq] at hm
  refine ⟨Tree.checkWellFormed_sound hw, ⟨?_, ?_, ?_⟩, ⟨?_, ?_⟩, ?_, ?_, ?_⟩
  · intro h h' hh hh' hr
    rcases ((hs h hh).1 h' hh').1 with h1 | h1
    · omega
    · exact h1
  · intro j h h' hj hh hh' hr hr'
    rcases ((hs h hh).1 h' hh').2 with ((h1 | h1) | h1) | h1
    · omega
    · omega
    · omega
    · exact ⟨h1.1.1, h1.1.2, h1.2⟩
  · intro h p hh hp
    have := (hs h hh).2
    rw [hp] at this
    simpa using this
  · intro p l r hp hl hr
    have := (hm p hp).1
    rw [hl, hr] at this
    simpa using this
  · intro h hh hne hro
    rcases (hm h hh).2 with (h1 | h1) | h1
    · exact absurd h1 hne
    · exact absurd h1 hro
    · exact h1
  · rintro rfl p hp
    simp only [Tree.checkEscapeParent, hp, beq_iff_eq] at hst
    exact hst
  · rintro rfl p h hp hh hw' hi hn
    simp only [Tree.checkVitter, List.all_eq_true, Tree.mem_allocated, Bool.and_eq_true, Bool.or_eq_true,
      decide_eq_true_eq, beq_iff_eq, bne_iff_ne] at hst
    rcases (hst p hp h hh).1 with ((h1 | h1) | h1) | h1
    · exact absurd hw' h1
    · exact absurd hi h1
    · exact absurd h1 hn
    · exact h1
  · rintro rfl h h' p p' hh hh' hp hp' hr
    simp only [Tree.checkVitter, List.all_eq_true, Tree.mem_allocated, Bool.and_eq_true, Bool.or_eq_true,
      decide_eq_true_eq] at hst
    have := (hst h hh h' hh').2
    rw [hp, hp'] at this
    simp only [Bool.or_eq_true, decide_eq_true_eq] at this
    omega

end Sys2Proof.Machine
end

