-- ==== Sys2Proof/Laws/Update.lean ====
section
/-! SUPPORT. What the mutations and the two updates can answer, one inversion lemma per operation; and that all of them
but `introduce` keep the shape of the tree: the node count, `ESC`, `SEEN` and every role. -/

namespace Sys2Proof.Machine

/-! ### Results of `Except` -/

/-- A sequence of tree operations answers when each of them does. -/
theorem except_bind_ok {α β : Type} {r : Except FaultKind α} {f : α → Except FaultKind β} {b : β} :
    (r >>= f) = .ok b ↔ ∃ a, r = .ok a ∧ f a = .ok b := by
  cases r with
  | ok a => exact ⟨fun h => ⟨a, rfl, h⟩, fun ⟨_, h1, h2⟩ => by cases h1; exact h2⟩
  | error k => exact ⟨nofun, fun ⟨_, h1, _⟩ => nomatch h1⟩

/-- `followed` answers exactly the handle there is (R23). -/
theorem followed_ok_iff {h : Option Handle} {x : Handle} : followed h = .ok x ↔ h = some x := by
  cases h with
  | none => exact ⟨nofun, nofun⟩
  | some y => simp [followed]

/-! ### The shape of the tree -/

/-- Two trees with the same nodes in the same roles. -/
structure Tree.SameShape (t u : Tree) : Prop where
  nodeCount : u.nodeCount = t.nodeCount
  esc : u.esc = t.esc
  seen : u.seen = t.seen
  role : ∀ h, (u.get h).role = (t.get h).role

theorem Tree.SameShape.refl (t : Tree) : t.SameShape t := ⟨rfl, rfl, rfl, fun _ => rfl⟩

theorem Tree.SameShape.trans {t u v : Tree} (a : t.SameShape u) (b : u.SameShape v) : t.SameShape v :=
  ⟨b.nodeCount.trans a.nodeCount, b.esc.trans a.esc, b.seen.trans a.seen, fun h => (b.role h).trans (a.role h)⟩

/-- The same handles are allocated. -/
theorem Tree.SameShape.has_iff {t u : Tree} (a : t.SameShape u) (h : Handle) : u.has h ↔ t.has h := by
  unfold Tree.has; rw [a.nodeCount]

/-- A field update that keeps the role of one node keeps the shape. -/
theorem Tree.modify_sameShape (t : Tree) (h : Handle) (f : Node → Node) (hf : ∀ n, (f n).role = n.role) :
    t.SameShape (t.modify h f) := by
  refine ⟨rfl, rfl, rfl, fun x => ?_⟩
  rw [Tree.get_modify]
  split
  · next e => rw [hf, e]
  · rfl

theorem setChild_sameShape (t : Tree) (p : Handle) (side : Bool) (c : Handle) : t.SameShape (setChild t p side c) :=
  t.modify_sameShape p _ (fun n => by cases side <;> rfl)

theorem setPosition_sameShape (t : Tree) (h p : Handle) (side : Bool) (rank : Nat) :
    t.SameShape (setPosition t h p side rank) :=
  t.modify_sameShape h _ (fun _ => rfl)

theorem exchange_sameShape (t : Tree) (a b pa pb : Handle) : t.SameShape (exchange t a b pa pb) :=
  (((setChild_sameShape t _ _ _).trans (setChild_sameShape _ _ _ _)).trans
    (setPosition_sameShape _ _ _ _ _)).trans (setPosition_sameShape _ _ _ _ _)

theorem swapPositions_sameShape {t u : Tree} {a b : Handle} (e : swapPositions t a b = .ok u) : t.SameShape u := by
  obtain ⟨_, pa, pb, _, _, _, _, rfl⟩ := swapPositions_ok e
  exact exchange_sameShape t a b pa pb

theorem incWeight_sameShape {wmax : Nat} {t u : Tree} {h : Handle} (e : incWeight wmax t h = .ok u) : t.SameShape u := by
  obtain ⟨_, rfl⟩ := incWeight_ok e
  exact t.modify_sameShape h _ (fun _ => rfl)

/-! ### Weights -/

/-- An update of one node that keeps its weight keeps every weight. -/
theorem Tree.modify_weight (t : Tree) (h x : Handle) (f : Node → Node) (hf : ∀ n, (f n).weight = n.weight) :
    ((t.modify h f).get x).weight = (t.get x).weight := by
  rw [Tree.get_modify]
  split
  · next e => rw [hf, e]
  · rfl

theorem setChild_weight (t : Tree) (p : Handle) (side : Bool) (c x : Handle) :
    ((setChild t p side c).get x).weight = (t.get x).weight :=
  t.modify_weight p x _ (fun n => by cases side <;> rfl)

theorem setPosition_weight (t : Tree) (h p : Handle) (side : Bool) (rank : Nat) (x : Handle) :
    ((setPosition t h p side rank).get x).weight = (t.get x).weight :=
  t.modify_weight h x _ (fun _ => rfl)

/-- Exchanging positions keeps every weight: "a pure positional exchange, not a value exchange" (R146). -/
theorem exchange_weight (t : Tree) (a b pa pb x : Handle) : ((exchange t a b pa pb).get x).weight = (t.get x).weight := by
  simp only [exchange, setPosition_weight, setChild_weight]

theorem swapPositions_weight {t u : Tree} {a b : Handle} (e : swapPositions t a b = .ok u) (x : Handle) :
    (u.get x).weight = (t.get x).weight := by
  obtain ⟨_, pa, pb, _, _, _, _, rfl⟩ := swapPositions_ok e
  exact exchange_weight t a b pa pb x

/-- The weights after an increment (R148). -/
theorem incWeight_weight {wmax : Nat} {t u : Tree} {h : Handle} (e : incWeight wmax t h = .ok u) (x : Handle) :
    (u.get x).weight = (t.get x).weight + if x = h then 1 else 0 := by
  obtain ⟨_, rfl⟩ := incWeight_ok e
  rw [Tree.get_modify]
  split
  · next hx => subst hx; rfl
  · rfl

/-! ### Parts of the updates -/

/-- `promote` either finds the cursor to be its own leader or swaps it with the leader (R171, R172, R192). -/
theorem promote_ok {t u : Tree} {x : Handle} {leavesOnly : Bool} (e : promote t x leavesOnly = .ok u) :
    ∃ leader, lowestRank t (t.get x).weight leavesOnly = .ok leader ∧
      (leader = x ∧ u = t ∨ leader ≠ x ∧ swapPositions t x leader = .ok u) := by
  simp only [promote, except_bind_ok] at e
  obtain ⟨leader, h1, h2⟩ := e
  refine ⟨leader, h1, ?_⟩
  split at h2
  · next hl => cases h2; exact .inl ⟨hl, rfl⟩
  · next hl => exact .inr ⟨hl, h2⟩

theorem promote_sameShape {t u : Tree} {x : Handle} {leavesOnly : Bool} (e : promote t x leavesOnly = .ok u) :
    t.SameShape u := by
  obtain ⟨_, _, ⟨_, rfl⟩ | ⟨_, h⟩⟩ := promote_ok e
  · exact .refl _
  · exact swapPositions_sameShape h

/-- One level of the FGK update: promote, increment, move to the parent (R171, R172). -/
theorem fgkLevel_ok {wmax : Nat} {t : Tree} {x : Handle} {leavesOnly : Bool} {r : Tree × Handle}
    (e : fgkLevel wmax t x leavesOnly = .ok r) :
    ∃ t1, promote t x leavesOnly = .ok t1 ∧ incWeight wmax t1 x = .ok r.1 ∧ (r.1.get x).parent = some r.2 := by
  simp only [fgkLevel, except_bind_ok] at e
  obtain ⟨t1, h1, t2, h2, p, h3, h4⟩ := e
  cases h4
  exact ⟨t1, h1, h2, followed_ok_iff.1 h3⟩

theorem fgkLevel_sameShape {wmax : Nat} {t : Tree} {x : Handle} {leavesOnly : Bool} {r : Tree × Handle}
    (e : fgkLevel wmax t x leavesOnly = .ok r) : t.SameShape r.1 := by
  obtain ⟨_, h1, h2, _⟩ := fgkLevel_ok e
  exact (promote_sameShape h1).trans (incWeight_sameShape h2)

/-- The FGK climb ends at the root (R172). -/
theorem fgkClimb_root (wmax fuel : Nat) (t : Tree) : fgkClimb wmax fuel t root = .ok t := by
  unfold fgkClimb; simp

/-- One round of the FGK climb (R172). -/
theorem fgkClimb_ok {wmax fuel : Nat} {t u : Tree} {x : Handle} (hx : x ≠ root) (e : fgkClimb wmax fuel t x = .ok u) :
    ∃ k r, fuel = k + 1 ∧ fgkLevel wmax t x false = .ok r ∧ fgkClimb wmax k r.1 r.2 = .ok u := by
  unfold fgkClimb at e
  rw [if_neg hx] at e
  cases fuel with
  | zero => cases e
  | succ k =>
    obtain ⟨r, h1, h2⟩ := except_bind_ok.1 e
    exact ⟨k, r, rfl, h1, h2⟩

theorem fgkClimb_sameShape {wmax fuel : Nat} {t u : Tree} {x : Handle} (e : fgkClimb wmax fuel t x = .ok u) :
    t.SameShape u := by
  induction fuel generalizing t x with
  | zero =>
    by_cases hx : x = root
    · subst hx; rw [fgkClimb_root] at e; cases e; exact .refl _
    · obtain ⟨_, _, h, _⟩ := fgkClimb_ok hx e; cases h
  | succ fuel ih =>
    by_cases hx : x = root
    · subst hx; rw [fgkClimb_root] at e; cases e; exact .refl _
    · obtain ⟨k, r, h, h1, h2⟩ := fgkClimb_ok hx e
      cases h
      exact (fgkLevel_sameShape h1).trans (ih h2)

/-- The FGK update, part by part (R170). -/
theorem updateFGK_ok {wmax : Nat} {t u : Tree} {h : Handle} {sym : Symbol} {first : Bool}
    (e : updateFGK wmax t h sym first = .ok u) :
    ∃ a b c, startNode t h sym first = .ok a ∧ fgkStepOne wmax a.1 a.2 = .ok b ∧
      fgkClimb wmax nodeCap b.1 b.2 = .ok c ∧ incWeight wmax c root = .ok u := by
  simp only [updateFGK, except_bind_ok] at e
  obtain ⟨a, h1, b, h2, c, h3, h4⟩ := e
  exact ⟨a, b, c, h1, h2, h3, h4⟩

theorem fgkStepOne_sameShape {wmax : Nat} {t : Tree} {x : Handle} {r : Tree × Handle}
    (e : fgkStepOne wmax t x = .ok r) : t.SameShape r.1 := by
  unfold fgkStepOne at e
  split at e
  · exact fgkLevel_sameShape e
  · cases e; exact .refl _

/-- One more swap of a slide (R199). -/
theorem slideLoop_succ_ok {p : Handle} {count j : Nat} {t u : Tree} (e : slideLoop p (count + 1) j t = .ok u) :
    ∃ x t1, nodeAtRank t j = .ok x ∧ swapPositions t p x = .ok t1 ∧ slideLoop p count (j - 1) t1 = .ok u := by
  simp only [slideLoop, except_bind_ok] at e
  obtain ⟨x, h1, t1, h2, h3⟩ := e
  exact ⟨x, t1, h1, h2, h3⟩

theorem slideLoop_sameShape {p : Handle} {count j : Nat} {t u : Tree} (e : slideLoop p count j t = .ok u) :
    t.SameShape u := by
  induction count generalizing j t with
  | zero => simp only [slideLoop] at e; cases e; exact .refl _
  | succ count ih =>
    obtain ⟨_, _, _, h2, h3⟩ := slideLoop_succ_ok e
    exact (swapPositions_sameShape h2).trans (ih h3)

/-- Every weight is kept by a slide (R199). -/
theorem slideLoop_weight {p : Handle} {count j : Nat} {t u : Tree} (e : slideLoop p count j t = .ok u) (x : Handle) :
    (u.get x).weight = (t.get x).weight := by
  induction count generalizing j t with
  | zero => simp only [slideLoop] at e; cases e; rfl
  | succ count ih =>
    obtain ⟨_, _, _, h2, h3⟩ := slideLoop_succ_ok e
    exact (ih h3).trans (swapPositions_weight h2 x)

/-- `slideAndIncrement`: the block's top, the slide if there is one, the increment, and the next cursor (R197, R200). -/
theorem slideAndIncrement_ok {wmax : Nat} {t : Tree} {p : Handle} {r : Tree × Option Handle}
    (e : slideAndIncrement wmax t p = .ok r) :
    ∃ top t1, blockTop t p (t.get p).weight (t.get p).rank = .ok top ∧
      (top < (t.get p).rank ∧ slide t p top = .ok t1 ∨ ¬ top < (t.get p).rank ∧ t1 = t) ∧
      incWeight wmax t1 p = .ok r.1 ∧
      r.2 = if (t.get p).role = .internal then (t.get p).parent else (r.1.get p).parent := by
  unfold slideAndIncrement at e
  obtain ⟨top, h1, e⟩ := except_bind_ok.1 e
  dsimp only at e
  by_cases hlt : top < (t.get p).rank
  · rw [if_pos hlt] at e
    obtain ⟨t1, h2, e⟩ := except_bind_ok.1 e
    obtain ⟨t2, h3, h4⟩ := except_bind_ok.1 e
    cases h4
    exact ⟨top, t1, h1, .inl ⟨hlt, h2⟩, h3, rfl⟩
  · rw [if_neg hlt] at e
    obtain ⟨t1, h2, e⟩ := except_bind_ok.1 e
    obtain ⟨t2, h3, h4⟩ := except_bind_ok.1 e
    cases h2
    cases h4
    exact ⟨top, t, h1, .inr ⟨hlt, rfl⟩, h3, rfl⟩

theorem slideAndIncrement_sameShape {wmax : Nat} {t : Tree} {p : Handle} {r : Tree × Option Handle}
    (e : slideAndIncrement wmax t p = .ok r) : t.SameShape r.1 := by
  obtain ⟨_, t1, _, h, h3, _⟩ := slideAndIncrement_ok e
  have h1 : t.SameShape t1 := by
    rcases h with ⟨_, h⟩ | ⟨_, rfl⟩
    · exact slideLoop_sameShape h
    · exact .refl _
  exact h1.trans (incWeight_sameShape h3)

/-- The Vitter climb ends at the root (R194). -/
theorem vitterClimb_root (wmax fuel : Nat) (t : Tree) : vitterClimb wmax fuel t root = .ok t := by
  unfold vitterClimb; simp

/-- One round of the Vitter climb (R194). -/
theorem vitterClimb_ok {wmax fuel : Nat} {t u : Tree} {q : Handle} (hq : q ≠ root)
    (e : vitterClimb wmax fuel t q = .ok u) :
    ∃ k r q', fuel = k + 1 ∧ slideAndIncrement wmax t q = .ok r ∧ r.2 = some q' ∧ vitterClimb wmax k r.1 q' = .ok u := by
  unfold vitterClimb at e
  rw [if_neg hq] at e
  cases fuel with
  | zero => cases e
  | succ k =>
    simp only [except_bind_ok] at e
    obtain ⟨r, h1, q', h2, h3⟩ := e
    exact ⟨k, r, q', rfl, h1, followed_ok_iff.1 h2, h3⟩

theorem vitterClimb_sameShape {wmax fuel : Nat} {t u : Tree} {q : Handle} (e : vitterClimb wmax fuel t q = .ok u) :
    t.SameShape u := by
  induction fuel generalizing t q with
  | zero =>
    by_cases hq : q = root
    · subst hq; rw [vitterClimb_root] at e; cases e; exact .refl _
    · obtain ⟨_, _, _, h, _⟩ := vitterClimb_ok hq e; cases h
  | succ fuel ih =>
    by_cases hq : q = root
    · subst hq; rw [vitterClimb_root] at e; cases e; exact .refl _
    · obtain ⟨k, r, q', h, h1, _, h2⟩ := vitterClimb_ok hq e
      cases h
      exact (slideAndIncrement_sameShape h1).trans (ih h2)

/-- The Vitter update before the climb, for a first occurrence and for a repeat (R191 to R193). -/
theorem vitterStart_ok {t : Tree} {h : Handle} {sym : Symbol} {first : Bool} {r : Tree × Handle × Option Handle}
    (e : vitterStart t h sym first = .ok r) :
    (first = true ∧ ∃ a, introduce t sym = .ok a ∧ r.1 = a.1 ∧ (a.1.get a.2).parent = some r.2.1 ∧ r.2.2 = some a.2) ∨
    (first = false ∧ promote t h true = .ok r.1 ∧
      (sibling r.1 h = some r.1.esc ∧ (r.1.get h).parent = some r.2.1 ∧ r.2.2 = some h ∨
        sibling r.1 h ≠ some r.1.esc ∧ r.2.1 = h ∧ r.2.2 = none)) := by
  unfold vitterStart at e
  cases first with
  | true =>
    simp only [if_true, except_bind_ok] at e
    obtain ⟨a, h1, q, h2, h3⟩ := e
    cases h3
    exact .inl ⟨rfl, a, h1, rfl, followed_ok_iff.1 h2, rfl⟩
  | false =>
    simp only [Bool.false_eq_true, if_false, except_bind_ok] at e
    obtain ⟨t1, h1, h2⟩ := e
    refine .inr ⟨rfl, ?_⟩
    split at h2
    · next hs =>
      obtain ⟨q, h3, h4⟩ := except_bind_ok.1 h2
      cases h4
      exact ⟨h1, .inl ⟨hs, followed_ok_iff.1 h3, rfl⟩⟩
    · next hs => cases h2; exact ⟨h1, .inr ⟨hs, rfl, rfl⟩⟩

/-- The deferred leaf's slide and increment, or nothing (R196). -/
theorem vitterDeferred_ok {wmax : Nat} {t u : Tree} {leaf : Option Handle} (e : vitterDeferred wmax t leaf = .ok u) :
    (leaf = none ∧ u = t) ∨ ∃ lf r, leaf = some lf ∧ slideAndIncrement wmax t lf = .ok r ∧ u = r.1 := by
  cases leaf with
  | none => cases e; exact .inl ⟨rfl, rfl⟩
  | some lf =>
    obtain ⟨r, h1, h2⟩ := except_bind_ok.1 e
    cases h2
    exact .inr ⟨lf, r, rfl, h1, rfl⟩

theorem vitterDeferred_sameShape {wmax : Nat} {t u : Tree} {leaf : Option Handle}
    (e : vitterDeferred wmax t leaf = .ok u) : t.SameShape u := by
  rcases vitterDeferred_ok e with ⟨_, rfl⟩ | ⟨_, r, _, h, rfl⟩
  · exact .refl _
  · exact slideAndIncrement_sameShape h

/-- The Vitter update, part by part (R190). -/
theorem updateVitter_ok {wmax : Nat} {t u : Tree} {h : Handle} {sym : Symbol} {first : Bool}
    (e : updateVitter wmax t h sym first = .ok u) :
    ∃ a b c, vitterStart t h sym first = .ok a ∧ vitterClimb wmax nodeCap a.1 a.2.1 = .ok b ∧
      incWeight wmax b root = .ok c ∧ vitterDeferred wmax c a.2.2 = .ok u := by
  simp only [updateVitter, except_bind_ok] at e
  obtain ⟨a, h1, b, h2, c, h3, h4⟩ := e
  exact ⟨a, b, c, h1, h2, h3, h4⟩

/-- An update's shape: the shape of the tree it starts from, or of that tree after `introduce` when the located node is
the Escape node (R149, R170, R190). -/
theorem update_shape {strategy : Strategy} {wmax : Nat} {t u : Tree} {h : Handle} {sym : Symbol}
    (e : update strategy wmax t h sym = .ok u) :
    (h ≠ t.esc ∧ t.SameShape u) ∨ (h = t.esc ∧ ∃ a, introduce t sym = .ok a ∧ a.1.SameShape u) := by
  cases strategy with
  | fgk =>
    obtain ⟨a, b, c, h1, h2, h3, h4⟩ := updateFGK_ok e
    have hs := ((fgkStepOne_sameShape h2).trans (fgkClimb_sameShape h3)).trans (incWeight_sameShape h4)
    by_cases hh : h = t.esc
    · rw [startNode, if_pos (by simp [hh])] at h1
      exact .inr ⟨hh, a, h1, hs⟩
    · rw [startNode, if_neg (by simp [hh])] at h1
      cases h1
      exact .inl ⟨hh, hs⟩
  | vitter =>
    obtain ⟨a, b, c, h1, h2, h3, h4⟩ := updateVitter_ok e
    have hs := ((vitterClimb_sameShape h2).trans (incWeight_sameShape h3)).trans (vitterDeferred_sameShape h4)
    rcases vitterStart_ok h1 with ⟨hf, r, h5, h6, _⟩ | ⟨hf, h5, _⟩
    · exact .inr ⟨by simpa using hf, r, h5, h6 ▸ hs⟩
    · exact .inl ⟨by simpa using hf, (promote_sameShape h5).trans hs⟩

/-! ### Chains of parents -/

/-- A node that is its own next step of the chain ends the search (R142). -/
theorem onChain_here (t : Tree) (a : Handle) (fuel : Nat) : onChain t a fuel (some a) = .ok true := by
  cases fuel <;> simp [onChain]

/-- A chain that ends does not hold the node (R142). -/
theorem onChain_none (t : Tree) (a : Handle) (fuel : Nat) : onChain t a fuel none = .ok false := by
  cases fuel <;> rfl

/-- One step up the chain (R142). -/
theorem onChain_step (t : Tree) {a x : Handle} (fuel : Nat) (hx : x ≠ a) :
    onChain t a (fuel + 1) (some x) = onChain t a fuel (t.get x).parent := by
  simp [onChain, hx]

/-- The path code of a node without a parent is what was recorded (R144). -/
theorem pathUp_top (t : Tree) {fuel : Nat} {x : Handle} {bits : List Bool} (h : (t.get x).parent = none) :
    pathUp t fuel x bits = .ok bits := by
  unfold pathUp; rw [h]

/-- One edge of a path code, left 0 and right 1 (R144). -/
theorem pathUp_step (t : Tree) {fuel : Nat} {x p : Handle} {bits : List Bool} (h : (t.get x).parent = some p) :
    pathUp t (fuel + 1) x bits = pathUp t fuel p ((!(t.get x).isLeft) :: bits) := by
  rw [pathUp, h]

end Sys2Proof.Machine
end

