-- ==== Sys2Proof/Laws/Counts.lean ====
section
/-! SUPPORT. "A Leaf is incremented exactly once by each update that starts at it" (spec/10_state.md R44): an update adds
one to the weight of the Leaf of its symbol and to no other Leaf, under either strategy. -/

namespace Sys2Proof.Machine

/-! ### Parents are Internal -/

/-- What the climbs need of the links: the parent of an allocated node is an allocated Internal node (R41(c), (d)). -/
def Tree.ParentsInternal (t : Tree) : Prop :=
  ∀ h p, t.has h → (t.get h).parent = some p → t.has p ∧ (t.get p).role = .internal

theorem Tree.WellFormed.parentsInternal {t : Tree} (w : t.WellFormed) : t.ParentsInternal := by
  intro h p hh hp
  obtain ⟨path, e⟩ := w.links.reached h hh
  cases path using List.reverseRecOn with
  | nil => cases e; rw [(w.links.rootParent root hh).2 rfl] at hp; cases hp
  | append_singleton path b =>
    obtain ⟨y, hy, hc⟩ := Tree.walk_snoc e
    have hya := w.localLinks.walk_has w.root_has path hy
    have hch := w.localLinks.child hya hc
    cases Option.some.inj (hch.2.1.symm.trans hp)
    exact ⟨hya, hch.2.2.2⟩

/-- The root is no Leaf: it is the Escape node or Internal (R41(d), (e)). -/
theorem Tree.WellFormed.root_not_leaf {t : Tree} (w : t.WellFormed) : (t.get root).role.isLeaf = false := by
  cases hr : (t.get root).role with
  | internal => rfl
  | escape => rfl
  | leaf sym =>
    obtain ⟨path, e⟩ := w.links.reached t.esc w.escape.allocated
    have hne : t.esc ≠ root := by
      intro he
      have := w.escape.role
      rw [he, hr] at this; cases this
    cases path with
    | nil => exact absurd (Option.some.inj e).symm hne
    | cons b path =>
      have hn := w.links.childless root w.root_has (by rw [hr]; nofun)
      have hc : t.child root b = none := by cases b <;> simp [Tree.child, hn]
      rw [Tree.walk_cons, hc] at e
      cases e

theorem setChild_parent (t : Tree) (p : Handle) (side : Bool) (c x : Handle) :
    ((setChild t p side c).get x).parent = (t.get x).parent := by
  rw [setChild, Tree.get_modify]
  split
  · next e => subst e; cases side <;> rfl
  · rfl

theorem setPosition_parent (t : Tree) (h p : Handle) (side : Bool) (rank : Nat) (x : Handle) :
    ((setPosition t h p side rank).get x).parent = if x = h then some p else (t.get x).parent := by
  rw [setPosition, Tree.get_modify]
  split <;> rfl

/-- The parents after an exchange: the two nodes' parents are exchanged (R146). -/
theorem exchange_parent (t : Tree) (a b pa pb x : Handle) :
    ((exchange t a b pa pb).get x).parent = if x = b then some pa else if x = a then some pb else (t.get x).parent := by
  simp only [exchange, setPosition_parent, setChild_parent]

/-! ### One step of an update, as far as the Leaves' weights go -/

/-- From `t` to `u` the shape is kept, parents are Internal, and of the Leaves at most `x` gained weight: one. -/
structure Tree.CountStep (t u : Tree) (x : Option Handle) : Prop where
  shape : t.SameShape u
  parents : u.ParentsInternal
  leaf : ∀ y, (t.get y).role.isLeaf = true → (u.get y).weight = (t.get y).weight + if x = some y then 1 else 0

theorem Tree.CountStep.refl {t : Tree} (p : t.ParentsInternal) : t.CountStep t none :=
  ⟨.refl t, p, fun _ _ => rfl⟩

theorem Tree.CountStep.then_none {t u v : Tree} {x : Option Handle} (a : t.CountStep u x) (b : u.CountStep v none) :
    t.CountStep v x :=
  ⟨a.shape.trans b.shape, b.parents, fun y hy => by
    rw [b.leaf y (by rw [a.shape.role]; exact hy), a.leaf y hy]; rfl⟩

theorem Tree.CountStep.none_then {t u v : Tree} {x : Option Handle} (a : t.CountStep u none) (b : u.CountStep v x) :
    t.CountStep v x :=
  ⟨a.shape.trans b.shape, b.parents, fun y hy => by
    rw [b.leaf y (by rw [a.shape.role]; exact hy), a.leaf y hy]; rfl⟩

/-- Weight added to a node that is no Leaf is added to no Leaf. -/
theorem Tree.CountStep.not_leaf {t u : Tree} {x : Handle} (a : t.CountStep u (some x))
    (hx : (t.get x).role.isLeaf = false) : t.CountStep u none :=
  ⟨a.shape, a.parents, fun y hy => by
    rw [a.leaf y hy, if_neg]
    · rfl
    · rintro ⟨⟩; rw [hx] at hy; cases hy⟩

theorem swapPositions_countStep {t u : Tree} {a b : Handle} (p : t.ParentsInternal) (ha : t.has a) (hb : t.has b)
    (e : swapPositions t a b = .ok u) : t.CountStep u none := by
  refine ⟨swapPositions_sameShape e, ?_, fun y _ => swapPositions_weight e y⟩
  have hs := swapPositions_sameShape e
  obtain ⟨_, pa, pb, hpa, hpb, _, _, rfl⟩ := swapPositions_ok e
  intro h q hh hq
  rw [exchange_parent] at hq
  rw [hs.has_iff, hs.role]
  rw [hs.has_iff] at hh
  split at hq
  · cases hq; exact p a pa ha hpa
  · split at hq
    · cases hq; exact p b pb hb hpb
    · exact p h q hh hq

theorem incWeight_countStep {wmax : Nat} {t u : Tree} {h : Handle} (p : t.ParentsInternal)
    (e : incWeight wmax t h = .ok u) : t.CountStep u (some h) := by
  have hs := incWeight_sameShape e
  refine ⟨hs, ?_, fun y _ => by rw [incWeight_weight e y]; simp [eq_comm]⟩
  intro x q hx hq
  rw [hs.has_iff, hs.role]
  refine p x q ((hs.has_iff x).1 hx) ?_
  obtain ⟨_, rfl⟩ := incWeight_ok e
  rw [Tree.get_modify] at hq
  split at hq
  · next he => subst he; exact hq
  · exact hq

theorem promote_countStep {t u : Tree} {x : Handle} {leavesOnly : Bool} (p : t.ParentsInternal) (hx : t.has x)
    (e : promote t x leavesOnly = .ok u) : t.CountStep u none := by
  obtain ⟨leader, h1, ⟨_, rfl⟩ | ⟨_, h⟩⟩ := promote_ok e
  · exact .refl p
  · exact swapPositions_countStep p hx (lowestRank_ok h1).1 h

/-- The parent the cursor moves to is Internal. -/
theorem Tree.ParentsInternal.cursor {t : Tree} (p : t.ParentsInternal) {x q : Handle} (hx : t.has x)
    (hq : (t.get x).parent = some q) : t.has q ∧ (t.get q).role.isLeaf = false := by
  obtain ⟨h1, h2⟩ := p x q hx hq
  exact ⟨h1, by rw [h2]; rfl⟩

/-! ### FGK -/

theorem fgkLevel_countStep {wmax : Nat} {t : Tree} {x : Handle} {leavesOnly : Bool} {r : Tree × Handle}
    (p : t.ParentsInternal) (hx : t.has x) (e : fgkLevel wmax t x leavesOnly = .ok r) :
    t.CountStep r.1 (some x) ∧ r.1.has r.2 ∧ (r.1.get r.2).role.isLeaf = false := by
  obtain ⟨t1, h1, h2, h3⟩ := fgkLevel_ok e
  have c1 := promote_countStep p hx h1
  have c := c1.none_then (incWeight_countStep c1.parents h2)
  exact ⟨c, c.parents.cursor ((c.shape.has_iff x).2 hx) h3⟩

/-- From a cursor that is no Leaf the climb adds weight to no Leaf. -/
theorem fgkClimb_countStep {wmax fuel : Nat} {t u : Tree} {x : Handle} (p : t.ParentsInternal) (hx : t.has x)
    (hl : (t.get x).role.isLeaf = false) (e : fgkClimb wmax fuel t x = .ok u) : t.CountStep u none := by
  induction fuel generalizing t x with
  | zero =>
    by_cases hr : x = root
    · subst hr; rw [fgkClimb_root] at e; cases e; exact .refl p
    · obtain ⟨_, _, h, _⟩ := fgkClimb_ok hr e; cases h
  | succ fuel ih =>
    by_cases hr : x = root
    · subst hr; rw [fgkClimb_root] at e; cases e; exact .refl p
    · obtain ⟨k, r, h, h1, h2⟩ := fgkClimb_ok hr e
      cases h
      obtain ⟨c, c1, c2⟩ := fgkLevel_countStep p hx h1
      exact (c.not_leaf hl).then_none (ih c.parents c1 c2 h2)

/-- The FGK update from a Leaf `x` that is not the root, once the tree has its node. -/
theorem fgk_countStep {wmax : Nat} {t c u : Tree} {x : Handle} {b : Tree × Handle} (p : t.ParentsInternal) (hx : t.has x)
    (hr : x ≠ root) (hroot : (t.get root).role.isLeaf = false) (h2 : fgkStepOne wmax t x = .ok b)
    (h3 : fgkClimb wmax nodeCap b.1 b.2 = .ok c) (h4 : incWeight wmax c root = .ok u) : t.CountStep u (some x) := by
  have climbed : t.CountStep c (some x) := by
    unfold fgkStepOne at h2
    split at h2
    · obtain ⟨c1, c2, c3⟩ := fgkLevel_countStep p hx h2
      exact c1.then_none (fgkClimb_countStep c1.parents c2 c3 h3)
    · cases h2
      obtain ⟨k, r, _, h5, h6⟩ := fgkClimb_ok hr h3
      obtain ⟨c1, c2, c3⟩ := fgkLevel_countStep p hx h5
      exact c1.then_none (fgkClimb_countStep c1.parents c2 c3 h6)
  exact climbed.then_none ((incWeight_countStep climbed.parents h4).not_leaf (by rw [climbed.shape.role]; exact hroot))

/-! ### Vitter -/

theorem slideLoop_countStep {p : Handle} {count j : Nat} {t u : Tree} (w : t.ParentsInternal) (hp : t.has p)
    (e : slideLoop p count j t = .ok u) : t.CountStep u none := by
  induction count generalizing j t with
  | zero => simp only [slideLoop] at e; cases e; exact .refl w
  | succ count ih =>
    obtain ⟨x, t1, h1, h2, h3⟩ := slideLoop_succ_ok e
    have c := swapPositions_countStep w hp ((nodeAtRank_ok_iff _ _ _).1 h1).1 h2
    exact c.none_then (ih c.parents ((c.shape.has_iff p).2 hp) h3)

theorem slideAndIncrement_countStep {wmax : Nat} {t : Tree} {p : Handle} {r : Tree × Option Handle}
    (w : t.ParentsInternal) (hp : t.has p) (e : slideAndIncrement wmax t p = .ok r) :
    t.CountStep r.1 (some p) ∧ ∀ q, r.2 = some q → r.1.has q ∧ (r.1.get q).role.isLeaf = false := by
  obtain ⟨_, t1, _, h, h3, h4⟩ := slideAndIncrement_ok e
  have c1 : t.CountStep t1 none := by
    rcases h with ⟨_, h⟩ | ⟨_, rfl⟩
    · exact slideLoop_countStep w hp h
    · exact .refl w
  have c := c1.none_then (incWeight_countStep c1.parents h3)
  refine ⟨c, fun q hq => ?_⟩
  rw [hq] at h4
  split at h4
  · rw [c.shape.has_iff, c.shape.role]
    exact w.cursor hp h4.symm
  · exact c.parents.cursor ((c.shape.has_iff p).2 hp) h4.symm

/-- From a cursor that is no Leaf the climb adds weight to no Leaf. -/
theorem vitterClimb_countStep {wmax fuel : Nat} {t u : Tree} {q : Handle} (w : t.ParentsInternal) (hq : t.has q)
    (hl : (t.get q).role.isLeaf = false) (e : vitterClimb wmax fuel t q = .ok u) : t.CountStep u none := by
  induction fuel generalizing t q with
  | zero =>
    by_cases hr : q = root
    · subst hr; rw [vitterClimb_root] at e; cases e; exact .refl w
    · obtain ⟨_, _, _, h, _⟩ := vitterClimb_ok hr e; cases h
  | succ fuel ih =>
    by_cases hr : q = root
    · subst hr; rw [vitterClimb_root] at e; cases e; exact .refl w
    · obtain ⟨k, r, q', h, h1, h2, h3⟩ := vitterClimb_ok hr e
      cases h
      obtain ⟨c, cq⟩ := slideAndIncrement_countStep w hq h1
      exact (c.not_leaf hl).then_none (ih c.parents (cq q' h2).1 (cq q' h2).2 h3)

/-- The Vitter update whose deferred leaf is `x` and whose climb starts at a node that is no Leaf. -/
theorem vitter_deferred_countStep {wmax : Nat} {t b c u : Tree} {x q : Handle} (w : t.ParentsInternal) (hx : t.has x)
    (hroot : (t.get root).role.isLeaf = false) (hq : (t.get x).parent = some q)
    (h2 : vitterClimb wmax nodeCap t q = .ok b) (h3 : incWeight wmax b root = .ok c)
    (h4 : vitterDeferred wmax c (some x) = .ok u) : t.CountStep u (some x) := by
  obtain ⟨q1, q2⟩ := w.cursor hx hq
  have c1 := vitterClimb_countStep w q1 q2 h2
  have c2 := c1.none_then ((incWeight_countStep c1.parents h3).not_leaf (by rw [c1.shape.role]; exact hroot))
  rcases vitterDeferred_ok h4 with ⟨h, _⟩ | ⟨lf, r, h, h5, rfl⟩
  · cases h
  · cases h
    exact c2.none_then (slideAndIncrement_countStep c2.parents ((c2.shape.has_iff x).2 hx) h5).1

/-- The Vitter update that climbs from the Leaf `x` itself. -/
theorem vitter_direct_countStep {wmax : Nat} {t b c : Tree} {x : Handle} (w : t.ParentsInternal) (hx : t.has x)
    (hr : x ≠ root) (hroot : (t.get root).role.isLeaf = false) (h2 : vitterClimb wmax nodeCap t x = .ok b)
    (h3 : incWeight wmax b root = .ok c) : t.CountStep c (some x) := by
  obtain ⟨k, r, q', _, h5, h6, h7⟩ := vitterClimb_ok hr h2
  obtain ⟨c1, cq⟩ := slideAndIncrement_countStep w hx h5
  have c2 := c1.then_none (vitterClimb_countStep c1.parents (cq q' h6).1 (cq q' h6).2 h7)
  exact c2.then_none ((incWeight_countStep c2.parents h3).not_leaf (by rw [c2.shape.role]; exact hroot))

/-! ### The update -/

/-- An update of a Leaf already there (R149): it gains one, and no other Leaf changes its weight. -/
theorem update_countStep {strategy : Strategy} {wmax : Nat} {t u : Tree} {h : Handle} {sym : Symbol}
    (w : t.WellFormed) (hh : t.has h) (hr : (t.get h).role = .leaf sym)
    (e : update strategy wmax t h sym = .ok u) : t.CountStep u (some h) := by
  have hne : h ≠ t.esc := by rintro rfl; rw [w.escape.role] at hr; cases hr
  have hroot := w.root_not_leaf
  have hnr : h ≠ root := by rintro rfl; rw [hr] at hroot; cases hroot
  cases strategy with
  | fgk =>
    obtain ⟨a, b, c, h1, h2, h3, h4⟩ := updateFGK_ok e
    rw [startNode, if_neg (by simp [hne])] at h1
    cases h1
    exact fgk_countStep w.parentsInternal hh hnr hroot h2 h3 h4
  | vitter =>
    obtain ⟨a, b, c, h1, h2, h3, h4⟩ := updateVitter_ok e
    rcases vitterStart_ok h1 with ⟨hf, _⟩ | ⟨_, h5, h6⟩
    · simp [hne] at hf
    · have c1 := promote_countStep w.parentsInternal hh h5
      have hh1 := (c1.shape.has_iff h).2 hh
      have hroot1 : (a.1.get root).role.isLeaf = false := by rw [c1.shape.role]; exact hroot
      refine c1.none_then ?_
      rcases h6 with ⟨_, h7, h8⟩ | ⟨_, h7, h8⟩
      · rw [h8] at h4
        exact vitter_deferred_countStep c1.parents hh1 hroot1 h7 h2 h3 h4
      · rw [h8] at h4
        cases h4
        rw [h7] at h2
        exact vitter_direct_countStep c1.parents hh1 hnr hroot1 h2 h3

/-- Every entry after `introduce` (R145). -/
theorem introduce_get {t : Tree} {sym : Symbol} {r : Tree × Handle} (e : introduce t sym = .ok r) (x : Handle) :
    r.1.get x =
      if x = r.1.esc then { weight := 0, rank := t.nodeCount.val + 2, role := .escape, isLeft := false,
                            parent := some t.esc, left := none, right := none }
      else if x = r.2 then { weight := 0, rank := t.nodeCount.val + 1, role := .leaf sym, isLeft := true,
                             parent := some t.esc, left := none, right := none }
      else if x = t.esc then { t.get t.esc with role := .internal, left := some r.2, right := some r.1.esc }
      else t.get x := by
  unfold introduce at e
  split at e
  · cases e
  · split at e
    · cases e
      exact (Tree.get_put _ _ _ _).trans (by rw [Tree.get_put, Tree.get_modify])
    · cases e

/-- After `introduce` parents are Internal still (R145). -/
theorem introduce_parentsInternal {t : Tree} {sym : Symbol} {r : Tree × Handle} (w : t.WellFormed)
    (e : introduce t sym = .ok r) : r.1.ParentsInternal := by
  obtain ⟨_, hc, hl, hn, he, _⟩ := introduce_ok e
  have hea := w.escape.allocated
  simp only [Tree.has] at hea
  have hel : t.esc ≠ r.2 := fun h => by rw [h, hl] at hea; omega
  have hee : t.esc ≠ r.1.esc := fun h => by rw [h, he] at hea; omega
  have hesc : r.1.has t.esc ∧ (r.1.get t.esc).role = .internal := by
    refine ⟨by simp only [Tree.has, hn]; omega, ?_⟩
    rw [introduce_get e, if_neg hee, if_neg hel, if_pos rfl]
  have old : ∀ x p, t.has x → (t.get x).parent = some p → r.1.has p ∧ (r.1.get p).role = .internal := by
    intro x p hx hp
    obtain ⟨h1, h2⟩ := w.parentsInternal x p hx hp
    simp only [Tree.has] at h1
    refine ⟨by simp only [Tree.has, hn]; omega, ?_⟩
    rw [introduce_get e, if_neg (fun h => by rw [h, he] at h1; omega), if_neg (fun h => by rw [h, hl] at h1; omega)]
    split
    · rfl
    · exact h2
  intro x p hx hp
  rw [introduce_get e] at hp
  split at hp
  · cases hp; exact hesc
  · next h1 =>
    split at hp
    · cases hp; exact hesc
    · next h2 =>
      split at hp
      · exact old t.esc p w.escape.allocated hp
      · refine old x p ?_ hp
        have a1 : x.val ≠ t.nodeCount.val + 1 := fun h => h1 (Fin.ext (h.trans he.symm))
        have a2 : x.val ≠ t.nodeCount.val := fun h => h2 (Fin.ext (h.trans hl.symm))
        simp only [Tree.has, hn] at hx ⊢
        omega

/-- An update of the Escape node (R149): after `introduce` the new Leaf gains one, and no other Leaf changes its weight. -/
theorem update_first_countStep {strategy : Strategy} {wmax : Nat} {t u : Tree} {sym : Symbol} (w : t.WellFormed)
    (e : update strategy wmax t t.esc sym = .ok u) :
    ∃ a, introduce t sym = .ok a ∧ a.1.CountStep u (some a.2) := by
  have key : ∀ a, introduce t sym = .ok a →
      a.1.ParentsInternal ∧ a.1.has a.2 ∧ a.2 ≠ root ∧ (a.1.get root).role.isLeaf = false := by
    intro a h
    obtain ⟨_, hc, hl, hn, he, _⟩ := introduce_ok h
    have hodd := w.odd
    have hnr : a.2 ≠ root := fun h => by
      have : a.2.val = 0 := congrArg Fin.val h
      omega
    refine ⟨introduce_parentsInternal w h, by simp only [Tree.has]; omega, hnr, ?_⟩
    rw [introduce_get h, if_neg, if_neg (Ne.symm hnr)]
    · split
      · rfl
      · exact w.root_not_leaf
    · intro h
      have : a.1.esc.val = 0 := congrArg Fin.val h.symm
      omega
  cases strategy with
  | fgk =>
    obtain ⟨a, b, c, h1, h2, h3, h4⟩ := updateFGK_ok e
    rw [startNode, if_pos (by simp)] at h1
    obtain ⟨k1, k2, k3, k4⟩ := key a h1
    exact ⟨a, h1, fgk_countStep k1 k2 k3 k4 h2 h3 h4⟩
  | vitter =>
    obtain ⟨s, b, c, h1, h2, h3, h4⟩ := updateVitter_ok e
    rcases vitterStart_ok h1 with ⟨_, a, h5, h6, h7, h8⟩ | ⟨hf, _⟩
    · obtain ⟨k1, k2, _, k4⟩ := key a h5
      rw [h6] at h2
      rw [h8] at h4
      exact ⟨a, h5, vitter_deferred_countStep k1 k2 k4 h7 h2 h3 h4⟩
    · simp at hf

/-- One Leaf's gain, as numbers of occurrences. -/
theorem Tree.LeafWeights.count {t u : Tree} {n : Symbol → Nat} {x : Handle} {sym : Symbol} (hn : t.LeafWeights n)
    (c : t.CountStep u (some x)) (hx : ∀ h y, t.has h → (t.get h).role = .leaf y → (x = h ↔ y = sym))
    (hs : t.seen.getLsbD sym.toNat = true) : u.LeafWeights (countOne n sym) := by
  refine ⟨fun h y hh hr => ?_, fun y hy => ?_⟩
  · rw [c.shape.has_iff] at hh
    rw [c.shape.role] at hr
    rw [c.leaf h (by rw [hr]; rfl), hn.leaf h y hh hr, countOne]
    simp only [Option.some.injEq, hx h y hh hr]
  · rw [c.shape.seen] at hy
    rw [countOne, hn.unseen y hy, if_neg]
    rintro rfl
    rw [hs] at hy; cases hy

/-- In a fresh stream every symbol has occurred no time (R47). -/
theorem Tree.leafWeights_fresh : Tree.fresh.LeafWeights (fun _ => 0) := by
  refine ⟨fun h sym _ hr => ?_, fun _ _ => rfl⟩
  rw [Tree.get_fresh] at hr
  split at hr <;> cases hr

/-- The law of R44: an update of the node of `sym`, its Leaf or the Escape node, counts one more occurrence of `sym` and
leaves every other symbol's count. -/
theorem update_leafWeights {strategy : Strategy} {wmax : Nat} {t u : Tree} {h : Handle} {sym : Symbol}
    {n : Symbol → Nat} (w : t.WellFormed) (hh : t.has h) (hr : (t.get h).role = .leaf sym ∨ h = t.esc)
    (hn : t.LeafWeights n) (e : update strategy wmax t h sym = .ok u) : u.LeafWeights (countOne n sym) := by
  rcases hr with hr | rfl
  · refine hn.count (update_countStep w hh hr e) (fun x y hx hy => ?_) ((w.leaves.seen sym).2 ⟨h, hh, hr⟩)
    constructor
    · rintro rfl; rw [hr] at hy; exact (Role.leaf.inj hy).symm
    · rintro rfl; exact w.leaves.unique y h x hh hx hr hy
  · obtain ⟨a, h1, c⟩ := update_first_countStep w e
    obtain ⟨hu, hc, hl, hcount, he, hseen⟩ := introduce_ok h1
    have hseen' : ∀ y : Symbol, a.1.seen.getLsbD y.toNat = if y.toNat = sym.toNat then true else t.seen.getLsbD y.toNat := by
      intro y; rw [hseen, getLsbD_setBit _ _ _ _ y.isLt]
    -- every Leaf after `introduce` is the new one, or one of the tree before
    have cases_leaf : ∀ x y, a.1.has x → (a.1.get x).role = .leaf y →
        (x = a.2 ∧ y = sym ∧ (a.1.get x).weight = 0) ∨ (x ≠ a.2 ∧ t.has x ∧ a.1.get x = t.get x) := by
      intro x y hx hy
      have hg := introduce_get h1 x
      split at hg
      · rw [hg] at hy; cases hy
      · next n1 =>
        split at hg
        · next e2 => rw [hg] at hy; exact .inl ⟨e2, (Role.leaf.inj hy).symm, by rw [hg]⟩
        · next n2 =>
          split at hg
          · rw [hg] at hy; cases hy
          · refine .inr ⟨n2, ?_, hg⟩
            have a1 : x.val ≠ t.nodeCount.val + 1 := fun h => n1 (Fin.ext (h.trans he.symm))
            have a2 : x.val ≠ t.nodeCount.val := fun h => n2 (Fin.ext (h.trans hl.symm))
            simp only [Tree.has, hcount] at hx ⊢
            omega
    have hn1 : a.1.LeafWeights n := by
      refine ⟨fun x y hx hy => ?_, fun y hy => ?_⟩
      · rcases cases_leaf x y hx hy with ⟨_, rfl, hw⟩ | ⟨_, hx', hg⟩
        · rw [hw, hn.unseen y hu]
        · rw [hg] at hy ⊢; exact hn.leaf x y hx' hy
      · rw [hseen'] at hy
        split at hy
        · cases hy
        · exact hn.unseen y hy
    refine hn1.count c (fun x y hx hy => ?_) (by rw [hseen', if_pos rfl])
    rcases cases_leaf x y hx hy with ⟨rfl, rfl, _⟩ | ⟨hne, hx', hg⟩
    · exact ⟨fun _ => rfl, fun _ => rfl⟩
    · refine ⟨fun h => absurd h.symm hne, ?_⟩
      rintro rfl
      rw [hg] at hy
      have := (w.leaves.seen y).2 ⟨x, hx', hy⟩
      rw [hu] at this; cases this

end Sys2Proof.Machine
end

