-- ==== Sys2Proof/Laws/Exec.lean ====
section
/-! SUPPORT. What each meaning can do, said once: the dispatch order of spec/46_system_commands.md R262, the bodies of
`ENCODE` and `DECODE` when they end without a fault, and the frames of the decoder's internal operations. -/

namespace Sys2Proof.Machine

/-! ### Dispatch -/

theorem guarded_faulted {legal : Bool} {s : State} (body : State → Result) (h : s.engine = .faulted) :
    guarded legal s body = .next s.refuse := if_pos h

theorem guarded_illegal {s : State} (body : State → Result) (h : s.engine ≠ .faulted) :
    guarded false s body = .next (s.raiseFault .illegalCommand) := by
  simp [guarded, h]

theorem guarded_legal {s : State} (body : State → Result) (h : s.engine ≠ .faulted) :
    guarded true s body = body s := by
  simp [guarded, h]

/-- One of the three things the dispatch can do (R262). -/
theorem guarded_cases (legal : Bool) (s : State) (body : State → Result) :
    (s.engine = .faulted ∧ guarded legal s body = .next s.refuse) ∨
    (s.engine ≠ .faulted ∧ legal = false ∧ guarded legal s body = .next (s.raiseFault .illegalCommand)) ∨
    (s.engine ≠ .faulted ∧ legal = true ∧ guarded legal s body = body s) := by
  by_cases h : s.engine = .faulted
  · exact .inl ⟨h, guarded_faulted body h⟩
  · cases legal
    · exact .inr (.inl ⟨h, rfl, guarded_illegal body h⟩)
    · exact .inr (.inr ⟨h, rfl, guarded_legal body h⟩)

theorem encoderLegal_iff (s : State) : encoderLegal s = true ↔ s.engine = .active ∧ s.mode = .enc := by
  simp [encoderLegal]

theorem decoderLegal_iff (s : State) : decoderLegal s = true ↔ s.engine = .active ∧ s.mode = .dec := by
  simp [decoderLegal]

theorem registersSpecified_iff (s : State) : registersSpecified s = true ↔ s.live := by
  simp [registersSpecified, State.live]

theorem weightFull_iff (s : State) : weightFull s = true ↔ s.tree.rootWeight = s.cfg.wmax := by
  simp [weightFull]

/-- A pseudocode's end is always a next state: its own, or the fault's (R284). -/
theorem Res.finish_cases {α : Type} (r : Res α) (done : α → State → State) :
    (∃ a u, r = .ok a u ∧ r.finish done = .next (done a u)) ∨
    (∃ k u, r = .raised k u ∧ r.finish done = .next (u.raiseFault k)) := by
  cases r with
  | ok a u => exact .inl ⟨a, u, rfl, rfl⟩
  | raised k u => exact .inr ⟨k, u, rfl, rfl⟩

theorem Res.bind_ok {α β : Type} {r : Res α} {f : α → State → Res β} {b : β} {u : State} :
    r.bind f = .ok b u ↔ ∃ a v, r = .ok a v ∧ f a v = .ok b u := by
  cases r <;> simp [Res.bind]

theorem Res.bind_raised {α β : Type} {r : Res α} {f : α → State → Res β} {k : FaultKind} {u : State} :
    r.bind f = .raised k u ↔ r = .raised k u ∨ ∃ a v, r = .ok a v ∧ f a v = .raised k u := by
  cases r <;> simp [Res.bind]

theorem Res.ofTree_ok {α : Type} {s u : State} {r : Except FaultKind α} {a : α} :
    Res.ofTree s r = .ok a u ↔ r = .ok a ∧ s = u := by
  cases r <;> simp [Res.ofTree]

theorem Res.ofTree_raised {α : Type} {s u : State} {r : Except FaultKind α} {k : FaultKind} :
    Res.ofTree s r = .raised k u ↔ r = .error k ∧ s = u := by
  cases r <;> simp [Res.ofTree]

theorem exec_init (m : Mode) (st : Strategy) (s : State) :
    exec (.init m st) s = .next ((s.openStream m st).respond statusOk 0) := rfl

/-! ### `ENCODE` -/

theorem emitCode_bits (s : State) (h : Handle) (path : List Bool) (sym : Symbol) :
    emitCode s h path sym = putBits s (path ++ if h = s.tree.esc then symbolBits sym else []) := by
  unfold emitCode putSymbol
  split <;> simp [putBits_append]

/-- The body of `ENCODE` ends without a fault exactly when each of its operations does (R220). -/
theorem encodeBody_ok {sym : Symbol} {s u : State} :
    encodeBody sym s = .ok () u ↔
      weightFull s = false ∧ ∃ h path t, locate s.tree sym = .ok h ∧ pathTo s.tree h = .ok path ∧
        update s.strategy s.cfg.wmax s.tree h sym = .ok t ∧ u = (emitCode s h path sym).withTree t := by
  unfold encodeBody
  cases hw : weightFull s
  · simp only [Bool.false_eq_true, if_false, Res.bind_ok, Res.ofTree_ok]
    constructor
    · rintro ⟨h, _, ⟨hl, rfl⟩, path, _, ⟨hp, rfl⟩, t, v, ⟨hu, rfl⟩, e⟩
      cases e
      exact ⟨trivial, h, path, t, hl, hp, hu, rfl⟩
    · rintro ⟨_, h, path, t, hl, hp, hu, rfl⟩
      exact ⟨h, s, ⟨hl, rfl⟩, path, s, ⟨hp, rfl⟩, t, _, ⟨hu, rfl⟩, rfl⟩
  · simp

/-- Where the body of `ENCODE` raises a fault: at the pre-check, the search or the path code, in the state it began with,
or in the update, in the state after the code was emitted (R288, R290). -/
theorem encodeBody_raised {sym : Symbol} {s u : State} {k : FaultKind} :
    encodeBody sym s = .raised k u ↔
      (weightFull s = true ∧ k = .weightOverflow ∧ u = s) ∨
      (weightFull s = false ∧
        ((locate s.tree sym = .error k ∧ u = s) ∨
          (∃ h, locate s.tree sym = .ok h ∧ pathTo s.tree h = .error k ∧ u = s) ∨
          ∃ h path, locate s.tree sym = .ok h ∧ pathTo s.tree h = .ok path ∧
            update s.strategy s.cfg.wmax s.tree h sym = .error k ∧ u = emitCode s h path sym)) := by
  unfold encodeBody
  cases hw : weightFull s
  · simp only [Bool.false_eq_true, if_false, Res.bind_raised, Res.ofTree_ok, Res.ofTree_raised]
    constructor
    · rintro (⟨hl, rfl⟩ | ⟨h, _, ⟨hl, rfl⟩, ⟨hp, rfl⟩ | ⟨path, _, ⟨hp, rfl⟩, ⟨hu, rfl⟩ | ⟨t, v, _, e⟩⟩⟩)
      · exact .inr ⟨trivial, .inl ⟨hl, rfl⟩⟩
      · exact .inr ⟨trivial, .inr (.inl ⟨h, hl, hp, rfl⟩)⟩
      · exact .inr ⟨trivial, .inr (.inr ⟨h, path, hl, hp, hu, rfl⟩)⟩
      · cases e
    · rintro (⟨e, _⟩ | ⟨_, ⟨hl, rfl⟩ | ⟨h, hl, hp, rfl⟩ | ⟨h, path, hl, hp, hu, rfl⟩⟩)
      · cases e
      · exact .inl ⟨hl, rfl⟩
      · exact .inr ⟨h, u, ⟨hl, rfl⟩, .inl ⟨hp, rfl⟩⟩
      · exact .inr ⟨h, s, ⟨hl, rfl⟩, .inr ⟨path, s, ⟨hp, rfl⟩, .inl ⟨hu, rfl⟩⟩⟩
  · simp [eq_comm]

/-! ### `DECODE` -/

/-- `firstBit` takes the pending bit or asks the source (R240). -/
theorem firstBit_cases (s : State) :
    (s.pendValid = true ∧ firstBit s = (some s.pendBit, { s with pendValid := false })) ∨
    (s.pendValid = false ∧ firstBit s = getBitOpt s) := by
  cases h : s.pendValid <;> simp [firstBit, h]

/-- The body of `DECODE` ends without a fault exactly when each of its operations does (R240). -/
theorem decodeBody_ok {s u : State} {sym : Symbol} :
    decodeBody s = .ok sym u ↔
      weightFull s = false ∧ ∃ cur bit v w t, descend 256 root (firstBit s).1 (firstBit s).2 = .ok (cur, bit) v ∧
        landedSymbol cur (holdBit v bit) = .ok sym w ∧
        update w.strategy w.cfg.wmax w.tree cur sym = .ok t ∧ u = w.withTree t := by
  unfold decodeBody
  cases hw : weightFull s
  · simp only [Bool.false_eq_true, if_false, Res.bind_ok, Res.ofTree_ok]
    constructor
    · rintro ⟨⟨cur, bit⟩, v, hd, sym', w, hl, t, _, ⟨hu, rfl⟩, e⟩
      cases e
      exact ⟨trivial, cur, bit, v, w, t, hd, hl, hu, rfl⟩
    · rintro ⟨_, cur, bit, v, w, t, hd, hl, hu, rfl⟩
      exact ⟨(cur, bit), v, hd, sym, w, hl, t, _, ⟨hu, rfl⟩, rfl⟩
  · simp

/-- Where the body of `DECODE` raises a fault: at the pre-check, in the descent, at the landing leaf or in the update, each
time in the state that operation left (R288, R290). -/
theorem decodeBody_raised {s u : State} {k : FaultKind} :
    decodeBody s = .raised k u ↔
      (weightFull s = true ∧ k = .weightOverflow ∧ u = s) ∨
      (weightFull s = false ∧
        (descend 256 root (firstBit s).1 (firstBit s).2 = .raised k u ∨
          ∃ cur bit v, descend 256 root (firstBit s).1 (firstBit s).2 = .ok (cur, bit) v ∧
            (landedSymbol cur (holdBit v bit) = .raised k u ∨
              ∃ sym, landedSymbol cur (holdBit v bit) = .ok sym u ∧
                update u.strategy u.cfg.wmax u.tree cur sym = .error k))) := by
  unfold decodeBody
  cases hw : weightFull s
  · simp only [Bool.false_eq_true, if_false, Res.bind_raised, Res.ofTree_ok, Res.ofTree_raised]
    constructor
    · rintro (hd | ⟨⟨cur, bit⟩, v, hd, hl | ⟨sym, w, hl, ⟨hu, rfl⟩ | ⟨t, x, _, e⟩⟩⟩)
      · exact .inr ⟨trivial, .inl hd⟩
      · exact .inr ⟨trivial, .inr ⟨cur, bit, v, hd, .inl hl⟩⟩
      · exact .inr ⟨trivial, .inr ⟨cur, bit, v, hd, .inr ⟨sym, hl, hu⟩⟩⟩
      · cases e
    · rintro (⟨e, _⟩ | ⟨_, hd | ⟨cur, bit, v, hd, hl | ⟨sym, hl, hu⟩⟩⟩)
      · cases e
      · exact .inl hd
      · exact .inr ⟨(cur, bit), v, hd, .inl hl⟩
      · exact .inr ⟨(cur, bit), v, hd, .inr ⟨sym, u, hl, .inl ⟨hu, rfl⟩⟩⟩
  · simp [eq_comm]

/-- The engine registers that reading bits does not touch (R240). -/
structure State.SameStream (s u : State) : Prop where
  cfg : u.cfg = s.cfg
  tree : u.tree = s.tree
  mode : u.mode = s.mode
  strategy : u.strategy = s.strategy
  engine : u.engine = s.engine
  faultCode : u.faultCode = s.faultCode
  sink : u.sink = s.sink
  src : u.src = s.src
  channel : u.channel = s.channel
  responses : u.responses = s.responses
  freeCount : u.freeCount = s.freeCount

theorem State.SameStream.refl (s : State) : s.SameStream s := ⟨rfl, rfl, rfl, rfl, rfl, rfl, rfl, rfl, rfl, rfl, rfl⟩

theorem State.SameStream.trans {s u v : State} (a : s.SameStream u) (b : u.SameStream v) : s.SameStream v :=
  ⟨b.cfg.trans a.cfg, b.tree.trans a.tree, b.mode.trans a.mode, b.strategy.trans a.strategy,
   b.engine.trans a.engine, b.faultCode.trans a.faultCode, b.sink.trans a.sink, b.src.trans a.src,
   b.channel.trans a.channel, b.responses.trans a.responses, b.freeCount.trans a.freeCount⟩

theorem getBitOpt_same (s : State) : s.SameStream (getBitOpt s).2 := by constructor <;> simp

theorem firstBit_same (s : State) : s.SameStream (firstBit s).2 := by
  obtain ⟨_, h⟩ | ⟨_, h⟩ := firstBit_cases s <;> rw [h]
  · exact ⟨rfl, rfl, rfl, rfl, rfl, rfl, rfl, rfl, rfl, rfl, rfl⟩
  · exact getBitOpt_same s

theorem holdBit_same (s : State) (bit : Option Bool) : s.SameStream (holdBit s bit) := by
  cases bit <;> exact ⟨rfl, rfl, rfl, rfl, rfl, rfl, rfl, rfl, rfl, rfl, rfl⟩

/-- The state an operation leaves, with or without a fault. -/
def Res.state {α : Type} : Res α → State
  | .ok _ s => s
  | .raised _ s => s

theorem getBit_same (s : State) : s.SameStream (getBit s).state := by
  obtain ⟨b, _, h⟩ | ⟨_, h⟩ := getBit_cases s <;> rw [h] <;> exact getBitOpt_same s

theorem descend_same (fuel : Nat) (cur : Handle) (bit : Option Bool) (s : State) :
    s.SameStream (descend fuel cur bit s).state := by
  induction fuel generalizing cur bit s with
  | zero =>
    unfold descend
    split
    · cases bit
      · exact .refl s
      · dsimp only; split <;> exact .refl s
    · exact .refl s
  | succ fuel ih =>
    unfold descend
    split
    · cases bit
      · exact .refl s
      · dsimp only
        split
        · exact .refl s
        · exact (getBitOpt_same s).trans (ih _ _ _)
    · exact .refl s

theorem rawBits_same (k : Nat) (sym : Symbol) (s : State) : s.SameStream (rawBits k sym s).state := by
  induction k generalizing sym s with
  | zero => exact .refl s
  | succ k ih =>
    unfold rawBits
    have hg := getBit_same s
    cases h : getBit s with
    | ok b u => rw [h] at hg; exact hg.trans (ih _ _)
    | raised k u => rw [h] at hg; exact hg

theorem rawSymbol_same (s : State) : s.SameStream (rawSymbol s).state := by
  unfold rawSymbol
  split
  · have h : s.SameStream { s with pendValid := false } := ⟨rfl, rfl, rfl, rfl, rfl, rfl, rfl, rfl, rfl, rfl, rfl⟩
    exact h.trans (rawBits_same 7 _ _)
  · exact .refl s

theorem landedSymbol_same (cur : Handle) (s : State) : s.SameStream (landedSymbol cur s).state := by
  unfold landedSymbol
  split
  · exact rawSymbol_same s
  · exact .refl s
  · exact .refl s

end Sys2Proof.Machine
end

