-- ==== Sys2Proof/Laws/PerInstr.lean ====
section
/-! SUPPORT. Per command: the word of a command matches its own row of the opcode table and no other (spec/30_encoding.md
R91: "The five rows are disjoint"). -/

namespace Sys2Proof.Laws

/-- The encoded word of `i` selects the row of `i`, and among the rows of the table that one only. -/
def RowMatch.Statement (i : Instr) : Prop :=
  i.row ∈ opTable ∧ i.row.selects (encode i) = true ∧ ∀ r ∈ opTable, r.selects (encode i) = true → r = i.row

theorem RowMatch.init (m : Mode) (st : Strategy) : RowMatch.Statement (.init m st) := by
  cases m <;> cases st <;> exact ⟨by decide, by decide, by decide⟩

theorem RowMatch.encode (sym : Symbol) : RowMatch.Statement (.encode sym) := by
  refine ⟨by simp [Instr.row, opTable], ?_, ?_⟩
  · revert sym; decide +kernel
  · revert sym; decide +kernel

theorem RowMatch.flush : RowMatch.Statement .flush := ⟨by decide, by decide, by decide⟩

theorem RowMatch.decode : RowMatch.Statement .decode := ⟨by decide, by decide, by decide⟩

theorem RowMatch.rdreg (reg : Reg) : RowMatch.Statement (.rdreg reg) := by
  cases reg <;> exact ⟨by decide, by decide, by decide⟩

end Sys2Proof.Laws
end

