-- ==== Sys2Proof/Tests/Slice0.lean ====
section
/-! SUPPORT. Tests on the vectors of spec/95_test_vectors.md, each naming its vector, and for every obligation with
hypotheses a witness that meets them. -/

namespace Sys2Proof.Tests

open Sys2Proof Sys2Proof.Machine

set_option Elab.async false

/-! ### Helpers -/

/-- The state an outcome ends in. -/
def after (r : Result) : State :=
  match r with
  | .next t => t
  | .fault _ => State.reset
  | .refused _ => State.reset

/-- Is the outcome a next state? -/
def isNext (r : Result) : Bool :=
  match r with
  | .next _ => true
  | .fault _ => false
  | .refused _ => false

theorem eq_next_after {r : Result} (h : isNext r = true) : r = .next (after r) := by
  cases r with
  | next t => rfl
  | fault k => cases h
  | refused k => cases h

/-- Commands executed from a state. -/
def run (is : List Instr) (s : State) : State := (execAll is s).getD State.reset

/-- An encoder that has encoded `syms`. -/
def encoder (st : Strategy) (syms : List Symbol) : State := run (.init .enc st :: syms.map .encode) State.reset

/-- A decoder of a source, after `n` `DECODE`s. -/
def decoder (st : Strategy) (bytes : List Byte) (n : Nat) : State :=
  run (.init .dec st :: List.replicate n .decode) (State.reset.attachSource bytes)

/-- The state after one more command. -/
def next (i : Instr) (s : State) : State := after (exec i s)

/-- What `RDREG` answers. -/
def readReg (reg : Reg) (s : State) : Option Response := (next (.rdreg reg) s).responses.getLast?

/-- A line of a tree as the vectors write it: handle, role, weight, parent, left child. -/
structure Row where
  h : Nat
  role : Role
  w : Nat
  parent : Option Handle
  isLeft : Bool
deriving DecidableEq, Repr

/-- The tree in rank order. -/
def rows (t : Tree) : List Row :=
  (List.range t.nodeCount.val).filterMap fun r =>
    match nodeAtRank t (r + 1) with
    | .ok h =>
      let n := t.get h
      some { h := h.val, role := n.role, w := n.weight, parent := n.parent, isLeft := n.isLeft }
    | .error _ => none

/-- Sink, `ACC`, `CNT`, `BYTE_COUNT`. -/
def buffer (s : State) : List Byte × BitVec 8 × BitVec 4 × BitVec 64 := (s.sink, s.acc, s.cnt, s.byteCount)

/-- The last response. -/
def answer (s : State) : Option Response := s.responses.getLast?

/-- A value, if the operation did not raise a fault. -/
def value {α : Type} (r : Except FaultKind α) : Option α := r.toOption

/-- The fault an operation raised. -/
def raisedFault {α : Type} (r : Except FaultKind α) : Option FaultKind :=
  match r with
  | .ok _ => none
  | .error k => some k

/-- The tree T2 of section 2.2. -/
def t2 : Tree := (encoder .fgk [0x41, 0x42]).tree

/-! ### Encodings (section 2.7; the words bit by bit from R90, R91: op, rsv, arg) -/

theorem test_decode_init_enc_fgk : decode (0b0001#4 ++ 0b0000#4 ++ 0b000000#6 ++ 0b0#1 ++ 0b0#1) = .ok (.init .enc .fgk) := by decide
theorem test_decode_init_dec_fgk : decode (0b0001#4 ++ 0b0000#4 ++ 0b000000#6 ++ 0b0#1 ++ 0b1#1) = .ok (.init .dec .fgk) := by decide
theorem test_decode_init_enc_vitter : decode (0b0001#4 ++ 0b0000#4 ++ 0b000000#6 ++ 0b1#1 ++ 0b0#1) = .ok (.init .enc .vitter) := by decide
theorem test_decode_encode : decode (0b0010#4 ++ 0b0000#4 ++ 0b01000001#8) = .ok (.encode 0x41) := by decide
theorem test_decode_encode_top : decode (0b0010#4 ++ 0b0000#4 ++ 0b11111110#8) = .ok (.encode 0xFE) := by decide
theorem test_decode_flush : decode (0b0011#4 ++ 0b0000#4 ++ 0b00000000#8) = .ok .flush := by decide
theorem test_decode_decode : decode (0b0100#4 ++ 0b0000#4 ++ 0b00000000#8) = .ok .decode := by decide
theorem test_decode_rdreg_byteCount : decode (0b0101#4 ++ 0b0000#4 ++ 0b000000#6 ++ 0b01#2) = .ok (.rdreg .byteCount) := by decide
theorem test_decode_rdreg_symCount : decode (0b0101#4 ++ 0b0000#4 ++ 0b000000#6 ++ 0b10#2) = .ok (.rdreg .symCount) := by decide

/-- WellFormed smoke: one ill-formed word for each check of R93, which the check refuses. -/
theorem test_wellFormed_refuses :
    CmdWord.wellFormed 0x0000 = false ∧ CmdWord.wellFormed 0x6000 = false ∧ CmdWord.wellFormed 0xFFFF = false ∧
    CmdWord.wellFormed 0x2141 = false ∧ CmdWord.wellFormed 0x1100 = false ∧ CmdWord.wellFormed 0x1004 = false ∧
    CmdWord.wellFormed 0x3001 = false ∧ CmdWord.wellFormed 0x4001 = false ∧ CmdWord.wellFormed 0x5004 = false := by decide

theorem test_wellFormed_accepts :
    CmdWord.wellFormed 0x1003 = true ∧ CmdWord.wellFormed 0x20FF = true ∧ CmdWord.wellFormed 0x3000 = true ∧
    CmdWord.wellFormed 0x4000 = true ∧ CmdWord.wellFormed 0x5003 = true := by decide

theorem test_illegal_words_named :
    decode 0xF000 = .error .noSuchOperation ∧ decode 0x2F00 = .error .reservedNonzero ∧
    decode 0x10FF = .error .argNonzero ∧ decode 0x40FF = .error .argNonzero ∧ decode 0x50FF = .error .argNonzero := by decide

theorem test_decodeTableWord : decodeTableWord 16 0x2041 = some (.encode 0x41) ∧ decodeTableWord 16 0x6000 = none := by decide

/-- A word placed by `withFetchWord` is the one the next step runs (legality: `ENCODE` in `UNINIT` faults, R267). -/
theorem test_withFetchWord_runs :
    (after (step (State.reset.withFetchWord 16 0x1003))).engine = .active ∧
    answer (after (step (State.reset.withFetchWord 16 0x2041))) = some { status := 1, data := 0 } := by decide +kernel

/-! ### INIT and RDREG (R260, section 2.7) -/

theorem test_init_status : readReg .status (run [.init .dec .vitter] State.reset) = some { status := 0, data := 0x000D } := by
  decide +kernel

theorem test_rdreg_status_pending : readReg .status (decoder .fgk [0x41, 0x50, 0x80] 2) = some { status := 0, data := 0x3605 } := by
  decide +kernel

theorem test_rdreg_counts :
    readReg .byteCount (encoder .fgk [0x41, 0x41, 0x42]) = some { status := 0, data := 2 } ∧
    readReg .symCount (encoder .fgk [0x41, 0x41, 0x42]) = some { status := 0, data := 3 } ∧
    readReg .nodeCount (encoder .fgk [0x41, 0x41, 0x42]) = some { status := 0, data := 5 } := by decide +kernel

/-- R267: `INIT` clears a fault. -/
theorem test_init_clears_fault :
    (run [.encode 0x41, .init .enc .fgk] State.reset).engine = .active ∧
    (run [.encode 0x41, .init .enc .fgk] State.reset).faultCode = 0 := by decide +kernel

/-! ### The bit stream (section 2.1) -/

/-- B2, B3. -/
theorem test_putBit :
    buffer (putBits { State.reset with acc := 0x80, cnt := 1 } [false, true]) = ([], 0xA0, 3, 0) ∧
    buffer (putBit { State.reset with acc := 0xFE, cnt := 7, byteCount := 4 } true) = ([0xFF], 0, 0, 5) := by decide +kernel

/-- B5, B6. -/
theorem test_putSymbol :
    buffer (putSymbol { State.reset with acc := 0, cnt := 1 } 0x42) = ([0x21], 0, 1, 1) ∧
    buffer (putSymbol { State.reset with acc := 0x80, cnt := 1 } 0xFF) = ([0xFF], 0x80, 1, 1) := by decide +kernel

/-- B11, B14. -/
theorem test_getBitOpt :
    (getBitOpt (getBitOpt { State.reset with acc := 0x50, cnt := 1, byteCount := 1, src := [0x80] }).2).1 = some true ∧
    (getBitOpt { State.reset with acc := 1, cnt := 1 }).1 = some true ∧
    (getBitOpt { State.reset with acc := 1, cnt := 1 }).2.byteCount = 0 := by decide +kernel

/-! ### The tree (section 2.2) -/

/-- T1, T4. -/
theorem test_locate :
    value (nodeAtRank t2 4) = some 3 ∧ value (locate t2 0x42) = some 3 ∧ value (locate t2 0x43) = some 4 := by decide +kernel

/-- T5, T6. -/
theorem test_pathTo_lowestRank :
    value (pathTo t2 3) = some [true, false] ∧ value (pathTo t2 0) = some [] ∧
    value (lowestRank t2 1 true) = some 1 ∧ value (lowestRank t2 0 true) = some 4 := by decide +kernel

/-- T8: siblings are swapped. -/
theorem test_swap_siblings : (value (swapPositions t2 1 2)).map rows = some
    [ ⟨0, .internal, 2, none, false⟩, ⟨2, .internal, 1, some 0, true⟩, ⟨1, .leaf 0x41, 1, some 0, false⟩,
      ⟨3, .leaf 0x42, 1, some 2, true⟩, ⟨4, .escape, 0, some 2, false⟩ ] := by decide +kernel

/-- T9. -/
theorem test_swap_refused :
    raisedFault (swapPositions t2 2 3) = some .invariantViolation ∧ raisedFault (swapPositions t2 0 1) = some .invariantViolation ∧
    raisedFault (swapPositions t2 1 1) = some .invariantViolation := by decide +kernel

/-- T10, T11. -/
theorem test_introduce :
    (value (introduce t2 0x43)).map (fun r => (rows r.1, r.2)) = some
      ([ ⟨0, .internal, 2, none, false⟩, ⟨1, .leaf 0x41, 1, some 0, true⟩, ⟨2, .internal, 1, some 0, false⟩,
         ⟨3, .leaf 0x42, 1, some 2, true⟩, ⟨4, .internal, 0, some 2, false⟩, ⟨5, .leaf 0x43, 0, some 4, true⟩,
         ⟨6, .escape, 0, some 4, false⟩ ], 5) ∧
    raisedFault (introduce t2 0x41) = some .invariantViolation := by decide +kernel

/-- T12. -/
theorem test_incWeight_overflow : raisedFault (incWeight 1 t2 1) = some .weightOverflow := by decide +kernel

/-! ### ENCODE and FLUSH (sections 2.3 to 2.5) -/

/-- F6. -/
theorem test_encode_fgk :
    buffer (encoder .fgk [0x41, 0x42, 0x43, 0x43]) = ([0x41, 0xA1, 0x68], 0x68, 6, 3) ∧
    rows (encoder .fgk [0x41, 0x42, 0x43, 0x43]).tree =
      [ ⟨0, .internal, 4, none, false⟩, ⟨2, .internal, 2, some 0, true⟩, ⟨5, .leaf 0x43, 2, some 0, false⟩,
        ⟨3, .leaf 0x42, 1, some 2, true⟩, ⟨4, .internal, 1, some 2, false⟩, ⟨1, .leaf 0x41, 1, some 4, true⟩,
        ⟨6, .escape, 0, some 4, false⟩ ] := by decide +kernel

/-- V7. -/
theorem test_encode_vitter :
    buffer (encoder .vitter [0x41, 0x42, 0x43, 0x42]) = ([0x41, 0xA1, 0x28], 0x68, 5, 3) ∧
    rows (encoder .vitter [0x41, 0x42, 0x43, 0x42]).tree =
      [ ⟨0, .internal, 4, none, false⟩, ⟨2, .internal, 2, some 0, true⟩, ⟨3, .leaf 0x42, 2, some 0, false⟩,
        ⟨4, .internal, 1, some 2, true⟩, ⟨1, .leaf 0x41, 1, some 2, false⟩, ⟨5, .leaf 0x43, 1, some 4, true⟩,
        ⟨6, .escape, 0, some 4, false⟩ ] := by decide +kernel

/-- E4, E5. -/
theorem test_flush :
    buffer (next .flush (encoder .fgk [0x41, 0x41, 0x42])) = ([0x41, 0x50, 0x80], 0, 0, 3) ∧
    answer (next .flush (next .flush (encoder .fgk [0x41, 0x41, 0x42]))) = some { status := 1, data := 0 } := by decide +kernel

/-- E7: nothing buffered, nothing written. -/
theorem test_flush_empty :
    buffer (next .flush (encoder .fgk [])) = ([], 0, 0, 0) ∧ (next .flush (encoder .fgk [])).engine = .flushed := by decide +kernel

/-! ### DECODE (section 2.6) -/

/-- D-series row 3: the pending bit is a branch bit, the lookahead a raw bit. -/
theorem test_decode_escape :
    answer (decoder .fgk [0x41, 0x50, 0x80] 3) = some { status := 0, data := 0x42 } ∧
    (decoder .fgk [0x41, 0x50, 0x80] 3).cnt = 6 ∧ (decoder .fgk [0x41, 0x50, 0x80] 3).byteCount = 3 ∧
    (decoder .fgk [0x41, 0x50, 0x80] 3).pendValid = false := by decide +kernel

/-- D4: the Escape path followed by a symbol already seen. -/
theorem test_decode_seen_symbol :
    answer (decoder .vitter [0x41, 0xA0, 0x80] 2) = some { status := 3, data := 0 } ∧
    (decoder .vitter [0x41, 0xA0, 0x80] 2).srcPos = 3 := by decide +kernel

/-! ### Witnesses: for each obligation with hypotheses, concrete values that meet all of them -/

/-- The tree of F5: seven nodes, FGK. -/
def t3 : Tree := (encoder .fgk [0x41, 0x42, 0x43]).tree

/-- The tree of V5: seven nodes, Vitter. -/
def v3 : Tree := (encoder .vitter [0x41, 0x42, 0x43]).tree

theorem t2_coding : t2.Coding .fgk := Tree.checkCoding_sound (by decide +kernel)
theorem t3_coding : t3.Coding .fgk := Tree.checkCoding_sound (by decide +kernel)
theorem v3_coding : v3.Coding .vitter := Tree.checkCoding_sound (by decide +kernel)

/-- The hypothesis of a statement about a completed command: the outcome is this next state. -/
theorem exec_eq_next {i : Instr} {s : State} (h : isNext (exec i s) = true) : exec i s = .next (next i s) := eq_next_after h

theorem bufferOk_of {s : State} (h : (decide (s.cnt.toNat < 8) && (List.range 8).all (fun i =>
    !decide (i < 8 - s.cnt.toNat) || !s.acc.getLsbD i)) = true) : s.BufferOk := by
  simp only [Bool.and_eq_true, decide_eq_true_eq, List.all_eq_true, List.mem_range, Bool.or_eq_true,
    Bool.not_eq_true', decide_eq_false_iff_not] at h
  exact ⟨h.1, fun i hi => (h.2 i (by omega)).resolve_left (fun hn => hn hi)⟩

theorem exists_ok {α : Type} {r : Except FaultKind α} (h : (value r).isSome = true) : ∃ u, r = .ok u := by
  cases r with
  | ok u => exact ⟨u, rfl⟩
  | error k => cases h

theorem witness_EncodeOfDecode : decode 0x20FF = .ok (.encode 0xFF) := by decide

/-- The clauses of `StepRunsDecodedCommand`: a word that decodes, and one that does not. -/
theorem witness_StepRunsDecodedCommand :
    (State.reset.issueWord 0x1003).channel = .command 0x1003 :: [] ∧ decode 0x1003 = .ok (.init .dec .vitter) ∧
    (State.reset.issueWord 0xFFFF).channel = .command 0xFFFF :: [] ∧ decode 0xFFFF = .error .noSuchOperation ∧
    (State.reset.issueWord 0xFFFF).engine ≠ .faulted ∧
    (({ State.reset with engine := .faulted, faultCode := 1 } : State).issueWord 0xFFFF).engine = .faulted := by decide

theorem reset_controlOk : State.reset.ControlOk :=
  ⟨fun _ => rfl, fun h => absurd h (by decide), fun h => absurd h (by decide),
   fun h => absurd h (by simp [State.live, State.reset]), fun h => absurd h (by simp [State.live, State.reset])⟩

/-- In `FAULTED`: the engine after `ENCODE` in `UNINIT` (R267). -/
def broken : State := next (.encode 0x41) State.reset

theorem broken_controlOk : broken.ControlOk :=
  ⟨fun h => absurd (show broken.engine = .faulted by decide +kernel) h,
   fun _ => ⟨.illegalCommand, by decide +kernel⟩, fun h => absurd h (by decide +kernel),
   fun h => by rcases h with h | h <;> exact absurd h (by decide +kernel),
   fun h => by rcases h with h | h <;> exact absurd h (by decide +kernel)⟩

/-- An encoder with 2 bits buffered. -/
theorem encoder_controlOk : (encoder .fgk [0x41, 0x41, 0x42]).ControlOk :=
  ⟨fun _ => by decide +kernel, fun h => absurd h (by decide +kernel), fun h => absurd h (by decide +kernel),
   fun _ _ => ⟨bufferOk_of (by decide +kernel), by decide +kernel, by decide +kernel⟩,
   fun _ h => absurd h (by decide +kernel)⟩

/-- A decoder with a pending bit. -/
theorem decoder_controlOk : (decoder .fgk [0x41, 0x50, 0x80] 2).ControlOk :=
  ⟨fun _ => by decide +kernel, fun h => absurd h (by decide +kernel), fun h => absurd h (by decide +kernel),
   fun _ h => absurd h (by decide +kernel), fun _ _ => by decide +kernel⟩

/-- The clauses of `OneResponsePerWord`: `RDREG`, `INIT`, and any other word, on states that meet its hypothesis. -/
theorem witness_OneResponsePerWord :
    State.reset.ControlOk ∧ broken.ControlOk ∧ (decoder .fgk [0x41, 0x50, 0x80] 2).ControlOk ∧
    decode 0x5000 = .ok (.rdreg .status) ∧ decode 0x1000 = .ok (.init .enc .fgk) ∧ decode 0x4000 = .ok .decode ∧
    decode 0xFFFF = .error .noSuchOperation :=
  ⟨reset_controlOk, broken_controlOk, decoder_controlOk, by decide, by decide, by decide, by decide⟩

/-- An illegal encoding; and the cells of R263 that fault: `UNINIT`, the wrong direction, `FLUSHED`. -/
theorem witness_IllegalCommandFaults :
    (State.reset.issueWord 0x6000).channel = .command 0x6000 :: [] ∧ State.reset.engine ≠ .faulted ∧
    (∃ e, decode 0x6000 = .error e) ∧ legalNow (.encode 0x41) State.reset = false ∧
    legalNow .decode (encoder .fgk []) = false ∧ legalNow .flush (decoder .fgk [] 0) = false ∧
    legalNow .flush (next .flush (encoder .fgk [])) = false ∧ (encoder .fgk []).engine ≠ .faulted ∧
    (next .flush (encoder .fgk [])).engine ≠ .faulted ∧ (decoder .fgk [] 0).engine ≠ .faulted :=
  ⟨by decide, by decide, ⟨.noSuchOperation, by decide⟩, by decide, by decide +kernel, by decide +kernel,
   by decide +kernel, by decide +kernel, by decide +kernel, by decide +kernel⟩

theorem witness_FaultedRefuses :
    (State.reset.engine ≠ .faulted ∧ runWord 0x2041 State.reset = .next (after (runWord 0x2041 State.reset)) ∧
      (after (runWord 0x2041 State.reset)).engine = .faulted) ∧
    broken.engine = .faulted ∧ (∃ e, decode 0xFFFF = .error e) ∧
    (∃ i, decode 0x3000 = .ok i ∧ isStreamCommand i = true) ∧ decode 0x5003 = .ok (.rdreg .nodeCount) ∧
    decode 0x1001 = .ok (.init .dec .fgk) :=
  ⟨⟨by decide, eq_next_after (by decide +kernel), by decide +kernel⟩, by decide +kernel, ⟨.noSuchOperation, by decide⟩,
   ⟨.flush, by decide, by decide⟩, by decide, by decide⟩

/-- Each clause of `StateTransitions`: `INIT`, `RDREG`, and another word in each of the four states. -/
theorem witness_StateTransitions :
    runWord 0x1000 State.reset = .next (after (runWord 0x1000 State.reset)) ∧
    runWord 0x5000 State.reset = .next (after (runWord 0x5000 State.reset)) ∧
    runWord 0x4000 State.reset = .next (after (runWord 0x4000 State.reset)) ∧
    runWord 0x3000 (encoder .fgk [0x41]) = .next (after (runWord 0x3000 (encoder .fgk [0x41]))) ∧
    runWord 0x3000 (next .flush (encoder .fgk [])) = .next (after (runWord 0x3000 (next .flush (encoder .fgk [])))) ∧
    runWord 0x3000 broken = .next (after (runWord 0x3000 broken)) ∧
    (encoder .fgk [0x41]).engine = .active ∧ (next .flush (encoder .fgk [])).engine = .flushed ∧
    State.reset.engine = .uninit ∧ broken.engine = .faulted :=
  ⟨eq_next_after (by decide +kernel), eq_next_after (by decide +kernel), eq_next_after (by decide +kernel),
   eq_next_after (by decide +kernel), eq_next_after (by decide +kernel), eq_next_after (by decide +kernel),
   by decide +kernel, by decide +kernel, by decide, by decide +kernel⟩

/-- D3: the second `DECODE` faults. -/
theorem witness_FaultEntry :
    runWord 0x4000 (decoder .fgk [0x41] 1) = .next (after (runWord 0x4000 (decoder .fgk [0x41] 1))) ∧
    (decoder .fgk [0x41] 1).engine ≠ .faulted ∧
    (after (runWord 0x4000 (decoder .fgk [0x41] 1))).engine = .faulted :=
  ⟨eq_next_after (by decide +kernel), by decide +kernel, by decide +kernel⟩

theorem witness_HardwareResetStep : ({ encoder .fgk [0x41] with channel := [.reset] } : State).channel = .reset :: [] := rfl

theorem witness_ResetDuringCommand :
    ({ encoder .fgk [0x41] with channel := [.resetDuring 0x2042 1] } : State).channel = .resetDuring 0x2042 1 :: [] := rfl

theorem witness_InitErasesThePast :
    broken.cfg = State.reset.cfg ∧ exec (.init .enc .fgk) broken = .next (next (.init .enc .fgk) broken) ∧
    exec (.init .enc .fgk) State.reset = .next (next (.init .enc .fgk) State.reset) :=
  ⟨by decide +kernel, exec_eq_next (by decide +kernel), exec_eq_next (by decide +kernel)⟩

/-- `ACTIVE`, `FLUSHED`, and the bound on the root weight. -/
theorem witness_RdregValue :
    (encoder .fgk [0x41]).live ∧ (next .flush (encoder .fgk [0x41])).live ∧ (encoder .fgk [0x41]).tree.rootWeight < 2 ^ 64 :=
  ⟨.inl (by decide +kernel), .inr (by decide +kernel), by decide +kernel⟩

/-- `UNINIT` and `FAULTED`. -/
theorem witness_RdregUnspecified : ¬ State.reset.live ∧ ¬ broken.live :=
  ⟨by rintro (h | h) <;> exact absurd h (by decide), by rintro (h | h) <;> exact absurd h (by decide +kernel)⟩

/-- An empty buffer and one of 7 bits. -/
theorem witness_PutBitsEmits : State.reset.BufferOk ∧ ({ State.reset with acc := 0xFE, cnt := 7 } : State).BufferOk :=
  ⟨bufferOk_of (by decide), bufferOk_of (by decide)⟩

theorem witness_PutSymbolWritesOneByte :
    State.reset.BufferOk ∧ ({ State.reset with acc := 0x80, cnt := 1 } : State).BufferOk :=
  ⟨bufferOk_of (by decide), bufferOk_of (by decide)⟩

/-- The clauses of `FlushBitsPads`: nothing buffered; 1 and 7 bits buffered. -/
theorem witness_FlushBitsPads :
    (State.reset.BufferOk ∧ State.reset.cnt = 0) ∧
    (({ State.reset with acc := 0x80, cnt := 1 } : State).BufferOk ∧ ({ State.reset with acc := 0x80, cnt := 1 } : State).cnt ≠ 0) ∧
    ({ State.reset with acc := 0xFE, cnt := 7 } : State).BufferOk :=
  ⟨⟨bufferOk_of (by decide), by decide⟩, ⟨bufferOk_of (by decide), by decide⟩, bufferOk_of (by decide)⟩

/-- The clauses of `GetBitDelivers`: end of data; a byte to read; 1 and 8 bits left. -/
theorem witness_GetBitDelivers :
    State.reset.cnt.toNat ≤ 8 ∧ State.reset.bitsAhead = [] ∧
    ({ State.reset with src := [0x80] } : State).bitsAhead = true :: List.replicate 7 false ∧
    ({ State.reset with src := [0x80] } : State).src[0]? = some 0x80 ∧
    ({ State.reset with acc := 1, cnt := 1 } : State).bitsAhead = true :: [] ∧
    ({ State.reset with acc := 1, cnt := 1 } : State).cnt.toNat = 0 + 1 ∧
    ({ State.reset with acc := 1, cnt := 8 } : State).cnt.toNat = 7 + 1 ∧
    ({ State.reset with acc := 1, cnt := 8 } : State).cnt.toNat ≤ 8 := by decide

/-- The clauses of `IntroduceResult`, at both ends of the node count: 1 node, the last pair that fits, one that does not,
and a symbol already seen. -/
theorem witness_IntroduceResult :
    t2.seen.getLsbD (0x41 : Symbol).toNat = true ∧
    (({ Tree.fresh with nodeCount := ⟨513, by decide⟩ } : Tree).seen.getLsbD (0x41 : Symbol).toNat = false ∧
      513 < ({ Tree.fresh with nodeCount := ⟨513, by decide⟩ } : Tree).nodeCount.val + 2) ∧
    (({ Tree.fresh with nodeCount := ⟨511, by decide⟩ } : Tree).nodeCount.val + 2 ≤ 513 ∧
      ({ Tree.fresh with nodeCount := ⟨511, by decide⟩ } : Tree).has root) ∧
    (Tree.fresh.seen.getLsbD (0x41 : Symbol).toNat = false ∧ Tree.fresh.nodeCount.val + 2 ≤ 513 ∧ Tree.fresh.has Tree.fresh.esc) :=
  ⟨by decide +kernel, ⟨by decide, by decide⟩, ⟨by decide, by unfold Tree.has; decide⟩,
   by decide, by decide, by unfold Tree.has; decide⟩

/-- T7. -/
theorem witness_SwapExchangesPositions :
    t2.WellFormed ∧ t2.has 3 ∧ t2.has 1 ∧ ∃ u, swapPositions t2 3 1 = .ok u :=
  ⟨t2_coding.wf, by unfold Tree.has; decide +kernel, by unfold Tree.has; decide +kernel,
   exists_ok (by decide +kernel)⟩

/-- T9 for the refused pairs. Two nodes of which neither is above the other: the Leaves 1 and 3 of T2, which have no
child. -/
theorem witness_SwapGuards :
    t2.WellFormed ∧ (t2.has 0 ∧ t2.has 1 ∧ t2.has 2 ∧ t2.has 3) ∧ t2.walk 2 [false] = some 3 ∧ t2.walk 1 [] = some 1 ∧
    (∀ path, t2.walk 1 path ≠ some 3) ∧ ∀ path, t2.walk 3 path ≠ some 1 := by
  refine ⟨t2_coding.wf, by unfold Tree.has; decide +kernel, by decide +kernel, rfl, ?_, ?_⟩
  · rintro (_ | ⟨b, bs⟩) h
    · exact absurd (Option.some.inj h) (by decide)
    · have : t2.child 1 b = none := by cases b <;> decide +kernel
      rw [Tree.walk_cons, this] at h
      have h' : (none : Option Handle) = some 3 := h
      cases h'
  · rintro (_ | ⟨b, bs⟩) h
    · exact absurd (Option.some.inj h) (by decide)
    · have : t2.child 3 b = none := by cases b <;> decide +kernel
      rw [Tree.walk_cons, this] at h
      have h' : (none : Option Handle) = some 1 := h
      cases h'

theorem witness_PathLeadsToTheNode : t2.WellFormed ∧ t2.has 4 ∧ t2.has root :=
  ⟨t2_coding.wf, by unfold Tree.has; decide +kernel, by unfold Tree.has; decide +kernel⟩

theorem witness_LeafCodesPrefixFreeAndComplete :
    t2.WellFormed ∧ t2.has 3 ∧ (t2.get 3).role ≠ .internal ∧ t2.walk root [true, false] = some 3 ∧
    t2.walk root ([true, false] ++ []) = some 3 ∧ 256 ≤ (List.replicate 256 true).length :=
  ⟨t2_coding.wf, by unfold Tree.has; decide +kernel, by decide +kernel, by decide +kernel, by decide +kernel,
   Nat.le_of_eq (List.length_replicate).symm⟩

/-- A slide of two places on the tree of F5: node 4 from rank 5 to rank 3; and the empty slide. -/
theorem witness_SlideNetEffect :
    t3.WellFormed ∧ t3.has 4 ∧ (t3.get 4).rank = 5 ∧ (∃ u, slide t3 4 3 = .ok u) ∧ ∃ u, slide t3 4 5 = .ok u :=
  ⟨t3_coding.wf, by unfold Tree.has; decide +kernel, by decide +kernel, exists_ok (by decide +kernel),
   exists_ok (by decide +kernel)⟩

theorem witness_EscapeSiblingIsLeaf : t2.WellFormed ∧ t2.SiblingProperty ∧ 1 < t2.nodeCount.val :=
  ⟨t2_coding.wf, t2_coding.siblings, by decide +kernel⟩

theorem eq_ok_of {α : Type} [DecidableEq α] {r : Except FaultKind α} {a : α} (h : value r = some a) : r = .ok a := by
  cases r with
  | ok b => exact congrArg Except.ok (Option.some.inj h)
  | error k => cases h

/-- A seen and an unseen symbol. -/
theorem witness_FgkUpdateKeepsCoding :
    t3.Coding .fgk ∧ t3.rootWeight < 4 ∧ locate t3 0x43 = .ok 5 ∧ locate t3 0x44 = .ok 6 :=
  ⟨t3_coding, by decide +kernel, eq_ok_of (by decide +kernel), eq_ok_of (by decide +kernel)⟩

theorem witness_VitterUpdateKeepsCoding :
    v3.Coding .vitter ∧ v3.rootWeight < 4 ∧ locate v3 0x42 = .ok 3 ∧ locate v3 0x44 = .ok 6 :=
  ⟨v3_coding, by decide +kernel, eq_ok_of (by decide +kernel), eq_ok_of (by decide +kernel)⟩

/-! ENCODE and FLUSH: the encoder after F5, which has 3 bits buffered. -/

def e3 : State := encoder .fgk [0x41, 0x42, 0x43]

theorem e3_bufferOk : e3.BufferOk := bufferOk_of (by decide +kernel)
theorem e3_active : e3.engine = .active ∧ e3.mode = .enc ∧ e3.strategy = .fgk := by decide +kernel

theorem witness_EncodeResult :
    e3.engine = .active ∧ e3.mode = .enc ∧ e3.BufferOk ∧ exec (.encode 0x44) e3 = .next (next (.encode 0x44) e3) ∧
    e3.succeeded (next (.encode 0x44) e3) :=
  ⟨e3_active.1, e3_active.2.1, e3_bufferOk, exec_eq_next (by decide +kernel), 0, by decide +kernel⟩

theorem witness_EncodeFirstSymbol : 1 ≤ State.reset.cfg.weightW := by decide

theorem witness_EncodeCompletes :
    e3.engine = .active ∧ e3.mode = .enc ∧ e3.tree.Coding e3.strategy ∧ e3.BufferOk ∧ e3.tree.rootWeight < e3.cfg.wmax :=
  ⟨e3_active.1, e3_active.2.1, by rw [e3_active.2.2]; exact t3_coding, e3_bufferOk, by decide +kernel⟩

theorem witness_EncodeBounds :
    e3.engine = .active ∧ e3.mode = .enc ∧ e3.BufferOk ∧ e3.tree.WellFormed ∧
    exec (.encode 0x43) e3 = .next (next (.encode 0x43) e3) ∧ e3.succeeded (next (.encode 0x43) e3) :=
  ⟨e3_active.1, e3_active.2.1, e3_bufferOk, t3_coding.wf, exec_eq_next (by decide +kernel), 0, by decide +kernel⟩

/-- With a symbol already seen, for the last clause. -/
theorem witness_EncodeFrame :
    exec (.encode 0x43) e3 = .next (next (.encode 0x43) e3) ∧ e3.tree.seen.getLsbD (0x43 : Symbol).toNat = true ∧
    e3.tree.WellFormed :=
  ⟨exec_eq_next (by decide +kernel), by decide +kernel, t3_coding.wf⟩

/-- Nothing buffered, and 3 bits buffered. -/
theorem witness_FlushCompletes :
    ((encoder .fgk []).engine = .active ∧ (encoder .fgk []).mode = .enc ∧ (encoder .fgk []).BufferOk) ∧
    (e3.engine = .active ∧ e3.mode = .enc ∧ e3.BufferOk ∧ e3.cnt = 3) :=
  ⟨⟨by decide +kernel, by decide +kernel, bufferOk_of (by decide +kernel)⟩,
   e3_active.1, e3_active.2.1, e3_bufferOk, by decide +kernel⟩

/-! DECODE: the D-series, `41 50 80`. -/

def d2 : State := decoder .fgk [0x41, 0x50, 0x80] 2

theorem d2_active : d2.engine = .active ∧ d2.mode = .dec ∧ d2.strategy = .fgk ∧ d2.cnt.toNat ≤ 8 := by decide +kernel
theorem d2_coding : d2.tree.Coding .fgk := Tree.checkCoding_sound (by decide +kernel)

theorem witness_DecodeResult :
    d2.engine = .active ∧ d2.mode = .dec ∧ d2.tree.WellFormed ∧ d2.cnt.toNat ≤ 8 ∧
    exec .decode d2 = .next (next .decode d2) ∧ d2.succeeded (next .decode d2) :=
  ⟨d2_active.1, d2_active.2.1, d2_coding.wf, d2_active.2.2.2, exec_eq_next (by decide +kernel), 0x42, by decide +kernel⟩

theorem witness_DecodeFirstSymbol :
    1 ≤ (State.reset.attachSource [0xFF]).cfg.weightW ∧
    (State.reset.attachSource [0xFF]).src[(State.reset.attachSource [0xFF]).srcPos]? = some 0xFF := by decide

/-- A decoder of one byte `00`, after its first symbol, with the next byte `00`: the Leaf's code `'0'`. -/
def d1 : State := decoder .fgk [0x00, 0x00] 1

/-- Both clauses of `DecodeCompletes`: a Leaf's code; the Escape path and an unseen symbol (row 3 of the D-series). -/
theorem witness_DecodeCompletes :
    (d1.engine = .active ∧ d1.mode = .dec ∧ d1.tree.Coding d1.strategy ∧ d1.cnt.toNat ≤ 8 ∧
      d1.tree.rootWeight < d1.cfg.wmax ∧ d1.tree.has 1 ∧ d1.tree.walk root [false] = some 1 ∧
      (d1.tree.get 1).role = .leaf 0x00 ∧ d1.bitsLeft = [false] ++ List.replicate 7 false) ∧
    (d2.engine = .active ∧ d2.mode = .dec ∧ d2.tree.Coding d2.strategy ∧ d2.cnt.toNat ≤ 8 ∧
      d2.tree.rootWeight < d2.cfg.wmax ∧ d2.tree.has d2.tree.esc ∧ d2.tree.walk root [true] = some d2.tree.esc ∧
      d2.tree.seen.getLsbD (0x42 : Symbol).toNat = false ∧
      d2.bitsLeft = [true] ++ symbolBits 0x42 ++ List.replicate 6 false) := by
  have h1 : d1.strategy = .fgk := by decide +kernel
  refine ⟨⟨by decide +kernel, by decide +kernel, by rw [h1]; exact Tree.checkCoding_sound (by decide +kernel),
    by decide +kernel, by decide +kernel, by unfold Tree.has; decide +kernel, by decide +kernel, by decide +kernel,
    by decide +kernel⟩, d2_active.1, d2_active.2.1, by rw [d2_active.2.2.1]; exact d2_coding, d2_active.2.2.2,
    by decide +kernel, by unfold Tree.has; decide +kernel, by decide +kernel, by decide +kernel, by decide +kernel⟩

/-- D3 and D2: the bits end at the Internal root; the bits end inside the raw symbol. -/
def x1 : State := decoder .fgk [0x41] 1
def x2 : State := decoder .fgk [0x41, 0x50] 2

theorem witness_DecodeExhausted :
    (x1.engine = .active ∧ x1.mode = .dec ∧ x1.tree.WellFormed ∧ x1.cnt.toNat ≤ 8 ∧ x1.tree.rootWeight ≠ x1.cfg.wmax ∧
      x1.tree.walk root x1.bitsLeft = some root ∧ (x1.tree.get root).role = .internal) ∧
    (x2.engine = .active ∧ x2.mode = .dec ∧ x2.tree.WellFormed ∧ x2.cnt.toNat ≤ 8 ∧ x2.tree.rootWeight ≠ x2.cfg.wmax ∧
      x2.tree.walk root [true] = some x2.tree.esc ∧ x2.bitsLeft = [true] ++ [false, true, false, false, false, false]) :=
  ⟨⟨by decide +kernel, by decide +kernel, Tree.checkWellFormed_sound (by decide +kernel), by decide +kernel,
    by decide +kernel, by decide +kernel, by decide +kernel⟩,
   by decide +kernel, by decide +kernel, Tree.checkWellFormed_sound (by decide +kernel), by decide +kernel,
    by decide +kernel, by decide +kernel, by decide +kernel⟩

/-- D4. -/
def c1 : State := decoder .fgk [0x41, 0xA0, 0x80] 1

theorem witness_DecodeSeenSymbolFaults :
    c1.engine = .active ∧ c1.mode = .dec ∧ c1.tree.WellFormed ∧ c1.cnt.toNat ≤ 8 ∧ c1.tree.rootWeight ≠ c1.cfg.wmax ∧
    c1.tree.walk root [true] = some c1.tree.esc ∧ c1.bitsLeft = [true] ++ symbolBits 0x41 ++ List.replicate 7 false ∧
    c1.tree.seen.getLsbD (0x41 : Symbol).toNat = true ∧ c1.srcPos ≤ c1.src.length :=
  ⟨by decide +kernel, by decide +kernel, Tree.checkWellFormed_sound (by decide +kernel), by decide +kernel,
    by decide +kernel, by decide +kernel, by decide +kernel, by decide +kernel, by decide +kernel⟩

theorem witness_DecodeFrame : exec .decode d2 = .next (next .decode d2) := exec_eq_next (by decide +kernel)

/-- E8 and D5 with `WEIGHT_W` = 1: one symbol fills the weights. -/
def full (m : Mode) : State := { run [.init m .fgk, if m = .enc then .encode 0x41 else .decode]
  { State.reset with cfg := { weightW := 1 }, src := [0x41, 0x00] } with responses := [] }

theorem witness_WeightOverflowPrecheck :
    ((full .enc).engine = .active ∧ (full .enc).tree.rootWeight = (full .enc).cfg.wmax ∧ (full .enc).mode = .enc) ∧
    ((full .dec).engine = .active ∧ (full .dec).tree.rootWeight = (full .dec).cfg.wmax ∧ (full .dec).mode = .dec) := by
  decide +kernel

/-- The encoder and the decoder of `41 41 42` before the third symbol. -/
def e2 : State := encoder .fgk [0x41, 0x41]
def d2' : State := { d2 with tree := e2.tree }

theorem witness_DecodeInvertsEncode :
    e2.engine = .active ∧ e2.mode = .enc ∧ e2.BufferOk ∧ e2.tree.WellFormed ∧
    d2'.engine = .active ∧ d2'.mode = .dec ∧ d2'.cnt.toNat ≤ 8 ∧ d2'.tree = e2.tree ∧ d2'.strategy = e2.strategy ∧
    d2'.cfg = e2.cfg ∧ exec (.encode 0x42) e2 = .next (next (.encode 0x42) e2) ∧ e2.succeeded (next (.encode 0x42) e2) ∧
    (next (.encode 0x42) e2).bitsOut = e2.bitsOut ++ (true :: symbolBits 0x42) ∧
    d2'.bitsLeft = (true :: symbolBits 0x42) ++ List.replicate 6 false :=
  ⟨by decide +kernel, by decide +kernel, bufferOk_of (by decide +kernel), Tree.checkWellFormed_sound (by decide +kernel),
   by decide +kernel, by decide +kernel, by decide +kernel, rfl, by decide +kernel, by decide +kernel,
   exec_eq_next (by decide +kernel), ⟨0, by decide +kernel⟩, by decide +kernel, by decide +kernel⟩

/-- `41 41 42` encoded: the sink is the stream `41 50 80` of the source's example. -/
def coded : State := run (encodingRun .fgk [0x41, 0x41, 0x42]) State.reset

theorem eq_some_getD {r : Option State} (h : r.isSome = true) : r = some (r.getD State.reset) := by
  cases r with
  | some t => rfl
  | none => cases h

theorem witness_RoundTrip :
    execAll (encodingRun .fgk [0x41, 0x41, 0x42]) State.reset = some coded ∧
    (∀ r ∈ coded.responses.drop State.reset.responses.length, r.status = 0) ∧
    coded.sink = State.reset.sink ++ [0x41, 0x50, 0x80] ∧ (State.reset.attachSource [0x41, 0x50, 0x80]).src = [0x41, 0x50, 0x80] ∧
    (State.reset.attachSource [0x41, 0x50, 0x80]).srcPos = 0 ∧ (State.reset.attachSource [0x41, 0x50, 0x80]).cfg = State.reset.cfg :=
  ⟨eq_some_getD (by decide +kernel), by decide +kernel, by decide +kernel, rfl, rfl, rfl⟩

/-- The longest run of a machine of `WEIGHT_W` = 1. -/
theorem witness_EncodingRunSucceeds :
    ([0x41] : List Symbol).length ≤ ({ State.reset with cfg := { weightW := 1 } } : State).cfg.wmax := by decide

/-! Invariants: the encoder after F5 takes `ENCODE 0x44`. -/

def w3 : State := e3.issueWord 0x2044

theorem w3_steps : step w3 = .next (after (step w3)) := eq_next_after (by decide +kernel)

theorem issueWord_tree (s : State) (w : Nat) : (s.issueWord w).tree = s.tree := rfl

theorem w3_tree : w3.tree = t3 := by
  unfold t3
  exact issueWord_tree e3 0x2044

theorem w3_live : w3.live := .inl (by decide +kernel)

theorem witness_ControlInvariant : w3.ControlOk ∧ step w3 = .next (after (step w3)) :=
  ⟨⟨fun _ => by decide +kernel, fun h => absurd h (by decide +kernel), fun h => absurd h (by decide +kernel),
    fun _ _ => ⟨bufferOk_of (by decide +kernel), by decide +kernel, by decide +kernel⟩,
    fun _ h => absurd h (by decide +kernel)⟩, w3_steps⟩

theorem witness_TreeInvariant : w3.live ∧ w3.TreeOk ∧ step w3 = .next (after (step w3)) :=
  ⟨w3_live, fun _ => w3_tree ▸ t3_coding.wf, w3_steps⟩

theorem witness_CountInvariant : w3.live ∧ w3.CountOk ∧ step w3 = .next (after (step w3)) :=
  ⟨w3_live, fun _ => by unfold Tree.seenCount; decide +kernel, w3_steps⟩

theorem witness_CodingInvariant : w3.live ∧ w3.CodingOk ∧ step w3 = .next (after (step w3)) :=
  ⟨w3_live, fun _ => ⟨by rw [w3_tree, show w3.strategy = .fgk by decide +kernel]; exact t3_coding, by decide +kernel⟩, w3_steps⟩

/-- A fresh stream, and its first symbol. -/
def w0 : State := (State.reset.openStream .enc .fgk).issueWord 0x2044

theorem witness_CanonicalInvariant :
    w0.TreeOk ∧ (w0.live → w0.tree.Canonical) ∧ step w0 = .next (after (step w0)) ∧ (after (step w0)).live :=
  ⟨fun _ => Tree.checkWellFormed_sound (by decide +kernel), fun _ => Tree.canonical_fresh, eq_next_after (by decide +kernel),
   .inl (by decide +kernel)⟩

theorem witness_AllocationNeverFails :
    e3.CountOk ∧ e3.engine ≠ .faulted ∧ runWord 0x2044 e3 = .next (after (runWord 0x2044 e3)) ∧
    (after (runWord 0x2044 e3)).responses = e3.responses ++ [{ status := 0, data := 0 }] :=
  ⟨fun _ => by unfold Tree.seenCount; decide +kernel, by decide +kernel, eq_next_after (by decide +kernel), by decide +kernel⟩

theorem witness_SymbolCountAdvances :
    (e3.engine = .active ∧ e3.tree.WellFormed ∧ exec (.encode 0x44) e3 = .next (next (.encode 0x44) e3) ∧
      e3.succeeded (next (.encode 0x44) e3)) ∧
    (d2.engine = .active ∧ d2.tree.WellFormed ∧ exec .decode d2 = .next (next .decode d2) ∧ d2.succeeded (next .decode d2)) :=
  ⟨⟨e3_active.1, t3_coding.wf, exec_eq_next (by decide +kernel), 0, by decide +kernel⟩,
   d2_active.1, d2_coding.wf, exec_eq_next (by decide +kernel), 0x42, by decide +kernel⟩

theorem witness_SeenGrows :
    (∀ m st, Instr.encode 0x44 ≠ .init m st) ∧ exec (.encode 0x44) e3 = .next (next (.encode 0x44) e3) ∧
    e3.tree.seen.getLsbD (0x41 : Symbol).toNat = true :=
  ⟨fun _ _ => nofun, exec_eq_next (by decide +kernel), by decide +kernel⟩

theorem witness_ParametersFixed : step w3 = .next (after (step w3)) := w3_steps

/-! The weights of the Leaves. -/

theorem leafWeights_of {t : Tree} {n : Symbol → Nat}
    (h : (t.allocated.all (fun h => match (t.get h).role with
            | .leaf x => (t.get h).weight == n x
            | .internal => true
            | .escape => true) &&
          (List.range 256).all (fun i => t.seen.getLsbD i || n (BitVec.ofNat 8 i) == 0)) = true) : t.LeafWeights n := by
  simp only [Bool.and_eq_true, List.all_eq_true, Tree.mem_allocated, List.mem_range, Bool.or_eq_true, beq_iff_eq] at h
  refine ⟨fun x y hx hy => ?_, fun y hy => ?_⟩
  · have := h.1 x hx
    rw [hy] at this
    simpa using this
  · have := (h.2 y.toNat y.isLt).resolve_left (by rw [hy]; nofun)
    simpa using this

/-- `ENCODE` of a first occurrence, and the third `DECODE` of the D-series. -/
theorem witness_LeafWeightAdvances :
    (e3.engine = .active ∧ e3.tree.WellFormed ∧ e3.tree.LeafWeights (fun x => [0x41, 0x42, 0x43].count x) ∧
      exec (.encode 0x44) e3 = .next (next (.encode 0x44) e3) ∧ e3.succeeded (next (.encode 0x44) e3)) ∧
    (d2.engine = .active ∧ d2.tree.WellFormed ∧ d2.tree.LeafWeights (fun x => [0x41, 0x41].count x) ∧
      exec .decode d2 = .next (next .decode d2) ∧
      (next .decode d2).responses = d2.responses ++ [{ status := 0, data := (0x42 : Symbol).setWidth 64 }]) :=
  ⟨⟨e3_active.1, t3_coding.wf, leafWeights_of (by decide +kernel), exec_eq_next (by decide +kernel), 0, by decide +kernel⟩,
   d2_active.1, d2_coding.wf, leafWeights_of (by decide +kernel), exec_eq_next (by decide +kernel), by decide +kernel⟩

/-- `41 41 42`, encoded and decoded. -/
theorem witness_WeightsCountOccurrences :
    (execAll (.init .enc .fgk :: [0x41, 0x41, 0x42].map .encode) State.reset = some (encoder .fgk [0x41, 0x41, 0x42]) ∧
      ∀ r ∈ (encoder .fgk [0x41, 0x41, 0x42]).responses.drop State.reset.responses.length, r.status = 0) ∧
    (execAll (decodingRun .fgk ([0x41, 0x41, 0x42] : List Symbol).length) (State.reset.attachSource [0x41, 0x50, 0x80]) =
        some (decoder .fgk [0x41, 0x50, 0x80] 3) ∧
      (decoder .fgk [0x41, 0x50, 0x80] 3).responses = (State.reset.attachSource [0x41, 0x50, 0x80]).responses ++
        { status := 0, data := 0 } ::
          ([0x41, 0x41, 0x42] : List Symbol).map (fun x => { status := 0, data := x.setWidth 64 })) :=
  ⟨⟨eq_some_getD (by decide +kernel), by decide +kernel⟩, eq_some_getD (by decide +kernel), by decide +kernel⟩

/-! Faults. -/

/-- An encoder with 7 bits buffered whose update of `0x41` overflows a Leaf of weight `WMAX` below a root that has passed
it; and an encoder whose tree has lost its Leaves, in the table. -/
def overflowing : State := { encoder .fgk [0x41, 0x42] with cfg := { weightW := 1 }, acc := 0, cnt := 7 }
def leafless : State := { State.reset.openStream .enc .fgk with tree := { Tree.fresh with seen := 1 } }

/-- The encoder's clauses: the pre-check, the search, the update. -/
theorem witness_FaultKeepsByteAccesses_encode :
    ((full .enc).engine = .active ∧ (full .enc).mode = .enc ∧ (full .enc).BufferOk ∧
      exec (.encode 0x41) (full .enc) = .next (next (.encode 0x41) (full .enc)) ∧
      (next (.encode 0x41) (full .enc)).engine = .faulted) ∧
    (leafless.engine = .active ∧ leafless.mode = .enc ∧ leafless.BufferOk ∧
      exec (.encode 0x00) leafless = .next (next (.encode 0x00) leafless) ∧
      (next (.encode 0x00) leafless).engine = .faulted) ∧
    (overflowing.engine = .active ∧ overflowing.mode = .enc ∧ overflowing.BufferOk ∧
      exec (.encode 0x41) overflowing = .next (next (.encode 0x41) overflowing) ∧
      (next (.encode 0x41) overflowing).engine = .faulted ∧
      (next (.encode 0x41) overflowing).sink.length = overflowing.sink.length + 1) :=
  ⟨⟨by decide +kernel, by decide +kernel, bufferOk_of (by decide +kernel), exec_eq_next (by decide +kernel),
    by decide +kernel⟩,
   ⟨by decide, by decide, bufferOk_of (by decide), exec_eq_next (by decide +kernel), by decide +kernel⟩,
   by decide +kernel, by decide +kernel, bufferOk_of (by decide +kernel), exec_eq_next (by decide +kernel),
   by decide +kernel, by decide +kernel⟩

/-- The decoder's clauses: the pre-check, `StreamExhausted` (D3), the update at the Escape node (D4: all 3 bytes are
consumed) and at a Leaf of weight `WMAX`. -/
def overflowing' : State := { decoder .fgk [0x41, 0xA1, 0x00] 2 with cfg := { weightW := 1 } }

theorem witness_FaultKeepsByteAccesses_decode :
    ((full .dec).engine = .active ∧ (full .dec).mode = .dec ∧ (full .dec).tree.WellFormed ∧ (full .dec).cnt.toNat ≤ 8 ∧
      (full .dec).srcPos ≤ (full .dec).src.length ∧ exec .decode (full .dec) = .next (next .decode (full .dec)) ∧
      (next .decode (full .dec)).engine = .faulted) ∧
    (x1.engine = .active ∧ x1.mode = .dec ∧ x1.tree.WellFormed ∧ x1.cnt.toNat ≤ 8 ∧ x1.srcPos ≤ x1.src.length ∧
      exec .decode x1 = .next (next .decode x1) ∧ (next .decode x1).engine = .faulted) ∧
    (c1.engine = .active ∧ c1.mode = .dec ∧ c1.tree.WellFormed ∧ c1.cnt.toNat ≤ 8 ∧ c1.srcPos ≤ c1.src.length ∧
      exec .decode c1 = .next (next .decode c1) ∧ (next .decode c1).engine = .faulted ∧ (next .decode c1).srcPos = 3) ∧
    (overflowing'.engine = .active ∧ overflowing'.mode = .dec ∧ overflowing'.tree.WellFormed ∧
      overflowing'.cnt.toNat ≤ 8 ∧ overflowing'.srcPos ≤ overflowing'.src.length ∧
      exec .decode overflowing' = .next (next .decode overflowing') ∧ (next .decode overflowing').engine = .faulted ∧
      overflowing'.bitsLeft = [false] ++ List.replicate 6 false) :=
  ⟨⟨by decide +kernel, by decide +kernel, Tree.checkWellFormed_sound (by decide +kernel), by decide +kernel,
    by decide +kernel, exec_eq_next (by decide +kernel), by decide +kernel⟩,
   ⟨by decide +kernel, by decide +kernel, Tree.checkWellFormed_sound (by decide +kernel), by decide +kernel,
    by decide +kernel, exec_eq_next (by decide +kernel), by decide +kernel⟩,
   ⟨by decide +kernel, by decide +kernel, Tree.checkWellFormed_sound (by decide +kernel), by decide +kernel,
    by decide +kernel, exec_eq_next (by decide +kernel), by decide +kernel, by decide +kernel⟩,
   by decide +kernel, by decide +kernel, Tree.checkWellFormed_sound (by decide +kernel), by decide +kernel,
   by decide +kernel, exec_eq_next (by decide +kernel), by decide +kernel, by decide +kernel⟩

end Sys2Proof.Tests
end

section
/-! The bit sequences behind `flushBits` and `getBitOpt` (spec/40_bitstream.md R121, R122): the zero bits that complete a
partial byte, and the bits the source still delivers, taken one at a time. -/

namespace Sys2Proof.Machine

/-! ### `flushBits` -/

/-- Where the low bits of a byte are zero, so is the end of its bit sequence (R28). -/
theorem symbolBits_drop_of_low_zero (b : Byte) (c : Nat) (h : ∀ i, i < 8 - c → b.getLsbD i = false) :
    (symbolBits b).drop c = List.replicate (8 - c) false := by
  apply List.ext_getElem
  · simp [symbolBits_length]
  · intro i _ hi
    rw [List.length_replicate] at hi
    rw [List.getElem_drop, symbolBits_getElem, List.getElem_replicate]
    exact h _ (by omega)

/-- The byte in `ACC` is the buffered bits, completed with zero bits (R28, R121). -/
theorem State.BufferOk.symbolBits_acc {s : State} (h : s.BufferOk) :
    symbolBits s.acc = (symbolBits s.acc).take s.cnt.toNat ++ List.replicate (8 - s.cnt.toNat) false := by
  rw [← symbolBits_drop_of_low_zero s.acc s.cnt.toNat h.2, List.take_append_drop]

/-- With no bit buffered, the bits emitted are those of the sink. -/
theorem State.bitsOut_of_empty {s : State} (h : s.cnt = 0) : s.bitsOut = byteBits s.sink := by
  simp [State.bitsOut, h]

/-- The sink after a flush holds every bit emitted and the zero bits up to the next byte (R121, R98). -/
theorem byteBits_flushBits_sink {s : State} (hs : s.BufferOk) :
    byteBits (flushBits s).sink = s.bitsOut ++ List.replicate ((8 - s.cnt.toNat) % 8) false := by
  by_cases h : s.cnt = 0
  · simp [flushBits_empty s h, State.bitsOut_of_empty h, h]
  · have hpad : (8 - s.cnt.toNat) % 8 = 8 - s.cnt.toNat := Nat.mod_eq_of_lt (by bv_omega)
    calc byteBits (flushBits s).sink
        = byteBits s.sink ++ symbolBits s.acc := by
          rw [flushBits_partial s h, State.memWrite, byteBits_append, byteBits_singleton]
      _ = s.bitsOut ++ List.replicate ((8 - s.cnt.toNat) % 8) false := by
          rw [hs.symbolBits_acc, hpad, State.bitsOut, List.append_assoc]

/-- A flush empties the buffer, whether a bit was buffered or not (R121). -/
theorem flushBits_buffer_empty {s : State} (hs : s.BufferOk) : (flushBits s).acc = 0 ∧ (flushBits s).cnt = 0 := by
  by_cases h : s.cnt = 0
  · have hacc : s.acc = 0 := BitVec.eq_of_getLsbD_eq fun i hi => by
      rw [hs.2 i (by simpa [h] using hi)]; simp
    rw [flushBits_empty s h]
    exact ⟨hacc, h⟩
  · rw [flushBits_partial s h]
    exact ⟨rfl, rfl⟩

/-- Settles O22: the partial byte in `ACC` is the buffered bits completed with zero bits, and it is written just when
there are any. -/
theorem flushBitsPads : Obligations.FlushBitsPads := by
  unfold Obligations.FlushBitsPads
  intro s hs
  exact ⟨flushBits_empty s, flushBits_partial s, byteBits_flushBits_sink hs, flushBits_buffer_empty hs⟩

/-! ### `getBitOpt` -/

/-- The last `n + 1` bits of a byte are its bit `n`, then the last `n`. -/
theorem symbolBits_drop_succ (b : Byte) {n : Nat} (hn : n < 8) :
    (symbolBits b).drop (8 - (n + 1)) = b.getLsbD n :: (symbolBits b).drop (8 - n) := by
  have hi : 8 - (n + 1) < (symbolBits b).length := by rw [symbolBits_length]; omega
  rw [List.drop_eq_getElem_cons hi, symbolBits_getElem]
  congr 2 <;> omega

/-- `getBitOpt` with `n + 1` bits left in `ACC` (R122). -/
theorem getBitOpt_of_cnt_succ {s : State} {n : Nat} (h : s.cnt.toNat = n + 1) :
    getBitOpt s = (some (s.acc.getLsbD n), { s with cnt := BitVec.ofNat 4 n }) := by
  have hcnt : s.cnt - 1 = BitVec.ofNat 4 n := by bv_omega
  have hn : (s.cnt - 1).toNat = n := by bv_omega
  rw [getBitOpt_buffered s (by bv_omega), hn, hcnt]

/-- With `CNT = 0` the bits ahead are those of the unread bytes. -/
theorem State.bitsAhead_of_cnt_zero {s : State} (h : s.cnt = 0) :
    s.bitsAhead = byteBits (s.src.drop s.srcPos) := by
  simp [State.bitsAhead, h, List.drop_of_length_le (symbolBits_length s.acc).le]

/-- With `n + 1` bits in `ACC`, the next one is `ACC[n]` (R122). -/
theorem State.bitsAhead_of_cnt_succ {s : State} {n : Nat} (h : s.cnt.toNat = n + 1) (hn : n < 8) :
    s.bitsAhead = s.acc.getLsbD n :: ({ s with cnt := BitVec.ofNat 4 n } : State).bitsAhead := by
  have hmod : n % 2 ^ 4 = n := Nat.mod_eq_of_lt (by omega)
  simp only [State.bitsAhead, h, symbolBits_drop_succ s.acc hn, BitVec.toNat_ofNat, hmod, List.cons_append]

/-- With `CNT = 0` and a byte to read, the next bit is the top one of that byte (R122, R64). -/
theorem State.bitsAhead_of_fetch {s : State} (h : s.cnt = 0) (hs : s.srcPos < s.src.length) :
    s.bitsAhead = s.src[s.srcPos].getLsbD 7 ::
      ({ s with acc := s.src[s.srcPos], cnt := 7, srcPos := s.srcPos + 1, byteCount := s.byteCount + 1 } :
        State).bitsAhead := by
  rw [State.bitsAhead_of_cnt_zero h, List.drop_eq_getElem_cons hs, byteBits_cons]
  rfl

/-- What `getBitOpt` does to the bits ahead: none is left and nothing changes, or the first is delivered and the rest
stay ahead (R122). -/
theorem getBitOpt_bitsAhead {s : State} (hc : s.cnt.toNat ≤ 8) :
    (s.bitsAhead = [] ∧ getBitOpt s = (none, s)) ∨
    ∃ b t, s.bitsAhead = b :: t.bitsAhead ∧ getBitOpt s = (some b, t) ∧ t.cnt.toNat ≤ 7 := by
  cases hn : s.cnt.toNat with
  | zero =>
    have h : s.cnt = 0 := BitVec.eq_of_toNat_eq hn
    by_cases hs : s.srcPos < s.src.length
    · exact .inr ⟨_, _, State.bitsAhead_of_fetch h hs, getBitOpt_fetches s h hs, le_refl 7⟩
    · have hdrop : s.src.drop s.srcPos = [] := List.drop_of_length_le (by omega)
      exact .inl ⟨by rw [State.bitsAhead_of_cnt_zero h, hdrop]; rfl, getBitOpt_eos s h (by omega)⟩
  | succ n =>
    refine .inr ⟨_, _, State.bitsAhead_of_cnt_succ hn (by omega), getBitOpt_of_cnt_succ hn, ?_⟩
    exact (Nat.mod_le _ _).trans (by omega)

/-- Settles O23: by the two things `getBitOpt` can do to the bits ahead, and its equations with and without a bit left
in `ACC`. -/
theorem getBitDelivers : Obligations.GetBitDelivers := by
  unfold Obligations.GetBitDelivers
  intro s hc
  refine ⟨fun hnil => ?_, fun b rest hcons => ?_, fun byte h hbyte => ?_, fun n hn => getBitOpt_of_cnt_succ hn⟩
  · obtain ⟨_, heos⟩ | ⟨b, t, hahead, _⟩ := getBitOpt_bitsAhead hc
    · exact heos
    · simp [hnil] at hahead
  · obtain ⟨hnil, _⟩ | ⟨b', t, hahead, hget, ht⟩ := getBitOpt_bitsAhead hc
    · simp [hnil] at hcons
    · obtain ⟨rfl, rfl⟩ := List.cons.inj (hahead.symm.trans hcons)
      exact ⟨t, hget, rfl, ht⟩
  · obtain ⟨hs, rfl⟩ := List.getElem?_eq_some_iff.mp hbyte
    exact getBitOpt_fetches s h hs

end Sys2Proof.Machine
end

section
/-! The three outcomes of `introduce` (spec/41_codetree.md R145): refused for a seen symbol, refused for want of two
nodes, and the split of the Escape node. -/

namespace Sys2Proof.Machine

/-- A symbol already seen has its Leaf, and is not introduced again (R145). -/
theorem introduce_of_seen {t : Tree} {sym : Symbol} (hs : t.seen.getLsbD sym.toNat = true) :
    introduce t sym = .error .invariantViolation := by
  rw [introduce, if_pos hs]

/-- An unseen symbol for which the node table has no two free entries (R145, R285). -/
theorem introduce_of_full {t : Tree} {sym : Symbol} (hs : t.seen.getLsbD sym.toNat = false)
    (hc : 513 < t.nodeCount.val + 2) : introduce t sym = .error .allocationFailure := by
  rw [introduce, if_neg (by simp [hs]), dif_neg (Nat.not_le.mpr hc)]

/-- An unseen symbol with two free entries is introduced (R145). With `introduce_ok`: exactly then. -/
theorem introduce_of_fits {t : Tree} {sym : Symbol} (hs : t.seen.getLsbD sym.toNat = false)
    (hc : t.nodeCount.val + 2 ≤ 513) : ∃ r, introduce t sym = .ok r := by
  rw [introduce, if_neg (by simp [hs]), dif_pos (show t.nodeCount.val + 2 ≤ nodeCap from hc)]
  exact ⟨_, rfl⟩

/-- `introduce` adds its symbol to `SEEN` and no other (R145, R27). -/
theorem introduce_seen {t : Tree} {sym : Symbol} {r : Tree × Handle} (e : introduce t sym = .ok r) (x : Symbol) :
    r.1.seen.getLsbD x.toNat = (t.seen.getLsbD x.toNat || x == sym) := by
  obtain ⟨_, _, _, _, _, hseen⟩ := introduce_ok e
  rw [hseen, getLsbD_setBit _ _ _ _ x.isLt]
  by_cases h : x = sym
  · simp [h]
  · simp [h, BitVec.toNat_inj]

/-- The old Escape node, the new Leaf and the new Escape node are three different entries (R145). -/
theorem introduce_handles_ne {t : Tree} {sym : Symbol} {r : Tree × Handle} (e : introduce t sym = .ok r)
    (hesc : t.has t.esc) : t.esc ≠ r.2 ∧ t.esc ≠ r.1.esc ∧ r.2 ≠ r.1.esc := by
  obtain ⟨_, _, hl, _, he, _⟩ := introduce_ok e
  simp only [Tree.has] at hesc
  refine ⟨?_, ?_, ?_⟩ <;> rw [ne_eq, Fin.ext_iff] <;> omega

/-- Settles O24: by the three outcomes of `introduce`, and the entries of the tree it answers. -/
theorem introduceResult : Obligations.IntroduceResult := by
  unfold Obligations.IntroduceResult
  refine ⟨fun _ _ => introduce_of_seen, fun _ _ => introduce_of_full, fun t sym hs hc hesc => ?_⟩
  obtain ⟨⟨u, lf⟩, h⟩ := introduce_of_fits hs hc
  obtain ⟨_, _, hl, hn, he, _⟩ := introduce_ok h
  obtain ⟨escNeLeaf, escNeNew, leafNeNew⟩ := introduce_handles_ne h hesc
  refine ⟨u, lf, u.esc, h, hl, he, hn, rfl, introduce_seen h, ?_, ?_, ?_, fun x hx hxl hxe => ?_⟩
  · rw [introduce_get h, if_neg escNeNew, if_neg escNeLeaf, if_pos rfl]
  · rw [introduce_get h, if_neg leafNeNew, if_pos rfl]
  · rw [introduce_get h, if_pos rfl]
  · rw [introduce_get h, if_neg hxe, if_neg hxl, if_neg hx]

end Sys2Proof.Machine
end

section
/-! `FLUSH` in an open encoder (spec/44_encoder_commands.md R221): what `flushBits` changes, the state in which the
command ends, and the commands that are illegal from then on (spec/46_system_commands.md R263). -/

namespace Sys2Proof.Machine

/-! ### What a flush changes -/

/-- The sink grows by at most one byte under `flushBits`, and `BYTE_COUNT` counts it (R121, R62). -/
theorem flushBits_sink (s : State) :
    ∃ bytes, (flushBits s).sink = s.sink ++ bytes ∧ bytes.length ≤ 1 ∧
      (flushBits s).byteCount = s.byteCount + BitVec.ofNat 64 bytes.length := by
  by_cases h : s.cnt = 0
  · exact ⟨[], by simp [flushBits_empty s h]⟩
  · exact ⟨[s.acc], by simp [flushBits_partial s h]⟩

/-- `flushBits` empties the buffer, and otherwise changes nothing but `BYTE_COUNT` and the sink (R121). -/
theorem flushBits_frame {s : State} (hs : s.BufferOk) :
    flushBits s =
      { s with acc := 0, cnt := 0, byteCount := (flushBits s).byteCount, sink := (flushBits s).sink } := by
  obtain ⟨hacc, hcnt⟩ := flushBits_buffer_empty hs
  by_cases h : s.cnt = 0
  · rw [flushBits_empty s h] at hacc hcnt ⊢
    rw [← hacc, ← hcnt]
  · rw [flushBits_partial s h]
    rfl

/-! ### The commands -/

theorem exec_flush_of_legal {s : State} (ha : s.engine = .active) (hm : s.mode = .enc) :
    exec .flush s = .next ({ flushBits s with engine := .flushed }.respond statusOk 0) := by
  rw [exec, execFlush, (encoderLegal_iff s).mpr ⟨ha, hm⟩, guarded_legal _ (by simp [ha])]

/-- `ENCODE`, `FLUSH` and `DECODE` are illegal in `FLUSHED`, whatever the mode (R263). -/
theorem exec_streamCommand_of_flushed {i : Instr} {s : State} (hi : isStreamCommand i = true)
    (hf : s.engine = .flushed) : exec i s = .next (s.raiseFault .illegalCommand) := by
  have notFaulted : s.engine ≠ .faulted := by simp [hf]
  have notEncoder : encoderLegal s = false := by simp [encoderLegal, hf]
  have notDecoder : decoderLegal s = false := by simp [decoderLegal, hf]
  cases i with
  | encode sym => rw [exec, execEncode, notEncoder, guarded_illegal _ notFaulted]
  | flush => rw [exec, execFlush, notEncoder, guarded_illegal _ notFaulted]
  | decode => rw [exec, execDecode, notDecoder, guarded_illegal _ notFaulted]
  | init | rdreg => cases hi

/-- Settles O38: `FLUSH` ends with the buffer flushed and `STATE = FLUSHED`, where no stream command is legal. -/
theorem flushCompletes : Obligations.FlushCompletes := by
  unfold Obligations.FlushCompletes
  intro s ha hm hs
  refine ⟨_, exec_flush_of_legal ha hm, byteBits_flushBits_sink hs, flushBits_sink s, ?_, fun i hi => ?_⟩
  · rw [flushBits_frame hs]
    rfl
  · exact exec_streamCommand_of_flushed hi rfl

end Sys2Proof.Machine
end

section
/-! The system commands (spec/46_system_commands.md): `INIT` (R260), the words that are illegal (R264), and the words in
`FAULTED` (R265). -/

namespace Sys2Proof.Machine

/-! ### `INIT` -/

@[simp] theorem Tree.fresh_nodeCount : Tree.fresh.nodeCount.val = 1 := rfl
@[simp] theorem Tree.fresh_esc : Tree.fresh.esc = root := rfl
@[simp] theorem Tree.fresh_seen : Tree.fresh.seen = 0 := rfl

/-- Settles O16: `INIT` ends in the state of a fresh stream, whose tree is the single Escape root. -/
theorem initResult : Obligations.InitResult := by
  unfold Obligations.InitResult
  intro s m st
  have hroot : Tree.fresh.get root = Node.freshRoot := by rw [Tree.get_fresh, if_pos rfl]
  refine ⟨_, exec_init m st s, hroot, ?_⟩
  simp [statusOk]

/-! ### One word -/

theorem runWord_of_decode {c : CmdWord} {i : Instr} (h : decode c = .ok i) (s : State) : runWord c s = exec i s := by
  rw [runWord, h]

theorem runWord_of_illegalEncoding {c : CmdWord} {e : DecodeError} (h : decode c = .error e) (s : State) :
    runWord c s = illegalEncoding s := by
  rw [runWord, h]

theorem step_of_command {s : State} {c : CmdWord} {rest : List HostInput} (h : s.channel = .command c :: rest) :
    step s = runWord c { s with channel := rest } := by
  rw [step, h]
  rfl

/-- A stream command passes the dispatch order of R262, with its row of R263's table. -/
theorem exec_streamCommand {i : Instr} (hi : isStreamCommand i = true) :
    ∃ body, ∀ s, exec i s = guarded (legalNow i s) s body := by
  cases i with
  | encode | flush | decode => exact ⟨_, fun _ => rfl⟩
  | init | rdreg => cases hi

/-- `RDREG` answers status 0 and changes nothing but the count of free values drawn (R261, log 2). -/
theorem exec_rdreg (reg : Reg) (s : State) :
    ∃ v n, exec (.rdreg reg) s = .next ({ s with freeCount := n }.respond statusOk v) := by
  rw [exec, execRdreg]
  split
  · exact ⟨_, s.freeCount, rfl⟩
  · exact ⟨_, s.freeCount + 1, rfl⟩

/-! ### Illegal words -/

/-- `INIT` and `RDREG` are legal in every state, so a command that is not is a stream command (R263). -/
theorem isStreamCommand_of_not_legalNow {i : Instr} {s : State} (h : legalNow i s = false) :
    isStreamCommand i = true := by
  cases i with
  | encode | flush | decode => rfl
  | init | rdreg => cases h

/-- An illegal encoding or an illegal command outside `FAULTED` raises `IllegalCommand` (R264). -/
theorem runWord_of_illegal {c : CmdWord} {s : State} (hs : s.engine ≠ .faulted)
    (h : (∃ e, decode c = .error e) ∨ ∃ i, decode c = .ok i ∧ legalNow i s = false) :
    runWord c s = .next (s.raiseFault .illegalCommand) := by
  obtain ⟨e, he⟩ | ⟨i, hi, hl⟩ := h
  · rw [runWord_of_illegalEncoding he, illegalEncoding, guarded_illegal _ hs]
  · obtain ⟨body, hbody⟩ := exec_streamCommand (isStreamCommand_of_not_legalNow hl)
    rw [runWord_of_decode hi, hbody, hl, guarded_illegal _ hs]

/-- Whether a command is legal does not depend on what the host does next (R263). -/
theorem legalNow_channel (i : Instr) (s : State) (rest : List HostInput) :
    legalNow i { s with channel := rest } = legalNow i s := by
  cases i <;> rfl

/-- Settles O8: the word runs in the state whose channel has moved past it, and raises `IllegalCommand` there. -/
theorem illegalCommandFaults : Obligations.IllegalCommandFaults := by
  unfold Obligations.IllegalCommandFaults
  intro s c rest hc hs h
  simp only [← legalNow_channel _ s rest] at h
  exact (step_of_command hc).trans (runWord_of_illegal hs h)

/-! ### Words in `FAULTED` -/

/-- In `FAULTED` an illegal encoding and a stream command are refused, legal or not (R265). -/
theorem runWord_of_faulted {c : CmdWord} {s : State} (hs : s.engine = .faulted)
    (h : (∃ e, decode c = .error e) ∨ ∃ i, decode c = .ok i ∧ isStreamCommand i = true) :
    runWord c s = .next s.refuse := by
  obtain ⟨e, he⟩ | ⟨i, hi, hstream⟩ := h
  · rw [runWord_of_illegalEncoding he, illegalEncoding, guarded_faulted _ hs]
  · obtain ⟨body, hbody⟩ := exec_streamCommand hstream
    rw [runWord_of_decode hi, hbody, guarded_faulted _ hs]

/-! ### Entering `FAULTED` -/

/-- `u` is a state within a command that began in `s`: `STATE` is still as it was, and no response is given. -/
structure State.InProgress (s u : State) : Prop where
  engine : u.engine = s.engine
  responses : u.responses = s.responses

theorem State.InProgress.refl (s : State) : s.InProgress s := ⟨rfl, rfl⟩

theorem State.SameStream.inProgress {s u : State} (h : s.SameStream u) : s.InProgress u := ⟨h.engine, h.responses⟩

/-- If the word that leads from `s` to `t` ends in `FAULTED`, it leaves a fault's code and answers it (R284). -/
def State.FaultEntered (s t : State) : Prop :=
  t.engine = .faulted →
    ∃ k : FaultKind, t.faultCode = k.code ∧ t.responses = s.responses ++ [{ status := k.code, data := 0 }]

theorem State.faultEntered_of_ne {s t : State} (h : t.engine ≠ .faulted) : s.FaultEntered t := fun ht => absurd ht h

theorem State.InProgress.raiseFault {s u : State} (h : s.InProgress u) (k : FaultKind) :
    s.FaultEntered (u.raiseFault k) := fun _ => ⟨k, rfl, by rw [State.raiseFault_responses, h.responses]⟩

/-- The end of a command's pseudocode: a fault it raised is entered, and without one `STATE` stays outside `FAULTED`. -/
theorem Res.finish_faultEntered {α : Type} {s t : State} {r : Res α} {done : α → State → State}
    (hr : s.InProgress r.state) (hs : s.engine ≠ .faulted) (h : r.finish done = .next t)
    (hdone : ∀ a u, (done a u).engine = u.engine) : s.FaultEntered t := by
  cases r with
  | ok a u =>
    cases h
    have hengine : (done a u).engine = s.engine := (hdone a u).trans hr.engine
    exact State.faultEntered_of_ne (by rwa [hengine])
  | raised k u =>
    cases h
    exact hr.raiseFault k

theorem guarded_faultEntered {legal : Bool} {s t : State} {body : State → Result} (hs : s.engine ≠ .faulted)
    (hbody : body s = .next t → s.FaultEntered t) (h : guarded legal s body = .next t) : s.FaultEntered t := by
  obtain ⟨hf, _⟩ | ⟨_, _, hg⟩ | ⟨_, _, hg⟩ := guarded_cases legal s body
  · exact absurd hf hs
  · rw [hg] at h
    cases h
    exact (State.InProgress.refl s).raiseFault _
  · exact hbody (hg ▸ h)

theorem emitCode_inProgress (s : State) (h : Handle) (path : List Bool) (sym : Symbol) :
    s.InProgress (emitCode s h path sym) := by
  rw [emitCode_bits]
  exact ⟨putBits_engine s _, putBits_responses s _⟩

theorem encodeBody_inProgress (sym : Symbol) (s : State) : s.InProgress (encodeBody sym s).state := by
  cases hr : encodeBody sym s with
  | ok a u =>
    obtain ⟨_, h, path, t, _, _, _, rfl⟩ := encodeBody_ok.mp hr
    obtain ⟨hengine, hresponses⟩ := emitCode_inProgress s h path sym
    exact ⟨hengine, hresponses⟩
  | raised k u =>
    obtain ⟨_, _, rfl⟩ | ⟨_, ⟨_, rfl⟩ | ⟨_, _, _, rfl⟩ | ⟨h, path, _, _, _, rfl⟩⟩ := encodeBody_raised.mp hr
    · exact .refl _
    · exact .refl _
    · exact .refl _
    · exact emitCode_inProgress s h path sym

/-- The descent only reads bits, whether it ends with or without a fault. -/
theorem descend_firstBit_same {s : State} {r : Res (Handle × Option Bool)}
    (h : descend 256 root (firstBit s).1 (firstBit s).2 = r) : s.SameStream r.state := by
  rw [← h]
  exact (firstBit_same s).trans (descend_same _ _ _ _)

/-- So does the search for the symbol at the landing leaf. -/
theorem landedSymbol_after_descend_same {s v : State} {cur : Handle} {bit : Option Bool} {r : Res Symbol}
    (hd : descend 256 root (firstBit s).1 (firstBit s).2 = .ok (cur, bit) v)
    (hl : landedSymbol cur (holdBit v bit) = r) : s.SameStream r.state := by
  have hv : s.SameStream v := descend_firstBit_same hd
  rw [← hl]
  exact (hv.trans (holdBit_same v bit)).trans (landedSymbol_same _ _)

theorem decodeBody_inProgress (s : State) : s.InProgress (decodeBody s).state := by
  cases hr : decodeBody s with
  | ok sym u =>
    obtain ⟨_, cur, bit, v, w, t, hd, hl, _, rfl⟩ := decodeBody_ok.mp hr
    obtain ⟨hengine, hresponses⟩ := (landedSymbol_after_descend_same hd hl).inProgress
    exact ⟨hengine, hresponses⟩
  | raised k u =>
    obtain ⟨_, _, rfl⟩ | ⟨_, hd | ⟨cur, bit, v, hd, hl | ⟨sym, hl, _⟩⟩⟩ := decodeBody_raised.mp hr
    · exact .refl _
    · exact (descend_firstBit_same hd).inProgress
    · exact (landedSymbol_after_descend_same hd hl).inProgress
    · exact (landedSymbol_after_descend_same hd hl).inProgress

theorem exec_faultEntered {i : Instr} {s t : State} (hs : s.engine ≠ .faulted) (h : exec i s = .next t) :
    s.FaultEntered t := by
  cases i with
  | init m st =>
    cases h
    exact State.faultEntered_of_ne (by simp)
  | encode sym =>
    rw [exec, execEncode] at h
    refine guarded_faultEntered hs (fun hb => ?_) h
    exact Res.finish_faultEntered (encodeBody_inProgress sym s) hs hb fun _ _ => rfl
  | flush =>
    rw [exec, execFlush] at h
    refine guarded_faultEntered hs (fun hb => ?_) h
    cases hb
    exact State.faultEntered_of_ne (by simp)
  | decode =>
    rw [exec, execDecode] at h
    refine guarded_faultEntered hs (fun hb => ?_) h
    exact Res.finish_faultEntered (decodeBody_inProgress s) hs hb fun _ _ => rfl
  | rdreg reg =>
    obtain ⟨v, n, hv⟩ := exec_rdreg reg s
    rw [hv] at h
    cases h
    exact State.faultEntered_of_ne hs

theorem runWord_faultEntered {c : CmdWord} {s t : State} (hs : s.engine ≠ .faulted) (h : runWord c s = .next t) :
    s.FaultEntered t := by
  cases hc : decode c with
  | error e =>
    rw [runWord_of_illegal hs (.inl ⟨e, hc⟩)] at h
    cases h
    exact (State.InProgress.refl s).raiseFault _
  | ok i => exact exec_faultEntered hs (runWord_of_decode hc s ▸ h)

/-- Settles O9: every fault is entered with its code, a refusal repeats it, `RDREG` leaves it, and `INIT` opens a fresh
stream. -/
theorem faultedRefuses : Obligations.FaultedRefuses := by
  unfold Obligations.FaultedRefuses
  refine ⟨fun s t c hs h => runWord_faultEntered hs h, fun s c hs =>
    ⟨runWord_of_faulted hs, fun reg hc => ?_, fun m st hc => ?_, rfl, rfl⟩⟩
  · obtain ⟨v, n, hv⟩ := exec_rdreg reg s
    exact ⟨_, (runWord_of_decode hc s).trans hv, ⟨v, rfl⟩, hs, rfl, rfl, rfl, rfl⟩
  · exact ⟨_, (runWord_of_decode hc s).trans (exec_init m st s), ⟨0, rfl⟩, rfl, rfl, rfl, rfl⟩

end Sys2Proof.Machine
end

section
/-! The decoder and the encoder (spec/30_encoding.md R90 to R93): a word put together from its fields, the fields of a
masked word, and what decodes. -/

namespace Sys2Proof

/-! ### The fields of a word -/

@[simp] theorem CmdWord.op_make (op : BitVec 4) (arg : BitVec 8) : (CmdWord.make op arg).op = op :=
  BitVec.extractLsb'_append_eq_left

@[simp] theorem CmdWord.rsv_make (op : BitVec 4) (arg : BitVec 8) : (CmdWord.make op arg).rsv = 0 := by
  rw [CmdWord.rsv, CmdWord.make, BitVec.extractLsb'_append_eq_of_add_le (by omega)]
  exact BitVec.extractLsb'_append_eq_left

@[simp] theorem CmdWord.arg_make (op : BitVec 4) (arg : BitVec 8) : (CmdWord.make op arg).arg = arg := by
  rw [CmdWord.arg, CmdWord.make, BitVec.extractLsb'_append_eq_of_add_le (by omega)]
  exact BitVec.extractLsb'_append_eq_right

/-- A word whose reserved bits are 0 is made of its two other fields (R90). -/
theorem CmdWord.make_fields {c : CmdWord} (h : c.rsv = 0) : CmdWord.make c.op c.arg = c := by
  have split : c.op ++ (c.rsv ++ c.arg) = c := by
    rw [CmdWord.op, CmdWord.rsv, CmdWord.arg,
      BitVec.extractLsb'_append_extractLsb'_eq_extractLsb' (start₂ := 8) (start₁ := 0) (len₁ := 8) rfl,
      BitVec.extractLsb'_append_extractLsb'_eq_extractLsb' (start₂ := 12) (start₁ := 0) (len₁ := 12) rfl]
    exact BitVec.extractLsb'_eq_self
  rw [h] at split
  exact split

/-- `arg` is `arg[7:2]`, then its two low bits (R91). -/
theorem CmdWord.arg_eq (c : CmdWord) :
    c.arg = c.argHigh ++ (BitVec.ofBool (c.getLsbD 1) ++ BitVec.ofBool (c.getLsbD 0)) := by
  apply BitVec.eq_of_getLsbD_eq
  intro i hi
  simp only [CmdWord.arg, CmdWord.argHigh, BitVec.getLsbD_append, BitVec.getLsbD_extractLsb', BitVec.getLsbD_ofBool]
  interval_cases i <;> simp

@[simp] theorem CmdWord.op_and (c m : CmdWord) : CmdWord.op (c &&& m) = c.op &&& m.op := BitVec.extractLsb'_and
@[simp] theorem CmdWord.rsv_and (c m : CmdWord) : CmdWord.rsv (c &&& m) = c.rsv &&& m.rsv := BitVec.extractLsb'_and
@[simp] theorem CmdWord.arg_and (c m : CmdWord) : CmdWord.arg (c &&& m) = c.arg &&& m.arg := BitVec.extractLsb'_and
@[simp] theorem CmdWord.argHigh_and (c m : CmdWord) : CmdWord.argHigh (c &&& m) = c.argHigh &&& m.argHigh :=
  BitVec.extractLsb'_and

@[simp] theorem Mode.toBit_ofBit (b : Bool) : (Mode.ofBit b).toBit = b := by cases b <;> rfl
@[simp] theorem Strategy.toBit_ofBit (b : Bool) : (Strategy.ofBit b).toBit = b := by cases b <;> rfl

theorem Reg.number_ofBits (b1 b0 : Bool) : (Reg.ofBits b1 b0).number = 0#6 ++ (BitVec.ofBool b1 ++ BitVec.ofBool b0) := by
  cases b1 <;> cases b0 <;> rfl

/-! ### What decodes -/

/-- A word decodes to a command in one of five ways, one per row of the table (R91, R92). -/
theorem decode_ok_cases {c : CmdWord} {i : Instr} (h : decode c = .ok i) :
    c.rsv = 0 ∧
      ((c.op = 1 ∧ c.argHigh = 0 ∧ i = .init (Mode.ofBit (c.getLsbD 0)) (Strategy.ofBit (c.getLsbD 1))) ∨
       (c.op = 2 ∧ i = .encode c.arg) ∨
       (c.op = 3 ∧ c.arg = 0 ∧ i = .flush) ∨
       (c.op = 4 ∧ c.arg = 0 ∧ i = .decode) ∨
       (c.op = 5 ∧ c.argHigh = 0 ∧ i = .rdreg (Reg.ofBits (c.getLsbD 1) (c.getLsbD 0)))) := by
  unfold decode at h
  split at h
  · cases h
  · next hop =>
    split at h
    · cases h
    · next hrsv =>
      refine ⟨not_not.mp hrsv, ?_⟩
      split at h
      · next h1 =>
        split at h
        · cases h
        · next ha => cases h; exact .inl ⟨h1, not_not.mp ha, rfl⟩
      · split at h
        · next h2 => cases h; exact .inr (.inl ⟨h2, rfl⟩)
        · split at h
          · next h3 =>
            split at h
            · cases h
            · next ha => cases h; exact .inr (.inr (.inl ⟨h3, not_not.mp ha, rfl⟩))
          · split at h
            · next h4 =>
              split at h
              · cases h
              · next ha => cases h; exact .inr (.inr (.inr (.inl ⟨h4, not_not.mp ha, rfl⟩)))
            · split at h
              · cases h
              · next n1 n2 n3 n4 ha =>
                cases h
                have h5 : c.op = 5 := by bv_omega
                exact .inr (.inr (.inr (.inr ⟨h5, not_not.mp ha, rfl⟩)))

/-- The words that decode, by their fields (R91). -/
def CmdWord.FieldsLegal (c : CmdWord) : Prop :=
  c.rsv = 0 ∧ ((c.op = 1 ∨ c.op = 5) ∧ c.argHigh = 0 ∨ c.op = 2 ∨ (c.op = 3 ∨ c.op = 4) ∧ c.arg = 0)

theorem decode_ok_of_fieldsLegal {c : CmdWord} (h : c.FieldsLegal) : ∃ i, decode c = .ok i := by
  obtain ⟨hr, ⟨h1 | h5, ha⟩ | h2 | ⟨h3 | h4, ha⟩⟩ := h
  · exact ⟨_, by simp [decode, hr, h1, ha]; rfl⟩
  · exact ⟨_, by simp [decode, hr, h5, ha]; rfl⟩
  · exact ⟨_, by simp [decode, hr, h2]; rfl⟩
  · exact ⟨_, by simp [decode, hr, h3, ha]; rfl⟩
  · exact ⟨_, by simp [decode, hr, h4, ha]; rfl⟩

theorem decode_ok_iff_fieldsLegal (c : CmdWord) : (∃ i, decode c = .ok i) ↔ c.FieldsLegal := by
  refine ⟨fun ⟨i, h⟩ => ?_, decode_ok_of_fieldsLegal⟩
  obtain ⟨hr, ⟨h1, ha, _⟩ | ⟨h2, _⟩ | ⟨h3, ha, _⟩ | ⟨h4, ha, _⟩ | ⟨h5, ha, _⟩⟩ := decode_ok_cases h
  · exact ⟨hr, .inl ⟨.inl h1, ha⟩⟩
  · exact ⟨hr, .inr (.inl h2)⟩
  · exact ⟨hr, .inr (.inr ⟨.inl h3, ha⟩)⟩
  · exact ⟨hr, .inr (.inr ⟨.inr h4, ha⟩)⟩
  · exact ⟨hr, .inl ⟨.inr h5, ha⟩⟩

theorem decode_error_iff (c : CmdWord) : (∃ e, decode c = .error e) ↔ ¬ c.FieldsLegal := by
  rw [← decode_ok_iff_fieldsLegal]
  cases decode c <;> simp

/-- Settles O2: each field of the word of a command is what the command was written with, and the decoder reads the
fields back. -/
theorem decodeOfEncode : Obligations.DecodeOfEncode := by
  unfold Obligations.DecodeOfEncode
  intro i
  cases i with
  | encode sym => simp [encode, decode]
  | init m st => cases m <;> cases st <;> decide
  | flush => decide
  | decode => decide
  | rdreg reg => cases reg <;> decide

/-- Settles O3: a word that decodes has `rsv` = 0, so it is made of `op` and `arg`, which are those of its command. -/
theorem encodeOfDecode : Obligations.EncodeOfDecode := by
  unfold Obligations.EncodeOfDecode
  intro c i h
  obtain ⟨hr, hcases⟩ := decode_ok_cases h
  rw [← CmdWord.make_fields hr]
  obtain ⟨hop, ha, rfl⟩ | ⟨hop, rfl⟩ | ⟨hop, ha, rfl⟩ | ⟨hop, ha, rfl⟩ | ⟨hop, ha, rfl⟩ := hcases
  · rw [encode, initArg, Mode.toBit_ofBit, Strategy.toBit_ofBit, hop, c.arg_eq, ha]
    rfl
  · rw [encode, hop]
  · rw [encode, hop, ha]
  · rw [encode, hop, ha]
  · rw [encode, Reg.number_ofBits, hop, c.arg_eq, ha]
    rfl

/-! ### The table -/

/-- A word that a row of the table selects has that row's legal fields (R91). -/
theorem CmdWord.fieldsLegal_of_selected {c : CmdWord} {r : OpRow} (hr : r ∈ opTable) (h : c &&& r.mask = r.bits) :
    c.FieldsLegal := by
  have hop := congrArg CmdWord.op h
  have hrsv := congrArg CmdWord.rsv h
  have harg := congrArg CmdWord.arg h
  have hhigh := congrArg CmdWord.argHigh h
  simp only [CmdWord.op_and, CmdWord.rsv_and, CmdWord.arg_and, CmdWord.argHigh_and] at hop hrsv harg hhigh
  have ones4 (x : BitVec 4) : x &&& 0xF#4 = x := BitVec.and_allOnes
  have ones6 (x : BitVec 6) : x &&& 0x3F#6 = x := BitVec.and_allOnes
  have ones8 (x : BitVec 8) : x &&& 0xFF#8 = x := BitVec.and_allOnes
  simp only [opTable, List.mem_cons, List.not_mem_nil, or_false] at hr
  obtain rfl | rfl | rfl | rfl | rfl := hr
  · exact ⟨(ones4 _).symm.trans hrsv, .inl ⟨.inl ((ones4 _).symm.trans hop), (ones6 _).symm.trans hhigh⟩⟩
  · exact ⟨(ones4 _).symm.trans hrsv, .inr (.inl ((ones4 _).symm.trans hop))⟩
  · exact ⟨(ones4 _).symm.trans hrsv, .inr (.inr ⟨.inl ((ones4 _).symm.trans hop), (ones8 _).symm.trans harg⟩)⟩
  · exact ⟨(ones4 _).symm.trans hrsv, .inr (.inr ⟨.inr ((ones4 _).symm.trans hop), (ones8 _).symm.trans harg⟩)⟩
  · exact ⟨(ones4 _).symm.trans hrsv, .inl ⟨.inr ((ones4 _).symm.trans hop), (ones6 _).symm.trans hhigh⟩⟩

/-- The word of a command matches the row of that command (R91). -/
theorem row_selects_encode (i : Instr) : i.row ∈ opTable ∧ i.row.selects (encode i) = true := by
  have h : Laws.RowMatch.Statement i := by
    cases i with
    | init m st => exact Laws.RowMatch.init m st
    | encode sym => exact Laws.RowMatch.encode sym
    | flush => exact Laws.RowMatch.flush
    | decode => exact Laws.RowMatch.decode
    | rdreg reg => exact Laws.RowMatch.rdreg reg
  exact ⟨h.1, h.2.1⟩

/-- Settles O4: a word that decodes is the word of its command, which matches that command's row, and a word that a row
selects has legal fields; the fields that are not legal are R93's list. -/
theorem decodeFollowsTheTable : Obligations.DecodeFollowsTheTable := by
  unfold Obligations.DecodeFollowsTheTable
  refine fun c => ⟨⟨fun ⟨i, h⟩ => ?_, fun ⟨r, hr, h⟩ => ?_⟩, ?_⟩
  · obtain ⟨hmem, hsel⟩ := row_selects_encode i
    rw [encodeOfDecode c i h] at hsel
    exact ⟨i.row, hmem, beq_iff_eq.mp hsel⟩
  · exact (decode_ok_iff_fieldsLegal c).mpr (CmdWord.fieldsLegal_of_selected hr h)
  · rw [decode_error_iff, CmdWord.FieldsLegal]
    by_cases hop : c.op = 0#4 ∨ 6 ≤ c.op.toNat
    · have noRow : c.op ≠ 1#4 ∧ c.op ≠ 2#4 ∧ c.op ≠ 3#4 ∧ c.op ≠ 4#4 ∧ c.op ≠ 5#4 := by
        refine ⟨?_, ?_, ?_, ?_, ?_⟩ <;> bv_omega
      tauto
    · have row : c.op = 1#4 ∨ c.op = 2#4 ∨ c.op = 3#4 ∨ c.op = 4#4 ∨ c.op = 5#4 := by bv_omega
      obtain h | h | h | h | h := row <;> simp [h] <;> tauto

/-- Settles O1: by evaluation of the decoder on the words of the two tables. -/
theorem tableWordsDecode : Obligations.TableWordsDecode := by
  unfold Obligations.TableWordsDecode
  decide

end Sys2Proof
end

section
/-! The bits a command emits and the bits it reads (spec/40_bitstream.md R120 to R124): `putBits` appends to the emitted
sequence, and the number of bytes written or consumed follows from the number of bits. -/

namespace Sys2Proof.Machine

/-! ### Emitting -/

/-- Writing bit `7 - n` of a byte writes the bit of index `n` of its bit sequence. -/
theorem symbolBits_setBit_take (v : Byte) {n : Nat} (b : Bool) (hn : n < 8) :
    (symbolBits (setBit v (7 - n) b)).take (n + 1) = (symbolBits v).take n ++ [b] := by
  have hlen : n < (symbolBits (setBit v (7 - n) b)).length := hn
  rw [List.take_succ_eq_append_getElem hlen, symbolBits_getElem, getLsbD_setBit _ _ _ _ (by omega), if_pos rfl]
  congr 1
  apply List.ext_getElem
  · simp [symbolBits_length]
  · intro i hi _
    simp only [List.length_take, symbolBits_length, lt_min_iff] at hi
    rw [List.getElem_take, List.getElem_take, symbolBits_getElem, symbolBits_getElem,
      getLsbD_setBit _ _ _ _ (by omega), if_neg (by omega)]

/-- One bit put is one bit emitted, and the buffer keeps its form (R120). -/
theorem putBit_bitsOut {s : State} (b : Bool) (hs : s.BufferOk) :
    (putBit s b).bitsOut = s.bitsOut ++ [b] ∧ (putBit s b).BufferOk := by
  obtain ⟨hcnt, hzero⟩ := hs
  have taken := symbolBits_setBit_take s.acc b hcnt
  by_cases h7 : s.cnt.toNat < 7
  · rw [putBit_buffers s b h7]
    have hsucc : (s.cnt + 1).toNat = s.cnt.toNat + 1 := by bv_omega
    refine ⟨?_, by rw [hsucc]; omega, fun i hi => ?_⟩
    · simp only [State.bitsOut, hsucc, taken, List.append_assoc]
    · simp only [hsucc] at hi
      rw [getLsbD_setBit _ _ _ _ (by omega), if_neg (by omega)]
      exact hzero i (by omega)
  · have hseven : s.cnt = 7 := by bv_omega
    rw [putBit_completes s b hseven]
    refine ⟨?_, by simp, fun i _ => by simp⟩
    rw [hseven] at taken
    have whole : symbolBits (setBit s.acc 0 b) = (symbolBits s.acc).take 7 ++ [b] :=
      (List.take_of_length_le (symbolBits_length _).le).symm.trans taken
    simp only [State.bitsOut, State.memWrite_sink, byteBits_append, byteBits_singleton, whole, hseven]
    simp

theorem putBits_bitsOut {s : State} (bits : List Bool) (hs : s.BufferOk) :
    (putBits s bits).bitsOut = s.bitsOut ++ bits ∧ (putBits s bits).BufferOk := by
  induction bits generalizing s with
  | nil => exact ⟨(List.append_nil _).symm, hs⟩
  | cons b bits ih =>
    obtain ⟨hbit, hbuffer⟩ := putBit_bitsOut b hs
    obtain ⟨hbits, hbuffer'⟩ := ih hbuffer
    exact ⟨by rw [putBits, hbits, hbit, List.append_assoc]; rfl, hbuffer'⟩

/-- Settles O20: by induction on the bits, one `putBit` at a time. -/
theorem putBitsEmits : Obligations.PutBitsEmits := by
  unfold Obligations.PutBitsEmits
  exact fun s bits hs => putBits_bitsOut bits hs

/-- Every byte of the sink holds 8 of the emitted bits, the buffer the rest (R28, R71). -/
theorem State.BufferOk.bitsOut_length {s : State} (hs : s.BufferOk) :
    s.bitsOut.length = 8 * s.sink.length + s.cnt.toNat := by
  have := hs.1
  simp [State.bitsOut, byteBits_length, symbolBits_length]
  omega

/-- The bytes `putBits` completes: their number follows from the number of bits, and `BYTE_COUNT` counts them (R29). -/
theorem putBits_bytes {s : State} (bits : List Bool) (hs : s.BufferOk) :
    ∃ bytes, (putBits s bits).sink = s.sink ++ bytes ∧
      (putBits s bits).byteCount = s.byteCount + BitVec.ofNat 64 bytes.length ∧
      8 * bytes.length + (putBits s bits).cnt.toNat = s.cnt.toNat + bits.length := by
  obtain ⟨bytes, hsink, hcount⟩ := putBits_sink s bits
  obtain ⟨hbits, hbuffer⟩ := putBits_bitsOut bits hs
  refine ⟨bytes, hsink, hcount, ?_⟩
  have hlen := congrArg List.length hbits
  rw [hbuffer.bitsOut_length, List.length_append, hs.bitsOut_length, hsink, List.length_append] at hlen
  omega

/-- Settles O21: 8 bits put with fewer than 8 buffered complete exactly one byte. -/
theorem putSymbolWritesOneByte : Obligations.PutSymbolWritesOneByte := by
  unfold Obligations.PutSymbolWritesOneByte
  intro s sym hs
  obtain ⟨hbits, hbuffer⟩ := putBits_bitsOut (symbolBits sym) hs
  obtain ⟨bytes, hsink, hcount, hlen⟩ := putBits_bytes (symbolBits sym) hs
  rw [symbolBits_length] at hlen
  have hcnt := hs.1
  have hcnt' := hbuffer.1
  have hone : bytes.length = 1 := by omega
  obtain ⟨b, rfl⟩ := List.length_eq_one_iff.mp hone
  exact ⟨hbits, BitVec.eq_of_toNat_eq (by rw [putSymbol]; omega), ⟨b, hsink⟩, hcount⟩

/-- The code of a symbol is emitted whole (R220, R96). -/
theorem emitCode_bitsOut {s : State} (h : Handle) (path : List Bool) (sym : Symbol) (hs : s.BufferOk) :
    (emitCode s h path sym).bitsOut = s.bitsOut ++ path ++ (if h = s.tree.esc then symbolBits sym else []) ∧
      (emitCode s h path sym).BufferOk := by
  rw [emitCode_bits, List.append_assoc]
  exact putBits_bitsOut _ hs

@[simp] theorem emitCode_cfg (s : State) (h : Handle) (path : List Bool) (sym : Symbol) :
    (emitCode s h path sym).cfg = s.cfg := by rw [emitCode_bits, putBits_cfg]
@[simp] theorem emitCode_tree (s : State) (h : Handle) (path : List Bool) (sym : Symbol) :
    (emitCode s h path sym).tree = s.tree := by rw [emitCode_bits, putBits_tree]
@[simp] theorem emitCode_pendValid (s : State) (h : Handle) (path : List Bool) (sym : Symbol) :
    (emitCode s h path sym).pendValid = s.pendValid := by rw [emitCode_bits, putBits_pendValid]
@[simp] theorem emitCode_pendBit (s : State) (h : Handle) (path : List Bool) (sym : Symbol) :
    (emitCode s h path sym).pendBit = s.pendBit := by rw [emitCode_bits, putBits_pendBit]
@[simp] theorem emitCode_mode (s : State) (h : Handle) (path : List Bool) (sym : Symbol) :
    (emitCode s h path sym).mode = s.mode := by rw [emitCode_bits, putBits_mode]
@[simp] theorem emitCode_strategy (s : State) (h : Handle) (path : List Bool) (sym : Symbol) :
    (emitCode s h path sym).strategy = s.strategy := by rw [emitCode_bits, putBits_strategy]
@[simp] theorem emitCode_engine (s : State) (h : Handle) (path : List Bool) (sym : Symbol) :
    (emitCode s h path sym).engine = s.engine := by rw [emitCode_bits, putBits_engine]
@[simp] theorem emitCode_faultCode (s : State) (h : Handle) (path : List Bool) (sym : Symbol) :
    (emitCode s h path sym).faultCode = s.faultCode := by rw [emitCode_bits, putBits_faultCode]
@[simp] theorem emitCode_src (s : State) (h : Handle) (path : List Bool) (sym : Symbol) :
    (emitCode s h path sym).src = s.src := by rw [emitCode_bits, putBits_src]
@[simp] theorem emitCode_srcPos (s : State) (h : Handle) (path : List Bool) (sym : Symbol) :
    (emitCode s h path sym).srcPos = s.srcPos := by rw [emitCode_bits, putBits_srcPos]
@[simp] theorem emitCode_channel (s : State) (h : Handle) (path : List Bool) (sym : Symbol) :
    (emitCode s h path sym).channel = s.channel := by rw [emitCode_bits, putBits_channel]
@[simp] theorem emitCode_responses (s : State) (h : Handle) (path : List Bool) (sym : Symbol) :
    (emitCode s h path sym).responses = s.responses := by rw [emitCode_bits, putBits_responses]
@[simp] theorem emitCode_freeCount (s : State) (h : Handle) (path : List Bool) (sym : Symbol) :
    (emitCode s h path sym).freeCount = s.freeCount := by rw [emitCode_bits, putBits_freeCount]

/-! ### Bytes consumed -/

/-- `u` is `s` after at most `m` bits were asked for: the bytes consumed, each counted, are no more than those bits need,
and the read position does not pass the end of the source (R122, R61, R29). -/
structure State.ReadsUpTo (m : Nat) (s u : State) : Prop where
  same : s.SameStream u
  bytes : ∃ n, u.srcPos = s.srcPos + n ∧ u.byteCount = s.byteCount + BitVec.ofNat 64 n ∧
    8 * n + s.cnt.toNat ≤ m + u.cnt.toNat ∧ ((n = 0 ∧ u.cnt.toNat ≤ s.cnt.toNat) ∨ u.cnt.toNat ≤ 7)
  within : s.srcPos ≤ s.src.length → u.srcPos ≤ u.src.length

/-- A state that differs from `s` in the pending bit alone: no bit was asked for. -/
theorem State.ReadsUpTo.of_pending {s u : State} (same : s.SameStream u) (hpos : u.srcPos = s.srcPos)
    (hcount : u.byteCount = s.byteCount) (hcnt : u.cnt = s.cnt) (m : Nat) : s.ReadsUpTo m u :=
  ⟨same, ⟨0, by simp [hpos], by simp [hcount], by rw [hcnt]; omega, .inl ⟨rfl, by rw [hcnt]⟩⟩,
    fun h => by rw [hpos, same.src]; exact h⟩

theorem State.ReadsUpTo.refl (m : Nat) (s : State) : s.ReadsUpTo m s := .of_pending (.refl s) rfl rfl rfl m

theorem State.ReadsUpTo.trans {m k : Nat} {s u v : State} (a : s.ReadsUpTo m u) (b : u.ReadsUpTo k v) :
    s.ReadsUpTo (m + k) v := by
  obtain ⟨n, pos, count, bound, small⟩ := a.bytes
  obtain ⟨n', pos', count', bound', small'⟩ := b.bytes
  refine ⟨a.same.trans b.same, ⟨n + n', by omega, ?_, by omega, by omega⟩, fun h => b.within (a.within h)⟩
  rw [count', count, BitVec.ofNat_add, BitVec.add_assoc]

theorem State.ReadsUpTo.mono {m k : Nat} {s u : State} (a : s.ReadsUpTo m u) (h : m ≤ k) : s.ReadsUpTo k u := by
  obtain ⟨n, pos, count, bound, small⟩ := a.bytes
  exact ⟨a.same, ⟨n, pos, count, by omega, small⟩, a.within⟩

/-- The bytes consumed for at most 264 bits are at most 33 (R67). -/
theorem State.ReadsUpTo.bytes_le {m : Nat} {s u : State} (a : s.ReadsUpTo m u) (hm : m ≤ 264) :
    ∃ n, n ≤ 33 ∧ u.srcPos = s.srcPos + n ∧ u.byteCount = s.byteCount + BitVec.ofNat 64 n := by
  obtain ⟨n, pos, count, bound, small⟩ := a.bytes
  exact ⟨n, by omega, pos, count⟩

theorem getBitOpt_reads (s : State) : s.ReadsUpTo 1 (getBitOpt s).2 := by
  refine ⟨getBitOpt_same s, ?_, ?_⟩
  · obtain ⟨hc, h⟩ | ⟨hc, _, h⟩ | ⟨hc, hs, h⟩ := getBitOpt_cases s <;> rw [h]
    · have hpred : (s.cnt - 1).toNat + 1 = s.cnt.toNat := by bv_omega
      exact ⟨0, by simp, by simp, by simp; omega, .inl ⟨rfl, by simp; omega⟩⟩
    · exact ⟨0, by simp, by simp, by simp, .inl ⟨rfl, le_rfl⟩⟩
    · exact ⟨1, rfl, rfl, by simp [hc], .inr (by simp)⟩
  · obtain ⟨hc, h⟩ | ⟨hc, _, h⟩ | ⟨hc, hs, h⟩ := getBitOpt_cases s <;> rw [h]
    · exact id
    · exact id
    · exact fun _ => hs

theorem firstBit_reads (s : State) : s.ReadsUpTo 1 (firstBit s).2 := by
  obtain ⟨_, h⟩ | ⟨_, h⟩ := firstBit_cases s
  · have same := firstBit_same s
    rw [h] at same ⊢
    exact .of_pending same rfl rfl rfl 1
  · rw [h]
    exact getBitOpt_reads s

theorem holdBit_reads (s : State) (bit : Option Bool) : s.ReadsUpTo 0 (holdBit s bit) :=
  .of_pending (holdBit_same s bit) (by cases bit <;> rfl) (by cases bit <;> rfl) (by cases bit <;> rfl) 0

theorem getBit_reads (s : State) : s.ReadsUpTo 1 (getBit s).state := by
  obtain ⟨b, _, h⟩ | ⟨_, h⟩ := getBit_cases s <;> rw [h] <;> exact getBitOpt_reads s

/-- What the descent does at a node that is not Internal, and at an Internal one without a bit, without a child, at the
end of its fuel, and with all three (R240). -/
theorem descend_leaf {fuel : Nat} {cur : Handle} {bit : Option Bool} {s : State}
    (h : (s.tree.get cur).role ≠ .internal) : descend fuel cur bit s = .ok (cur, bit) s := by
  unfold descend; rw [if_neg h]

theorem descend_eos {fuel : Nat} {cur : Handle} {s : State} (h : (s.tree.get cur).role = .internal) :
    descend fuel cur none s = .raised .streamExhausted s := by
  unfold descend; rw [if_pos h]

theorem descend_childless {fuel : Nat} {cur : Handle} {b : Bool} {s : State}
    (h : (s.tree.get cur).role = .internal) (hc : s.tree.child cur b = none) :
    descend fuel cur (some b) s = .raised .invariantViolation s := by
  rw [Tree.child] at hc; unfold descend; rw [if_pos h]; dsimp only; rw [hc]

theorem descend_deep {cur c : Handle} {b : Bool} {s : State}
    (h : (s.tree.get cur).role = .internal) (hc : s.tree.child cur b = some c) :
    descend 0 cur (some b) s = .raised .invariantViolation s := by
  rw [Tree.child] at hc; unfold descend; rw [if_pos h]; dsimp only; rw [hc]

theorem descend_step {fuel : Nat} {cur c : Handle} {b : Bool} {s : State}
    (h : (s.tree.get cur).role = .internal) (hc : s.tree.child cur b = some c) :
    descend (fuel + 1) cur (some b) s = descend fuel c (getBitOpt s).1 (getBitOpt s).2 := by
  rw [Tree.child] at hc; rw [descend, if_pos h]; dsimp only; rw [hc]

theorem descend_reads (fuel : Nat) (cur : Handle) (bit : Option Bool) (s : State) :
    s.ReadsUpTo fuel (descend fuel cur bit s).state := by
  induction fuel generalizing cur bit s with
  | zero =>
    by_cases h : (s.tree.get cur).role = .internal
    · cases bit with
      | none => rw [descend_eos h]; exact .refl _ s
      | some b =>
        cases hc : s.tree.child cur b with
        | none => rw [descend_childless h hc]; exact .refl _ s
        | some c => rw [descend_deep h hc]; exact .refl _ s
    · rw [descend_leaf h]; exact .refl _ s
  | succ fuel ih =>
    by_cases h : (s.tree.get cur).role = .internal
    · cases bit with
      | none => rw [descend_eos h]; exact .refl _ s
      | some b =>
        cases hc : s.tree.child cur b with
        | none => rw [descend_childless h hc]; exact .refl _ s
        | some c =>
          rw [descend_step h hc]
          exact ((getBitOpt_reads s).trans (ih _ _ _)).mono (by omega)
    · rw [descend_leaf h]; exact .refl _ s

theorem rawBits_succ (k : Nat) (sym : Symbol) (s : State) :
    rawBits (k + 1) sym s = (getBit s).bind fun b u => rawBits k (setBit sym k b) u := rfl

theorem rawBits_reads (k : Nat) (sym : Symbol) (s : State) : s.ReadsUpTo k (rawBits k sym s).state := by
  induction k generalizing sym s with
  | zero => exact .refl _ s
  | succ k ih =>
    have hg := getBit_reads s
    rw [rawBits_succ]
    cases h : getBit s with
    | ok b u => rw [h] at hg; exact (hg.trans (ih _ _)).mono (by omega)
    | raised e u => rw [h] at hg; exact hg.mono (by omega)

/-- `rawSymbol` in both cases of the pending bit (R240, R241). -/
theorem rawSymbol_pending {s : State} (h : s.pendValid = true) :
    rawSymbol s = rawBits 7 (setBit 0 7 s.pendBit) { s with pendValid := false } := if_pos h

theorem rawSymbol_eos {s : State} (h : s.pendValid = false) : rawSymbol s = .raised .streamExhausted s :=
  if_neg (by simp [h])

theorem landedSymbol_leaf {cur : Handle} {s : State} {sym : Symbol} (h : (s.tree.get cur).role = .leaf sym) :
    landedSymbol cur s = .ok sym s := by
  unfold landedSymbol; rw [h]

theorem landedSymbol_escape {cur : Handle} {s : State} (h : (s.tree.get cur).role = .escape) :
    landedSymbol cur s = rawSymbol s := by
  unfold landedSymbol; rw [h]

theorem landedSymbol_internal {cur : Handle} {s : State} (h : (s.tree.get cur).role = .internal) :
    landedSymbol cur s = .raised .invariantViolation s := by
  unfold landedSymbol; rw [h]

theorem landedSymbol_reads (cur : Handle) (s : State) : s.ReadsUpTo 7 (landedSymbol cur s).state := by
  cases h : (s.tree.get cur).role with
  | internal => rw [landedSymbol_internal h]; exact .refl _ s
  | leaf sym => rw [landedSymbol_leaf h]; exact .refl _ s
  | escape =>
    rw [landedSymbol_escape h]
    cases hp : s.pendValid with
    | false => rw [rawSymbol_eos hp]; exact .refl _ s
    | true =>
      rw [rawSymbol_pending hp]
      have pending : s.ReadsUpTo 0 { s with pendValid := false } :=
        .of_pending (s := s) (u := { s with pendValid := false })
          ⟨rfl, rfl, rfl, rfl, rfl, rfl, rfl, rfl, rfl, rfl, rfl⟩ rfl rfl rfl 0
      exact pending.trans (rawBits_reads 7 _ _)

theorem descend_firstBit_reads {s : State} {r : Res (Handle × Option Bool)}
    (h : descend 256 root (firstBit s).1 (firstBit s).2 = r) : s.ReadsUpTo 257 r.state := by
  rw [← h]
  exact ((firstBit_reads s).trans (descend_reads 256 _ _ _)).mono le_rfl

theorem landedSymbol_after_descend_reads {s v : State} {cur : Handle} {bit : Option Bool} {r : Res Symbol}
    (hd : descend 256 root (firstBit s).1 (firstBit s).2 = .ok (cur, bit) v)
    (hl : landedSymbol cur (holdBit v bit) = r) : s.ReadsUpTo 264 r.state := by
  have hv : s.ReadsUpTo 257 v := descend_firstBit_reads hd
  rw [← hl]
  exact (hv.trans (holdBit_reads v bit)).trans (landedSymbol_reads _ _)

end Sys2Proof.Machine
end

section
/-! Paths in a well-formed tree (spec/41_codetree.md R142, R144; spec/30_encoding.md R100): every node is a child of its
parent, every path has at most 256 bits, and `pathTo` and `isProperAncestor` answer as the child links say. -/

namespace Sys2Proof.Machine

/-! ### Up and down the links -/

/-- The link clauses of one node and its neighbours, both ways: children point back (R41(c)), and a node with a parent is
the child of that parent on its own side. -/
structure Tree.Links (t : Tree) : Prop extends t.LocalLinks where
  up : ∀ h p, t.has h → (t.get h).parent = some p → t.has p ∧ t.child p (!(t.get h).isLeft) = some h

/-- `h` reaches the root by `parent` steps (R41(d)). -/
inductive Tree.Rooted (t : Tree) : Handle → Prop where
  | root : t.Rooted root
  | step {h p : Handle} : (t.get h).parent = some p → t.Rooted p → t.Rooted h

theorem Tree.WellFormed.linked {t : Tree} (w : t.WellFormed) : t.Links := by
  refine { w.localLinks with up := fun h p hh hp => ?_ }
  obtain ⟨path, e⟩ := w.links.reached h hh
  cases path using List.reverseRecOn with
  | nil => cases e; rw [(w.links.rootParent root hh).2 rfl] at hp; cases hp
  | append_singleton path b =>
    obtain ⟨y, hy, hc⟩ := Tree.walk_snoc e
    have hya := w.localLinks.walk_has w.root_has path hy
    obtain ⟨_, hparent, hside, _⟩ := w.localLinks.child hya hc
    cases Option.some.inj (hparent.symm.trans hp)
    exact ⟨hya, by rw [hside, Bool.not_not]; exact hc⟩

theorem Tree.WellFormed.rooted {t : Tree} (w : t.WellFormed) {h : Handle} (hh : t.has h) : t.Rooted h := by
  obtain ⟨path, e⟩ := w.links.reached h hh
  induction path using List.reverseRecOn generalizing h with
  | nil => cases e; exact .root
  | append_singleton path b ih =>
    obtain ⟨y, hy, hc⟩ := Tree.walk_snoc e
    have hya := w.localLinks.walk_has w.root_has path hy
    exact .step (w.localLinks.child hya hc).2.1 (ih hya hy)

/-- The link clauses of R41 from those of each node, when every node reaches the root. -/
theorem Tree.Links.linksWf {t : Tree} (l : t.Links) (rooted : ∀ h, t.has h → t.Rooted h) : t.LinksWf := by
  have reached : ∀ h, t.Rooted h → t.has h → ∃ path, t.walk root path = some h := by
    intro h hr
    induction hr with
    | root => exact fun _ => ⟨[], rfl⟩
    | @step h p hp _ ih =>
      intro hh
      obtain ⟨hpa, hc⟩ := l.up h p hh hp
      obtain ⟨path, e⟩ := ih hpa
      exact ⟨path ++ [!(t.get h).isLeft], by rw [Tree.walk_append, e, Option.bind_some, Tree.walk_cons, hc]; rfl⟩
  exact ⟨l.rootParent, l.internal, l.childless, fun h hh => reached h (rooted h hh) hh, l.toLocalLinks.once⟩

theorem Tree.Links.child_iff {t : Tree} (l : t.Links) {p c : Handle} {b : Bool} (hp : t.has p) (hc : t.has c) :
    t.child p b = some c ↔ (t.get c).parent = some p ∧ (t.get c).isLeft = !b := by
  constructor
  · intro h
    obtain ⟨_, hparent, hside, _⟩ := l.toLocalLinks.child hp h
    exact ⟨hparent, hside⟩
  · rintro ⟨hparent, hside⟩
    have := (l.up c p hc hparent).2
    rwa [hside, Bool.not_not] at this

theorem Tree.LocalLinks.child_of_internal {t : Tree} (l : t.LocalLinks) {p : Handle} (hp : t.has p)
    (hi : (t.get p).role = .internal) (b : Bool) : ∃ c, t.child p b = some c := by
  obtain ⟨c, d, hc, hd, _⟩ := l.internal p hp hi
  cases b
  · exact ⟨c, hc⟩
  · exact ⟨d, hd⟩

theorem Tree.LocalLinks.child_of_childless {t : Tree} (l : t.LocalLinks) {p : Handle} (hp : t.has p)
    (hi : (t.get p).role ≠ .internal) (b : Bool) : t.child p b = none := by
  obtain ⟨hc, hd⟩ := l.childless p hp hi
  cases b
  · exact hc
  · exact hd

/-- A path that leaves a node leaves an Internal one. -/
theorem Tree.LocalLinks.walk_childless {t : Tree} (l : t.LocalLinks) {h x : Handle} (hh : t.has h)
    (hi : (t.get h).role ≠ .internal) {path : List Bool} (e : t.walk h path = some x) : path = [] ∧ x = h := by
  cases path with
  | nil => exact ⟨rfl, (Option.some.inj e).symm⟩
  | cons b path => rw [Tree.walk_cons, l.child_of_childless hh hi b] at e; cases e

/-- Every path to a node goes through its parent (R41(d)). -/
theorem Tree.LocalLinks.walk_parent {t : Tree} (l : t.LocalLinks) {a x p : Handle} {path : List Bool} (ha : t.has a)
    (e : t.walk a path = some x) (hx : x ≠ a) (hp : (t.get x).parent = some p) :
    ∃ path', path = path' ++ [!(t.get x).isLeft] ∧ t.walk a path' = some p := by
  cases path using List.reverseRecOn with
  | nil => exact absurd (Option.some.inj e).symm hx
  | append_singleton path b =>
    obtain ⟨y, hy, hc⟩ := Tree.walk_snoc e
    obtain ⟨_, hparent, hside, _⟩ := l.child (l.walk_has ha path hy) hc
    cases Option.some.inj (hparent.symm.trans hp)
    exact ⟨path, by rw [hside, Bool.not_not], hy⟩

/-! ### The length of a path -/

/-- The node a path of nodes' codes reaches, and the root for a path that leaves the tree. -/
def Tree.reach (t : Tree) (path : List Bool) : Handle := (t.walk root path).getD root

/-- The paths that branch off a path: to the child `b` of its `i`-th node; with the empty path as `none`. -/
def branchOff (path : List Bool) : Option (Fin path.length × Bool) → List Bool
  | none => []
  | some (i, b) => path.take i ++ [b]

theorem branchOff_injective {path : List Bool} : Function.Injective (branchOff path) := by
  intro x y h
  have length (i : Fin path.length) : (path.take i).length = i := by simp
  match x, y with
  | none, none => rfl
  | none, some (j, c) => simp [branchOff] at h
  | some (i, b), none => simp [branchOff] at h
  | some (i, b), some (j, c) =>
    obtain ⟨hpre, hbit⟩ := List.append_inj' h rfl
    have hij : i = j := Fin.ext (by rw [← length i, ← length j, hpre])
    rw [hij, List.singleton_inj.mp hbit]

/-- Along a path of the tree each node passed is Internal, so both its children are there. -/
theorem Tree.LocalLinks.walk_branchOff {t : Tree} (l : t.LocalLinks) {path : List Bool} {h : Handle}
    (e : t.walk root path = some h) (x : Option (Fin path.length × Bool)) :
    ∃ y, t.walk root (branchOff path x) = some y ∧ t.has y := by
  match x with
  | none => exact ⟨root, rfl, l.rootHas⟩
  | some (i, b) =>
    have cut : t.walk root (path.take i ++ path[i.val] :: path.drop (i + 1)) = some h := by
      rw [List.cons_getElem_drop_succ, List.take_append_drop]; exact e
    rw [Tree.walk_append] at cut
    obtain ⟨y, hy, hrest⟩ := Option.bind_eq_some_iff.mp cut
    have hya := l.walk_has l.rootHas _ hy
    rw [Tree.walk_cons] at hrest
    obtain ⟨c, hc, _⟩ := Option.bind_eq_some_iff.mp hrest
    obtain ⟨d, hd⟩ := l.child_of_internal hya (l.child hya hc).2.2.2 b
    exact ⟨d, by rw [branchOff, Tree.walk_append, hy, Option.bind_some, Tree.walk_cons, hd]; rfl, (l.child hya hd).1⟩

/-- The nodes passed by a path, their other children and its end are all different nodes, so `k` bits need `2k + 1`
nodes (R41(a), R100). -/
theorem Tree.LocalLinks.path_length {t : Tree} (l : t.LocalLinks) {path : List Bool} {h : Handle}
    (e : t.walk root path = some h) : 2 * path.length + 1 ≤ t.nodeCount.val := by
  have there := l.walk_branchOff e
  have reached (x) : t.walk root (branchOff path x) = some (t.reach (branchOff path x)) := by
    obtain ⟨y, hy, _⟩ := there x
    rw [Tree.reach, hy]; rfl
  have allocated (x) : t.has (t.reach (branchOff path x)) := l.walk_has l.rootHas _ (reached x)
  have injective : Function.Injective
      (fun x : Option (Fin path.length × Bool) =>
        (⟨(t.reach (branchOff path x)).val, allocated x⟩ : Fin t.nodeCount.val)) := by
    intro x y hxy
    have hnode : t.reach (branchOff path x) = t.reach (branchOff path y) := Fin.ext (Fin.mk.inj_iff.mp hxy)
    exact branchOff_injective (l.once _ _ _ (reached x) (hnode ▸ reached y))
  have := Fintype.card_le_of_injective _ injective
  simp at this
  omega

theorem Tree.LocalLinks.path_length_le {t : Tree} (l : t.LocalLinks) {path : List Bool} {h : Handle}
    (e : t.walk root path = some h) : path.length ≤ 256 := by
  have := l.path_length e
  have := t.nodeCount.isLt
  omega

/-! ### `pathTo` -/

theorem Tree.LocalLinks.pathUp_eq {t : Tree} (l : t.LocalLinks) {path : List Bool} {h : Handle}
    (e : t.walk root path = some h) {fuel : Nat} (hf : path.length ≤ fuel) (bits : List Bool) :
    pathUp t fuel h bits = .ok (path ++ bits) := by
  induction path using List.reverseRecOn generalizing h fuel bits with
  | nil => cases e; exact pathUp_top t ((l.rootParent root l.rootHas).2 rfl)
  | append_singleton path b ih =>
    obtain ⟨y, hy, hc⟩ := Tree.walk_snoc e
    obtain ⟨_, hparent, hside, _⟩ := l.child (l.walk_has l.rootHas path hy) hc
    rw [List.length_append, List.length_singleton] at hf
    obtain ⟨fuel, rfl⟩ : ∃ k, fuel = k + 1 := ⟨fuel - 1, by omega⟩
    rw [pathUp_step t hparent, ih hy (by omega), hside, Bool.not_not, List.append_assoc]
    rfl

/-- `pathTo` answers the path that leads to the node (R144, R100). -/
theorem Tree.LocalLinks.pathTo_eq {t : Tree} (l : t.LocalLinks) {path : List Bool} {h : Handle}
    (e : t.walk root path = some h) : pathTo t h = .ok path := by
  rw [pathTo, l.pathUp_eq e (l.path_length_le e), List.append_nil]

theorem Tree.WellFormed.pathTo_ok {t : Tree} (w : t.WellFormed) {h : Handle} (hh : t.has h) :
    ∃ path, pathTo t h = .ok path ∧ t.walk root path = some h := by
  obtain ⟨path, e⟩ := w.links.reached h hh
  exact ⟨path, w.localLinks.pathTo_eq e, e⟩

/-- What `pathTo` answers leads to the node. -/
theorem Tree.WellFormed.walk_of_pathTo {t : Tree} (w : t.WellFormed) {h : Handle} (hh : t.has h) {path : List Bool}
    (e : pathTo t h = .ok path) : t.walk root path = some h := by
  obtain ⟨path', e', hwalk⟩ := w.pathTo_ok hh
  cases e.symm.trans e'
  exact hwalk

/-- `pathTo` records at most 256 bits, whatever the tree (R144). -/
theorem pathUp_length {t : Tree} {fuel : Nat} {h : Handle} {bits path : List Bool}
    (e : pathUp t fuel h bits = .ok path) : path.length ≤ fuel + bits.length := by
  induction fuel generalizing h bits with
  | zero =>
    cases hp : (t.get h).parent with
    | none => rw [pathUp_top t hp] at e; cases e; omega
    | some p => rw [pathUp, hp] at e; cases e
  | succ fuel ih =>
    cases hp : (t.get h).parent with
    | none => rw [pathUp_top t hp] at e; cases e; omega
    | some p =>
      rw [pathUp_step t hp] at e
      have := ih e
      rw [List.length_cons] at this
      omega

theorem pathTo_length {t : Tree} {h : Handle} {path : List Bool} (e : pathTo t h = .ok path) : path.length ≤ 256 :=
  pathUp_length e

/-- Settles O27: `pathTo` answers the path that reaches the node, which passes at most 256 Internal nodes. -/
theorem pathLeadsToTheNode : Obligations.PathLeadsToTheNode := by
  unfold Obligations.PathLeadsToTheNode
  intro t h w hh
  obtain ⟨path, e, hwalk⟩ := w.pathTo_ok hh
  exact ⟨path, e, pathTo_length e, hwalk⟩

/-- From an Internal node on, enough bits lead to a childless node. -/
theorem Tree.WellFormed.exists_leaf_code {t : Tree} (w : t.WellFormed) {front bits : List Bool} {x : Handle}
    (e : t.walk root front = some x) (hlen : 256 ≤ front.length + bits.length) :
    ∃ path rest h, bits = path ++ rest ∧ t.walk x path = some h ∧ t.has h ∧ (t.get h).role ≠ .internal := by
  have hx := w.localLinks.walk_has w.root_has front e
  induction bits generalizing front x with
  | nil =>
    refine ⟨[], [], x, rfl, rfl, hx, fun hi => ?_⟩
    obtain ⟨c, hc⟩ := w.localLinks.child_of_internal hx hi true
    have deeper : t.walk root (front ++ [true]) = some c := by
      rw [Tree.walk_append, e, Option.bind_some, Tree.walk_cons, hc]; rfl
    have := w.localLinks.path_length_le deeper
    simp at this hlen
    omega
  | cons b bits ih =>
    by_cases hi : (t.get x).role = .internal
    · obtain ⟨c, hc⟩ := w.localLinks.child_of_internal hx hi b
      have deeper : t.walk root (front ++ [b]) = some c := by
        rw [Tree.walk_append, e, Option.bind_some, Tree.walk_cons, hc]; rfl
      obtain ⟨path, rest, h, rfl, hwalk, hh, hleaf⟩ :=
        ih deeper (by simp at hlen ⊢; omega) (w.localLinks.child hx hc).1
      exact ⟨b :: path, rest, h, rfl, by rw [Tree.walk_cons, hc]; exact hwalk, hh, hleaf⟩
    · exact ⟨[], b :: bits, x, rfl, rfl, hx, hi⟩

/-- Settles O28: a childless node has no path on, and 256 bits lead past every Internal node. -/
theorem leafCodesPrefixFreeAndComplete : Obligations.LeafCodesPrefixFreeAndComplete := by
  unfold Obligations.LeafCodesPrefixFreeAndComplete
  refine fun t w => ⟨fun h h' path more hh _ hleaf hpath hmore => ?_, fun bits hlen => ?_⟩
  · rw [Tree.walk_append, hpath, Option.bind_some] at hmore
    obtain ⟨hnil, heq⟩ := w.localLinks.walk_childless hh hleaf hmore
    exact ⟨hnil, heq.symm⟩
  · exact w.exists_leaf_code (front := []) rfl (by simpa using hlen)

/-! ### Ancestors -/

/-- `a` is a proper ancestor of `b` (R142): some child links lead from `a` to `b`. -/
def Tree.Above (t : Tree) (a b : Handle) : Prop := ∃ path, path ≠ [] ∧ t.walk a path = some b

/-- `a` is above `b` when it is the parent of `b` or above that parent. -/
theorem Tree.Links.above_iff {t : Tree} (l : t.Links) {a b p : Handle} (ha : t.has a) (hb : t.has b)
    (hp : (t.get b).parent = some p) : t.Above a b ↔ ∃ path, t.walk a path = some p := by
  constructor
  · rintro ⟨path, hne, e⟩
    cases path using List.reverseRecOn with
    | nil => exact absurd rfl hne
    | append_singleton path c =>
      obtain ⟨y, hy, hc⟩ := Tree.walk_snoc e
      obtain ⟨_, hparent, _⟩ := l.toLocalLinks.child (l.toLocalLinks.walk_has ha path hy) hc
      cases Option.some.inj (hparent.symm.trans hp)
      exact ⟨path, hy⟩
  · rintro ⟨path, e⟩
    refine ⟨path ++ [!(t.get b).isLeft], by simp, ?_⟩
    rw [Tree.walk_append, e, Option.bind_some, Tree.walk_cons, (l.up b p hb hp).2]
    rfl

/-- No node is above the root. -/
theorem Tree.LocalLinks.not_above_root {t : Tree} (l : t.LocalLinks) {a : Handle} (ha : t.has a) : ¬ t.Above a root := by
  rintro ⟨path, hne, e⟩
  cases path using List.reverseRecOn with
  | nil => exact hne rfl
  | append_singleton path b =>
    obtain ⟨y, hy, hc⟩ := Tree.walk_snoc e
    have := (l.child (l.walk_has ha path hy) hc).2.1
    rw [(l.rootParent root l.rootHas).2 rfl] at this
    cases this

/-- No node is above itself (R41(d)). -/
theorem Tree.WellFormed.not_above_self {t : Tree} (w : t.WellFormed) {a : Handle} (ha : t.has a) : ¬ t.Above a a := by
  rintro ⟨path, hne, e⟩
  obtain ⟨front, hfront⟩ := w.links.reached a ha
  have twice : t.walk root (front ++ path) = some a := by rw [Tree.walk_append, hfront]; exact e
  have := w.links.once _ _ _ hfront twice
  exact hne (List.self_eq_append_right.mp this)

/-- The search along the parent chain, with fuel for every node of the chain (R142). -/
theorem Tree.WellFormed.onChain_eq {t : Tree} (w : t.WellFormed) {a x : Handle} (ha : t.has a) {path : List Bool}
    (e : t.walk root path = some x) {fuel : Nat} (hf : path.length < fuel) :
    ((∃ q, t.walk a q = some x) → onChain t a fuel (some x) = .ok true) ∧
      ((∀ q, t.walk a q ≠ some x) → onChain t a fuel (some x) = .ok false) := by
  induction path using List.reverseRecOn generalizing x fuel with
  | nil =>
    cases e
    obtain ⟨fuel, rfl⟩ : ∃ k, fuel = k + 1 := ⟨fuel - 1, by omega⟩
    by_cases hra : root = a
    · subst hra
      exact ⟨fun _ => onChain_here t _ _, fun h => absurd rfl (h [])⟩
    · refine ⟨fun ⟨q, hq⟩ => ?_, fun _ => ?_⟩
      · refine absurd ⟨q, ?_, hq⟩ (w.localLinks.not_above_root ha)
        rintro rfl
        exact hra (Option.some.inj hq).symm
      · rw [onChain_step t fuel hra, (w.links.rootParent root w.root_has).2 rfl]
        exact onChain_none t a fuel
  | append_singleton path b ih =>
    have hx := w.localLinks.walk_has w.root_has _ e
    obtain ⟨y, hy, hc⟩ := Tree.walk_snoc e
    obtain ⟨_, hparent, _⟩ := w.localLinks.child (w.localLinks.walk_has w.root_has path hy) hc
    rw [List.length_append, List.length_singleton] at hf
    obtain ⟨fuel, rfl⟩ : ∃ k, fuel = k + 1 := ⟨fuel - 1, by omega⟩
    by_cases hxa : x = a
    · subst hxa
      exact ⟨fun _ => onChain_here t _ _, fun h => absurd rfl (h [])⟩
    · rw [onChain_step t fuel hxa, hparent]
      obtain ⟨found, absent⟩ := ih hy (fuel := fuel) (by omega)
      refine ⟨fun ⟨q, hq⟩ => found ?_, fun h => absent fun q hq => ?_⟩
      · obtain ⟨q', _, hq'⟩ := w.localLinks.walk_parent ha hq hxa hparent
        exact ⟨q', hq'⟩
      · obtain ⟨q', _, hq'⟩ := (w.linked.above_iff ha hx hparent).mpr ⟨q, hq⟩
        exact h q' hq'

/-- `isProperAncestor` answers whether child links lead from `a` to `b` (R142). -/
theorem Tree.WellFormed.isProperAncestor_eq {t : Tree} (w : t.WellFormed) {a b : Handle} (ha : t.has a) (hb : t.has b) :
    (t.Above a b → isProperAncestor t a b = .ok true) ∧ (¬ t.Above a b → isProperAncestor t a b = .ok false) := by
  unfold isProperAncestor
  by_cases hroot : b = root
  · subst hroot
    refine ⟨fun h => absurd h (w.localLinks.not_above_root ha), fun _ => ?_⟩
    rw [(w.links.rootParent root hb).2 rfl]
    exact onChain_none t a _
  · obtain ⟨p, hp⟩ := Option.ne_none_iff_exists'.mp (mt (w.links.rootParent b hb).1 hroot)
    obtain ⟨path, e⟩ := w.links.reached p (w.linked.up b p hb hp).1
    have fuel : path.length < t.nodeCount.val := by have := w.localLinks.path_length e; omega
    obtain ⟨found, absent⟩ := w.onChain_eq ha e fuel
    rw [hp, w.linked.above_iff ha hb hp]
    exact ⟨found, fun h => absent fun q hq => h ⟨q, hq⟩⟩

/-- `swapPositions` answers for two nodes neither of which is the root or above the other (R146). -/
theorem Tree.WellFormed.swapPositions_of_apart {t : Tree} (w : t.WellFormed) {a b : Handle} (ha : t.has a) (hb : t.has b)
    (hab : a ≠ b) (hra : a ≠ root) (hrb : b ≠ root) (nab : ¬ t.Above a b) (nba : ¬ t.Above b a) :
    ∃ u, swapPositions t a b = .ok u := by
  obtain ⟨pa, hpa⟩ := Option.ne_none_iff_exists'.mp (mt (w.links.rootParent a ha).1 hra)
  obtain ⟨pb, hpb⟩ := Option.ne_none_iff_exists'.mp (mt (w.links.rootParent b hb).1 hrb)
  exact ⟨_, swapPositions_of_guards hab hpa hpb ((w.isProperAncestor_eq ha hb).2 nab)
    ((w.isProperAncestor_eq hb ha).2 nba)⟩

/-- `swapPositions` is refused for the root, for one node, and for a node and its ancestor (R146). -/
theorem Tree.WellFormed.swapPositions_refused {t : Tree} (w : t.WellFormed) {a b : Handle} (ha : t.has a) (hb : t.has b)
    (h : a = b ∨ a = root ∨ b = root ∨ t.Above a b ∨ t.Above b a) :
    swapPositions t a b = .error .invariantViolation := by
  have hroot : (t.get root).parent = none := (w.links.rootParent root w.root_has).2 rfl
  unfold swapPositions
  by_cases hab : a = b
  · rw [if_pos hab]
  · rw [if_neg hab]
    cases hpa : (t.get a).parent with
    | none => rfl
    | some pa =>
      cases hpb : (t.get b).parent with
      | none => rfl
      | some pb =>
        obtain rfl | rfl | rfl | h | h := h
        · exact absurd rfl hab
        · rw [hroot] at hpa; cases hpa
        · rw [hroot] at hpb; cases hpb
        · dsimp only; rw [(w.isProperAncestor_eq ha hb).1 h]; rfl
        · dsimp only
          rw [(w.isProperAncestor_eq hb ha).1 h]
          by_cases hab' : t.Above a b
          · rw [(w.isProperAncestor_eq ha hb).1 hab']; rfl
          · rw [(w.isProperAncestor_eq ha hb).2 hab']; rfl

/-- A path between two nodes is empty or says that one is above the other. -/
theorem Tree.eq_or_above {t : Tree} {a b : Handle} {path : List Bool} (e : t.walk a path = some b) :
    a = b ∨ t.Above a b := by
  cases path with
  | nil => exact .inl (Option.some.inj e)
  | cons c path => exact .inr ⟨c :: path, by simp, e⟩

/-- Settles O26: the guards of `swapPositions` are about one node, the root, and `isProperAncestor`, which is a path of
child links. -/
theorem swapGuards : Obligations.SwapGuards := by
  unfold Obligations.SwapGuards
  refine fun t a b w ha hb => ⟨fun h => w.swapPositions_refused ha hb ?_, fun hra hrb nab nba => ?_⟩
  · obtain h | h | ⟨path, e⟩ | ⟨path, e⟩ := h
    · exact .inr (.inl h)
    · exact .inr (.inr (.inl h))
    · obtain h | h := Tree.eq_or_above e
      · exact .inl h
      · exact .inr (.inr (.inr (.inl h)))
    · obtain h | h := Tree.eq_or_above e
      · exact .inl h.symm
      · exact .inr (.inr (.inr (.inr h)))
  · have hab : a ≠ b := by rintro rfl; exact nab [] rfl
    exact w.swapPositions_of_apart ha hb hab hra hrb (fun ⟨path, _, e⟩ => nab path e) (fun ⟨path, _, e⟩ => nba path e)

end Sys2Proof.Machine
end

section
/-! Rearranging the nodes of a tree over its positions (spec/41_codetree.md R146): what `exchange` does to the position
and the children of every node, and that an exchange, an increment and `introduce` keep a tree well formed. -/

namespace Sys2Proof.Machine

/-! ### One exchange, field by field -/

theorem Tree.position_modify (t : Tree) (h x : Handle) (f : Node → Node)
    (hf : ∀ n, (f n).parent = n.parent ∧ (f n).isLeft = n.isLeft ∧ (f n).rank = n.rank) :
    (t.modify h f).position x = t.position x := by
  unfold Tree.position
  rw [Tree.get_modify]
  split
  · next e => rw [(hf _).1, (hf _).2.1, (hf _).2.2, e]
  · rfl

theorem Tree.child_modify (t : Tree) (h x : Handle) (b : Bool) (f : Node → Node)
    (hf : ∀ n, (f n).left = n.left ∧ (f n).right = n.right) : (t.modify h f).child x b = t.child x b := by
  unfold Tree.child
  rw [Tree.get_modify]
  by_cases e : x = h
  · rw [if_pos e, (hf _).1, (hf _).2, e]
  · rw [if_neg e]

theorem setChild_position (t : Tree) (p : Handle) (side : Bool) (c x : Handle) :
    (setChild t p side c).position x = t.position x :=
  t.position_modify p x _ fun n => by cases side <;> exact ⟨rfl, rfl, rfl⟩

theorem setChild_child (t : Tree) (p : Handle) (side : Bool) (c x : Handle) (b : Bool) :
    (setChild t p side c).child x b = if x = p ∧ b = !side then some c else t.child x b := by
  unfold Tree.child setChild
  rw [Tree.get_modify]
  by_cases hx : x = p
  · subst hx; cases side <;> cases b <;> simp
  · simp [hx]

theorem setPosition_position (t : Tree) (h p : Handle) (side : Bool) (rank : Nat) (x : Handle) :
    (setPosition t h p side rank).position x = if x = h then (some p, side, rank) else t.position x := by
  unfold Tree.position setPosition
  rw [Tree.get_modify]
  split <;> rfl

theorem setPosition_child (t : Tree) (h p : Handle) (side : Bool) (rank : Nat) (x : Handle) (b : Bool) :
    (setPosition t h p side rank).child x b = t.child x b :=
  t.child_modify h x b _ fun _ => ⟨rfl, rfl⟩

theorem Tree.position_eq (t : Tree) (h : Handle) :
    t.position h = ((t.get h).parent, (t.get h).isLeft, (t.get h).rank) := rfl

/-- The positions of the two nodes are exchanged, and no other (R146). -/
theorem exchange_position {t : Tree} {a b pa pb : Handle} (ha : (t.get a).parent = some pa)
    (hb : (t.get b).parent = some pb) (x : Handle) :
    (exchange t a b pa pb).position x = if x = b then t.position a else if x = a then t.position b else t.position x := by
  simp only [exchange, setPosition_position, setChild_position, t.position_eq a, t.position_eq b, ha, hb]

theorem exchange_child {t : Tree} {a b pa pb : Handle} (x : Handle) (side : Bool) :
    (exchange t a b pa pb).child x side =
      if x = pb ∧ side = !(t.get b).isLeft then some a
      else if x = pa ∧ side = !(t.get a).isLeft then some b else t.child x side := by
  simp only [exchange, setPosition_child, setChild_child]

/-! ### Rearrangements -/

/-- `u` is `t` with its nodes moved over its positions: the node `σ h` takes the position of `h`, and every child slot
that held `h` holds `σ h`. Roles stay with the nodes; of the weights nothing is said. -/
structure Tree.Moved (t u : Tree) (σ : Equiv.Perm Handle) : Prop where
  shape : t.SameShape u
  has : ∀ h, t.has (σ h) ↔ t.has h
  position : ∀ h, u.position (σ h) = t.position h
  child : ∀ p side, t.has p → u.child p side = (t.child p side).map σ

theorem Tree.Moved.refl (t : Tree) : t.Moved t 1 :=
  ⟨.refl t, fun _ => Iff.rfl, fun _ => rfl, fun p side _ => by simp⟩

theorem Tree.Moved.trans {t u v : Tree} {σ τ : Equiv.Perm Handle} (a : t.Moved u σ) (b : u.Moved v τ) :
    t.Moved v (τ * σ) := by
  refine ⟨a.shape.trans b.shape, fun h => ?_, fun h => ?_, fun p side hp => ?_⟩
  · rw [Equiv.Perm.mul_apply, ← a.shape.has_iff, b.has, a.shape.has_iff, a.has]
  · rw [Equiv.Perm.mul_apply, b.position, a.position]
  · rw [b.child p side ((a.shape.has_iff p).2 hp), a.child p side hp, Option.map_map]
    rfl

section
variable {t u : Tree} {σ : Equiv.Perm Handle}

theorem Tree.Moved.parent (m : t.Moved u σ) (h : Handle) : (u.get (σ h)).parent = (t.get h).parent :=
  congrArg Prod.fst (m.position h)

theorem Tree.Moved.isLeft (m : t.Moved u σ) (h : Handle) : (u.get (σ h)).isLeft = (t.get h).isLeft :=
  congrArg (·.2.1) (m.position h)

theorem Tree.Moved.rank (m : t.Moved u σ) (h : Handle) : (u.get (σ h)).rank = (t.get h).rank :=
  congrArg (·.2.2) (m.position h)

theorem Tree.Moved.uhas (m : t.Moved u σ) (h : Handle) : u.has h ↔ t.has (σ.symm h) := by
  rw [m.shape.has_iff, ← m.has (σ.symm h), Equiv.apply_symm_apply]

/-- A rearrangement that leaves the root and the Escape node in place keeps the links of each node. -/
theorem Tree.Moved.links (m : t.Moved u σ) (l : t.Links) (hroot : σ root = root) : u.Links := by
  have back (h : Handle) : σ (σ.symm h) = h := σ.apply_symm_apply h
  have up : ∀ h p, u.has h → (u.get h).parent = some p → u.has p ∧ u.child p (!(u.get h).isLeft) = some h := by
    intro h p hh hp
    rw [m.uhas] at hh
    rw [← back h, m.parent] at hp
    obtain ⟨hpa, hc⟩ := l.up _ p hh hp
    refine ⟨(m.shape.has_iff p).2 hpa, ?_⟩
    rw [← back h, m.isLeft, m.child p _ hpa, hc]
    simp
  have down : ∀ p b c, t.has p → t.child p b = some c →
      u.child p b = some (σ c) ∧ u.has (σ c) ∧ (u.get (σ c)).parent = some p ∧ (u.get (σ c)).isLeft = !b := by
    intro p b c hp hc
    obtain ⟨hca, hparent, hside, _⟩ := l.toLocalLinks.child hp hc
    exact ⟨by rw [m.child p b hp, hc]; rfl, (m.shape.has_iff _).2 ((m.has c).2 hca), (m.parent c).trans hparent,
      (m.isLeft c).trans hside⟩
  refine ⟨⟨(m.shape.has_iff root).2 l.rootHas, fun h hh => ?_, fun p hp hi => ?_, fun h hh hi => ?_⟩, up⟩
  · rw [m.uhas] at hh
    rw [← back h, m.parent, l.rootParent _ hh]
    exact ⟨fun e => by rw [e, hroot], fun e => by rw [← hroot] at e; exact σ.injective e⟩
  · rw [m.shape.has_iff] at hp
    rw [m.shape.role] at hi
    obtain ⟨c, d, hc, hd, hne, _⟩ := l.internal p hp hi
    obtain ⟨hc', hca, hcp, hcl⟩ := down p false c hp hc
    obtain ⟨hd', hda, hdp, hdl⟩ := down p true d hp hd
    exact ⟨σ c, σ d, hc', hd', σ.injective.ne hne, hca, hda, hcp, hcl, hdp, hdl⟩
  · rw [m.shape.has_iff] at hh
    rw [m.shape.role] at hi
    have none (b : Bool) : u.child h b = none := by
      rw [m.child h b hh, l.toLocalLinks.child_of_childless hh hi b]; rfl
    exact ⟨none false, none true⟩

/-- A rearrangement that leaves the root and the Escape node in place keeps R41, when every node still reaches the
root. -/
theorem Tree.Moved.wellFormed (m : t.Moved u σ) (w : t.WellFormed) (hroot : σ root = root) (hesc : σ t.esc = t.esc)
    (hweight : (u.get t.esc).weight = 0) (rooted : ∀ h, u.has h → u.Rooted h) : u.WellFormed := by
  have back (h : Handle) : σ (σ.symm h) = h := σ.apply_symm_apply h
  have hrank (h : Handle) : (u.get h).rank = (t.get (σ.symm h)).rank := by rw [← m.rank, back]
  refine ⟨by rw [m.shape.nodeCount]; exact w.odd, (m.links w.linked hroot).linksWf rooted, ?_, ?_, ?_⟩
  · refine ⟨?_, ?_, ?_, ?_, fun h hh hr => ?_⟩
    · rw [m.shape.esc, m.shape.has_iff]; exact w.escape.allocated
    · rw [m.shape.esc, m.shape.role]; exact w.escape.role
    · rw [m.shape.esc]; exact hweight
    · rw [m.shape.esc, ← hesc, m.rank, m.shape.nodeCount]; exact w.escape.rank
    · rw [m.shape.esc]
      exact w.escape.unique h ((m.shape.has_iff h).1 hh) ((m.shape.role h).symm.trans hr)
  · constructor
    · intro sym
      rw [m.shape.seen, w.leaves.seen sym]
      exact exists_congr fun h => by rw [m.shape.has_iff, m.shape.role]
    · intro sym h h' hh hh' hr hr'
      exact w.leaves.unique sym h h' ((m.shape.has_iff h).1 hh) ((m.shape.has_iff h').1 hh')
        ((m.shape.role h).symm.trans hr) ((m.shape.role h').symm.trans hr')
  · refine ⟨fun h hh => ?_, fun h h' hh hh' hr => ?_, fun r hr hn => ?_, ?_⟩
    · rw [hrank, m.shape.nodeCount]
      exact w.ranks.range _ ((m.uhas h).1 hh)
    · rw [hrank, hrank] at hr
      exact σ.symm.injective (w.ranks.inj _ _ ((m.uhas h).1 hh) ((m.uhas h').1 hh') hr)
    · obtain ⟨h, hh, hr'⟩ := w.ranks.onto r hr (by rwa [m.shape.nodeCount] at hn)
      exact ⟨σ h, (m.shape.has_iff _).2 ((m.has h).2 hh), (m.rank h).trans hr'⟩
    · rw [← hroot, m.rank]; exact w.ranks.root

end

/-! ### An exchange as a rearrangement -/

/-- A `swapPositions` that answers moves the two nodes to each other's position (R146). -/
theorem swapPositions_moved {t u : Tree} {a b : Handle} (l : t.Links) (ha : t.has a) (hb : t.has b)
    (e : swapPositions t a b = .ok u) : t.Moved u (Equiv.swap a b) := by
  have shape := swapPositions_sameShape e
  obtain ⟨hab, pa, pb, hpa, hpb, _, _, rfl⟩ := swapPositions_ok e
  have slotA := (l.up a pa ha hpa).2
  have slotB := (l.up b pb hb hpb).2
  refine ⟨shape, fun h => ?_, fun h => ?_, fun p side hp => ?_⟩
  · rw [Equiv.swap_apply_def]
    split
    · next e => subst e; exact ⟨fun _ => ha, fun _ => hb⟩
    · split
      · next e => subst e; exact ⟨fun _ => hb, fun _ => ha⟩
      · rfl
  · rw [Equiv.swap_apply_def, exchange_position hpa hpb]
    by_cases h1 : h = a
    · simp [h1]
    · by_cases h2 : h = b
      · simp [h2, hab, Ne.symm hab]
      · simp [h1, h2]
  · rw [exchange_child]
    by_cases h1 : p = pb ∧ side = !(t.get b).isLeft
    · rw [if_pos h1, h1.1, h1.2, slotB]
      simp
    · by_cases h2 : p = pa ∧ side = !(t.get a).isLeft
      · rw [if_neg h1, if_pos h2, h2.1, h2.2, slotA]
        simp
      · rw [if_neg h1, if_neg h2]
        cases hc : t.child p side with
        | none => rfl
        | some c =>
          obtain ⟨_, hparent, hside, _⟩ := l.toLocalLinks.child hp hc
          have hca : c ≠ a := by
            rintro rfl
            exact h2 ⟨Option.some.inj (hparent.symm.trans hpa), by rw [hside, Bool.not_not]⟩
          have hcb : c ≠ b := by
            rintro rfl
            exact h1 ⟨Option.some.inj (hparent.symm.trans hpb), by rw [hside, Bool.not_not]⟩
          simp [Equiv.swap_apply_of_ne_of_ne hca hcb]

/-- A `swapPositions` that answers was given two nodes neither of which is above the other (R146). -/
theorem Tree.WellFormed.not_above_of_swapPositions {t u : Tree} (w : t.WellFormed) {a b : Handle} (ha : t.has a)
    (hb : t.has b) (e : swapPositions t a b = .ok u) : a ≠ root ∧ b ≠ root ∧ ¬ t.Above a b ∧ ¬ t.Above b a := by
  have allowed (h : a = b ∨ a = root ∨ b = root ∨ t.Above a b ∨ t.Above b a) : False := by
    rw [w.swapPositions_refused ha hb h] at e; cases e
  exact ⟨fun h => allowed (.inr (.inl h)), fun h => allowed (.inr (.inr (.inl h))),
    fun h => allowed (.inr (.inr (.inr (.inl h)))), fun h => allowed (.inr (.inr (.inr (.inr h))))⟩

/-- After an exchange every node still reaches the root: the chain above either of the two nodes meets neither. -/
theorem swapPositions_rooted {t u : Tree} {a b : Handle} (w : t.WellFormed) (ha : t.has a) (hb : t.has b)
    (e : swapPositions t a b = .ok u) {h : Handle} (hh : t.has h) : u.Rooted h := by
  obtain ⟨_, _, nab, nba⟩ := w.not_above_of_swapPositions ha hb e
  obtain ⟨_, pa, pb, hpa, hpb, _, _, rfl⟩ := swapPositions_ok e
  have parent := exchange_parent t a b pa pb
  have aboveOne : ∀ y, t.Rooted y → ∀ c, t.has y → t.Above y c → (∀ x, t.Above x c → x ≠ a ∧ x ≠ b) →
      (exchange t a b pa pb).Rooted y := by
    intro y hy
    induction hy with
    | root => exact fun _ _ _ _ => .root
    | @step y p hp _ ih =>
      intro c hya ⟨path, hne, hc⟩ avoid
      obtain ⟨nya, nyb⟩ := avoid y ⟨path, hne, hc⟩
      obtain ⟨hpar, hslot⟩ := w.linked.up y p hya hp
      have hpc : t.Above p c := ⟨(!(t.get y).isLeft) :: path, by simp, by rw [Tree.walk_cons, hslot]; exact hc⟩
      exact .step (by rw [parent, if_neg nyb, if_neg nya]; exact hp) (ih c hpar hpc avoid)
  have rootedParent : ∀ c p, t.has c → (t.get c).parent = some p → (∀ x, t.Above x c → x ≠ a ∧ x ≠ b) →
      (exchange t a b pa pb).Rooted p := by
    intro c p hc hp avoid
    obtain ⟨hpar, _⟩ := w.linked.up c p hc hp
    exact aboveOne p (w.rooted hpar) c hpar ((w.linked.above_iff hpar hc hp).2 ⟨[], rfl⟩) avoid
  have avoidA (x) (hx : t.Above x a) : x ≠ a ∧ x ≠ b :=
    ⟨fun h => w.not_above_self ha (h ▸ hx), fun h => nba (h ▸ hx)⟩
  have avoidB (x) (hx : t.Above x b) : x ≠ a ∧ x ≠ b :=
    ⟨fun h => nab (h ▸ hx), fun h => w.not_above_self hb (h ▸ hx)⟩
  induction w.rooted hh with
  | root => exact .root
  | @step h p hp _ ih =>
    by_cases hb' : h = b
    · exact .step (by rw [parent, if_pos hb']) (rootedParent a pa ha hpa avoidA)
    · by_cases ha' : h = a
      · exact .step (by rw [parent, if_neg hb', if_pos ha']) (rootedParent b pb hb hpb avoidB)
      · exact .step (by rw [parent, if_neg hb', if_neg ha']; exact hp) (ih (w.linked.up h p hh hp).1)

/-- An exchange of two nodes other than the Escape node keeps R41. -/
theorem swapPositions_wellFormed {t u : Tree} {a b : Handle} (w : t.WellFormed) (ha : t.has a) (hb : t.has b)
    (hae : a ≠ t.esc) (hbe : b ≠ t.esc) (e : swapPositions t a b = .ok u) : u.WellFormed := by
  have m := swapPositions_moved w.linked ha hb e
  obtain ⟨hra, hrb, _⟩ := w.not_above_of_swapPositions ha hb e
  exact m.wellFormed w (Equiv.swap_apply_of_ne_of_ne hra.symm hrb.symm)
    (Equiv.swap_apply_of_ne_of_ne hae.symm hbe.symm) ((swapPositions_weight e _).trans w.escape.weight)
    fun h hh => swapPositions_rooted w ha hb e ((m.shape.has_iff h).1 hh)

/-- Settles O25: an exchange moves the two nodes and no other, and the child slots follow. -/
theorem swapExchangesPositions : Obligations.SwapExchangesPositions := by
  unfold Obligations.SwapExchangesPositions
  intro t u a b w ha hb e
  have m := swapPositions_moved w.linked ha hb e
  refine ⟨?_, ?_, fun h hna hnb => ?_, fun h => ⟨swapPositions_weight e h, m.shape.role h⟩, fun p side hp => ?_,
    m.shape.nodeCount, m.shape.esc, m.shape.seen⟩
  · simpa using m.position b
  · simpa using m.position a
  · simpa [Equiv.swap_apply_of_ne_of_ne hna hnb] using m.position h
  · exact m.child p side hp

end Sys2Proof.Machine
end

section
/-! The two other mutations (spec/41_codetree.md R145, R148) keep R41: an increment moves no node, and `introduce` splits
the Escape node. -/

namespace Sys2Proof.Machine

/-! ### An increment -/

theorem incWeight_moved {wmax : Nat} {t u : Tree} {h : Handle} (e : incWeight wmax t h = .ok u) : t.Moved u 1 := by
  have shape := incWeight_sameShape e
  obtain ⟨_, rfl⟩ := incWeight_ok e
  refine ⟨shape, fun _ => Iff.rfl, fun x => ?_, fun p side _ => ?_⟩
  · exact t.position_modify h x _ fun _ => ⟨rfl, rfl, rfl⟩
  · have same : (t.modify h fun x => { x with weight := x.weight + 1 }).child p side = t.child p side :=
      t.child_modify h p side _ fun _ => ⟨rfl, rfl⟩
    rw [same]
    simp

theorem incWeight_get_ne {wmax : Nat} {t u : Tree} {h x : Handle} (e : incWeight wmax t h = .ok u) (hx : x ≠ h) :
    u.get x = t.get x := by
  obtain ⟨_, rfl⟩ := incWeight_ok e
  rw [Tree.get_modify, if_neg hx]

/-- Nodes that stay in place reach the root as before. -/
theorem Tree.Moved.rooted_of_one {t u : Tree} (m : t.Moved u 1) {h : Handle} (hr : t.Rooted h) : u.Rooted h := by
  induction hr with
  | root => exact .root
  | step hp _ ih => exact .step ((m.parent _).trans hp) ih

/-- An increment of a node other than the Escape node keeps R41. -/
theorem incWeight_wellFormed {wmax : Nat} {t u : Tree} {h : Handle} (w : t.WellFormed) (hne : h ≠ t.esc)
    (e : incWeight wmax t h = .ok u) : u.WellFormed := by
  have m := incWeight_moved e
  refine m.wellFormed w rfl rfl ?_ fun x hx => m.rooted_of_one (w.rooted ((m.shape.has_iff x).1 hx))
  rw [incWeight_get_ne e hne.symm]
  exact w.escape.weight

/-- `incWeight` answers for every weight other than `WMAX` (R148). -/
theorem incWeight_of_ne {wmax : Nat} {t : Tree} {h : Handle} (hw : (t.get h).weight ≠ wmax) :
    ∃ u, incWeight wmax t h = .ok u := by
  rw [incWeight, if_neg hw]
  exact ⟨_, rfl⟩

/-! ### `introduce` -/

section
variable {t : Tree} {sym : Symbol} {r : Tree × Handle}

theorem introduce_get_escape (e : introduce t sym = .ok r) :
    r.1.get r.1.esc = { weight := 0, rank := t.nodeCount.val + 2, role := .escape, isLeft := false,
                        parent := some t.esc, left := none, right := none } := by
  rw [introduce_get e, if_pos rfl]

theorem introduce_get_leaf (e : introduce t sym = .ok r) (hesc : t.has t.esc) :
    r.1.get r.2 = { weight := 0, rank := t.nodeCount.val + 1, role := .leaf sym, isLeft := true,
                    parent := some t.esc, left := none, right := none } := by
  rw [introduce_get e, if_neg (introduce_handles_ne e hesc).2.2, if_pos rfl]

theorem introduce_get_split (e : introduce t sym = .ok r) (hesc : t.has t.esc) :
    r.1.get t.esc = { t.get t.esc with role := .internal, left := some r.2, right := some r.1.esc } := by
  obtain ⟨escNeLeaf, escNeNew, _⟩ := introduce_handles_ne e hesc
  rw [introduce_get e, if_neg escNeNew, if_neg escNeLeaf, if_pos rfl]

theorem introduce_has (e : introduce t sym = .ok r) (x : Handle) :
    r.1.has x ↔ t.has x ∨ x = r.2 ∨ x = r.1.esc := by
  obtain ⟨_, _, hl, hn, he, _⟩ := introduce_ok e
  simp only [Tree.has, Fin.ext_iff, hn, hl, he]
  omega

theorem introduce_ne (e : introduce t sym = .ok r) {x : Handle} (hx : t.has x) : x ≠ r.2 ∧ x ≠ r.1.esc := by
  obtain ⟨_, _, hl, _, he, _⟩ := introduce_ok e
  simp only [Tree.has] at hx
  constructor <;> rw [ne_eq, Fin.ext_iff] <;> omega

theorem introduce_get_old (e : introduce t sym = .ok r) {x : Handle} (hx : t.has x) (hne : x ≠ t.esc) :
    r.1.get x = t.get x := by
  obtain ⟨h1, h2⟩ := introduce_ne e hx
  rw [introduce_get e, if_neg h2, if_neg h1, if_neg hne]

/-- The nodes of the tree before keep their position, their weight, and all but one their role (R145). -/
theorem introduce_position_old (e : introduce t sym = .ok r) (hesc : t.has t.esc) {x : Handle} (hx : t.has x) :
    r.1.position x = t.position x ∧ (r.1.get x).weight = (t.get x).weight := by
  by_cases hne : x = t.esc
  · subst hne; rw [Tree.position, introduce_get_split e hesc]; exact ⟨rfl, rfl⟩
  · rw [Tree.position, introduce_get_old e hx hne]; exact ⟨rfl, rfl⟩

/-- A node after `introduce` is the new Escape node, the new Leaf, the old Escape node, or another node of before. -/
theorem introduce_has_cases (e : introduce t sym = .ok r) {x : Handle} (hx : r.1.has x) :
    x = r.1.esc ∨ x = r.2 ∨ x = t.esc ∨ (t.has x ∧ x ≠ t.esc) := by
  obtain h | h | h := (introduce_has e x).1 hx
  · by_cases hne : x = t.esc
    · exact .inr (.inr (.inl hne))
    · exact .inr (.inr (.inr ⟨h, hne⟩))
  · exact .inr (.inl h)
  · exact .inl h

theorem introduce_child_old (w : t.WellFormed) (e : introduce t sym = .ok r) {p c : Handle} {b : Bool} (hp : t.has p)
    (hc : t.child p b = some c) : r.1.child p b = some c := by
  have hi := (w.localLinks.child hp hc).2.2.2
  have hne : p ≠ t.esc := by rintro rfl; rw [w.escape.role] at hi; cases hi
  rw [Tree.child, introduce_get_old e hp hne]
  exact hc

theorem introduce_links (w : t.WellFormed) (e : introduce t sym = .ok r) : r.1.Links := by
  have hesc := w.escape.allocated
  have hasEsc : r.1.has t.esc := (introduce_has e _).2 (.inl hesc)
  have hasLeaf : r.1.has r.2 := (introduce_has e _).2 (.inr (.inl rfl))
  have hasNew : r.1.has r.1.esc := (introduce_has e _).2 (.inr (.inr rfl))
  have position {x} (hx : t.has x) := (introduce_position_old e hesc hx).1
  have parent {x} (hx : t.has x) : (r.1.get x).parent = (t.get x).parent := congrArg Prod.fst (position hx)
  have isLeft {x} (hx : t.has x) : (r.1.get x).isLeft = (t.get x).isLeft := congrArg (·.2.1) (position hx)
  have rootNe := introduce_ne e w.root_has
  refine ⟨⟨(introduce_has e _).2 (.inl w.root_has), fun x hx => ?_, fun p hp hi => ?_, fun x hx hi => ?_⟩,
    fun x p hx hp => ?_⟩
  · obtain h | rfl | rfl := (introduce_has e x).1 hx
    · rw [parent h]; exact w.links.rootParent x h
    · rw [introduce_get_leaf e hesc]; simp [rootNe.1.symm]
    · rw [introduce_get_escape e]; simp [rootNe.2.symm]
  · obtain rfl | rfl | rfl | ⟨h, hne⟩ := introduce_has_cases e hp
    · rw [introduce_get_escape e] at hi; cases hi
    · rw [introduce_get_leaf e hesc] at hi; cases hi
    · rw [introduce_get_split e hesc]
      refine ⟨r.2, r.1.esc, rfl, rfl, (introduce_handles_ne e hesc).2.2, hasLeaf, hasNew, ?_⟩
      rw [introduce_get_leaf e hesc, introduce_get_escape e]
      exact ⟨rfl, rfl, rfl, rfl⟩
    · rw [introduce_get_old e h hne] at hi ⊢
      obtain ⟨c, d, hc, hd, hcd, hca, hda, hcp, hcl, hdp, hdl⟩ := w.links.internal p h hi
      exact ⟨c, d, hc, hd, hcd, (introduce_has e c).2 (.inl hca), (introduce_has e d).2 (.inl hda),
        (parent hca).trans hcp, (isLeft hca).trans hcl, (parent hda).trans hdp, (isLeft hda).trans hdl⟩
  · obtain rfl | rfl | rfl | ⟨h, hne⟩ := introduce_has_cases e hx
    · rw [introduce_get_escape e]; exact ⟨rfl, rfl⟩
    · rw [introduce_get_leaf e hesc]; exact ⟨rfl, rfl⟩
    · rw [introduce_get_split e hesc] at hi; exact absurd rfl hi
    · rw [introduce_get_old e h hne] at hi ⊢; exact w.links.childless x h hi
  · obtain h | rfl | rfl := (introduce_has e x).1 hx
    · rw [parent h] at hp
      obtain ⟨hpa, hc⟩ := w.linked.up x p h hp
      exact ⟨(introduce_has e p).2 (.inl hpa), by rw [isLeft h]; exact introduce_child_old w e hpa hc⟩
    · rw [introduce_get_leaf e hesc] at hp ⊢
      cases hp
      exact ⟨hasEsc, by rw [Tree.child, introduce_get_split e hesc]; rfl⟩
    · rw [introduce_get_escape e] at hp ⊢
      cases hp
      exact ⟨hasEsc, by rw [Tree.child, introduce_get_split e hesc]; rfl⟩

theorem introduce_rooted (w : t.WellFormed) (e : introduce t sym = .ok r) {x : Handle} (hx : r.1.has x) :
    r.1.Rooted x := by
  have hesc := w.escape.allocated
  have old : ∀ y, t.Rooted y → t.has y → r.1.Rooted y := by
    intro y hy
    induction hy with
    | root => exact fun _ => .root
    | @step y p hp _ ih =>
      intro hya
      refine .step ?_ (ih (w.linked.up y p hya hp).1)
      exact (congrArg Prod.fst (introduce_position_old e hesc hya).1).trans hp
  obtain h | rfl | rfl := (introduce_has e x).1 hx
  · exact old x (w.rooted h) h
  · exact .step (by rw [introduce_get_leaf e hesc]) (old _ (w.rooted hesc) hesc)
  · exact .step (by rw [introduce_get_escape e]) (old _ (w.rooted hesc) hesc)

theorem introduce_ranksWf (w : t.WellFormed) (e : introduce t sym = .ok r) : r.1.RanksWf := by
  have hesc := w.escape.allocated
  have hn := (introduce_ok e).2.2.2.1
  have rank {x} (hx : t.has x) : (r.1.get x).rank = (t.get x).rank :=
    congrArg (·.2.2) (introduce_position_old e hesc hx).1
  have leafRank : (r.1.get r.2).rank = t.nodeCount.val + 1 := by rw [introduce_get_leaf e hesc]
  have escRank : (r.1.get r.1.esc).rank = t.nodeCount.val + 2 := by rw [introduce_get_escape e]
  refine ⟨fun x hx => ?_, fun x y hx hy hxy => ?_, fun k hk hkn => ?_, ?_⟩
  · obtain h | rfl | rfl := (introduce_has e x).1 hx
    · have := w.ranks.range x h; rw [rank h]; omega
    · omega
    · omega
  · obtain h | rfl | rfl := (introduce_has e x).1 hx <;> obtain h' | rfl | rfl := (introduce_has e y).1 hy
    · exact w.ranks.inj x y h h' (by rwa [rank h, rank h'] at hxy)
    · have := w.ranks.range x h; rw [rank h] at hxy; omega
    · have := w.ranks.range x h; rw [rank h] at hxy; omega
    · have := w.ranks.range y h'; rw [rank h'] at hxy; omega
    · rfl
    · omega
    · have := w.ranks.range y h'; rw [rank h'] at hxy; omega
    · omega
    · rfl
  · by_cases hk' : k ≤ t.nodeCount.val
    · obtain ⟨x, hx, hr⟩ := w.ranks.onto k hk hk'
      exact ⟨x, (introduce_has e x).2 (.inl hx), (rank hx).trans hr⟩
    · by_cases hk1 : k = t.nodeCount.val + 1
      · exact ⟨r.2, (introduce_has e _).2 (.inr (.inl rfl)), by omega⟩
      · exact ⟨r.1.esc, (introduce_has e _).2 (.inr (.inr rfl)), by omega⟩
  · rw [rank w.root_has]; exact w.ranks.root

/-- The Leaves after `introduce` are the new one and those of before. -/
theorem introduce_leaf_iff (w : t.WellFormed) (e : introduce t sym = .ok r) (x : Handle) (y : Symbol) :
    r.1.has x ∧ (r.1.get x).role = .leaf y ↔ (x = r.2 ∧ y = sym) ∨ (t.has x ∧ (t.get x).role = .leaf y) := by
  have hesc := w.escape.allocated
  constructor
  · rintro ⟨hx, hr⟩
    obtain rfl | rfl | rfl | ⟨h, hne⟩ := introduce_has_cases e hx
    · rw [introduce_get_escape e] at hr; cases hr
    · rw [introduce_get_leaf e hesc] at hr; cases hr; exact .inl ⟨rfl, rfl⟩
    · rw [introduce_get_split e hesc] at hr; cases hr
    · rw [introduce_get_old e h hne] at hr; exact .inr ⟨h, hr⟩
  · rintro (⟨rfl, rfl⟩ | ⟨hx, hr⟩)
    · exact ⟨(introduce_has e _).2 (.inr (.inl rfl)), by rw [introduce_get_leaf e hesc]⟩
    · have hne : x ≠ t.esc := by rintro rfl; rw [w.escape.role] at hr; cases hr
      exact ⟨(introduce_has e _).2 (.inl hx), by rw [introduce_get_old e hx hne]; exact hr⟩

theorem introduce_leavesWf (w : t.WellFormed) (e : introduce t sym = .ok r) : r.1.LeavesWf := by
  have unseen := (introduce_ok e).1
  have notOld (x : Handle) (hx : t.has x) : (t.get x).role ≠ .leaf sym := by
    intro hr
    rw [(w.leaves.seen sym).2 ⟨x, hx, hr⟩] at unseen
    cases unseen
  constructor
  · intro y
    simp only [introduce_leaf_iff w e, introduce_seen e, Bool.or_eq_true, w.leaves.seen, beq_iff_eq]
    constructor
    · rintro (⟨x, h⟩ | rfl)
      · exact ⟨x, .inr h⟩
      · exact ⟨r.2, .inl ⟨rfl, rfl⟩⟩
    · rintro ⟨x, ⟨_, rfl⟩ | h⟩
      · exact .inr rfl
      · exact .inl ⟨x, h⟩
  · intro y x x' hx hx' hr hr'
    obtain ⟨rfl, rfl⟩ | ⟨h, hr⟩ := (introduce_leaf_iff w e x y).1 ⟨hx, hr⟩ <;>
      obtain ⟨rfl, h2⟩ | ⟨h', hr'⟩ := (introduce_leaf_iff w e x' y).1 ⟨hx', hr'⟩
    · rfl
    · exact absurd hr' (notOld x' h')
    · subst h2; exact absurd hr (notOld x h)
    · exact w.leaves.unique y x x' h h' hr hr'

/-- `introduce` keeps R41. -/
theorem introduce_wellFormed (w : t.WellFormed) (e : introduce t sym = .ok r) : r.1.WellFormed := by
  have hesc := w.escape.allocated
  have hn := (introduce_ok e).2.2.2.1
  refine ⟨by have := w.odd; omega, (introduce_links w e).linksWf fun x hx => introduce_rooted w e hx,
    ⟨(introduce_has e _).2 (.inr (.inr rfl)), by rw [introduce_get_escape e], by rw [introduce_get_escape e],
      by rw [introduce_get_escape e, hn], fun x hx hr => ?_⟩, introduce_leavesWf w e, introduce_ranksWf w e⟩
  obtain rfl | rfl | rfl | ⟨h, hne⟩ := introduce_has_cases e hx
  · rfl
  · rw [introduce_get_leaf e hesc] at hr; cases hr
  · rw [introduce_get_split e hesc] at hr; cases hr
  · rw [introduce_get_old e h hne] at hr
    exact absurd (w.escape.unique x h hr) hne

end

end Sys2Proof.Machine
end

section
/-! What an update is made of (spec/42_fgk_update.md R170, spec/43_vitter_update.md R190): exchanges and increments of
nodes other than the Escape node, and one increment of the root. So it keeps R41 and the canonical form of the table, and
the root gains exactly one. -/

namespace Sys2Proof.Machine

/-! ### The mutations of an update -/

/-- One mutation within an update, other than the increment of the root: an exchange of two nodes, or an increment; the
Escape node takes no part. -/
inductive Tree.UpdateStep (t u : Tree) : Prop where
  | swap {a b : Handle} (ha : t.has a) (hb : t.has b) (hae : a ≠ t.esc) (hbe : b ≠ t.esc)
      (e : swapPositions t a b = .ok u)
  | inc {wmax : Nat} {x : Handle} (hx : t.has x) (hxe : x ≠ t.esc) (hxr : x ≠ root) (e : incWeight wmax t x = .ok u)

/-- `u` comes from `t` by mutations of an update. -/
abbrev Tree.Updated : Tree → Tree → Prop := Relation.ReflTransGen Tree.UpdateStep

theorem Tree.UpdateStep.shape {t u : Tree} (h : t.UpdateStep u) : t.SameShape u := by
  cases h with
  | swap _ _ _ _ e => exact swapPositions_sameShape e
  | inc _ _ _ e => exact incWeight_sameShape e

theorem Tree.UpdateStep.wellFormed {t u : Tree} (h : t.UpdateStep u) (w : t.WellFormed) : u.WellFormed := by
  cases h with
  | swap ha hb hae hbe e => exact swapPositions_wellFormed w ha hb hae hbe e
  | inc _ hxe _ e => exact incWeight_wellFormed w hxe e

theorem Tree.UpdateStep.rootWeight {t u : Tree} (h : t.UpdateStep u) : u.rootWeight = t.rootWeight := by
  cases h with
  | swap _ _ _ _ e => exact swapPositions_weight e root
  | inc _ _ hxr e => rw [Tree.rootWeight, incWeight_weight e, if_neg hxr.symm]; rfl

theorem Tree.Canonical.modify {t : Tree} (c : t.Canonical) {h : Handle} (hh : t.has h) (f : Node → Node) :
    (t.modify h f).Canonical := c.put hh _

theorem exchange_canonical {t : Tree} (c : t.Canonical) {a b pa pb : Handle} (ha : t.has a) (hb : t.has b)
    (hpa : t.has pa) (hpb : t.has pb) : (exchange t a b pa pb).Canonical := by
  have c1 : (setChild t pa (t.get a).isLeft b).Canonical := c.modify hpa _
  have c2 : (setChild (setChild t pa (t.get a).isLeft b) pb (t.get b).isLeft a).Canonical := c1.modify hpb _
  have c3 := c2.modify (h := a) ha
    (fun x => { x with parent := some pb, isLeft := (t.get b).isLeft, rank := (t.get b).rank })
  exact c3.modify hb _

theorem Tree.UpdateStep.canonical {t u : Tree} (h : t.UpdateStep u) (w : t.WellFormed) (c : t.Canonical) :
    u.Canonical := by
  cases h with
  | swap ha hb _ _ e =>
    obtain ⟨_, pa, pb, hpa, hpb, _, _, rfl⟩ := swapPositions_ok e
    exact exchange_canonical c ha hb (w.linked.up _ _ ha hpa).1 (w.linked.up _ _ hb hpb).1
  | inc hx _ _ e =>
    obtain ⟨_, rfl⟩ := incWeight_ok e
    exact c.modify hx _

theorem Tree.Updated.shape {t u : Tree} (h : t.Updated u) : t.SameShape u := by
  induction h with
  | refl => exact .refl t
  | tail _ hs ih => exact ih.trans hs.shape

theorem Tree.Updated.wellFormed {t u : Tree} (h : t.Updated u) (w : t.WellFormed) : u.WellFormed := by
  induction h with
  | refl => exact w
  | tail _ hs ih => exact hs.wellFormed ih

theorem Tree.Updated.canonical {t u : Tree} (h : t.Updated u) (w : t.WellFormed) (c : t.Canonical) : u.Canonical := by
  induction h with
  | refl => exact c
  | tail h hs ih => exact hs.canonical (Tree.Updated.wellFormed h w) ih

theorem Tree.Updated.rootWeight {t u : Tree} (h : t.Updated u) : u.rootWeight = t.rootWeight := by
  induction h with
  | refl => rfl
  | tail _ hs ih => exact hs.rootWeight.trans ih

/-! ### The parts of the two updates -/

/-- A node that stands before another in rank is not the Escape node, whose rank is the last (R41(e)). -/
theorem Tree.WellFormed.ne_esc_of_rank_lt {t : Tree} (w : t.WellFormed) {x y : Handle} (hy : t.has y)
    (h : (t.get x).rank < (t.get y).rank) : x ≠ t.esc := by
  rintro rfl
  have := (w.ranks.range y hy).2
  rw [w.escape.rank] at h
  omega

/-- A parent is not the Escape node. -/
theorem Tree.WellFormed.parent_cursor {t : Tree} (w : t.WellFormed) {x p : Handle} (hx : t.has x)
    (hp : (t.get x).parent = some p) : t.has p ∧ p ≠ t.esc := by
  obtain ⟨hpa, hi⟩ := w.parentsInternal x p hx hp
  exact ⟨hpa, by rintro rfl; rw [w.escape.role] at hi; cases hi⟩

/-- `promote` of a node that is its own candidate exchanges nothing or two nodes that are not the Escape node. -/
theorem promote_updated {t u : Tree} {x : Handle} {leavesOnly : Bool} (w : t.WellFormed) (hx : t.has x)
    (hxe : x ≠ t.esc) (hc : (t.get x).candidate (t.get x).weight leavesOnly = true)
    (e : promote t x leavesOnly = .ok u) : t.Updated u := by
  obtain ⟨leader, h1, ⟨_, rfl⟩ | ⟨hne, h2⟩⟩ := promote_ok e
  · exact .refl
  · obtain ⟨hl, _, hmin⟩ := lowestRank_ok h1
    have hrank : (t.get leader).rank ≠ (t.get x).rank := fun h => hne (w.ranks.inj _ _ hl hx h)
    exact .single (.swap hx hl hxe (w.ne_esc_of_rank_lt hx (by have := hmin x hx hc; omega)) h2)

theorem Node.candidate_all (n : Node) : n.candidate n.weight false = true := by simp [Node.candidate]

theorem Node.candidate_leaf {n : Node} {sym : Symbol} (h : n.role = .leaf sym) (leavesOnly : Bool) :
    n.candidate n.weight leavesOnly = true := by simp [Node.candidate, h, Role.childless]

theorem fgkLevel_updated {wmax : Nat} {t : Tree} {x : Handle} {leavesOnly : Bool} {r : Tree × Handle}
    (w : t.WellFormed) (hx : t.has x) (hxe : x ≠ t.esc) (hxr : x ≠ root)
    (hc : (t.get x).candidate (t.get x).weight leavesOnly = true) (e : fgkLevel wmax t x leavesOnly = .ok r) :
    t.Updated r.1 ∧ r.1.has r.2 ∧ r.2 ≠ r.1.esc := by
  obtain ⟨t1, h1, h2, h3⟩ := fgkLevel_ok e
  have up1 := promote_updated w hx hxe hc h1
  have hx1 := (up1.shape.has_iff x).2 hx
  have up : t.Updated r.1 := up1.tail (.inc hx1 (by rwa [up1.shape.esc]) hxr h2)
  exact ⟨up, (up.wellFormed w).parent_cursor ((up.shape.has_iff x).2 hx) h3⟩

theorem fgkClimb_updated {wmax fuel : Nat} {t u : Tree} {x : Handle} (w : t.WellFormed) (hx : t.has x)
    (hxe : x ≠ t.esc) (e : fgkClimb wmax fuel t x = .ok u) : t.Updated u := by
  induction fuel generalizing t x with
  | zero =>
    by_cases hr : x = root
    · subst hr; rw [fgkClimb_root] at e; cases e; exact .refl
    · obtain ⟨_, _, h, _⟩ := fgkClimb_ok hr e; cases h
  | succ fuel ih =>
    by_cases hr : x = root
    · subst hr; rw [fgkClimb_root] at e; cases e; exact .refl
    · obtain ⟨k, r, h, h1, h2⟩ := fgkClimb_ok hr e
      cases h
      obtain ⟨up, hp, hpe⟩ := fgkLevel_updated w hx hxe hr (Node.candidate_all _) h1
      exact up.trans (ih (up.wellFormed w) hp hpe h2)

/-- The FGK update from a Leaf that is not the root: the parts before the root's increment. -/
theorem fgk_updated {wmax : Nat} {t c : Tree} {x : Handle} {sym : Symbol} {b : Tree × Handle} (w : t.WellFormed)
    (hx : t.has x) (hr : (t.get x).role = .leaf sym) (hxr : x ≠ root) (h2 : fgkStepOne wmax t x = .ok b)
    (h3 : fgkClimb wmax nodeCap b.1 b.2 = .ok c) : t.Updated c := by
  have hxe : x ≠ t.esc := by rintro rfl; rw [w.escape.role] at hr; cases hr
  unfold fgkStepOne at h2
  split at h2
  · obtain ⟨up, hp, hpe⟩ := fgkLevel_updated w hx hxe hxr (Node.candidate_leaf hr true) h2
    exact up.trans (fgkClimb_updated (up.wellFormed w) hp hpe h3)
  · cases h2
    exact fgkClimb_updated w hx hxe h3

theorem slideLoop_updated {p : Handle} {count j : Nat} {t u : Tree} (w : t.WellFormed) (hp : t.has p)
    (hpe : p ≠ t.esc) (hj : j < t.nodeCount.val) (e : slideLoop p count j t = .ok u) : t.Updated u := by
  induction count generalizing j t with
  | zero => simp only [slideLoop] at e; cases e; exact .refl
  | succ count ih =>
    obtain ⟨x, t1, h1, h2, h3⟩ := slideLoop_succ_ok e
    obtain ⟨hx, hrank, _⟩ := (nodeAtRank_ok_iff _ _ _).1 h1
    have hxe : x ≠ t.esc := by rintro rfl; rw [w.escape.rank] at hrank; omega
    have step : t.UpdateStep t1 := .swap hp hx hpe hxe h2
    refine .head step (ih (step.wellFormed w) ((step.shape.has_iff p).2 hp) (by rwa [step.shape.esc]) ?_ h3)
    rw [step.shape.nodeCount]
    omega

theorem slide_updated {t u : Tree} {p : Handle} {top : Nat} (w : t.WellFormed) (hp : t.has p) (hpe : p ≠ t.esc)
    (e : slide t p top = .ok u) : t.Updated u := by
  have := w.ranks.range p hp
  exact slideLoop_updated w hp hpe (by omega) e

theorem slideAndIncrement_updated {wmax : Nat} {t : Tree} {p : Handle} {r : Tree × Option Handle} (w : t.WellFormed)
    (hp : t.has p) (hpe : p ≠ t.esc) (hpr : p ≠ root) (e : slideAndIncrement wmax t p = .ok r) :
    t.Updated r.1 ∧ ∀ q, r.2 = some q → r.1.has q ∧ q ≠ r.1.esc := by
  obtain ⟨_, t1, _, h, h3, h4⟩ := slideAndIncrement_ok e
  have up1 : t.Updated t1 := by
    rcases h with ⟨_, h⟩ | ⟨_, rfl⟩
    · exact slide_updated w hp hpe h
    · exact .refl
  have up : t.Updated r.1 :=
    up1.tail (.inc ((up1.shape.has_iff p).2 hp) (by rwa [up1.shape.esc]) hpr h3)
  refine ⟨up, fun q hq => ?_⟩
  rw [hq] at h4
  split at h4
  · rw [up.shape.has_iff, up.shape.esc]
    exact w.parent_cursor hp h4.symm
  · exact (up.wellFormed w).parent_cursor ((up.shape.has_iff p).2 hp) h4.symm

theorem vitterClimb_updated {wmax fuel : Nat} {t u : Tree} {q : Handle} (w : t.WellFormed) (hq : t.has q)
    (hqe : q ≠ t.esc) (e : vitterClimb wmax fuel t q = .ok u) : t.Updated u := by
  induction fuel generalizing t q with
  | zero =>
    by_cases hr : q = root
    · subst hr; rw [vitterClimb_root] at e; cases e; exact .refl
    · obtain ⟨_, _, _, h, _⟩ := vitterClimb_ok hr e; cases h
  | succ fuel ih =>
    by_cases hr : q = root
    · subst hr; rw [vitterClimb_root] at e; cases e; exact .refl
    · obtain ⟨k, r, q', h, h1, h2, h3⟩ := vitterClimb_ok hr e
      cases h
      obtain ⟨up, cursor⟩ := slideAndIncrement_updated w hq hqe hr h1
      exact up.trans (ih (up.wellFormed w) (cursor q' h2).1 (cursor q' h2).2 h3)

theorem vitterDeferred_updated {wmax : Nat} {t u : Tree} {leaf : Option Handle} (w : t.WellFormed)
    (hl : ∀ x, leaf = some x → t.has x ∧ x ≠ t.esc ∧ x ≠ root) (e : vitterDeferred wmax t leaf = .ok u) :
    t.Updated u := by
  rcases vitterDeferred_ok e with ⟨_, rfl⟩ | ⟨x, r, hx, h, rfl⟩
  · exact .refl
  · obtain ⟨h1, h2, h3⟩ := hl x hx
    exact (slideAndIncrement_updated w h1 h2 h3 h).1

/-! ### The update -/

/-- An update, part by part: the root gains one between mutations of the other nodes. -/
def Tree.UpdatedAll (t u : Tree) : Prop :=
  ∃ wmax c d, t.Updated c ∧ incWeight wmax c root = .ok d ∧ d.Updated u

theorem Tree.UpdatedAll.shape {t u : Tree} (h : t.UpdatedAll u) : t.SameShape u := by
  obtain ⟨_, c, d, h1, h2, h3⟩ := h
  exact (h1.shape.trans (incWeight_sameShape h2)).trans h3.shape

theorem Tree.UpdatedAll.rootWeight {t u : Tree} (h : t.UpdatedAll u) : u.rootWeight = t.rootWeight + 1 := by
  obtain ⟨_, c, d, h1, h2, h3⟩ := h
  rw [h3.rootWeight, Tree.rootWeight, incWeight_weight h2, if_pos rfl]
  exact congrArg (· + 1) h1.rootWeight

theorem Tree.UpdatedAll.wellFormed {t u : Tree} (h : t.UpdatedAll u) (w : t.WellFormed) (hr : root ≠ t.esc) :
    u.WellFormed := by
  obtain ⟨_, c, d, h1, h2, h3⟩ := h
  exact h3.wellFormed (incWeight_wellFormed (h1.wellFormed w) (by rwa [h1.shape.esc]) h2)

theorem Tree.UpdatedAll.canonical {t u : Tree} (h : t.UpdatedAll u) (w : t.WellFormed) (hr : root ≠ t.esc)
    (c : t.Canonical) : u.Canonical := by
  obtain ⟨_, v, d, h1, h2, h3⟩ := h
  have w1 := h1.wellFormed w
  have hd : d.Canonical := by
    obtain ⟨_, rfl⟩ := incWeight_ok h2
    exact (h1.canonical w c).modify w1.root_has _
  exact h3.canonical (incWeight_wellFormed w1 (by rwa [h1.shape.esc]) h2) hd

/-- The root is not the Escape node once there is a second node (R45, R47). -/
theorem Tree.WellFormed.root_ne_esc {t : Tree} (w : t.WellFormed) (h : 1 < t.nodeCount.val) : root ≠ t.esc := by
  intro e
  have h1 := w.ranks.root
  rw [e, w.escape.rank] at h1
  omega

/-- A Leaf has a tree of more than one node about it, and is not the root (R41(d), (e)). -/
theorem Tree.WellFormed.leaf_ne_root {t : Tree} (w : t.WellFormed) {x : Handle} {sym : Symbol} (hx : t.has x)
    (hr : (t.get x).role = .leaf sym) : x ≠ root ∧ 1 < t.nodeCount.val := by
  have hxe : x ≠ t.esc := by rintro rfl; rw [w.escape.role] at hr; cases hr
  refine ⟨fun h => ?_, ?_⟩
  · have := w.root_not_leaf
    rw [← h, hr] at this
    cases this
  · have hesc := w.escape.allocated
    simp only [Tree.has] at hx hesc
    have : x.val ≠ t.esc.val := fun h => hxe (Fin.ext h)
    omega

/-- The two updates from a Leaf of the tree, a first occurrence's own Leaf included. -/
theorem updateFGK_updated {wmax : Nat} {t c u : Tree} {x : Handle} {sym : Symbol} {b : Tree × Handle}
    (w : t.WellFormed) (hx : t.has x) (hr : (t.get x).role = .leaf sym) (h2 : fgkStepOne wmax t x = .ok b)
    (h3 : fgkClimb wmax nodeCap b.1 b.2 = .ok c) (h4 : incWeight wmax c root = .ok u) : t.UpdatedAll u :=
  ⟨wmax, c, u, fgk_updated w hx hr (w.leaf_ne_root hx hr).1 h2 h3, h4, .refl⟩

theorem updateVitter_updated {wmax : Nat} {t b c u : Tree} {q : Handle} {leaf : Option Handle} (w : t.WellFormed)
    (hq : t.has q) (hqe : q ≠ t.esc) (hn : 1 < t.nodeCount.val)
    (hl : ∀ x, leaf = some x → t.has x ∧ x ≠ t.esc ∧ x ≠ root)
    (h2 : vitterClimb wmax nodeCap t q = .ok b) (h3 : incWeight wmax b root = .ok c)
    (h4 : vitterDeferred wmax c leaf = .ok u) : t.UpdatedAll u := by
  have up := vitterClimb_updated w hq hqe h2
  have shape := up.shape.trans (incWeight_sameShape h3)
  refine ⟨wmax, b, c, up, h3, vitterDeferred_updated ?_ (fun x hx => ?_) h4⟩
  · exact incWeight_wellFormed (up.wellFormed w) (by rw [up.shape.esc]; exact w.root_ne_esc hn) h3
  · rw [shape.has_iff, shape.esc]
    exact hl x hx

/-- An update of a Leaf already there is made of an update's mutations (R149). -/
theorem update_updated {strategy : Strategy} {wmax : Nat} {t u : Tree} {h : Handle} {sym : Symbol} (w : t.WellFormed)
    (hh : t.has h) (hr : (t.get h).role = .leaf sym) (e : update strategy wmax t h sym = .ok u) : t.UpdatedAll u := by
  have hne : h ≠ t.esc := by rintro rfl; rw [w.escape.role] at hr; cases hr
  cases strategy with
  | fgk =>
    obtain ⟨a, b, c, h1, h2, h3, h4⟩ := updateFGK_ok e
    rw [startNode, if_neg (by simp [hne])] at h1
    cases h1
    exact updateFGK_updated w hh hr h2 h3 h4
  | vitter =>
    obtain ⟨a, b, c, h1, h2, h3, h4⟩ := updateVitter_ok e
    rcases vitterStart_ok h1 with ⟨hf, _⟩ | ⟨_, h5, h6⟩
    · simp [hne] at hf
    · have up := promote_updated w hh hne (Node.candidate_leaf hr true) h5
      have w1 := up.wellFormed w
      have hh1 := (up.shape.has_iff h).2 hh
      have hne1 : h ≠ a.1.esc := by rwa [up.shape.esc]
      have hr1 : (a.1.get h).role = .leaf sym := (up.shape.role h).trans hr
      obtain ⟨hroot, hn⟩ := w1.leaf_ne_root hh1 hr1
      have rest : a.1.UpdatedAll u := by
        rcases h6 with ⟨_, h7, h8⟩ | ⟨_, h7, h8⟩
        · obtain ⟨hq, hqe⟩ := w1.parent_cursor hh1 h7
          refine updateVitter_updated w1 hq hqe hn (fun x hx => ?_) h2 h3 h4
          rw [h8] at hx
          cases hx
          exact ⟨hh1, hne1, hroot⟩
        · rw [h7] at h2
          exact updateVitter_updated w1 hh1 hne1 hn (fun x hx => by rw [h8] at hx; cases hx) h2 h3 h4
      obtain ⟨wm, v, d, r1, r2, r3⟩ := rest
      exact ⟨wm, v, d, up.trans r1, r2, r3⟩

/-- An update of the Escape node is `introduce`, then an update's mutations (R149). -/
theorem update_first_updated {strategy : Strategy} {wmax : Nat} {t u : Tree} {sym : Symbol} (w : t.WellFormed)
    (e : update strategy wmax t t.esc sym = .ok u) : ∃ a, introduce t sym = .ok a ∧ a.1.UpdatedAll u := by
  have hesc := w.escape.allocated
  cases strategy with
  | fgk =>
    obtain ⟨a, b, c, h1, h2, h3, h4⟩ := updateFGK_ok e
    rw [startNode, if_pos (by simp)] at h1
    have w1 := introduce_wellFormed w h1
    exact ⟨a, h1, updateFGK_updated w1 ((introduce_has h1 _).2 (.inr (.inl rfl)))
      (by rw [introduce_get_leaf h1 hesc]) h2 h3 h4⟩
  | vitter =>
    obtain ⟨s, b, c, h1, h2, h3, h4⟩ := updateVitter_ok e
    rcases vitterStart_ok h1 with ⟨_, a, h5, h6, h7, h8⟩ | ⟨hf, _⟩
    · have w1 := introduce_wellFormed w h5
      have hleaf : a.1.has a.2 := (introduce_has h5 _).2 (.inr (.inl rfl))
      have hrole : (a.1.get a.2).role = .leaf sym := by rw [introduce_get_leaf h5 hesc]
      obtain ⟨hroot, hn⟩ := w1.leaf_ne_root hleaf hrole
      obtain ⟨hq, hqe⟩ := w1.parent_cursor hleaf h7
      rw [h6] at h2
      refine ⟨a, h5, updateVitter_updated w1 hq hqe hn (fun x hx => ?_) h2 h3 h4⟩
      rw [h8] at hx
      cases hx
      exact ⟨hleaf, (introduce_handles_ne h5 hesc).2.2, hroot⟩
    · simp at hf

/-- The node a symbol is updated at: its own Leaf, or the Escape node. -/
def Tree.IsNodeOf (t : Tree) (h : Handle) (sym : Symbol) : Prop := t.has h ∧ ((t.get h).role = .leaf sym ∨ h = t.esc)

theorem Tree.WellFormed.isNodeOf_of_locate {t : Tree} (w : t.WellFormed) {h : Handle} {sym : Symbol}
    (e : locate t sym = .ok h) : t.IsNodeOf h sym := by
  cases hs : t.seen.getLsbD sym.toNat with
  | true =>
    obtain ⟨hh, hr, _⟩ := (locate_seen_ok_iff t sym h hs).1 e
    exact ⟨hh, .inl hr⟩
  | false =>
    rw [locate_unseen t sym hs] at e
    cases e
    exact ⟨w.escape.allocated, .inr rfl⟩

/-- `introduce` leaves the root's weight and the canonical form, and more than one node. -/
theorem introduce_rootWeight {t : Tree} {sym : Symbol} {r : Tree × Handle} (w : t.WellFormed)
    (e : introduce t sym = .ok r) : r.1.rootWeight = t.rootWeight :=
  (introduce_position_old e w.escape.allocated w.root_has).2

theorem introduce_canonical {t : Tree} {sym : Symbol} {r : Tree × Handle} (c : t.Canonical)
    (e : introduce t sym = .ok r) (hesc : t.has t.esc) : r.1.Canonical := by
  intro x hx
  rw [introduce_has e, not_or, not_or] at hx
  obtain ⟨hold, hleaf, hnew⟩ := hx
  have hne : x ≠ t.esc := by rintro rfl; exact hold hesc
  rw [introduce_get e, if_neg hnew, if_neg hleaf, if_neg hne]
  exact c x hold

/-- An update that answers keeps R41 and the canonical form of the table, and adds one to the root's weight. -/
theorem update_keeps {strategy : Strategy} {wmax : Nat} {t u : Tree} {h : Handle} {sym : Symbol} (w : t.WellFormed)
    (hn : t.IsNodeOf h sym) (e : update strategy wmax t h sym = .ok u) :
    u.WellFormed ∧ (t.Canonical → u.Canonical) ∧ u.rootWeight = t.rootWeight + 1 := by
  obtain ⟨hh, hr | rfl⟩ := hn
  · have up := update_updated w hh hr e
    have hroot := w.root_ne_esc (w.leaf_ne_root hh hr).2
    exact ⟨up.wellFormed w hroot, up.canonical w hroot, up.rootWeight⟩
  · obtain ⟨a, h1, up⟩ := update_first_updated w e
    have w1 := introduce_wellFormed w h1
    have hroot : root ≠ a.1.esc := w1.root_ne_esc (by have := (introduce_ok h1).2.2.2.1; have := w.odd; omega)
    exact ⟨up.wellFormed w1 hroot, fun c => up.canonical w1 hroot (introduce_canonical c h1 w.escape.allocated),
      by rw [up.rootWeight, introduce_rootWeight w h1]⟩

end Sys2Proof.Machine
end

section
/-! What an update's steps do to the sibling property and the weight sums (spec/10_state.md R42, R44): how they change
when one position gains one, which exchanges are allowed, and that a first occurrence always finds room. -/

namespace Sys2Proof.Machine

/-! ### Room for a first occurrence -/

/-- The handle of the `i`-th allocated node. -/
def Tree.handleOf (t : Tree) (i : Fin t.nodeCount.val) : Handle := ⟨i.val, by have := t.nodeCount.isLt; omega⟩

theorem Tree.handleOf_has (t : Tree) (i : Fin t.nodeCount.val) : t.has (t.handleOf i) := i.isLt

theorem Tree.handleOf_injective (t : Tree) : Function.Injective t.handleOf := fun _ _ h =>
  Fin.ext (Fin.mk.inj_iff.mp h)

/-- The `i`-th node, for an allocated handle. -/
def Tree.indexOf (t : Tree) {h : Handle} (hh : t.has h) : Fin t.nodeCount.val := ⟨h.val, hh⟩

/-- The children of the Internal nodes and the root are all different: `k` Internal nodes make `2k + 1` nodes (R41). -/
theorem Tree.WellFormed.two_mul_internal_lt {t : Tree} (w : t.WellFormed) :
    2 * (Finset.univ.filter fun i => (t.get (t.handleOf i)).role = .internal).card + 1 ≤ t.nodeCount.val := by
  have slot (x : {i // (t.get (t.handleOf i)).role = .internal} × Bool) :=
    w.localLinks.child_of_internal (t.handleOf_has x.1.val) x.1.property x.2
  choose c hc using slot
  have down (x) := w.localLinks.child (t.handleOf_has x.1.val) (hc x)
  have rootParent : (t.get root).parent = none := (w.links.rootParent root w.root_has).2 rfl
  have injective : Function.Injective (fun x : Option ({i // (t.get (t.handleOf i)).role = .internal} × Bool) =>
      x.elim (t.indexOf w.root_has) fun y => t.indexOf (down y).1) := by
    have node {h h' : Handle} {hh : t.has h} {hh' : t.has h'} (e : t.indexOf hh = t.indexOf hh') : h = h' :=
      Fin.ext (Fin.mk.inj_iff.mp e)
    intro x y hxy
    match x, y with
    | none, none => rfl
    | none, some y => have := (down y).2.1; rw [← node hxy, rootParent] at this; cases this
    | some x, none => have := (down x).2.1; rw [node hxy, rootParent] at this; cases this
    | some x, some y =>
      obtain ⟨_, hparent, hside, _⟩ := down x
      obtain ⟨_, hparent', hside', _⟩ := down y
      rw [node hxy] at hparent hside
      have hp : x.1 = y.1 :=
        Subtype.ext (t.handleOf_injective (Option.some.inj (hparent.symm.trans hparent')))
      have hs : x.2 = y.2 := by simpa using hside.symm.trans hside'
      rw [Prod.ext hp hs]
  have := Fintype.card_le_of_injective _ injective
  simp only [Fintype.card_option, Fintype.card_prod, Fintype.card_bool, Fintype.card_fin, Fintype.card_subtype] at this
  omega

/-- The symbol of a Leaf, and `sym` for any other node. -/
def Role.symbolOr (sym : Symbol) : Role → Symbol
  | .leaf y => y
  | .internal => sym
  | .escape => sym

/-- While a symbol is unseen at most 255 Leaves and the Escape node have no children, so `NODE_COUNT` is at most 511
(R24, R285). -/
theorem Tree.WellFormed.nodeCount_le_of_unseen {t : Tree} (w : t.WellFormed) {sym : Symbol}
    (hs : t.seen.getLsbD sym.toNat = false) : t.nodeCount.val + 2 ≤ 513 := by
  have unseen (h : Handle) (hh : t.has h) : (t.get h).role ≠ .leaf sym := by
    intro hr
    rw [(w.leaves.seen sym).2 ⟨h, hh, hr⟩] at hs
    cases hs
  have childless : (Finset.univ.filter fun i => ¬ (t.get (t.handleOf i)).role = .internal).card ≤ 256 := by
    rw [← Finset.card_range 256]
    refine Finset.card_le_card_of_injOn (fun i => ((t.get (t.handleOf i)).role.symbolOr sym).toNat)
      (fun i _ => Finset.mem_coe.2 (Finset.mem_range.2 (BitVec.isLt _))) ?_
    intro i hi j hj hij
    obtain ⟨_, hi⟩ := Finset.mem_filter.1 (Finset.mem_coe.1 hi)
    obtain ⟨_, hj⟩ := Finset.mem_filter.1 (Finset.mem_coe.1 hj)
    replace hij := BitVec.eq_of_toNat_eq hij
    have hia := t.handleOf_has i
    have hja := t.handleOf_has j
    have notBoth : ∀ (k l : Fin t.nodeCount.val) (y : Symbol), (t.get (t.handleOf k)).role = .leaf y →
        (t.get (t.handleOf l)).role = .escape →
        (t.get (t.handleOf k)).role.symbolOr sym ≠ (t.get (t.handleOf l)).role.symbolOr sym := by
      intro k l y hk hl e
      rw [hk, hl] at e
      exact unseen _ (t.handleOf_has k) (hk.trans (congrArg Role.leaf e))
    apply t.handleOf_injective
    cases hri : (t.get (t.handleOf i)).role with
    | internal => exact absurd hri hi
    | leaf y =>
      cases hrj : (t.get (t.handleOf j)).role with
      | internal => exact absurd hrj hj
      | leaf z =>
        rw [hri, hrj] at hij
        have hyz : y = z := hij
        exact w.leaves.unique y _ _ hia hja hri (hyz ▸ hrj)
      | escape => exact absurd hij (notBoth i j y hri hrj)
    | escape =>
      cases hrj : (t.get (t.handleOf j)).role with
      | internal => exact absurd hrj hj
      | leaf z => exact absurd hij.symm (notBoth j i z hrj hri)
      | escape => exact (w.escape.unique _ hia hri).trans (w.escape.unique _ hja hrj).symm
  have split := Finset.card_filter_add_card_filter_not (s := (Finset.univ : Finset (Fin t.nodeCount.val)))
    (fun i => (t.get (t.handleOf i)).role = .internal)
  rw [Finset.card_univ, Fintype.card_fin] at split
  have := w.two_mul_internal_lt
  omega

theorem Tree.WellFormed.introduce_of_unseen {t : Tree} (w : t.WellFormed) {sym : Symbol}
    (hs : t.seen.getLsbD sym.toNat = false) : ∃ r, introduce t sym = .ok r :=
  introduce_of_fits hs (w.nodeCount_le_of_unseen hs)

/-! ### The Escape node and its sibling -/

/-- The node of rank `NODE_COUNT - 1` is the left child whose right sibling is the Escape node (R42, R45). -/
theorem Tree.SiblingProperty.escape_sibling {t : Tree} (s : t.SiblingProperty) (w : t.WellFormed)
    (hn : 1 < t.nodeCount.val) : ∃ x p, t.has x ∧ (t.get x).rank + 1 = t.nodeCount.val ∧
      (t.get x).parent = some p ∧ (t.get t.esc).parent = some p ∧ t.child p false = some x ∧
      t.child p true = some t.esc := by
  have hesc := w.escape.allocated
  have hrank := w.escape.rank
  have hodd := w.odd
  obtain ⟨x, hx, hxr⟩ := w.ranks.onto (t.nodeCount.val - 1) (by omega) (by omega)
  obtain ⟨hpar, hl, hr⟩ := s.pairs ((t.nodeCount.val - 1) / 2) x t.esc (by omega) hx hesc (by omega) (by omega)
  obtain ⟨p, hp⟩ := Option.ne_none_iff_exists'.mp (mt (w.links.rootParent t.esc hesc).1 (w.root_ne_esc hn).symm)
  have hxp := hpar.trans hp
  have hcx := (w.linked.up x p hx hxp).2
  have hce := (w.linked.up t.esc p hesc hp).2
  rw [hl] at hcx
  rw [hr] at hce
  exact ⟨x, p, hx, by omega, hxp, hp, hcx, hce⟩

/-- A node of rank `NODE_COUNT - 1` or more has no children: parents stand before their children in rank (R42). -/
theorem Tree.SiblingProperty.childless_of_last {t : Tree} (s : t.SiblingProperty) (w : t.WellFormed) {x : Handle}
    (hx : t.has x) (hr : t.nodeCount.val ≤ (t.get x).rank + 1) : (t.get x).role ≠ .internal := by
  intro hi
  obtain ⟨c, d, _, _, hcd, hc, hd, hcp, _, hdp, _⟩ := w.links.internal x hx hi
  have h1 := s.parents c x hc hcp
  have h2 := s.parents d x hd hdp
  have h3 := (w.ranks.range c hc).2
  have h4 := (w.ranks.range d hd).2
  exact hcd (w.ranks.inj c d hc hd (by omega))

/-- Settles O30: the sibling of the Escape node has the rank before it, and so no children. -/
theorem escapeSiblingIsLeaf : Obligations.EscapeSiblingIsLeaf := by
  unfold Obligations.EscapeSiblingIsLeaf
  intro t w s hn
  obtain ⟨x, p, hx, hxr, _, hp, hcx, hce⟩ := s.escape_sibling w hn
  have hside : (t.get t.esc).isLeft = false :=
    ((w.linked.child_iff (w.linked.up _ _ w.escape.allocated hp).1 w.escape.allocated).1 hce).2
  have hsib : sibling t t.esc = some x := by
    rw [sibling, hp, hside]
    exact hcx
  have hchild := s.childless_of_last w hx (by omega)
  cases hr : (t.get x).role with
  | internal => exact absurd hr hchild
  | leaf sym => exact ⟨x, sym, hsib, hx, hr⟩
  | escape =>
    have := w.escape.unique x hx hr
    rw [this, w.escape.rank] at hxr
    omega

/-! ### The order of parents and children -/

/-- Parents stand before their children in rank (R42). -/
def Tree.ParentsFirst (t : Tree) : Prop :=
  ∀ h p, t.has h → (t.get h).parent = some p → (t.get p).rank < (t.get h).rank

theorem Tree.ParentsFirst.above {t : Tree} (o : t.ParentsFirst) (l : t.LocalLinks) {a b : Handle} (ha : t.has a)
    (h : t.Above a b) : (t.get a).rank < (t.get b).rank := by
  obtain ⟨path, hne, e⟩ := h
  induction path using List.reverseRecOn generalizing b with
  | nil => exact absurd rfl hne
  | append_singleton path c ih =>
    obtain ⟨y, hy, hc⟩ := Tree.walk_snoc e
    obtain ⟨hb, hparent, _⟩ := l.child (l.walk_has ha path hy) hc
    have last := o b y hb hparent
    cases path with
    | nil => cases hy; exact last
    | cons d path => exact (ih (by simp) hy).trans last

/-- An exchange that brings `a` forward in rank to the position of `b` is allowed, when the children of `b` stand behind
`a`: neither is above the other, and parents still stand before their children. -/
theorem swapPositions_forward {t : Tree} (w : t.WellFormed) (o : t.ParentsFirst) {a b : Handle} (ha : t.has a)
    (hb : t.has b) (hae : a ≠ t.esc) (hbr : b ≠ root) (hlt : (t.get b).rank < (t.get a).rank)
    (hch : ∀ c, t.has c → (t.get c).parent = some b → (t.get a).rank < (t.get c).rank) :
    ∃ u, swapPositions t a b = .ok u ∧ u.WellFormed ∧ t.Moved u (Equiv.swap a b) ∧ u.ParentsFirst := by
  have hab : a ≠ b := by rintro rfl; omega
  have hra : a ≠ root := by
    rintro rfl
    have := w.ranks.range b hb
    have := w.ranks.root
    omega
  have nab : ¬ t.Above a b := fun h => by have := o.above w.localLinks ha h; omega
  have nba : ¬ t.Above b a := by
    rintro ⟨path, hne, e⟩
    cases path with
    | nil => exact hne rfl
    | cons d path =>
      rw [Tree.walk_cons] at e
      obtain ⟨c, hc, hrest⟩ := Option.bind_eq_some_iff.mp e
      obtain ⟨hca, hparent, _⟩ := w.localLinks.child hb hc
      have behind := hch c hca hparent
      obtain rfl | h := Tree.eq_or_above hrest
      · omega
      · have := o.above w.localLinks hca h; omega
  obtain ⟨u, e⟩ := w.swapPositions_of_apart ha hb hab hra hbr nab nba
  have m := swapPositions_moved w.linked ha hb e
  refine ⟨u, e, swapPositions_wellFormed w ha hb hae (w.ne_esc_of_rank_lt ha hlt) e, m, fun h p hh hp => ?_⟩
  obtain ⟨x, rfl⟩ := (Equiv.swap a b).surjective h
  rw [m.shape.has_iff, m.has] at hh
  rw [m.parent] at hp
  have hxp := o x p hh hp
  rw [m.rank]
  by_cases hpa : p = a
  · subst hpa
    have hrank := m.rank b
    rw [Equiv.swap_apply_right] at hrank
    omega
  · by_cases hpb : p = b
    · subst hpb
      have hrank := m.rank a
      rw [Equiv.swap_apply_left] at hrank
      rw [hrank]
      exact hch x hh hp
    · have hrank := m.rank p
      rw [Equiv.swap_apply_of_ne_of_ne hpa hpb] at hrank
      omega

/-! ### One position gains one -/

/-- The weights of the positions: the node that comes to the position of `c` weighs one more than `c` did, and every other
position holds the weight it held. -/
def Tree.Raised (t u : Tree) (σ : Equiv.Perm Handle) (c : Handle) : Prop :=
  ∀ h, t.has h → (u.get (σ h)).weight = (t.get h).weight + if h = c then 1 else 0

/-- A rearrangement keeps the pairs of siblings; so R42 is kept when the new weights are in rank order and parents still
stand before their children. -/
theorem Tree.Moved.siblings_of_sorted {t u : Tree} {σ : Equiv.Perm Handle} (m : t.Moved u σ) (s : t.SiblingProperty)
    (o : u.ParentsFirst)
    (sorted : ∀ x y, t.has x → t.has y → (t.get x).rank ≤ (t.get y).rank →
      (u.get (σ y)).weight ≤ (u.get (σ x)).weight) : u.SiblingProperty := by
  refine ⟨fun h h' hh hh' hr => ?_, fun j h h' hj hh hh' hr hr' => ?_, o⟩
  · obtain ⟨x, rfl⟩ := σ.surjective h
    obtain ⟨y, rfl⟩ := σ.surjective h'
    rw [m.shape.has_iff, m.has] at hh hh'
    rw [m.rank, m.rank] at hr
    exact sorted x y hh hh' hr
  · obtain ⟨x, rfl⟩ := σ.surjective h
    obtain ⟨y, rfl⟩ := σ.surjective h'
    rw [m.shape.has_iff, m.has] at hh hh'
    rw [m.rank] at hr hr'
    rw [m.parent, m.parent, m.isLeft, m.isLeft]
    exact s.pairs j x y hj hh hh' hr hr'

/-- The sibling property is kept when the position of `c` gains one and every position before it weighs more (R42). -/
theorem Tree.Moved.siblings {t u : Tree} {σ : Equiv.Perm Handle} (m : t.Moved u σ) (w : t.WellFormed)
    (s : t.SiblingProperty) (o : u.ParentsFirst) {c : Handle} (raised : t.Raised u σ c) (hc : t.has c)
    (before : ∀ y, t.has y → (t.get y).rank < (t.get c).rank → (t.get c).weight < (t.get y).weight) :
    u.SiblingProperty := by
  refine m.siblings_of_sorted s o fun x y hx hy hr => ?_
  have sorted := s.weights x y hx hy hr
  rw [raised x hx, raised y hy]
  by_cases hyc : y = c
  · subst hyc
    by_cases hxc : x = y
    · simp [hxc]
    · have hne : (t.get x).rank ≠ (t.get y).rank := fun e => hxc (w.ranks.inj x y hx hc e)
      have := before x hx (by omega)
      simp only [if_true]
      omega
  · simp only [if_neg hyc]
    omega

/-- The weight of a node, the deferred leaf of a Vitter update counted as if it had its increment already (R193). -/
def Tree.weightWith (t : Tree) (deferred : Option Handle) (h : Handle) : Nat :=
  (t.get h).weight + if deferred = some h then 1 else 0

/-- The weight sums of R44 within a climb: the cursor is one short of its children, and the deferred leaf counts with the
increment it will get. -/
def Tree.SumsAt (t : Tree) (cursor : Handle) (deferred : Option Handle) : Prop :=
  ∀ p l r, t.has p → t.child p false = some l → t.child p true = some r →
    (t.get p).weight + (if p = cursor then 1 else 0) = t.weightWith deferred l + t.weightWith deferred r

/-- When the position of `c` gains one and the cursor `q` gets its increment, the parent of that position is the node
that is one short (R172, R200). -/
theorem Tree.Moved.sumsAt {t u : Tree} {σ : Equiv.Perm Handle} (m : t.Moved u σ) (l : t.LocalLinks) {q c f : Handle}
    {deferred : Option Handle} (s : t.SumsAt q deferred) (raised : t.Raised u σ c)
    (own : ∀ h, (u.get h).weight = (t.get h).weight + if h = q then 1 else 0) (hf : t.has f) {b : Bool}
    (hc : t.child f b = some c) (hd : ∀ d, deferred = some d → σ d = d) : u.SumsAt f deferred := by
  intro p x y hp hx hy
  rw [m.shape.has_iff] at hp
  rw [m.child p _ hp, Option.map_eq_some_iff] at hx hy
  obtain ⟨x, hx, rfl⟩ := hx
  obtain ⟨y, hy, rfl⟩ := hy
  have sum := s p x y hp hx hy
  have weight (h : Handle) (hh : t.has h) :
      u.weightWith deferred (σ h) = t.weightWith deferred h + if h = c then 1 else 0 := by
    have same : deferred = some (σ h) ↔ deferred = some h := by
      refine ⟨fun e => ?_, fun e => by rw [hd h e, e]⟩
      have := σ.injective (hd _ e)
      rw [e, this]
    simp only [Tree.weightWith, raised h hh, same]
    omega
  obtain ⟨_, hcParent, hcSide, _⟩ := l.child hf hc
  have slots : (if p = f then 1 else 0) = (if x = c then 1 else 0) + if y = c then 1 else 0 := by
    obtain ⟨_, hxParent, hxSide, _⟩ := l.child hp hx
    obtain ⟨_, hyParent, hySide, _⟩ := l.child hp hy
    by_cases hpf : p = f
    · subst hpf
      cases b
      · cases hc.symm.trans hx
        have hne : y ≠ c := by rintro rfl; rw [hySide] at hcSide; cases hcSide
        simp [hne]
      · cases hc.symm.trans hy
        have hne : x ≠ c := by rintro rfl; rw [hxSide] at hcSide; cases hcSide
        simp [hne]
    · have hxne : x ≠ c := by rintro rfl; exact hpf (Option.some.inj (hxParent.symm.trans hcParent))
      have hyne : y ≠ c := by rintro rfl; exact hpf (Option.some.inj (hyParent.symm.trans hcParent))
      simp [hpf, hxne, hyne]
  rw [weight x (l.child hp hx).1, weight y (l.child hp hy).1, own p]
  omega

/-- With the cursor at a childless node nothing is short. -/
theorem Tree.SumsAt.sum {t : Tree} {q : Handle} (s : t.SumsAt q none) {p x y : Handle} (hp : t.has p)
    (hx : t.child p false = some x) (hy : t.child p true = some y) (hq : p ≠ q) :
    (t.get p).weight = (t.get x).weight + (t.get y).weight := by
  simpa [Tree.weightWith, hq] using s p x y hp hx hy

/-- Every node weighs at most what the root does (R42). -/
theorem Tree.SiblingProperty.weight_le_root {t : Tree} (s : t.SiblingProperty) (w : t.WellFormed) {h : Handle}
    (hh : t.has h) : (t.get h).weight ≤ t.rootWeight := by
  refine s.weights root h w.root_has hh ?_
  rw [w.ranks.root]
  exact (w.ranks.range h hh).1

/-- The two children of an Internal node. -/
theorem Tree.WellFormed.children {t : Tree} (w : t.WellFormed) {p : Handle} (hp : t.has p)
    (hi : (t.get p).role = .internal) : ∃ x y, t.child p false = some x ∧ t.child p true = some y ∧ x ≠ y ∧
      t.has x ∧ t.has y ∧ (t.get x).parent = some p ∧ (t.get y).parent = some p := by
  obtain ⟨x, y, hx, hy, hne, hxa, hya, hxp, _, hyp, _⟩ := w.links.internal p hp hi
  exact ⟨x, y, hx, hy, hne, hxa, hya, hxp, hyp⟩

/-- The children of a node are the two in its slots. -/
theorem Tree.WellFormed.eq_child {t : Tree} (w : t.WellFormed) {p x y c : Handle} (hx : t.child p false = some x)
    (hy : t.child p true = some y) (hc : t.has c) (hcp : (t.get c).parent = some p) : c = x ∨ c = y := by
  have h := (w.linked.up c p hc hcp).2
  cases hl : (t.get c).isLeft
  · rw [hl] at h; exact .inr (Option.some.inj (h.symm.trans hy))
  · rw [hl] at h; exact .inl (Option.some.inj (h.symm.trans hx))

/-! ### The end of an update -/

/-- Nodes that stay in place keep their order. -/
theorem Tree.Moved.parentsFirst_of_one {t u : Tree} (m : t.Moved u 1) (o : t.ParentsFirst) : u.ParentsFirst := by
  intro h p hh hp
  have hr := m.rank h
  have hpar := m.parent h
  have hrp := m.rank p
  simp only [Equiv.Perm.one_apply] at hr hpar hrp
  rw [hr, hrp]
  exact o h p ((m.shape.has_iff h).1 hh) (hpar ▸ hp)

/-- A node that stays in place keeps its children. -/
theorem Tree.Moved.child_of_one {t u : Tree} (m : t.Moved u 1) {p : Handle} (hp : t.has p) (b : Bool) :
    u.child p b = t.child p b := by
  simpa using m.child p b hp

/-- Once the root, which alone was one short, has its increment, no node is short (R173). -/
theorem incWeight_root_sums {wmax : Nat} {t u : Tree} {deferred : Option Handle} (w : t.WellFormed)
    (sums : t.SumsAt root deferred) (e : incWeight wmax t root = .ok u) {p x y : Handle} (hp : u.has p)
    (hx : u.child p false = some x) (hy : u.child p true = some y) :
    (u.get p).weight = u.weightWith deferred x + u.weightWith deferred y := by
  have m := incWeight_moved e
  have weights := incWeight_weight e
  rw [m.shape.has_iff] at hp
  rw [m.child_of_one hp] at hx hy
  have notRoot {c b} (hc : t.child p b = some c) : c ≠ root := by
    rintro rfl
    have := (w.localLinks.child hp hc).2.1
    rw [(w.links.rootParent root w.root_has).2 rfl] at this
    cases this
  have sum := sums p x y hp hx hy
  simp only [Tree.weightWith, weights, if_neg (notRoot hx), if_neg (notRoot hy)] at sum ⊢
  omega

/-- The increment of the root keeps the sibling property: no position stands before it. -/
theorem incWeight_root_siblings {wmax : Nat} {t u : Tree} (w : t.WellFormed) (s : t.SiblingProperty)
    (e : incWeight wmax t root = .ok u) : u.SiblingProperty := by
  have m := incWeight_moved e
  refine m.siblings w s (m.parentsFirst_of_one s.parents) (fun h _ => incWeight_weight e h) w.root_has fun y hy hr => ?_
  have := w.ranks.range y hy
  have := w.ranks.root
  omega

end Sys2Proof.Machine
end

section
/-! The trees an update starts from (spec/41_codetree.md R145, R149): a coding tree with the Leaf of the symbol, or what
`introduce` makes of it. Either way one Leaf is to gain one, and only it and its parent may weigh nothing yet. -/

namespace Sys2Proof.Machine

/-- Every node of a coding tree but the Escape node weighs at least one: the Escape node's sibling is a Leaf, and the others
stand before it in rank (R42, R44, R45). -/
theorem Tree.SiblingProperty.positive {t : Tree} (s : t.SiblingProperty) (w : t.WellFormed)
    (counted : ∀ h, t.has h → h ≠ t.esc → (t.get h).role ≠ .internal → 1 ≤ (t.get h).weight) {h : Handle}
    (hh : t.has h) (hne : h ≠ t.esc) : 1 ≤ (t.get h).weight := by
  have hlt : (t.get h).rank < t.nodeCount.val := by
    refine lt_of_le_of_ne (w.ranks.range h hh).2 fun e => hne ?_
    exact w.ranks.inj h t.esc hh w.escape.allocated (by rw [e, w.escape.rank])
  have hn : 1 < t.nodeCount.val := by have := (w.ranks.range h hh).1; omega
  obtain ⟨x, _, hx, hxr, _⟩ := s.escape_sibling w hn
  have hxe : x ≠ t.esc := by rintro rfl; rw [w.escape.rank] at hxr; omega
  exact (counted x hx hxe (s.childless_of_last w hx (by omega))).trans (s.weights h x hh hx (by omega))

/-- What both updates start from: a tree with R41, R42 and the sums of R44, and the Leaf `x` that is to gain one; of the
other nodes only the Escape node and its parent may weigh nothing. -/
structure Tree.Starting (t : Tree) (x : Handle) : Prop where
  wf : t.WellFormed
  siblings : t.SiblingProperty
  sums : t.SumsAt x none
  has : t.has x
  leaf : (t.get x).role.isLeaf = true
  positive : ∀ h, t.has h → h ≠ t.esc → h ≠ x → (t.get t.esc).parent ≠ some h → 1 ≤ (t.get h).weight
  /-- The Leaf weighs nothing just when it was introduced as the Escape node's sibling. -/
  counted : sibling t x ≠ some t.esc → 1 ≤ (t.get x).weight

theorem Role.isLeaf_iff (r : Role) : r.isLeaf = true ↔ ∃ sym, r = .leaf sym := by
  cases r <;> simp [Role.isLeaf]

section
variable {t : Tree} {x : Handle}

theorem Tree.Starting.role (s : t.Starting x) : ∃ sym, (t.get x).role = .leaf sym := (Role.isLeaf_iff _).1 s.leaf

theorem Tree.Starting.not_internal (s : t.Starting x) : (t.get x).role ≠ .internal := by
  obtain ⟨sym, h⟩ := s.role
  rw [h]; nofun

theorem Tree.Starting.ne_esc (s : t.Starting x) : x ≠ t.esc := by
  obtain ⟨sym, h⟩ := s.role
  rintro rfl
  rw [s.wf.escape.role] at h; cases h

theorem Tree.Starting.ne_root (s : t.Starting x) : x ≠ root := by
  obtain ⟨sym, h⟩ := s.role
  exact (s.wf.leaf_ne_root s.has h).1

theorem Tree.Starting.one_lt (s : t.Starting x) : 1 < t.nodeCount.val := by
  obtain ⟨sym, h⟩ := s.role
  exact (s.wf.leaf_ne_root s.has h).2

end

/-- The sums of R44 in terms of child slots, for a tree in which nothing is short. -/
theorem Tree.WeightSums.sumsAt {t : Tree} (s : t.WeightSums) (l : t.LocalLinks) {x : Handle}
    (hx : (t.get x).role ≠ .internal) : t.SumsAt x none := by
  intro p c d hp hc hd
  have hpx : p ≠ x := by rintro rfl; exact hx (l.child hp hc).2.2.2
  have sum := s.sum p c d hp hc hd
  simp only [Tree.weightWith, if_neg hpx, reduceCtorEq, if_false]
  omega

/-- A coding tree and the Leaf of a seen symbol. -/
theorem Tree.Coding.starting {t : Tree} {st : Strategy} (c : t.Coding st) {x : Handle} {sym : Symbol} (hx : t.has x)
    (hr : (t.get x).role = .leaf sym) : t.Starting x := by
  have hi : (t.get x).role ≠ .internal := by rw [hr]; nofun
  have hxe : x ≠ t.esc := by rintro rfl; rw [c.wf.escape.role] at hr; cases hr
  exact
    { wf := c.wf
      siblings := c.siblings
      sums := c.sums.sumsAt c.wf.localLinks hi
      has := hx
      leaf := by rw [hr]; rfl
      positive := fun h hh hne _ _ => c.siblings.positive c.wf c.sums.counted hh hne
      counted := fun _ => c.sums.counted x hx hxe hi }

section
variable {t : Tree} {sym : Symbol} {r : Tree × Handle}

theorem introduce_rank_old (w : t.WellFormed) (e : introduce t sym = .ok r) {x : Handle} (hx : t.has x) :
    (r.1.get x).rank = (t.get x).rank :=
  congrArg (·.2.2) (introduce_position_old e w.escape.allocated hx).1

theorem introduce_parent_old (w : t.WellFormed) (e : introduce t sym = .ok r) {x : Handle} (hx : t.has x) :
    (r.1.get x).parent = (t.get x).parent :=
  congrArg Prod.fst (introduce_position_old e w.escape.allocated hx).1

theorem introduce_weight_old (w : t.WellFormed) (e : introduce t sym = .ok r) {x : Handle} (hx : t.has x) :
    (r.1.get x).weight = (t.get x).weight :=
  (introduce_position_old e w.escape.allocated hx).2

/-- A node after `introduce` was there before, or is one of the two new ones, of weight 0 and the last two ranks, whose
parent is the old Escape node. -/
theorem introduce_old_or_new (w : t.WellFormed) (e : introduce t sym = .ok r) {x : Handle} (hx : r.1.has x) :
    t.has x ∨ ((r.1.get x).weight = 0 ∧ t.nodeCount.val < (r.1.get x).rank ∧ (r.1.get x).parent = some t.esc) := by
  obtain h | rfl | rfl := (introduce_has e x).1 hx
  · exact .inl h
  · rw [introduce_get_leaf e w.escape.allocated]
    exact .inr ⟨rfl, Nat.lt_succ_self _, rfl⟩
  · rw [introduce_get_escape e]
    exact .inr ⟨rfl, by show _ < t.nodeCount.val + 2; omega, rfl⟩

/-- `introduce` keeps the sibling property: the two new nodes weigh nothing and are the last pair (R145, R42). -/
theorem introduce_siblings (w : t.WellFormed) (s : t.SiblingProperty) (e : introduce t sym = .ok r) :
    r.1.SiblingProperty := by
  have hesc := w.escape.allocated
  have w1 := introduce_wellFormed w e
  have hasLeaf : r.1.has r.2 := (introduce_has e _).2 (.inr (.inl rfl))
  have hn := (introduce_ok e).2.2.2.1
  have hodd := w.odd
  refine ⟨fun h h' hh hh' hr => ?_, fun j h h' hj hh hh' hr hr' => ?_, fun h p hh hp => ?_⟩
  · obtain old' | ⟨hw', _, _⟩ := introduce_old_or_new w e hh'
    · obtain old | ⟨_, hlast, _⟩ := introduce_old_or_new w e hh
      · rw [introduce_rank_old w e old, introduce_rank_old w e old'] at hr
        rw [introduce_weight_old w e old, introduce_weight_old w e old']
        exact s.weights h h' old old' hr
      · rw [introduce_rank_old w e old'] at hr
        have := w.ranks.range h' old'
        omega
    · omega
  · by_cases hlast : 2 * j < t.nodeCount.val
    · have old {y} (hy : r.1.has y) (hrank : (r.1.get y).rank ≤ t.nodeCount.val) : t.has y :=
        (introduce_old_or_new w e hy).resolve_right fun ⟨_, h, _⟩ => by omega
      have oldH := old hh (by omega)
      have oldH' := old hh' (by omega)
      have left (y) (hy : t.has y) : (r.1.get y).isLeft = (t.get y).isLeft :=
        congrArg (·.2.1) (introduce_position_old e hesc hy).1
      rw [introduce_parent_old w e oldH, introduce_parent_old w e oldH', left h oldH, left h' oldH']
      rw [introduce_rank_old w e oldH] at hr
      rw [introduce_rank_old w e oldH'] at hr'
      exact s.pairs j h h' hj oldH oldH' hr hr'
    · have hrange := (w1.ranks.range h' hh').2
      have hleaf : h = r.2 := w1.ranks.inj _ _ hh hasLeaf (by rw [introduce_get_leaf e hesc]; dsimp only; omega)
      have hnew : h' = r.1.esc := w1.ranks.inj _ _ hh' w1.escape.allocated (by rw [w1.escape.rank]; omega)
      rw [hleaf, hnew, introduce_get_leaf e hesc, introduce_get_escape e]
      exact ⟨rfl, rfl, rfl⟩
  · obtain old | ⟨_, hlast, hparent⟩ := introduce_old_or_new w e hh
    · rw [introduce_parent_old w e old] at hp
      obtain ⟨hpa, _⟩ := w.linked.up h p old hp
      rw [introduce_rank_old w e old, introduce_rank_old w e hpa]
      exact s.parents h p old hp
    · cases hparent.symm.trans hp
      rw [introduce_rank_old w e hesc, w.escape.rank]
      exact hlast

/-- A coding tree after `introduce`, and the new Leaf. -/
theorem Tree.Coding.introduce_starting {st : Strategy} (c : t.Coding st) (e : introduce t sym = .ok r) :
    r.1.Starting r.2 := by
  have w := c.wf
  have hesc := w.escape.allocated
  have w1 := introduce_wellFormed w e
  have leaf := introduce_get_leaf e hesc
  have new := introduce_get_escape e
  have split := introduce_get_split e hesc
  have hsib : sibling r.1 r.2 = some r.1.esc := by rw [sibling, leaf]; dsimp only; rw [if_pos rfl, split]
  refine
    { wf := w1
      siblings := introduce_siblings w c.siblings e
      sums := fun p x y hp hx hy => ?_
      has := (introduce_has e _).2 (.inr (.inl rfl))
      leaf := by rw [leaf]; rfl
      positive := fun h hh hne hnx hpar => ?_
      counted := fun h => absurd hsib h }
  · have hi := (w1.localLinks.child hp hx).2.2.2
    have hpl : p ≠ r.2 := by rintro rfl; rw [leaf] at hi; cases hi
    simp only [Tree.weightWith, if_neg hpl, reduceCtorEq, if_false, Nat.add_zero]
    by_cases hpe : p = t.esc
    · subst hpe
      rw [Tree.child, split] at hx hy
      cases hx
      cases hy
      rw [leaf, new, split, w.escape.weight]
      rfl
    · obtain rfl | rfl | rfl | ⟨old, _⟩ := introduce_has_cases e hp
      · rw [new] at hi; cases hi
      · exact absurd rfl hpl
      · exact absurd rfl hpe
      · rw [Tree.child, introduce_get_old e old hpe] at hx hy
        have hxa := (w.localLinks.child old hx).1
        have hya := (w.localLinks.child old hy).1
        rw [introduce_weight_old w e old, introduce_weight_old w e hxa, introduce_weight_old w e hya]
        exact c.sums.sum p x y old hx hy
  · obtain rfl | rfl | rfl | ⟨old, hne'⟩ := introduce_has_cases e hh
    · exact absurd rfl hne
    · exact absurd rfl hnx
    · rw [new] at hpar; exact absurd rfl hpar
    · rw [introduce_weight_old w e old]
      exact c.siblings.positive w c.sums.counted old hne'

end

/-! ### The Leaf beside the Escape node -/

section
variable {t : Tree} {x : Handle}

/-- `sibling x = ESC` in terms of child slots. -/
theorem Tree.WellFormed.sibling_escape {t : Tree} (w : t.WellFormed) (s : t.SiblingProperty) (hn : 1 < t.nodeCount.val)
    {x : Handle} (hx : t.has x) :
    sibling t x = some t.esc ↔ (t.get x).rank + 1 = t.nodeCount.val := by
  obtain ⟨y, p, hy, hyr, hyp, hp, hcy, hce⟩ := s.escape_sibling w hn
  have hpa := (w.linked.up y p hy hyp).1
  constructor
  · intro h
    unfold sibling at h
    split at h
    · cases h
    · next q hq =>
      have hqa := (w.linked.up x q hx hq).1
      have slotEsc : ∃ b, t.child q b = some t.esc := by
        split at h
        · exact ⟨true, h⟩
        · exact ⟨false, h⟩
      obtain ⟨b, hb⟩ := slotEsc
      have hqp : q = p := Option.some.inj ((w.localLinks.child hqa hb).2.1.symm.trans hp)
      subst hqp
      obtain rfl | rfl := w.eq_child hcy hce hx hq
      · exact hyr
      · rw [((w.linked.child_iff hpa w.escape.allocated).1 hce).2] at h
        simp only [Bool.not_true, Bool.false_eq_true, if_false] at h
        rw [Tree.child] at hcy
        simp only [Bool.false_eq_true, if_false] at hcy
        rw [hcy] at h
        rw [Option.some.inj h] at hyr
        exact hyr
  · intro h
    have hxy : x = y := w.ranks.inj x y hx hy (by omega)
    subst hxy
    rw [sibling, hyp]
    dsimp only
    rw [((w.linked.child_iff hpa hy).1 hcy).2]
    exact hce

/-- The parent of the Leaf beside the Escape node weighs what the Leaf does. -/
theorem Tree.Starting.parent_weight (s : t.Starting x) {q : Handle} (hxp : (t.get x).parent = some q)
    (hep : (t.get t.esc).parent = some q) : (t.get q).weight = (t.get x).weight := by
  have w := s.wf
  obtain ⟨hqa, hqi⟩ := w.parentsInternal x q s.has hxp
  obtain ⟨c, d, hc, hd, hcd, _⟩ := w.children hqa hqi
  have sum := s.sums.sum hqa hc hd (by rintro rfl; exact s.not_internal hqi)
  have hesc := w.escape.weight
  have hne := s.ne_esc
  obtain rfl | rfl := w.eq_child hc hd s.has hxp <;> obtain h | h := w.eq_child hc hd w.escape.allocated hep
  · exact absurd h.symm hne
  · rw [h] at hesc; omega
  · rw [h] at hesc; omega
  · exact absurd h.symm hne

/-- Beside the Leaf that is the Escape node's sibling, every Internal node but their parent weighs more than that Leaf:
its children weigh at least one each, and at most one node stands behind the Leaf in rank. -/
theorem Tree.Starting.internal_heavier (s : t.Starting x) (hr : (t.get x).rank + 1 = t.nodeCount.val) {y : Handle}
    (hy : t.has y) (hi : (t.get y).role = .internal) (hp : (t.get t.esc).parent ≠ some y) :
    (t.get x).weight < (t.get y).weight := by
  have w := s.wf
  obtain ⟨c, d, hc, hd, hcd, hca, hda, hcp, hdp⟩ := w.children hy hi
  obtain ⟨z, p, hz, hzr, hzp, hep, _⟩ := s.siblings.escape_sibling w s.one_lt
  have hxz : x = z := w.ranks.inj x z s.has hz (by omega)
  subst hxz
  have hyp : y ≠ p := by rintro rfl; exact hp hep
  have hyx : y ≠ x := by rintro rfl; exact s.not_internal hi
  have sum := s.sums.sum hy hc hd hyx
  -- a child of `y` is not the Escape node and not its sibling, so it weighs no less than that Leaf
  have child (a : Handle) (ha : t.has a) (hap : (t.get a).parent = some y) :
      (t.get x).weight ≤ (t.get a).weight ∧ (a ≠ p → 1 ≤ (t.get a).weight) := by
    have hae : a ≠ t.esc := by rintro rfl; exact hp hap
    have hax : a ≠ x := by rintro rfl; exact hyp (Option.some.inj (hap.symm.trans hzp))
    have hrank : (t.get a).rank ≠ t.nodeCount.val := by
      rw [← w.escape.rank]
      exact fun h => hae (w.ranks.inj a t.esc ha w.escape.allocated h)
    have hle := (w.ranks.range a ha).2
    refine ⟨s.siblings.weights a x ha s.has (by omega), fun hne => s.positive a ha hae hax fun h => hne ?_⟩
    exact (Option.some.inj (hep.symm.trans h)).symm
  obtain ⟨hcw, hc1⟩ := child c hca hcp
  obtain ⟨hdw, hd1⟩ := child d hda hdp
  by_cases hcP : c = p
  · have := hd1 fun h => hcd (hcP.trans h.symm)
    omega
  · have := hc1 hcP
    omega

end

end Sys2Proof.Machine
end

section
/-! The FGK update on a coding tree (spec/42_fgk_update.md R170 to R175): each level is one exchange with the leader of the
cursor's weight and one increment, which keep R41, R42 and the sums but at the cursor. -/

namespace Sys2Proof.Machine

/-! ### One level -/

/-- The rearrangement and the weights after `promote` and the increment: the cursor takes the leader's position, which
gains one (R171, R172). -/
structure Tree.Promoted (t u : Tree) (x leader : Handle) : Prop where
  wf : u.WellFormed
  moved : t.Moved u (Equiv.swap x leader)
  first : u.ParentsFirst
  own : ∀ h, (u.get h).weight = (t.get h).weight + if h = x then 1 else 0

/-- `fgkLevel` answers when the leader is the cursor or an exchange with it is allowed, and no weight is `WMAX`. -/
theorem fgkLevel_of_leader {wmax : Nat} {t : Tree} {x leader p : Handle} {leavesOnly : Bool} (w : t.WellFormed)
    (o : t.ParentsFirst) (hx : t.has x) (hxe : x ≠ t.esc) (hw : (t.get x).weight < wmax)
    (hl : lowestRank t (t.get x).weight leavesOnly = .ok leader)
    (hp : (t.get leader).parent = some p) (hle : (t.get leader).rank ≤ (t.get x).rank)
    (hch : leader ≠ x → ∀ c, t.has c → (t.get c).parent = some leader → (t.get x).rank < (t.get c).rank) :
    ∃ u, fgkLevel wmax t x leavesOnly = .ok (u, p) ∧ t.Promoted u x leader := by
  obtain ⟨hla, _, _⟩ := lowestRank_ok hl
  have hlr : leader ≠ root := by
    rintro rfl
    rw [(w.links.rootParent root w.root_has).2 rfl] at hp
    cases hp
  have promoted : ∃ t1, promote t x leavesOnly = .ok t1 ∧ t1.WellFormed ∧ t.Moved t1 (Equiv.swap x leader) ∧
      t1.ParentsFirst ∧ ∀ h, (t1.get h).weight = (t.get h).weight := by
    by_cases hlx : leader = x
    · subst hlx
      refine ⟨t, except_bind_ok.2 ⟨leader, hl, if_pos rfl⟩, w, ?_, o, fun _ => rfl⟩
      rw [Equiv.swap_self]
      exact .refl t
    · have hlt : (t.get leader).rank < (t.get x).rank :=
        lt_of_le_of_ne hle fun h => hlx (w.ranks.inj _ _ hla hx h)
      obtain ⟨t1, e, w1, m, o1⟩ := swapPositions_forward w o hx hla hxe hlr hlt (hch hlx)
      exact ⟨t1, except_bind_ok.2 ⟨leader, hl, (if_neg hlx).trans e⟩, w1, m, o1, swapPositions_weight e⟩
  obtain ⟨t1, e1, w1, m1, o1, weight1⟩ := promoted
  obtain ⟨u, e2⟩ := incWeight_of_ne (t := t1) (h := x) (wmax := wmax) (by rw [weight1]; exact Nat.ne_of_lt hw)
  have m2 := incWeight_moved e2
  have m : t.Moved u (Equiv.swap x leader) := by simpa using m1.trans m2
  have hpar : (u.get x).parent = some p := by
    have := m.parent leader
    rw [Equiv.swap_apply_right] at this
    exact this.trans hp
  refine ⟨u, except_bind_ok.2 ⟨t1, e1, except_bind_ok.2 ⟨u, e2, except_bind_ok.2 ⟨p, followed_ok_iff.2 hpar, rfl⟩⟩⟩,
    incWeight_wellFormed w1 (by rw [m1.shape.esc]; exact hxe) e2, m, m2.parentsFirst_of_one o1, fun h => ?_⟩
  rw [incWeight_weight e2, weight1]

/-- Between nodes of one weight the exchange and the increment raise the leader's position alone. -/
theorem Tree.Promoted.raised {t u : Tree} {x leader : Handle} (h : t.Promoted u x leader)
    (hw : (t.get leader).weight = (t.get x).weight) : t.Raised u (Equiv.swap x leader) leader := by
  intro y _
  rw [h.own]
  by_cases hyl : y = leader
  · subst hyl; simp [hw]
  · by_cases hyx : y = x
    · subst hyx; simp [hw, hyl, Ne.symm hyl]
    · simp [Equiv.swap_apply_of_ne_of_ne hyx hyl, hyl, hyx]

/-- What one level does to the root's weight: nothing, for a cursor that is not the root. -/
theorem Tree.Promoted.rootWeight {t u : Tree} {x leader : Handle} (h : t.Promoted u x leader) (hx : x ≠ root) :
    u.rootWeight = t.rootWeight := by
  rw [Tree.rootWeight, h.own, if_neg hx.symm]; rfl

/-- Nodes that stay in place keep the Escape node's parent last. -/
theorem Tree.EscapeParentLast.of_moved {t u : Tree} (l : t.EscapeParentLast) (m : t.Moved u 1) : u.EscapeParentLast := by
  intro p hp
  have hpar := m.parent t.esc
  have hrank := m.rank p
  simp only [Equiv.Perm.one_apply] at hpar hrank
  rw [m.shape.esc, hpar] at hp
  rw [hrank, m.shape.nodeCount]
  exact l p hp

/-! ### The climb -/

/-- The tree and the cursor of an FGK climb (R172): R41, R42 and the sums but at the cursor, which is the root or stands
before the Escape node's parent in rank. -/
structure Tree.FgkCursor (t : Tree) (x : Handle) : Prop where
  wf : t.WellFormed
  siblings : t.SiblingProperty
  sums : t.SumsAt x none
  counted : ∀ h, t.has h → h ≠ t.esc → (t.get h).role ≠ .internal → 1 ≤ (t.get h).weight
  last : t.EscapeParentLast
  has : t.has x
  one_lt : 1 < t.nodeCount.val
  place : x = root ∨ (t.get x).rank + 2 < t.nodeCount.val

section
variable {t : Tree} {x : Handle}

theorem Tree.FgkCursor.ne_esc (c : t.FgkCursor x) : x ≠ t.esc := by
  have h := c.wf.escape.rank
  obtain rfl | hr := c.place
  · exact c.wf.root_ne_esc c.one_lt
  · rintro rfl; omega

theorem Tree.FgkCursor.positive (c : t.FgkCursor x) {h : Handle} (hh : t.has h) (hne : h ≠ t.esc) :
    1 ≤ (t.get h).weight := c.siblings.positive c.wf c.counted hh hne

/-- A parent of the cursor weighs more than the cursor: the cursor's sibling is not the Escape node. -/
theorem Tree.FgkCursor.lt_root (c : t.FgkCursor x) (hx : x ≠ root) : (t.get x).weight < t.rootWeight := by
  have w := c.wf
  obtain ⟨p, hp⟩ := Option.ne_none_iff_exists'.mp (mt (w.links.rootParent x c.has).1 hx)
  obtain ⟨hpa, hi⟩ := w.parentsInternal x p c.has hp
  obtain ⟨a, b, ha, hb, hab, haa, hba, hap, hbp⟩ := w.children hpa hi
  have hpx : p ≠ x := by
    rintro rfl
    have := c.siblings.parents p p hpa hp
    omega
  have sum := c.sums.sum hpa ha hb hpx
  have heavy := c.siblings.weight_le_root w hpa
  have other (d : Handle) (hd : t.has d) (hdp : (t.get d).parent = some p) : 1 ≤ (t.get d).weight := by
    refine c.positive hd fun h => ?_
    subst h
    have := c.last p hdp
    have := c.siblings.parents x p c.has hp
    have := c.place.resolve_left hx
    omega
  obtain rfl | rfl := w.eq_child ha hb c.has hp
  · have := other b hba hbp; omega
  · have := other a haa hap; omega

/-- The children of the leader stand behind every node of its weight: each weighs at least one. -/
theorem Tree.FgkCursor.children_behind (c : t.FgkCursor x) (hx : x ≠ root) {leader : Handle} (hl : t.has leader)
    (hw : (t.get leader).weight = (t.get x).weight) (hlx : leader ≠ x) (hlt : (t.get leader).rank < (t.get x).rank)
    {d : Handle} (hd : t.has d) (hdp : (t.get d).parent = some leader) : (t.get x).rank < (t.get d).rank := by
  have w := c.wf
  obtain ⟨_, hi⟩ := w.parentsInternal d leader hd hdp
  obtain ⟨a, b, ha, hb, hab, haa, hba, hap, hbp⟩ := w.children hl hi
  have sum := c.sums.sum hl ha hb hlx
  have positive (y : Handle) (hy : t.has y) (hyp : (t.get y).parent = some leader) : 1 ≤ (t.get y).weight := by
    refine c.positive hy fun h => ?_
    subst h
    have := c.last leader hyp
    have := c.place.resolve_left hx
    omega
  have ha1 := positive a haa hap
  have hb1 := positive b hba hbp
  have lighter : (t.get d).weight < (t.get x).weight := by
    obtain rfl | rfl := w.eq_child ha hb hd hdp <;> omega
  by_contra hle
  have := c.siblings.weights d x hd c.has (by omega)
  omega

/-- One level of the climb keeps its invariant, at a cursor of lower rank (R172, R175). -/
theorem Tree.FgkCursor.level (c : t.FgkCursor x) (hx : x ≠ root) {wmax : Nat} (hw : t.rootWeight < wmax) :
    ∃ u p, fgkLevel wmax t x false = .ok (u, p) ∧ u.FgkCursor p ∧ u.rootWeight = t.rootWeight ∧
      (u.get p).rank < (t.get x).rank := by
  have w := c.wf
  have lighter := c.lt_root hx
  obtain ⟨leader, hl⟩ := lowestRank_of_candidate c.has (Node.candidate_all (t.get x))
  obtain ⟨hla, hcand, hmin⟩ := lowestRank_ok hl
  have hlw : (t.get leader).weight = (t.get x).weight := by simpa [Node.candidate] using hcand
  have hle := hmin x c.has (Node.candidate_all _)
  have hlr : leader ≠ root := by
    rintro rfl
    rw [← hlw] at lighter
    exact lt_irrefl _ lighter
  obtain ⟨p, hp⟩ := Option.ne_none_iff_exists'.mp (mt (w.links.rootParent leader hla).1 hlr)
  obtain ⟨hpa, hslot⟩ := w.linked.up leader p hla hp
  have hlt (h : leader ≠ x) : (t.get leader).rank < (t.get x).rank :=
    lt_of_le_of_ne hle fun e => h (w.ranks.inj _ _ hla c.has e)
  obtain ⟨u, e, done⟩ := fgkLevel_of_leader w c.siblings.parents c.has c.ne_esc (lighter.trans hw) hl hp hle
    fun h d hd hdp => c.children_behind hx hla hlw h (hlt h) hd hdp
  have m := done.moved
  have raised := done.raised hlw
  have hplace := c.place.resolve_left hx
  -- a node behind the cursor and the leader stays in place
  have stays (y : Handle) (hy : t.has y) (hr : (t.get x).rank < (t.get y).rank) : Equiv.swap x leader y = y :=
    Equiv.swap_apply_of_ne_of_ne (by rintro rfl; omega) (by rintro rfl; omega)
  have hesc : Equiv.swap x leader t.esc = t.esc :=
    stays _ w.escape.allocated (by rw [w.escape.rank]; omega)
  have hpr : (u.get p).rank < (t.get leader).rank := by
    have hrank := m.rank leader
    have hpar := m.parent leader
    rw [Equiv.swap_apply_right] at hrank hpar
    rw [← hrank]
    exact done.first x p ((m.shape.has_iff x).2 c.has) (hpar.trans hp)
  refine ⟨u, p, e, ?_, done.rootWeight hx, by omega⟩
  refine
    { wf := done.wf
      siblings := m.siblings w c.siblings done.first raised hla fun y hy hr => ?_
      sums := m.sumsAt w.localLinks c.sums raised done.own hpa hslot (fun _ h => by cases h)
      counted := fun h hh hne hi => ?_
      last := fun q hq => ?_
      has := (m.shape.has_iff p).2 hpa
      one_lt := by rw [m.shape.nodeCount]; exact c.one_lt
      place := ?_ }
  · refine lt_of_le_of_ne (c.siblings.weights y leader hy hla hr.le) fun h => ?_
    have := hmin y hy (by simp [Node.candidate, ← h, hlw])
    omega
  · rw [m.shape.has_iff] at hh
    rw [m.shape.esc] at hne
    rw [m.shape.role] at hi
    have := c.counted h hh hne hi
    rw [done.own]
    omega
  · have hpar := m.parent t.esc
    rw [hesc] at hpar
    rw [m.shape.esc, hpar] at hq
    have hrank := c.last q hq
    obtain ⟨hqa, _⟩ := w.linked.up t.esc q w.escape.allocated hq
    have := m.rank q
    rw [stays q hqa (by omega)] at this
    rw [this, m.shape.nodeCount]
    exact hrank
  · rw [m.shape.nodeCount]
    exact .inr (by omega)

end

/-- The climb completes: the rank of the cursor falls with each level (R172, R175). -/
theorem Tree.FgkCursor.climb {t : Tree} {x : Handle} (c : t.FgkCursor x) {wmax fuel : Nat} (hw : t.rootWeight < wmax)
    (hf : (t.get x).rank ≤ fuel) :
    ∃ u, fgkClimb wmax fuel t x = .ok u ∧ u.FgkCursor root ∧ u.rootWeight = t.rootWeight := by
  induction fuel generalizing t x with
  | zero =>
    have := (c.wf.ranks.range x c.has).1
    omega
  | succ fuel ih =>
    by_cases hx : x = root
    · subst hx
      exact ⟨t, fgkClimb_root _ _ _, c, rfl⟩
    · obtain ⟨u, p, e, c', hroot, hr⟩ := c.level hx hw
      obtain ⟨v, e', c'', hroot'⟩ := ih c' (by rwa [hroot]) (by omega)
      refine ⟨v, ?_, c'', hroot'.trans hroot⟩
      rw [fgkClimb, if_neg hx]
      exact except_bind_ok.2 ⟨(u, p), e, e'⟩

/-- The root's increment ends the update: nothing is short any more (R173). -/
theorem Tree.FgkCursor.coding {t u : Tree} (c : t.FgkCursor root) {wmax : Nat} (e : incWeight wmax t root = .ok u) :
    u.Coding .fgk := by
  have m := incWeight_moved e
  refine
    { wf := incWeight_wellFormed c.wf c.ne_esc e
      siblings := incWeight_root_siblings c.wf c.siblings e
      sums := ⟨fun p x y hp hx hy => ?_, fun h hh hne hi => ?_⟩
      fgk := fun _ => c.last.of_moved m
      vitterOrder := nofun
      vitterParents := nofun }
  · simpa [Tree.weightWith] using incWeight_root_sums c.wf c.sums e hp hx hy
  · rw [m.shape.has_iff] at hh
    rw [m.shape.esc] at hne
    rw [m.shape.role] at hi
    rw [incWeight_weight e]
    exact (c.counted h hh hne hi).trans (Nat.le_add_right _ _)

/-- From the climb on, the update completes with a coding tree (R172, R173). -/
theorem Tree.FgkCursor.finish {t : Tree} {x : Handle} (c : t.FgkCursor x) {wmax fuel : Nat} (hw : t.rootWeight < wmax)
    (hf : (t.get x).rank ≤ fuel) :
    ∃ v u, fgkClimb wmax fuel t x = .ok v ∧ incWeight wmax v root = .ok u ∧ u.Coding .fgk := by
  obtain ⟨v, e, c', hroot⟩ := c.climb hw hf
  obtain ⟨u, e'⟩ := incWeight_of_ne (t := v) (h := root) (Nat.ne_of_lt (hroot ▸ hw))
  exact ⟨v, u, e, e', c'.coding e'⟩

/-- No rank is above the number of node slots. -/
theorem Tree.WellFormed.rank_le_nodeCap {t : Tree} (w : t.WellFormed) {h : Handle} (hh : t.has h) :
    (t.get h).rank ≤ nodeCap := by
  have := (w.ranks.range h hh).2
  have := t.nodeCount.isLt
  show _ ≤ 513
  omega

/-! ### Step 1 -/

section
variable {t : Tree} {x : Handle}

/-- A starting tree whose Leaf is not beside the Escape node begins its climb there (R171). -/
theorem Tree.Starting.fgkCursor (s : t.Starting x) (last : t.EscapeParentLast) (hs : sibling t x ≠ some t.esc) :
    t.FgkCursor x := by
  have w := s.wf
  have hrank : (t.get x).rank + 1 ≠ t.nodeCount.val := fun h => hs ((w.sibling_escape s.siblings s.one_lt s.has).2 h)
  obtain ⟨z, p, _, _, _, hep, _⟩ := s.siblings.escape_sibling w s.one_lt
  obtain ⟨hpa, hpi⟩ := w.parentsInternal t.esc p w.escape.allocated hep
  have hlast := last p hep
  have hxp : (t.get x).rank ≠ (t.get p).rank := fun h => by
    rw [w.ranks.inj x p s.has hpa h] at s
    exact s.not_internal hpi
  have hxe : (t.get x).rank ≠ t.nodeCount.val := by
    rw [← w.escape.rank]
    exact fun h => s.ne_esc (w.ranks.inj x t.esc s.has w.escape.allocated h)
  have := (w.ranks.range x s.has).2
  refine
    { wf := w, siblings := s.siblings, sums := s.sums, last := last, has := s.has, one_lt := s.one_lt
      counted := fun h hh hne hi => ?_
      place := .inr (by omega) }
  by_cases hhx : h = x
  · subst hhx; exact s.counted hs
  · refine s.positive h hh hne hhx fun hpar => hi ?_
    exact (w.parentsInternal t.esc h w.escape.allocated hpar).2

/-- The node of rank `NODE_COUNT - 2` is Internal: it is the Escape node's parent. -/
theorem Tree.Starting.leaf_before (s : t.Starting x) (last : t.EscapeParentLast) {y : Handle} (hy : t.has y)
    (hi : (t.get y).role ≠ .internal) (hlt : (t.get y).rank + 1 < t.nodeCount.val) :
    (t.get y).rank + 2 < t.nodeCount.val := by
  have w := s.wf
  obtain ⟨z, p, _, _, _, hep, _⟩ := s.siblings.escape_sibling w s.one_lt
  obtain ⟨hpa, hpi⟩ := w.parentsInternal t.esc p w.escape.allocated hep
  have hlast := last p hep
  have : (t.get y).rank ≠ (t.get p).rank := fun h => hi (by rw [w.ranks.inj y p hy hpa h]; exact hpi)
  omega

/-- The leader of a Leaf: the first childless node of its weight (R171, R192). -/
theorem lowestRank_leaf_ok {t : Tree} {x leader : Handle} {sym : Symbol} (hx : t.has x) (hr : (t.get x).role = .leaf sym)
    (e : lowestRank t (t.get x).weight true = .ok leader) :
    t.has leader ∧ (t.get leader).weight = (t.get x).weight ∧ (t.get leader).role ≠ .internal ∧
      (t.get leader).rank ≤ (t.get x).rank ∧
      ∀ y, t.has y → (t.get y).role ≠ .internal → (t.get y).weight = (t.get x).weight →
        (t.get leader).rank ≤ (t.get y).rank := by
  obtain ⟨hla, hcand, hmin⟩ := lowestRank_ok e
  refine ⟨hla, ?_, fun h => ?_, hmin x hx (Node.candidate_leaf hr true), fun y hy hi hw => hmin y hy ?_⟩
  · simp only [Node.candidate, Bool.and_eq_true, beq_iff_eq] at hcand
    exact hcand.1
  · simp [Node.candidate, h, Role.childless] at hcand
  · cases hr : (t.get y).role with
    | internal => exact absurd hr hi
    | leaf _ => simp [Node.candidate, hr, Role.childless, hw]
    | escape => simp [Node.candidate, hr, Role.childless, hw]

/-- `s` has `x` beside the Escape node, whose parent is `q`; `leader` is the leading Leaf of the weight of `x` (R171). -/
structure Tree.Starting.Beside (t : Tree) (x q leader : Handle) : Prop where
  starting : t.Starting x
  last : t.EscapeParentLast
  rank : (t.get x).rank + 1 = t.nodeCount.val
  parent : (t.get x).parent = some q
  escParent : (t.get t.esc).parent = some q
  found : lowestRank t (t.get x).weight true = .ok leader

section
variable {q leader : Handle}

theorem Tree.Starting.beside (s : t.Starting x) (last : t.EscapeParentLast) (hs : sibling t x = some t.esc) :
    ∃ q leader, Tree.Starting.Beside t x q leader := by
  have w := s.wf
  have hrank := (w.sibling_escape s.siblings s.one_lt s.has).1 hs
  obtain ⟨sym, hrole⟩ := s.role
  obtain ⟨leader, hl⟩ := lowestRank_of_candidate s.has (Node.candidate_leaf hrole true)
  obtain ⟨z, q, hz, hzr, hzp, hep, _⟩ := s.siblings.escape_sibling w s.one_lt
  have hxz : x = z := w.ranks.inj x z s.has hz (by omega)
  subst hxz
  exact ⟨q, leader, s, last, hrank, hzp, hep, hl⟩

/-- The leader is a childless node of the weight of `x`, and none of those stands before it. -/
theorem Tree.Starting.Beside.leader_spec (b : Tree.Starting.Beside t x q leader) :
    t.has leader ∧ (t.get leader).weight = (t.get x).weight ∧ (t.get leader).role ≠ .internal ∧
      (t.get leader).rank ≤ (t.get x).rank ∧
      ∀ y, t.has y → (t.get y).role ≠ .internal → (t.get y).weight = (t.get x).weight →
        (t.get leader).rank ≤ (t.get y).rank := by
  obtain ⟨sym, hrole⟩ := b.starting.role
  exact lowestRank_leaf_ok b.starting.has hrole b.found

theorem Tree.Starting.Beside.q_internal (b : Tree.Starting.Beside t x q leader) :
    t.has q ∧ (t.get q).role = .internal := b.starting.wf.parentsInternal x q b.starting.has b.parent

/-- Before the leader every node but the Escape node's parent weighs more. -/
theorem Tree.Starting.Beside.before (b : Tree.Starting.Beside t x q leader) {y : Handle} (hy : t.has y)
    (hr : (t.get y).rank < (t.get leader).rank) (hyq : y ≠ q) : (t.get x).weight < (t.get y).weight := by
  obtain ⟨hla, hlw, _, _, hmin⟩ := b.leader_spec
  by_cases hi : (t.get y).role = .internal
  · exact b.starting.internal_heavier b.rank hy hi fun h => hyq (Option.some.inj (h.symm.trans b.escParent))
  · refine lt_of_le_of_ne (hlw ▸ b.starting.siblings.weights y leader hy hla hr.le) fun h => ?_
    have := hmin y hy hi h.symm
    omega

/-- Step 1 with an exchange: the climb goes on at the parent of the leader's position (R171). -/
theorem Tree.Starting.Beside.exchanged (b : Tree.Starting.Beside t x q leader) (hlx : leader ≠ x) {wmax : Nat}
    (hw : t.rootWeight < wmax) :
    ∃ u p, fgkLevel wmax t x true = .ok (u, p) ∧ u.FgkCursor p ∧ u.rootWeight = t.rootWeight := by
  have s := b.starting
  have w := s.wf
  obtain ⟨hla, hlw, hli, hle, _⟩ := b.leader_spec
  obtain ⟨hqa, hqi⟩ := b.q_internal
  have hlt : (t.get leader).rank < (t.get x).rank :=
    lt_of_le_of_ne hle fun h => hlx (w.ranks.inj _ _ hla s.has h)
  have hfront := s.leaf_before b.last hla hli (by have := b.rank; omega)
  have hqlast := b.last q b.escParent
  have hle' : leader ≠ t.esc := w.ne_esc_of_rank_lt s.has hlt
  have hlr : leader ≠ root := by
    rintro rfl
    have := w.root_not_leaf
    cases h : (t.get root).role with
    | internal => exact hli h
    | leaf y => rw [h] at this; cases this
    | escape => exact hle' (w.escape.unique root w.root_has h)
  obtain ⟨p, hp⟩ := Option.ne_none_iff_exists'.mp (mt (w.links.rootParent leader hla).1 hlr)
  obtain ⟨hpa, hslot⟩ := w.linked.up leader p hla hp
  obtain ⟨u, e, done⟩ := fgkLevel_of_leader w s.siblings.parents s.has s.ne_esc
    ((s.siblings.weight_le_root w s.has).trans_lt hw) b.found hp hle fun _ d hd hdp =>
      absurd (w.parentsInternal d leader hd hdp).2 hli
  have m := done.moved
  have raised := done.raised hlw
  have hesc : Equiv.swap x leader t.esc = t.esc := Equiv.swap_apply_of_ne_of_ne s.ne_esc.symm hle'.symm
  have hq : Equiv.swap x leader q = q :=
    Equiv.swap_apply_of_ne_of_ne (by rintro rfl; exact s.not_internal hqi) (by rintro rfl; exact hli hqi)
  have hpr : (u.get p).rank < (t.get leader).rank := by
    have hrank := m.rank leader
    have hpar := m.parent leader
    rw [Equiv.swap_apply_right] at hrank hpar
    rw [← hrank]
    exact done.first x p ((m.shape.has_iff x).2 s.has) (hpar.trans hp)
  refine ⟨u, p, e, ?_, done.rootWeight s.ne_root⟩
  refine
    { wf := done.wf
      siblings := m.siblings w s.siblings done.first raised hla fun y hy hr => ?_
      sums := m.sumsAt w.localLinks s.sums raised done.own hpa hslot (fun _ h => by cases h)
      counted := fun h hh hne hi => ?_
      last := fun q' hq' => ?_
      has := (m.shape.has_iff p).2 hpa
      one_lt := by rw [m.shape.nodeCount]; exact s.one_lt
      place := by rw [m.shape.nodeCount]; exact .inr (by omega) }
  · rw [hlw]
    exact b.before hy hr (by rintro rfl; omega)
  · rw [m.shape.has_iff] at hh
    rw [m.shape.esc] at hne
    rw [m.shape.role] at hi
    rw [done.own]
    by_cases hhx : h = x
    · rw [if_pos hhx]; omega
    · refine (s.positive h hh hne hhx fun hpar => hi ?_).trans (Nat.le_add_right _ _)
      exact (w.parentsInternal t.esc h w.escape.allocated hpar).2
  · have hpar := m.parent t.esc
    have hrank := m.rank q
    rw [hesc] at hpar
    rw [hq] at hrank
    rw [m.shape.esc, hpar, b.escParent] at hq'
    cases hq'
    rw [hrank, m.shape.nodeCount]
    exact hqlast

/-- After step 1 without an exchange, once the Escape node's parent has its increment too, R42 holds again. -/
theorem Tree.Starting.Beside.siblings_of_both (b : Tree.Starting.Beside t x q x) {v : Tree} (m : t.Moved v 1)
    (own : ∀ h, (v.get h).weight = (t.get h).weight + (if h = x then 1 else 0) + if h = q then 1 else 0) :
    v.SiblingProperty := by
  have s := b.starting
  have w := s.wf
  obtain ⟨hqa, hqi⟩ := b.q_internal
  have hqw := b.starting.parent_weight b.parent b.escParent
  have hqx : q ≠ x := by rintro rfl; exact s.not_internal hqi
  have hqr := s.siblings.parents x q s.has b.parent
  refine m.siblings_of_sorted s.siblings (m.parentsFirst_of_one s.siblings.parents) fun y z hy hz hr => ?_
  have sorted := s.siblings.weights y z hy hz hr
  simp only [Equiv.Perm.one_apply]
  by_cases hzx : z = x ∨ z = q
  · have hzw : (t.get z).weight = (t.get x).weight := by obtain rfl | rfl := hzx <;> [rfl; exact hqw]
    by_cases hyx : y = x ∨ y = q
    · have hyw : (t.get y).weight = (t.get x).weight := by obtain rfl | rfl := hyx <;> [rfl; exact hqw]
      rw [own, own, hyw, hzw]
      obtain rfl | rfl := hzx <;> obtain rfl | rfl := hyx <;> simp [hqx, hqx.symm]
    · rw [not_or] at hyx
      have hlt : (t.get y).rank < (t.get x).rank := by
        have : (t.get z).rank ≤ (t.get x).rank := by obtain rfl | rfl := hzx <;> omega
        exact lt_of_le_of_ne (hr.trans this) fun h => hyx.1 (w.ranks.inj y x hy s.has h)
      have := b.before hy hlt hyx.2
      rw [own, own, if_neg hyx.1, if_neg hyx.2, hzw]
      obtain rfl | rfl := hzx <;> simp [hqx, hqx.symm] <;> omega
  · rw [not_or] at hzx
    rw [own, own, if_neg hzx.1, if_neg hzx.2]
    omega

/-- Step 1 without an exchange: the Leaf and then the Escape node's parent are incremented in place, and the update
completes from there (R171 to R173). -/
theorem Tree.Starting.Beside.in_place (b : Tree.Starting.Beside t x q x) {wmax : Nat} (hw : t.rootWeight < wmax) :
    ∃ u v z, fgkLevel wmax t x true = .ok (u, q) ∧ fgkClimb wmax nodeCap u q = .ok v ∧ incWeight wmax v root = .ok z ∧
      z.Coding .fgk := by
  have s := b.starting
  have w := s.wf
  obtain ⟨hqa, hqi⟩ := b.q_internal
  have hqx : q ≠ x := by rintro rfl; exact s.not_internal hqi
  have hqe : q ≠ t.esc := by rintro rfl; rw [w.escape.role] at hqi; cases hqi
  obtain ⟨_, hslot⟩ := w.linked.up x q s.has b.parent
  obtain ⟨u, e, done⟩ := fgkLevel_of_leader w s.siblings.parents s.has s.ne_esc
    ((s.siblings.weight_le_root w s.has).trans_lt hw) b.found b.parent le_rfl fun h => absurd rfl h
  have raised := done.raised rfl
  have m := done.moved
  rw [Equiv.swap_self] at m raised
  have sums : u.SumsAt q none := m.sumsAt w.localLinks s.sums raised done.own hqa hslot (fun _ h => by cases h)
  have hqw : (u.get q).weight = (t.get x).weight := by rw [done.own, if_neg hqx, s.parent_weight b.parent b.escParent]; rfl
  have hua : u.has q := (m.shape.has_iff q).2 hqa
  have counted (v : Tree) (mv : u.Moved v 1) (hv : ∀ h, (u.get h).weight ≤ (v.get h).weight) :
      ∀ h, v.has h → h ≠ v.esc → (v.get h).role ≠ .internal → 1 ≤ (v.get h).weight := by
    intro h hh hne hi
    rw [mv.shape.has_iff, m.shape.has_iff] at hh
    rw [mv.shape.esc, m.shape.esc] at hne
    rw [mv.shape.role, m.shape.role] at hi
    refine le_trans ?_ (hv h)
    rw [done.own]
    by_cases hhx : h = x
    · rw [if_pos hhx]; omega
    · refine (s.positive h hh hne hhx fun hpar => hi ?_).trans (Nat.le_add_right _ _)
      exact (w.parentsInternal t.esc h w.escape.allocated hpar).2
  by_cases hqr : q = root
  · subst hqr
    obtain ⟨z, e'⟩ := incWeight_of_ne (t := u) (h := root) (wmax := wmax)
      (by have := done.rootWeight s.ne_root; rw [Tree.rootWeight] at this; omega)
    have m' := incWeight_moved e'
    refine ⟨u, u, z, e, fgkClimb_root _ _ _, e', ?_⟩
    have weights (h) := (incWeight_weight e' h).trans (by rw [done.own])
    refine
      { wf := incWeight_wellFormed done.wf (by rw [m.shape.esc]; exact hqe) e'
        siblings := b.siblings_of_both (m.trans m') weights
        sums := ⟨fun p c d hp hc hd => ?_, counted z m' fun h => by rw [incWeight_weight e']; omega⟩
        fgk := fun _ => (b.last.of_moved m).of_moved m'
        vitterOrder := nofun
        vitterParents := nofun }
    simpa [Tree.weightWith] using incWeight_root_sums done.wf sums e' hp hc hd
  · obtain ⟨leader, hl⟩ := lowestRank_of_candidate hua (Node.candidate_all (u.get q))
    obtain ⟨hla, hcand, hmin⟩ := lowestRank_ok hl
    have hrank (h) : (u.get h).rank = (t.get h).rank := m.rank h
    have hlq : leader = q := by
      have hle := hmin q hua (Node.candidate_all _)
      rw [m.shape.has_iff] at hla
      rw [hrank, hrank] at hle
      by_contra hne
      have hlt := lt_of_le_of_ne hle fun h => hne (w.ranks.inj _ _ hla hqa h)
      have := s.siblings.parents x q s.has b.parent
      have heavier := b.before hla (by omega) hne
      have hlw : (u.get leader).weight = (u.get q).weight := by simpa [Node.candidate] using hcand
      rw [hqw, done.own] at hlw
      omega
    subst hlq
    obtain ⟨p, hp⟩ := Option.ne_none_iff_exists'.mp (mt (done.wf.links.rootParent leader hua).1 hqr)
    obtain ⟨hpa, hpslot⟩ := done.wf.linked.up leader p hua hp
    have hroot := done.rootWeight s.ne_root
    have hqle : (u.get leader).weight < wmax := by
      rw [hqw]
      exact (s.siblings.weight_le_root w s.has).trans_lt hw
    obtain ⟨v, e', done'⟩ := fgkLevel_of_leader done.wf done.first hua (by rw [m.shape.esc]; exact hqe) hqle hl hp le_rfl
      fun h => absurd rfl h
    have raised' := done'.raised rfl
    have m' := done'.moved
    rw [Equiv.swap_self] at m' raised'
    have both : v.SiblingProperty := b.siblings_of_both (m.trans m') fun h => by rw [done'.own, done.own]
    have hqlast := b.last leader b.escParent
    have cursor : v.FgkCursor p :=
      { wf := done'.wf
        siblings := both
        sums := m'.sumsAt done.wf.localLinks sums raised' done'.own hpa hpslot (fun _ h => by cases h)
        counted := counted v m' fun h => by rw [done'.own]; omega
        last := (b.last.of_moved m).of_moved m'
        has := (m'.shape.has_iff p).2 hpa
        one_lt := by rw [m'.shape.nodeCount, m.shape.nodeCount]; exact s.one_lt
        place := by
          have hr := done.first leader p hua hp
          have hrv : (v.get p).rank = (u.get p).rank := m'.rank p
          rw [hrank leader] at hr
          rw [m'.shape.nodeCount, m.shape.nodeCount, hrv]
          exact .inr (by omega) }
    have hroot' := done'.rootWeight hqr
    obtain ⟨c, z, e'', e''', coding⟩ := cursor.finish (wmax := wmax) (fuel := 512) (by omega) (by
      have hr := done.first leader p hua hp
      have hrv : (v.get p).rank = (u.get p).rank := m'.rank p
      have := done.wf.rank_le_nodeCap hua
      have hcap : nodeCap = 513 := rfl
      omega)
    refine ⟨u, c, z, e, ?_, e''', coding⟩
    show fgkClimb wmax (512 + 1) u leader = _
    rw [fgkClimb, if_neg hqr]
    exact except_bind_ok.2 ⟨(v, p), e', e''⟩

end

/-- The FGK update of a starting tree completes with a coding tree (R170). -/
theorem Tree.Starting.fgk (s : t.Starting x) (last : t.EscapeParentLast) {wmax : Nat} (hw : t.rootWeight < wmax) :
    ∃ b c u, fgkStepOne wmax t x = .ok b ∧ fgkClimb wmax nodeCap b.1 b.2 = .ok c ∧ incWeight wmax c root = .ok u ∧
      u.Coding .fgk := by
  by_cases hs : sibling t x = some t.esc
  · have hstep : fgkStepOne wmax t x = fgkLevel wmax t x true := if_pos hs
    obtain ⟨q, leader, b⟩ := s.beside last hs
    rw [hstep]
    by_cases hlx : leader = x
    · subst hlx
      obtain ⟨u, v, z, e, e', e'', c⟩ := b.in_place hw
      exact ⟨(u, q), v, z, e, e', e'', c⟩
    · obtain ⟨u, p, e, c, hroot⟩ := b.exchanged hlx hw
      obtain ⟨v, z, e', e'', coding⟩ := c.finish (hroot ▸ hw) (c.wf.rank_le_nodeCap c.has)
      exact ⟨(u, p), v, z, e, e', e'', coding⟩
  · obtain ⟨v, z, e', e'', coding⟩ := (s.fgkCursor last hs).finish hw (s.wf.rank_le_nodeCap s.has)
    exact ⟨(t, x), v, z, if_neg hs, e', e'', coding⟩

end

/-- After `introduce` the old Escape node, now the new one's parent, has the rank before the two new nodes (R145). -/
theorem introduce_escapeParentLast {t : Tree} {sym : Symbol} {r : Tree × Handle} (w : t.WellFormed)
    (e : introduce t sym = .ok r) : r.1.EscapeParentLast := by
  intro p hp
  rw [introduce_get_escape e] at hp
  cases hp
  rw [introduce_rank_old w e w.escape.allocated, w.escape.rank, (introduce_ok e).2.2.2.1]

/-- The node `locate` answers for a seen symbol is its Leaf; for an unseen one, the Escape node, and there is room to
introduce it. -/
theorem Tree.WellFormed.locate_cases {t : Tree} (w : t.WellFormed) {h : Handle} {sym : Symbol}
    (e : locate t sym = .ok h) :
    (t.has h ∧ (t.get h).role = .leaf sym ∧ h ≠ t.esc) ∨ (h = t.esc ∧ ∃ r, introduce t sym = .ok r) := by
  cases hs : t.seen.getLsbD sym.toNat with
  | true =>
    obtain ⟨hh, hr, _⟩ := (locate_seen_ok_iff t sym h hs).1 e
    exact .inl ⟨hh, hr, by rintro rfl; rw [w.escape.role] at hr; cases hr⟩
  | false =>
    rw [locate_unseen t sym hs] at e
    cases e
    exact .inr ⟨rfl, w.introduce_of_unseen hs⟩

/-- Settles O31: from the Leaf of the symbol, or from the Leaf `introduce` makes, step 1, the climb and the root's
increment complete and leave a coding tree. -/
theorem fgkUpdateKeepsCoding : Obligations.FgkUpdateKeepsCoding := by
  unfold Obligations.FgkUpdateKeepsCoding
  intro wmax t h sym c hw hl
  have w := c.wf
  have parts : ∃ u, updateFGK wmax t h sym (h = t.esc) = .ok u ∧ u.Coding .fgk := by
    obtain ⟨hh, hr, hne⟩ | ⟨rfl, r, e⟩ := w.locate_cases hl
    · obtain ⟨b, v, u, e1, e2, e3, coding⟩ := (c.starting hh hr).fgk (c.fgk rfl) hw
      refine ⟨u, except_bind_ok.2 ⟨(t, h), ?_, except_bind_ok.2 ⟨b, e1, except_bind_ok.2 ⟨v, e2, e3⟩⟩⟩, coding⟩
      rw [startNode, if_neg (by simp [hne])]
    · obtain ⟨b, v, u, e1, e2, e3, coding⟩ :=
        (c.introduce_starting e).fgk (introduce_escapeParentLast w e) (introduce_rootWeight w e ▸ hw)
      refine ⟨u, except_bind_ok.2 ⟨r, ?_, except_bind_ok.2 ⟨b, e1, except_bind_ok.2 ⟨v, e2, e3⟩⟩⟩, coding⟩
      rw [startNode, if_pos (by simp)]
      exact e
  obtain ⟨u, e, coding⟩ := parts
  exact ⟨u, e, coding, (update_keeps (strategy := .fgk) w (w.isNodeOf_of_locate hl) e).2.2⟩

end Sys2Proof.Machine
end

section
/-! The slide of the Vitter strategy (spec/43_vitter_update.md R197 to R199): its swaps move one node to the front of a
block and every block member one rank back, and a slide past nodes without nearer children is allowed. -/

namespace Sys2Proof.Machine

/-! ### The net effect -/

/-- The rearrangement of a slide of `p` to rank `top`: `p` takes the first position of the block, and every member the
position behind its own (R199). -/
structure Tree.SlidBy (t u : Tree) (p : Handle) (top : Nat) (σ : Equiv.Perm Handle) : Prop where
  moved : t.Moved u σ
  front : ∀ m, t.has m → (t.get m).rank = top → σ m = p
  back : ∀ h m, t.has h → t.has m → top ≤ (t.get h).rank → (t.get h).rank < (t.get p).rank →
    (t.get m).rank = (t.get h).rank + 1 → σ m = h
  rest : ∀ h, t.has h → (t.get h).rank < top ∨ (t.get p).rank < (t.get h).rank → σ h = h

/-- Different nodes have different ranks (R41(g)). -/
def Tree.RanksDiffer (t : Tree) : Prop := ∀ h h', t.has h → t.has h' → (t.get h).rank = (t.get h').rank → h = h'

theorem Tree.Moved.ranksDiffer {t u : Tree} {σ : Equiv.Perm Handle} (m : t.Moved u σ) (i : t.RanksDiffer) :
    u.RanksDiffer := by
  intro h h' hh hh' hr
  obtain ⟨x, rfl⟩ := σ.surjective h
  obtain ⟨y, rfl⟩ := σ.surjective h'
  rw [m.shape.has_iff, m.has] at hh hh'
  rw [m.rank, m.rank] at hr
  rw [i x y hh hh' hr]

/-- The ranks after an exchange (R146). -/
theorem Tree.Moved.rank_swap {t u : Tree} {a b : Handle} (m : t.Moved u (Equiv.swap a b)) :
    (u.get a).rank = (t.get b).rank ∧ (u.get b).rank = (t.get a).rank ∧
      ∀ h, h ≠ a → h ≠ b → (u.get h).rank = (t.get h).rank := by
  refine ⟨?_, ?_, fun h ha hb => ?_⟩
  · have := m.rank b; rwa [Equiv.swap_apply_right] at this
  · have := m.rank a; rwa [Equiv.swap_apply_left] at this
  · have := m.rank h; rwa [Equiv.swap_apply_of_ne_of_ne ha hb] at this

/-- A slide of no places. -/
theorem Tree.SlidBy.of_eq {t : Tree} {p : Handle} (i : t.RanksDiffer) (hp : t.has p) : t.SlidBy t p (t.get p).rank 1 :=
  ⟨.refl t, fun m hm hr => i m p hm hp hr, fun h m _ _ h1 h2 _ => by omega, fun _ _ _ => rfl⟩

/-- One exchange with the node before `p`, and then a slide of one place less (R199). -/
theorem Tree.SlidBy.head {t t1 u : Tree} {p x : Handle} {top : Nat} {σ : Equiv.Perm Handle} (i : t.RanksDiffer)
    (hp : t.has p) (hx : t.has x) (hrank : (t.get x).rank + 1 = (t.get p).rank) (htop : top ≤ (t.get x).rank)
    (m : t.Moved t1 (Equiv.swap p x)) (s : t1.SlidBy u p top σ) : t.SlidBy u p top (σ * Equiv.swap p x) := by
  obtain ⟨rankP, rankX, rankOther⟩ := m.rank_swap
  have has1 (h : Handle) : t1.has h ↔ t.has h := m.shape.has_iff h
  have ranks (h : Handle) (hh : t.has h) : (h = p ∨ h = x) ∨
      ((t1.get h).rank = (t.get h).rank ∧ Equiv.swap p x h = h ∧
        ((t.get h).rank < (t.get x).rank ∨ (t.get p).rank < (t.get h).rank)) := by
    by_cases hhp : h = p
    · exact .inl (.inl hhp)
    · by_cases hhx : h = x
      · exact .inl (.inr hhx)
      · have n1 : (t.get h).rank ≠ (t.get p).rank := fun e => hhp (i h p hh hp e)
        have n2 : (t.get h).rank ≠ (t.get x).rank := fun e => hhx (i h x hh hx e)
        exact .inr ⟨rankOther h hhp hhx, Equiv.swap_apply_of_ne_of_ne hhp hhx, by omega⟩
  have slot (h : Handle) (hh : t.has h) : t1.has (Equiv.swap p x h) ∧ (t1.get (Equiv.swap p x h)).rank = (t.get h).rank :=
    ⟨(has1 _).2 ((m.has h).2 hh), m.rank h⟩
  refine ⟨m.trans s.moved, fun y hy hr => ?_, fun h y hh hy h1 h2 hr => ?_, fun h hh hr => ?_⟩
  · exact s.front _ (slot y hy).1 ((slot y hy).2.trans hr)
  · rw [Equiv.Perm.mul_apply]
    obtain (rfl | rfl) | ⟨hr1, _, hplace⟩ := ranks h hh
    · omega
    · have hyp : y = p := i y p hy hp (by omega)
      rw [hyp, Equiv.swap_apply_left]
      exact s.rest _ ((has1 _).2 hx) (.inr (by omega))
    · exact s.back h _ ((has1 h).2 hh) (slot y hy).1 (by omega) (by omega) (by rw [(slot y hy).2]; omega)
  · rw [Equiv.Perm.mul_apply]
    obtain (rfl | rfl) | ⟨hr1, hfix, hplace⟩ := ranks h hh
    · omega
    · omega
    · rw [hfix]
      exact s.rest h ((has1 h).2 hh) (by omega)

/-- The parents of the nodes exchanged are there, so neither is the root. -/
theorem Tree.Links.ne_root_of_swapPositions {t u : Tree} (l : t.Links) {a b : Handle} (e : swapPositions t a b = .ok u) :
    a ≠ root ∧ b ≠ root := by
  obtain ⟨_, pa, pb, ha, hb, _⟩ := swapPositions_ok e
  have hroot := (l.rootParent root l.rootHas).2 rfl
  constructor
  · rintro rfl; rw [hroot] at ha; cases ha
  · rintro rfl; rw [hroot] at hb; cases hb

/-- The swaps of a slide add up to its net effect. -/
theorem slideLoop_slidBy {p : Handle} {count j : Nat} {t u : Tree} (l : t.Links) (i : t.RanksDiffer) (hp : t.has p)
    (hj : j + 1 = (t.get p).rank) (hc : count < (t.get p).rank) (e : slideLoop p count j t = .ok u) :
    ∃ σ, t.SlidBy u p ((t.get p).rank - count) σ := by
  induction count generalizing j t with
  | zero =>
    simp only [slideLoop] at e
    cases e
    exact ⟨1, .of_eq i hp⟩
  | succ count ih =>
    obtain ⟨x, t1, h1, h2, h3⟩ := slideLoop_succ_ok e
    obtain ⟨hx, hrank, _⟩ := (nodeAtRank_ok_iff _ _ _).1 h1
    have m := swapPositions_moved l hp hx h2
    obtain ⟨hpr, hxr⟩ := l.ne_root_of_swapPositions h2
    obtain ⟨rankP, _, _⟩ := m.rank_swap
    obtain ⟨σ, s⟩ := ih (m.links l (Equiv.swap_apply_of_ne_of_ne hpr.symm hxr.symm)) (m.ranksDiffer i)
      ((m.shape.has_iff p).2 hp) (by omega) (by omega) h3
    have htop : (t1.get p).rank - count = (t.get p).rank - (count + 1) := by omega
    rw [htop] at s
    exact ⟨_, .head i hp hx (by omega) (by omega) m s⟩

theorem slide_slidBy {t u : Tree} {p : Handle} {top : Nat} (w : t.WellFormed) (hp : t.has p) (h1 : 1 ≤ top)
    (h2 : top ≤ (t.get p).rank) (e : slide t p top = .ok u) : ∃ σ, t.SlidBy u p top σ := by
  obtain ⟨σ, s⟩ := slideLoop_slidBy w.linked w.ranks.inj hp (by omega) (by omega) e
  have htop : (t.get p).rank - ((t.get p).rank - top) = top := by omega
  rw [htop] at s
  exact ⟨σ, s⟩

/-- Settles O29: by the rearrangement of the slide, which moves every node to the position it names. -/
theorem slideNetEffect : Obligations.SlideNetEffect := by
  unfold Obligations.SlideNetEffect
  intro t u p top w hp h1 h2 e
  obtain ⟨σ, s⟩ := slide_slidBy w hp (by omega) h2 e
  refine ⟨fun m hm hr => ?_, fun h m hh hm h1 h2 hr => ?_, fun h hh hr => ?_,
    fun h => ⟨slideLoop_weight e h, (slideLoop_sameShape e).role h⟩⟩
  · rw [← s.front m hm hr, s.moved.position]
  · rw [← s.back h m hh hm h1 h2 hr, s.moved.position]
  · have := s.moved.position h
    rwa [s.rest h hh hr] at this

/-! ### A slide that completes -/

/-- `nodeAtRank` answers for every rank of the tree (R140, R41(g)). -/
theorem Tree.WellFormed.nodeAtRank_ok {t : Tree} (w : t.WellFormed) {r : Nat} (h1 : 1 ≤ r) (h2 : r ≤ t.nodeCount.val) :
    ∃ x, nodeAtRank t r = .ok x ∧ t.has x ∧ (t.get x).rank = r := by
  obtain ⟨x, hx, hr⟩ := w.ranks.onto r h1 h2
  exact ⟨x, (nodeAtRank_ok_iff t r x).2 ⟨hx, hr, fun y hy hyr => w.ranks.inj y x hy hx (hyr.trans hr.symm)⟩, hx, hr⟩

/-- The nodes from rank `top` up to `p` have no children at rank `limit` or before. -/
def Tree.ClearTo (t : Tree) (p : Handle) (top limit : Nat) : Prop :=
  ∀ x, t.has x → top ≤ (t.get x).rank → (t.get x).rank < (t.get p).rank →
    ∀ c, t.has c → (t.get c).parent = some x → limit < (t.get c).rank

/-- A slide past nodes whose children stand behind `p` completes, and keeps R41 and parents before children. -/
theorem slideLoop_forward {p : Handle} {count j limit : Nat} {t : Tree} (w : t.WellFormed) (o : t.ParentsFirst)
    (hp : t.has p) (hpe : p ≠ t.esc) (hj : j + 1 = (t.get p).rank) (hc : count + 2 ≤ (t.get p).rank)
    (hlimit : (t.get p).rank ≤ limit) (clear : t.ClearTo p ((t.get p).rank - count) limit) :
    ∃ u, slideLoop p count j t = .ok u ∧ u.WellFormed ∧ u.ParentsFirst := by
  induction count generalizing j t with
  | zero => exact ⟨t, rfl, w, o⟩
  | succ count ih =>
    have hn := (w.ranks.range p hp).2
    obtain ⟨x, e1, hx, hrank⟩ := w.nodeAtRank_ok (r := j) (by omega) (by omega)
    have hxr : x ≠ root := by
      rintro rfl
      rw [w.ranks.root] at hrank
      omega
    have clearX := clear x hx (by omega) (by omega)
    obtain ⟨t1, e2, w1, m, o1⟩ := swapPositions_forward w o hp hx hpe hxr (by omega)
      fun c hc hcx => hlimit.trans_lt (clearX c hc hcx)
    obtain ⟨rankP, rankX, rankOther⟩ := m.rank_swap
    have clear1 : t1.ClearTo p ((t1.get p).rank - count) limit := by
      intro y hy hy1 hy2 c hca hcp
      rw [m.shape.has_iff] at hy
      have hyp : y ≠ p := by rintro rfl; omega
      have hyx : y ≠ x := by rintro rfl; omega
      rw [rankOther y hyp hyx] at hy1 hy2
      obtain ⟨z, rfl⟩ := (Equiv.swap p x).surjective c
      rw [m.shape.has_iff, m.has] at hca
      rw [m.parent] at hcp
      rw [m.rank]
      exact clear y hy (by omega) (by omega) z hca hcp
    obtain ⟨u, e3, w2, o2⟩ := ih w1 o1 ((m.shape.has_iff p).2 hp) (by rwa [m.shape.esc]) (j := j - 1) (by omega)
      (by omega) (by omega) clear1
    exact ⟨u, except_bind_ok.2 ⟨x, e1, except_bind_ok.2 ⟨t1, e2, e3⟩⟩, w2, o2⟩

/-- The scan for the block's top ends at a rank from 2 on, with the block before `p`, and stops at the root or at a node
not in the block (R197). -/
theorem Tree.WellFormed.blockTop_ok {t : Tree} (w : t.WellFormed) (p : Handle) (weight : Nat) {r : Nat} (h1 : 2 ≤ r)
    (h2 : r ≤ t.nodeCount.val) :
    ∃ top, blockTop t p weight r = .ok top ∧ 2 ≤ top ∧ top ≤ r ∧
      (∀ x, t.has x → top ≤ (t.get x).rank → (t.get x).rank < r → inBlock t x p weight = true) ∧
      (∀ x, t.has x → (t.get x).rank + 1 = top → 2 ≤ (t.get x).rank → inBlock t x p weight = false) := by
  induction r with
  | zero => omega
  | succ r ih =>
    by_cases hr : 2 ≤ r
    · obtain ⟨x, e, hx, hxr⟩ := w.nodeAtRank_ok (r := r) (by omega) (by omega)
      cases hb : inBlock t x p weight with
      | true =>
        obtain ⟨top, e', ht1, ht2, block, stop⟩ := ih hr (by omega)
        refine ⟨top, ?_, ht1, by omega, fun y hy hy1 hy2 => ?_, stop⟩
        · rw [blockTop, if_pos hr]
          exact except_bind_ok.2 ⟨x, e, by rw [if_pos hb]; exact e'⟩
        · by_cases hyr : (t.get y).rank = r
          · rw [w.ranks.inj y x hy hx (hyr.trans hxr.symm)]; exact hb
          · exact block y hy hy1 (by omega)
      | false =>
        refine ⟨r + 1, ?_, by omega, le_rfl, fun y _ hy1 hy2 => by omega, fun y hy hyr _ => ?_⟩
        · rw [blockTop, if_pos hr]
          exact except_bind_ok.2 ⟨x, e, by rw [if_neg (by simp [hb])]⟩
        · rw [w.ranks.inj y x hy hx (by omega)]; exact hb
    · refine ⟨r + 1, by rw [blockTop, if_neg hr], by omega, le_rfl, fun y _ hy1 hy2 => by omega, fun y _ _ _ => by omega⟩

/-- `u` is `t` after `slideAndIncrement` of `p`: `p` slid to rank `top`, the first of its block, and gained one (R197). -/
structure Tree.Slid (t u : Tree) (p : Handle) (top : Nat) (σ : Equiv.Perm Handle) : Prop where
  wf : u.WellFormed
  slid : t.SlidBy u p top σ
  first : u.ParentsFirst
  own : ∀ h, (u.get h).weight = (t.get h).weight + if h = p then 1 else 0
  two_le : 2 ≤ top
  le : top ≤ (t.get p).rank
  block : ∀ x, t.has x → top ≤ (t.get x).rank → (t.get x).rank < (t.get p).rank →
    inBlock t x p (t.get p).weight = true
  stop : ∀ x, t.has x → (t.get x).rank + 1 = top → 2 ≤ (t.get x).rank → inBlock t x p (t.get p).weight = false

/-- `slideAndIncrement` completes when the children of the block stand behind the node, and its weight is not `WMAX`. -/
theorem slideAndIncrement_slid {wmax : Nat} {t : Tree} {p : Handle} (w : t.WellFormed) (o : t.ParentsFirst)
    (hp : t.has p) (hpe : p ≠ t.esc) (hpr : p ≠ root) (hw : (t.get p).weight < wmax)
    (clear : ∀ x, t.has x → (t.get x).rank < (t.get p).rank → inBlock t x p (t.get p).weight = true →
      ∀ c, t.has c → (t.get c).parent = some x → (t.get p).rank < (t.get c).rank) :
    ∃ u top σ, t.Slid u p top σ ∧ slideAndIncrement wmax t p =
      .ok (u, if (t.get p).role = .internal then (t.get p).parent else (u.get p).parent) := by
  have hrank2 : 2 ≤ (t.get p).rank := by
    have := (w.ranks.range p hp).1
    have : (t.get p).rank ≠ 1 := fun h => hpr (w.ranks.inj p root hp w.root_has (h.trans w.ranks.root.symm))
    omega
  obtain ⟨top, e1, ht1, ht2, block, stop⟩ :=
    w.blockTop_ok p (t.get p).weight hrank2 (w.ranks.range p hp).2
  have slid : ∃ t1 σ, (if top < (t.get p).rank then slide t p top else .ok t) = .ok t1 ∧ t1.WellFormed ∧
      t1.ParentsFirst ∧ t.SlidBy t1 p top σ ∧ ∀ h, (t1.get h).weight = (t.get h).weight := by
    by_cases hlt : top < (t.get p).rank
    · have clear' : t.ClearTo p ((t.get p).rank - ((t.get p).rank - top)) (t.get p).rank := fun x hx hx1 hx2 =>
        clear x hx hx2 (block x hx (by omega) hx2)
      obtain ⟨t1, e, w1, o1⟩ := slideLoop_forward (count := (t.get p).rank - top) (j := (t.get p).rank - 1) w o hp hpe
        (by omega) (by omega) le_rfl clear'
      obtain ⟨σ, s⟩ := slide_slidBy w hp (by omega) ht2 e
      exact ⟨t1, σ, (if_pos hlt).trans e, w1, o1, s, slideLoop_weight e⟩
    · have htop : top = (t.get p).rank := by omega
      exact ⟨t, 1, if_neg hlt, w, o, htop ▸ .of_eq w.ranks.inj hp, fun _ => rfl⟩
  obtain ⟨t1, σ, e2, w1, o1, s, weight1⟩ := slid
  obtain ⟨u, e3⟩ := incWeight_of_ne (t := t1) (h := p) (wmax := wmax) (by rw [weight1]; exact Nat.ne_of_lt hw)
  have m2 := incWeight_moved e3
  refine ⟨u, top, σ, ?_, ?_⟩
  · exact
      { wf := incWeight_wellFormed w1 (by rw [s.moved.shape.esc]; exact hpe) e3
        slid := ⟨by simpa using s.moved.trans m2, s.front, s.back, s.rest⟩
        first := m2.parentsFirst_of_one o1
        own := fun h => by rw [incWeight_weight e3, weight1]
        two_le := ht1
        le := ht2
        block := block
        stop := stop }
  · unfold slideAndIncrement
    refine except_bind_ok.2 ⟨top, e1, ?_⟩
    dsimp only
    by_cases hlt : top < (t.get p).rank
    · rw [if_pos hlt] at e2 ⊢
      exact except_bind_ok.2 ⟨t1, e2, except_bind_ok.2 ⟨u, e3, rfl⟩⟩
    · rw [if_neg hlt] at e2 ⊢
      exact except_bind_ok.2 ⟨t1, e2, except_bind_ok.2 ⟨u, e3, rfl⟩⟩

/-- The ranks after a slide: the node stands at the top, the block one rank back, and all else where it was. -/
theorem Tree.SlidBy.ranks {t u : Tree} {p : Handle} {top : Nat} {σ : Equiv.Perm Handle} (s : t.SlidBy u p top σ)
    (w : t.WellFormed) (hp : t.has p) (h1 : 1 ≤ top) (h2 : top ≤ (t.get p).rank) :
    (u.get p).rank = top ∧
      (∀ h, t.has h → top ≤ (t.get h).rank → (t.get h).rank < (t.get p).rank → (u.get h).rank = (t.get h).rank + 1) ∧
      ∀ h, t.has h → (t.get h).rank < top ∨ (t.get p).rank < (t.get h).rank → (u.get h).rank = (t.get h).rank := by
  have hn := (w.ranks.range p hp).2
  refine ⟨?_, fun h hh hh1 hh2 => ?_, fun h hh hr => ?_⟩
  · obtain ⟨m, hm, hr⟩ := w.ranks.onto top h1 (by omega)
    rw [← s.front m hm hr, s.moved.rank, hr]
  · obtain ⟨m, hm, hr⟩ := w.ranks.onto ((t.get h).rank + 1) (by omega) (by omega)
    have := s.moved.rank m
    rwa [s.back h m hh hm hh1 hh2 hr, hr] at this
  · have := s.moved.rank h
    rwa [s.rest h hh hr] at this

end Sys2Proof.Machine
end

section
/-! The Vitter update on a coding tree (spec/43_vitter_update.md R190 to R200): the block order, the order of the parents
and the sums but at the cursor are carried along the climb, and no slide is refused. -/

namespace Sys2Proof.Machine

/-! ### The next cursor leads its weight -/

/-- A node before `x` in rank whose parent is not that of `x` has its parent before it too (log 10). -/
theorem Tree.ParentsInOrder.child_lt {t : Tree} (o : t.ParentsInOrder) {x y p q : Handle} (hx : t.has x) (hy : t.has y)
    (hxp : (t.get x).parent = some p) (hyq : (t.get y).parent = some q) (h : (t.get p).rank < (t.get q).rank) :
    (t.get x).rank < (t.get y).rank := by
  by_contra hle
  have := o y x q p hy hx hyq hxp (by omega)
  omega

/-- A node leads its weight when every node before it in rank weighs more. -/
def Tree.Leads (t : Tree) (q : Handle) : Prop :=
  ∀ y, t.has y → (t.get y).rank < (t.get q).rank → (t.get q).weight < (t.get y).weight

/-- A node that is one short of its children leads its weight: an Internal node before it has both children before both
of its own, which weigh no less and add up to more (R43, log 10). -/
theorem Tree.leads_of_short {t : Tree} (w : t.WellFormed) (s : t.SiblingProperty) {q : Handle} {d : Option Handle}
    (sums : t.SumsAt q d) (order : t.BlockOrder) (parents : t.ParentsInOrder) (hq : t.has q)
    (hi : (t.get q).role = .internal) (hd : ∀ x, d = some x → (t.get x).parent ≠ some q) : t.Leads q := by
  intro y hy hlt
  by_cases hyi : (t.get y).role = .internal
  · obtain ⟨a, b, ha, hb, _, haa, hba, hap, hbp⟩ := w.children hq hi
    obtain ⟨a', b', ha', hb', _, haa', hba', hap', hbp'⟩ := w.children hy hyi
    have hyq : y ≠ q := by rintro rfl; omega
    have short := sums q a b hq ha hb
    have exact' := sums y a' b' hy ha' hb'
    have da : d ≠ some a := fun h => hd a h hap
    have db : d ≠ some b := fun h => hd b h hbp
    simp only [Tree.weightWith, if_neg da, if_neg db, if_true] at short
    simp only [Tree.weightWith, if_neg hyq] at exact'
    have wa := s.weights a' a haa' haa (parents.child_lt haa' haa hap' hap hlt).le
    have wb := s.weights b' b hba' hba (parents.child_lt hba' hba hbp' hbp hlt).le
    omega
  · refine lt_of_le_of_ne (s.weights y q hy hq hlt.le) fun h => ?_
    have := order q y hq hy h hi hyi
    omega

/-! ### The climb -/

/-- The leaf whose increment is deferred (R193): it stands beside the Escape node, and every other node weighs more, the
cursor once it has its increment. -/
structure Tree.Deferred (t : Tree) (q x : Handle) : Prop where
  has : t.has x
  leaf : (t.get x).role.isLeaf = true
  rank : (t.get x).rank + 1 = t.nodeCount.val
  lightest : ∀ y, t.has y → y ≠ x → y ≠ t.esc → (t.get x).weight < (t.get y).weight + if y = q then 1 else 0

/-- The tree and the cursor of a Vitter climb after its first Leaf (R194): R41 to R43, the order of the parents, and the
sums but at the cursor, an Internal node that leads its weight. -/
structure Tree.VitterCursor (t : Tree) (q : Handle) (d : Option Handle) : Prop where
  wf : t.WellFormed
  siblings : t.SiblingProperty
  sums : t.SumsAt q d
  order : t.BlockOrder
  parents : t.ParentsInOrder
  counted : ∀ h, t.has h → h ≠ t.esc → d ≠ some h → (t.get h).role ≠ .internal → 1 ≤ (t.get h).weight
  has : t.has q
  internal : (t.get q).role = .internal
  leads : t.Leads q
  deferred : ∀ x, d = some x → t.Deferred q x

theorem inBlock_of_internal {t : Tree} {x p : Handle} {w : Nat} (hp : (t.get p).role = .internal) :
    inBlock t x p w = true ↔ (t.get x).role.isLeaf = true ∧ (t.get x).weight = w + 1 := by
  simp [inBlock, hp]

theorem inBlock_of_childless {t : Tree} {x p : Handle} {w : Nat} (hp : (t.get p).role ≠ .internal) :
    inBlock t x p w = true ↔ (t.get x).role = .internal ∧ (t.get x).weight = w := by
  simp [inBlock, hp]

/-- The place of a node in a slide: it is the slid node, in the block, or apart from both. -/
theorem Tree.Slid.place {t u : Tree} {p : Handle} {top : Nat} {σ : Equiv.Perm Handle} (s : t.Slid u p top σ)
    (w : t.WellFormed) (hp : t.has p) {h : Handle} (hh : t.has h) :
    (h = p ∧ (u.get h).rank = top) ∨
    (h ≠ p ∧ top ≤ (t.get h).rank ∧ (t.get h).rank < (t.get p).rank ∧ (u.get h).rank = (t.get h).rank + 1 ∧
      inBlock t h p (t.get p).weight = true) ∨
    (h ≠ p ∧ (u.get h).rank = (t.get h).rank ∧ ((t.get h).rank < top ∨ (t.get p).rank < (t.get h).rank)) := by
  obtain ⟨rankP, rankBlock, rankRest⟩ := s.slid.ranks w hp (by have := s.two_le; omega) s.le
  by_cases hhp : h = p
  · subst hhp; exact .inl ⟨rfl, rankP⟩
  · have hne : (t.get h).rank ≠ (t.get p).rank := fun e => hhp (w.ranks.inj h p hh hp e)
    by_cases hb : top ≤ (t.get h).rank ∧ (t.get h).rank < (t.get p).rank
    · exact .inr (.inl ⟨hhp, hb.1, hb.2, rankBlock h hh hb.1 hb.2, s.block h hh hb.1 hb.2⟩)
    · have hr : (t.get h).rank < top ∨ (t.get p).rank < (t.get h).rank := by omega
      exact .inr (.inr ⟨hhp, rankRest h hh hr, hr⟩)

/-- The occupants after a slide: the top position holds the slid node, every position behind it up to the slid node's old
one holds the node from before it, and the others are as they were. -/
theorem Tree.Slid.occupant {t u : Tree} {p : Handle} {top : Nat} {σ : Equiv.Perm Handle} (s : t.Slid u p top σ)
    (w : t.WellFormed) (hp : t.has p) {h : Handle} (hh : t.has h) :
    ((t.get h).rank = top ∧ σ h = p) ∨
    (top < (t.get h).rank ∧ (t.get h).rank ≤ (t.get p).rank ∧ ∃ y, t.has y ∧ σ h = y ∧ y ≠ p ∧
      (t.get y).rank + 1 = (t.get h).rank ∧ inBlock t y p (t.get p).weight = true) ∨
    (((t.get h).rank < top ∨ (t.get p).rank < (t.get h).rank) ∧ h ≠ p ∧ σ h = h) := by
  have h1 := s.two_le
  have h2 := s.le
  have hn := (w.ranks.range p hp).2
  rcases Nat.lt_trichotomy (t.get h).rank top with hlt | heq | hgt
  · exact .inr (.inr ⟨.inl hlt, by rintro rfl; omega, s.slid.rest h hh (.inl hlt)⟩)
  · exact .inl ⟨heq, s.slid.front h hh heq⟩
  · by_cases hle : (t.get h).rank ≤ (t.get p).rank
    · obtain ⟨y, hy, hr⟩ := w.ranks.onto ((t.get h).rank - 1) (by omega) (by omega)
      exact .inr (.inl ⟨hgt, hle, y, hy, s.slid.back y h hy hh (by omega) (by omega) (by omega), by rintro rfl; omega,
        by omega, s.block y hy (by omega) (by omega)⟩)
    · exact .inr (.inr ⟨.inr (by omega), by rintro rfl; omega, s.slid.rest h hh (.inr (by omega))⟩)

theorem Tree.Slid.rootWeight {t u : Tree} {p : Handle} {top : Nat} {σ : Equiv.Perm Handle} (s : t.Slid u p top σ)
    (hp : p ≠ root) : u.rootWeight = t.rootWeight := by
  rw [Tree.rootWeight, s.own, if_neg hp.symm]; rfl

/-- Rank order of weights, as the converse of R42. -/
theorem Tree.SiblingProperty.rank_lt_of_weight_lt {t : Tree} (s : t.SiblingProperty) {x y : Handle} (hx : t.has x)
    (hy : t.has y) (h : (t.get x).weight < (t.get y).weight) : (t.get y).rank < (t.get x).rank := by
  by_contra hle
  have := s.weights x y hx hy (by omega)
  omega

section
variable {t u : Tree} {q : Handle} {d : Option Handle} {top : Nat} {σ : Equiv.Perm Handle}

theorem Tree.VitterCursor.ne_esc (c : t.VitterCursor q d) : q ≠ t.esc := by
  rintro rfl
  have := c.internal
  rw [c.wf.escape.role] at this
  cases this

/-- An Internal cursor slides past Leaves, which have no children. -/
theorem Tree.VitterCursor.clear (c : t.VitterCursor q d) (x : Handle) (hb : inBlock t x q (t.get q).weight = true)
    (y : Handle) (hy : t.has y) (hyx : (t.get y).parent = some x) : (t.get q).rank < (t.get y).rank := by
  have hi := (c.wf.parentsInternal y x hy hyx).2
  rw [inBlock_of_internal c.internal, hi] at hb
  cases hb.1

/-- An Internal node other than the cursor keeps its rank when the cursor slides. -/
theorem Tree.VitterCursor.internal_rank (c : t.VitterCursor q d) (s : t.Slid u q top σ) {y : Handle} (hy : t.has y)
    (hi : (t.get y).role = .internal) (hne : y ≠ q) :
    (u.get y).rank = (t.get y).rank ∧ ((t.get y).rank < top ∨ (t.get q).rank < (t.get y).rank) := by
  obtain ⟨h, _⟩ | ⟨_, _, _, _, hb⟩ | ⟨_, hr, hplace⟩ := s.place c.wf c.has hy
  · exact absurd h hne
  · rw [inBlock_of_internal c.internal, hi] at hb
    cases hb.1
  · exact ⟨hr, hplace⟩

/-- When the cursor has slid and gained one, the position it came from holds one more than before, and no other does. -/
theorem Tree.VitterCursor.raised (c : t.VitterCursor q d) (s : t.Slid u q top σ) : t.Raised u σ q := by
  intro h hh
  have member (y : Handle) (hb : inBlock t y q (t.get q).weight = true) : (t.get y).weight = (t.get q).weight + 1 :=
    ((inBlock_of_internal c.internal).1 hb).2
  have h2 := s.le
  obtain ⟨hr, hσ⟩ | ⟨hgt, hle, y, hy, hσ, hyq, hyr, hb⟩ | ⟨hr, hhq, hσ⟩ := s.occupant c.wf c.has hh
  · rw [hσ, s.own, if_pos rfl]
    by_cases hhq : h = q
    · rw [if_pos hhq, hhq]
    · have hne : (t.get h).rank ≠ (t.get q).rank := fun e => hhq (c.wf.ranks.inj h q hh c.has e)
      rw [if_neg hhq, member h (s.block h hh (by omega) (by omega))]
  · rw [hσ, s.own, if_neg hyq, member y hb]
    by_cases hhq : h = q
    · rw [if_pos hhq, hhq]
    · have hne : (t.get h).rank ≠ (t.get q).rank := fun e => hhq (c.wf.ranks.inj h q hh c.has e)
      rw [if_neg hhq, member h (s.block h hh (by omega) (by omega))]
  · rw [hσ, s.own]

/-- A Leaf of the weight the cursor gains stands at the block's top or behind it. -/
theorem Tree.VitterCursor.top_le (c : t.VitterCursor q d) (s : t.Slid u q top σ) {h : Handle} (hh : t.has h)
    (hi : (t.get h).role ≠ .internal) (hw : (t.get h).weight = (t.get q).weight + 1) : top ≤ (t.get h).rank := by
  have w := c.wf
  have h1 := s.two_le
  have h2 := s.le
  by_contra hlt
  by_cases h3 : top = 2
  · have hroot : h = root := w.ranks.inj h root hh w.root_has (by
      have := w.ranks.root
      have := (w.ranks.range h hh).1
      omega)
    subst hroot
    have := w.root_not_leaf
    cases hr : (t.get root).role with
    | internal => exact hi hr
    | leaf y => rw [hr] at this; cases this
    | escape =>
      have := w.escape.unique root hh hr
      have hz := w.escape.weight
      rw [← this] at hz
      omega
  · obtain ⟨z, hz, hzr⟩ := w.ranks.onto (top - 1) (by omega) (by have := (w.ranks.range q c.has).2; omega)
    have out := s.stop z hz (by omega) (by omega)
    have heavier := c.leads z hz (by omega)
    have lighter := c.siblings.weights h z hh hz (by omega)
    have hzw : (t.get z).weight = (t.get q).weight + 1 := by omega
    have hzi : (t.get z).role = .internal := by
      cases hr : (t.get z).role with
      | internal => rfl
      | leaf y =>
        rw [Bool.eq_false_iff] at out
        exact absurd ((inBlock_of_internal c.internal).2 ⟨by rw [hr]; rfl, hzw⟩) out
      | escape =>
        have hze := w.escape.unique z hz hr
        have hz0 := w.escape.weight
        rw [← hze] at hz0
        omega
    have := c.order z h hz hh (hzw.trans hw.symm) hzi hi
    omega

/-- The block order after the cursor's slide and increment (R43). -/
theorem Tree.VitterCursor.order_slid (c : t.VitterCursor q d) (s : t.Slid u q top σ) : u.BlockOrder := by
  intro p h hp hh hw hi hn
  have m := s.slid.moved
  rw [m.shape.has_iff] at hp hh
  rw [m.shape.role] at hi hn
  have hhq : h ≠ q := by rintro rfl; exact hn c.internal
  rw [s.own, s.own, if_neg hhq] at hw
  by_cases hpq : p = q
  · subst hpq
    rw [if_pos rfl] at hw
    have htop := c.top_le s hh hn hw.symm
    obtain ⟨_, hpr⟩ | ⟨h', _⟩ | ⟨h', _⟩ := s.place c.wf c.has hp
    · obtain ⟨h', _⟩ | ⟨_, _, _, hr, _⟩ | ⟨_, hr, hplace⟩ := s.place c.wf c.has hh
      · exact absurd h' hhq
      · omega
      · have : ¬ (t.get p).rank < (t.get h).rank := fun h' => by
          have := c.siblings.weights p h hp hh h'.le
          omega
        omega
    · exact absurd rfl h'
    · exact absurd rfl h'
  · rw [if_neg hpq] at hw
    have before := c.order p h hp hh hw hi hn
    rw [(c.internal_rank s hp hi hpq).1]
    obtain ⟨h', _⟩ | ⟨_, _, _, hr, _⟩ | ⟨_, hr, _⟩ := s.place c.wf c.has hh
    · exact absurd h' hhq
    · omega
    · omega

/-- The order of the parents after the cursor's slide: it passes no Internal node (log 10). -/
theorem Tree.VitterCursor.parents_slid (c : t.VitterCursor q d) (s : t.Slid u q top σ) : u.ParentsInOrder := by
  intro h h' p p' hh hh' hp hp' hr
  have w := c.wf
  have m := s.slid.moved
  obtain ⟨x, rfl⟩ := σ.surjective h
  obtain ⟨y, rfl⟩ := σ.surjective h'
  rw [m.shape.has_iff, m.has] at hh hh'
  rw [m.parent] at hp hp'
  rw [m.rank, m.rank] at hr
  have before := c.parents x y p p' hh hh' hp hp' hr
  obtain ⟨hpa, hpi⟩ := w.parentsInternal x p hh hp
  obtain ⟨hpa', hpi'⟩ := w.parentsInternal y p' hh' hp'
  obtain ⟨rankQ, _, _⟩ := s.slid.ranks w c.has (by have := s.two_le; omega) s.le
  have hle := s.le
  by_cases hpq : p = q
  · subst hpq
    by_cases hpq' : p' = p
    · rw [hpq']
    · rw [(c.internal_rank s hpa' hpi' hpq').1]; omega
  · obtain ⟨hpr, hplace⟩ := c.internal_rank s hpa hpi hpq
    by_cases hpq' : p' = q
    · subst hpq'
      omega
    · rw [hpr, (c.internal_rank s hpa' hpi' hpq').1]
      exact before

/-- Where a deferred leaf stands beside the Escape node, the node that is one short next is not their parent. -/
theorem Tree.Deferred.parent_ne {x y p : Handle} (e : t.Deferred q x) (w : t.WellFormed) (s : t.SiblingProperty)
    (hy : t.has y) (hyp : (t.get y).parent = some p) (hyr : (t.get y).rank + 2 ≤ t.nodeCount.val) :
    (t.get x).parent ≠ some p := by
  have hn : 1 < t.nodeCount.val := by have := (w.ranks.range y hy).1; omega
  obtain ⟨z, p', hz, hzr, hzp, hep, hcz, hce⟩ := s.escape_sibling w hn
  intro hxp
  have hxz : x = z := w.ranks.inj x z e.has hz (by have := e.rank; omega)
  subst hxz
  cases hxp.symm.trans hzp
  obtain rfl | rfl := w.eq_child hcz hce hy hyp
  · omega
  · have := w.escape.rank; omega

/-- One round of the climb keeps its invariant, at a cursor of lower rank (R194, R197, R201). -/
theorem Tree.VitterCursor.level (c : t.VitterCursor q d) (hq : q ≠ root) {wmax : Nat} (hw : t.rootWeight < wmax) :
    ∃ u p, slideAndIncrement wmax t q = .ok (u, some p) ∧ u.VitterCursor p d ∧ u.rootWeight = t.rootWeight ∧
      (u.get p).rank < (t.get q).rank := by
  have w := c.wf
  obtain ⟨p, hp⟩ := Option.ne_none_iff_exists'.mp (mt (w.links.rootParent q c.has).1 hq)
  obtain ⟨hpa, hslot⟩ := w.linked.up q p c.has hp
  obtain ⟨_, hpi⟩ := w.parentsInternal q p c.has hp
  have hpr := c.siblings.parents q p c.has hp
  have hpq : p ≠ q := by rintro rfl; omega
  obtain ⟨u, top, σ, s, e⟩ := slideAndIncrement_slid (wmax := wmax) w c.siblings.parents c.has c.ne_esc hq
    ((c.siblings.weight_le_root w c.has).trans_lt hw) fun x _ _ hb y hy hyx => c.clear x hb y hy hyx
  rw [if_pos c.internal, hp] at e
  have m := s.slid.moved
  have raised := c.raised s
  obtain ⟨rankP, hplace⟩ := c.internal_rank s hpa hpi hpq
  have hlast : (t.get q).rank + 2 ≤ t.nodeCount.val := by
    by_contra h
    exact c.siblings.childless_of_last w c.has (by omega) c.internal
  have stays (x : Handle) (e : t.Deferred q x) : σ x = x := s.slid.rest x e.has (.inr (by have := e.rank; omega))
  have siblings : u.SiblingProperty := m.siblings w c.siblings s.first raised c.has c.leads
  have sums : u.SumsAt p d := m.sumsAt w.localLinks c.sums raised s.own hpa hslot fun x hx => stays x (c.deferred x hx)
  have order := c.order_slid s
  have parents := c.parents_slid s
  have hua : u.has p := (m.shape.has_iff p).2 hpa
  have hui : (u.get p).role = .internal := (m.shape.role p).trans hpi
  refine ⟨u, p, e, ?_, s.rootWeight hq, by omega⟩
  refine
    { wf := s.wf, siblings := siblings, sums := sums, order := order, parents := parents, has := hua, internal := hui
      counted := fun h hh hne hd hi => ?_
      leads := Tree.leads_of_short s.wf siblings sums order parents hua hui fun x hx => ?_
      deferred := fun x hx => ?_ }
  · rw [m.shape.has_iff] at hh
    rw [m.shape.esc] at hne
    rw [m.shape.role] at hi
    rw [s.own]
    exact (c.counted h hh hne hd hi).trans (Nat.le_add_right _ _)
  · have hpar := m.parent x
    rw [stays x (c.deferred x hx)] at hpar
    rw [hpar]
    exact (c.deferred x hx).parent_ne w c.siblings c.has hp hlast
  · have e := c.deferred x hx
    have hrank := m.rank x
    rw [stays x e] at hrank
    refine ⟨(m.shape.has_iff x).2 e.has, by rw [m.shape.role]; exact e.leaf, by rw [hrank, m.shape.nodeCount]; exact e.rank,
      fun y hy hyx hye => ?_⟩
    have hxq : x ≠ q := by rintro rfl; have := e.rank; omega
    rw [m.shape.has_iff] at hy
    rw [m.shape.esc] at hye
    rw [s.own, s.own, if_neg hxq]
    have := e.lightest y hy hyx hye
    omega

/-- The climb completes at the root: the rank of the cursor falls with each round (R194, R201). -/
theorem Tree.VitterCursor.climb {t : Tree} {q : Handle} {d : Option Handle} (c : t.VitterCursor q d) {wmax fuel : Nat}
    (hw : t.rootWeight < wmax) (hf : (t.get q).rank ≤ fuel) :
    ∃ u, vitterClimb wmax fuel t q = .ok u ∧ u.VitterCursor root d ∧ u.rootWeight = t.rootWeight := by
  induction fuel generalizing t q with
  | zero =>
    have := (c.wf.ranks.range q c.has).1
    omega
  | succ fuel ih =>
    by_cases hq : q = root
    · subst hq
      exact ⟨t, vitterClimb_root _ _ _, c, rfl⟩
    · obtain ⟨u, p, e, c', hroot, hr⟩ := c.level hq hw
      obtain ⟨v, e', c'', hroot'⟩ := ih c' (by rwa [hroot]) (by omega)
      refine ⟨v, ?_, c'', hroot'.trans hroot⟩
      rw [vitterClimb, if_neg hq]
      exact except_bind_ok.2 ⟨(u, some p), e, except_bind_ok.2 ⟨p, rfl, e'⟩⟩

end

end Sys2Proof.Machine
end

section
/-! The Vitter update from its start to its end (spec/43_vitter_update.md R190 to R196): the first Leaf's own slide, the
deferred leaf's increment, and that every coding tree leads to one again. -/

namespace Sys2Proof.Machine

/-! ### Nodes that stay in place -/

theorem Tree.ParentsInOrder.of_moved {t u : Tree} (o : t.ParentsInOrder) (m : t.Moved u 1) : u.ParentsInOrder := by
  intro h h' p p' hh hh' hp hp' hr
  have rank (y) : (u.get y).rank = (t.get y).rank := m.rank y
  have parent (y) : (u.get y).parent = (t.get y).parent := m.parent y
  rw [m.shape.has_iff] at hh hh'
  rw [parent] at hp hp'
  rw [rank, rank] at hr ⊢
  exact o h h' p p' hh hh' hp hp' hr

/-- A node before which no node is in its block is incremented in place (R197). -/
theorem slideAndIncrement_in_place {wmax : Nat} {t : Tree} {p : Handle} (w : t.WellFormed) (hp : t.has p)
    (hpr : p ≠ root) (hw : (t.get p).weight ≠ wmax)
    (out : ∀ x, t.has x → (t.get x).rank < (t.get p).rank → inBlock t x p (t.get p).weight = false) :
    ∃ u q, incWeight wmax t p = .ok u ∧ slideAndIncrement wmax t p = .ok (u, q) := by
  have hrange := w.ranks.range p hp
  have hrank : (t.get p).rank ≠ 1 := fun h => hpr (w.ranks.inj p root hp w.root_has (h.trans w.ranks.root.symm))
  obtain ⟨top, e, _, hle, block, _⟩ := w.blockTop_ok p (t.get p).weight (by omega) hrange.2
  have hlt : ¬ top < (t.get p).rank := by
    intro hlt
    obtain ⟨x, hx, hxr⟩ := w.ranks.onto top (by omega) (by omega)
    have := out x hx (by omega)
    rw [block x hx (by omega) (by omega)] at this
    cases this
  obtain ⟨u, e'⟩ := incWeight_of_ne hw
  refine ⟨u, if (t.get p).role = .internal then (t.get p).parent else (u.get p).parent, e',
    except_bind_ok.2 ⟨top, e, ?_⟩⟩
  dsimp only
  rw [if_neg hlt]
  exact except_bind_ok.2 ⟨t, rfl, except_bind_ok.2 ⟨u, e', rfl⟩⟩

/-! ### The tree a Vitter update starts from -/

/-- What the Vitter update starts from: besides R41, R42 and the sums the two orders, and the Leaf leads the childless
nodes of its weight (R191, R192). -/
structure Tree.VitterStarting (t : Tree) (x : Handle) : Prop where
  starting : t.Starting x
  order : t.BlockOrder
  parents : t.ParentsInOrder
  leading : ∀ y, t.has y → (t.get y).role ≠ .internal → (t.get y).weight = (t.get x).weight →
    (t.get x).rank ≤ (t.get y).rank

/-- A childless node before the Leaf weighs more. -/
theorem Tree.VitterStarting.leaf_heavier {t : Tree} {x : Handle} (s : t.VitterStarting x) {y : Handle} (hy : t.has y)
    (hi : (t.get y).role ≠ .internal) (hr : (t.get y).rank < (t.get x).rank) : (t.get x).weight < (t.get y).weight := by
  refine lt_of_le_of_ne (s.starting.siblings.weights y x hy s.starting.has hr.le) fun h => ?_
  have := s.leading y hy hi h.symm
  omega

/-- An exchange of two childless nodes of one weight keeps a Vitter coding tree one. -/
theorem Tree.Coding.swap_leaves {t u : Tree} (c : t.Coding .vitter) {a b : Handle}
    (hia : (t.get a).role ≠ .internal) (hib : (t.get b).role ≠ .internal)
    (hw : (t.get a).weight = (t.get b).weight) (m : t.Moved u (Equiv.swap a b)) (wf : u.WellFormed)
    (o : u.ParentsFirst) (weight : ∀ h, (u.get h).weight = (t.get h).weight) : u.Coding .vitter := by
  have w := c.wf
  have cases_swap (h : Handle) : (h = a ∨ h = b) ∨ Equiv.swap a b h = h := by
    by_cases ha : h = a
    · exact .inl (.inl ha)
    · by_cases hb : h = b
      · exact .inl (.inr hb)
      · exact .inr (Equiv.swap_apply_of_ne_of_ne ha hb)
  have placed (h : Handle) : (u.get (Equiv.swap a b h)).weight = (t.get h).weight := by
    rw [weight]
    obtain (rfl | rfl) | hs := cases_swap h
    · rw [Equiv.swap_apply_left, hw]
    · rw [Equiv.swap_apply_right, hw]
    · rw [hs]
  have childless (h : Handle) : (t.get (Equiv.swap a b h)).role ≠ .internal → (t.get h).role ≠ .internal := by
    obtain (rfl | rfl) | hs := cases_swap h
    · exact fun _ => hia
    · exact fun _ => hib
    · rw [hs]; exact id
  have internal (p : Handle) (hp : (t.get p).role = .internal) : (u.get p).rank = (t.get p).rank := by
    have hr := m.rank p
    rwa [Equiv.swap_apply_of_ne_of_ne (by rintro rfl; exact hia hp) (by rintro rfl; exact hib hp)] at hr
  refine
    { wf := wf
      siblings := m.siblings_of_sorted c.siblings o fun x y hx hy hr => ?_
      sums := ⟨fun p x y hp hx hy => ?_, fun h hh hne hi => ?_⟩
      fgk := nofun
      vitterOrder := fun _ p h hp hh hw' hi hn => ?_
      vitterParents := fun _ h h' p p' hh hh' hp hp' hr => ?_ }
  · rw [placed, placed]
    exact c.siblings.weights x y hx hy hr
  · rw [m.shape.has_iff] at hp
    have hx' := m.child p false hp
    have hy' := m.child p true hp
    rw [show u.child p false = some x from hx, eq_comm, Option.map_eq_some_iff] at hx'
    rw [show u.child p true = some y from hy, eq_comm, Option.map_eq_some_iff] at hy'
    obtain ⟨x, hx', rfl⟩ := hx'
    obtain ⟨y, hy', rfl⟩ := hy'
    rw [placed, placed, weight]
    exact c.sums.sum p x y hp hx' hy'
  · rw [m.shape.has_iff] at hh
    rw [m.shape.esc] at hne
    rw [m.shape.role] at hi
    rw [weight]
    exact c.sums.counted h hh hne hi
  · obtain ⟨y, rfl⟩ := (Equiv.swap a b).surjective h
    rw [m.shape.has_iff] at hp
    rw [m.shape.has_iff, m.has] at hh
    rw [m.shape.role] at hi hn
    rw [weight, placed] at hw'
    rw [internal p hi, m.rank]
    exact c.vitterOrder rfl p y hp hh hw' hi (childless y hn)
  · obtain ⟨x, rfl⟩ := (Equiv.swap a b).surjective h
    obtain ⟨y, rfl⟩ := (Equiv.swap a b).surjective h'
    rw [m.shape.has_iff, m.has] at hh hh'
    rw [m.parent] at hp hp'
    rw [m.rank, m.rank] at hr
    rw [internal p (w.parentsInternal x p hh hp).2, internal p' (w.parentsInternal y p' hh' hp').2]
    exact c.vitterParents rfl x y p p' hh hh' hp hp' hr

/-- A repeated symbol: `promote` brings its Leaf to the front of the childless nodes of its weight (R192). -/
theorem Tree.Coding.promote_starting {t : Tree} (c : t.Coding .vitter) {x : Handle} {sym : Symbol} (hx : t.has x)
    (hr : (t.get x).role = .leaf sym) :
    ∃ u, promote t x true = .ok u ∧ u.VitterStarting x ∧ u.rootWeight = t.rootWeight := by
  have w := c.wf
  have hi : (t.get x).role ≠ .internal := by rw [hr]; nofun
  have hxe : x ≠ t.esc := by rintro rfl; rw [w.escape.role] at hr; cases hr
  obtain ⟨leader, hl⟩ := lowestRank_of_candidate hx (Node.candidate_leaf hr true)
  obtain ⟨hla, hlw, hli, hle, hmin⟩ := lowestRank_leaf_ok hx hr hl
  by_cases hlx : leader = x
  · subst hlx
    exact ⟨t, except_bind_ok.2 ⟨leader, hl, if_pos rfl⟩,
      ⟨c.starting hx hr, c.vitterOrder rfl, c.vitterParents rfl, hmin⟩, rfl⟩
  · have hlt : (t.get leader).rank < (t.get x).rank := lt_of_le_of_ne hle fun h => hlx (w.ranks.inj _ _ hla hx h)
    have hlr : leader ≠ root := by
      rintro rfl
      have hroot := w.root_not_leaf
      cases h : (t.get root).role with
      | internal => exact hli h
      | leaf y => rw [h] at hroot; cases hroot
      | escape => exact w.ne_esc_of_rank_lt hx hlt (w.escape.unique root w.root_has h)
    obtain ⟨u, e, w1, m, o⟩ := swapPositions_forward w c.siblings.parents hx hla hxe hlr hlt
      fun d hd hdp => absurd (w.parentsInternal d leader hd hdp).2 hli
    have weight := swapPositions_weight e
    have c1 := c.swap_leaves hi hli hlw.symm m w1 o weight
    refine ⟨u, except_bind_ok.2 ⟨leader, hl, (if_neg hlx).trans e⟩,
      ⟨c1.starting ((m.shape.has_iff x).2 hx) ((m.shape.role x).trans hr), c1.vitterOrder rfl, c1.vitterParents rfl,
        fun y hy hyi hyw => ?_⟩, weight root⟩
    obtain ⟨rankX, rankLeader, rankOther⟩ := m.rank_swap
    rw [m.shape.has_iff] at hy
    rw [m.shape.role] at hyi
    rw [weight, weight] at hyw
    rw [rankX]
    by_cases hyx : y = x
    · rw [hyx, rankX]
    · by_cases hyl : y = leader
      · rw [hyl, rankLeader]; exact hle
      · rw [rankOther y hyx hyl]; exact hmin y hy hyi hyw

/-- A first occurrence: the new Leaf and the new Escape node weigh nothing and are last in rank (R145, R191). -/
theorem Tree.Coding.introduce_vitterStarting {t : Tree} (c : t.Coding .vitter) {sym : Symbol} {r : Tree × Handle}
    (e : introduce t sym = .ok r) : r.1.VitterStarting r.2 := by
  have w := c.wf
  have hesc := w.escape.allocated
  -- an old node: what it is after `introduce`
  have old {y : Handle} (hy : t.has y) (hi : (r.1.get y).role ≠ .internal) :
      (t.get y).role ≠ .internal ∧ 1 ≤ (t.get y).weight := by
    have hye : y ≠ t.esc := by
      rintro rfl
      exact hi (by rw [introduce_get_split e hesc])
    rw [introduce_get_old e hy hye] at hi
    exact ⟨hi, c.sums.counted y hy hye hi⟩
  refine ⟨c.introduce_starting e, fun p h hp hh hw hi hn => ?_, fun h h' p p' hh hh' hp hp' hr => ?_,
    fun y hy hi hw => ?_⟩
  · obtain hpo : t.has p := by
      obtain rfl | rfl | rfl | ⟨h, _⟩ := introduce_has_cases e hp
      · rw [introduce_get_escape e] at hi; cases hi
      · rw [introduce_get_leaf e hesc] at hi; cases hi
      · exact hesc
      · exact h
    rw [introduce_rank_old w e hpo]
    rw [introduce_weight_old w e hpo] at hw
    obtain hho | ⟨_, hlast, _⟩ := introduce_old_or_new w e hh
    · obtain ⟨hnt, h1⟩ := old hho hn
      rw [introduce_weight_old w e hho] at hw
      have hpe : p ≠ t.esc := by rintro rfl; rw [w.escape.weight] at hw; omega
      rw [introduce_get_old e hpo hpe] at hi
      rw [introduce_rank_old w e hho]
      exact c.vitterOrder rfl p h hpo hho hw hi hnt
    · exact (w.ranks.range p hpo).2.trans_lt hlast
  · obtain hho | ⟨_, hlast, _⟩ := introduce_old_or_new w e hh
    · rw [introduce_parent_old w e hho] at hp
      have hpa := (w.linked.up h p hho hp).1
      rw [introduce_rank_old w e hpa]
      obtain hho' | ⟨_, _, hpar⟩ := introduce_old_or_new w e hh'
      · rw [introduce_parent_old w e hho'] at hp'
        rw [introduce_rank_old w e (w.linked.up h' p' hho' hp').1]
        rw [introduce_rank_old w e hho, introduce_rank_old w e hho'] at hr
        exact c.vitterParents rfl h h' p p' hho hho' hp hp' hr
      · cases hpar.symm.trans hp'
        rw [introduce_rank_old w e hesc, w.escape.rank]
        exact (w.ranks.range p hpa).2
    · obtain hho' | ⟨_, _, hpar'⟩ := introduce_old_or_new w e hh'
      · rw [introduce_rank_old w e hho'] at hr
        have := (w.ranks.range h' hho').2
        omega
      · obtain hho | ⟨_, _, hpar⟩ := introduce_old_or_new w e hh
        · have := (w.ranks.range h hho).2
          rw [introduce_rank_old w e hho] at hlast
          omega
        · cases hpar.symm.trans hp
          cases hpar'.symm.trans hp'
          exact le_rfl
  · rw [introduce_get_leaf e hesc] at hw ⊢
    obtain hyo | ⟨_, hlast, _⟩ := introduce_old_or_new w e hy
    · have := (old hyo hi).2
      rw [introduce_weight_old w e hyo] at hw
      simp only at hw
      omega
    · exact hlast

/-! ### The first Leaf's own slide -/

section
variable {t u : Tree} {x : Handle} {top : Nat} {σ : Equiv.Perm Handle}

/-- A Leaf that is not the Escape node's sibling stands before the last two ranks. -/
theorem Tree.Starting.rank_lt (s : t.Starting x) (hs : sibling t x ≠ some t.esc) :
    (t.get x).rank + 1 < t.nodeCount.val := by
  have w := s.wf
  have h1 : (t.get x).rank + 1 ≠ t.nodeCount.val := fun h => hs ((w.sibling_escape s.siblings s.one_lt s.has).2 h)
  have h2 : (t.get x).rank ≠ t.nodeCount.val := fun h =>
    s.ne_esc (w.ranks.inj x t.esc s.has w.escape.allocated (h.trans w.escape.rank.symm))
  have := (w.ranks.range x s.has).2
  omega

/-- Away from the Escape node every Leaf was counted. -/
theorem Tree.Starting.all_counted (s : t.Starting x) (hs : sibling t x ≠ some t.esc) (h : Handle) (hh : t.has h)
    (hne : h ≠ t.esc) (hi : (t.get h).role ≠ .internal) : 1 ≤ (t.get h).weight := by
  by_cases hhx : h = x
  · rw [hhx]; exact s.counted hs
  · exact s.positive h hh hne hhx fun hpar => hi (s.wf.parentsInternal t.esc h s.wf.escape.allocated hpar).2

/-- A child of a node of the Leaf's weight stands behind the Leaf: the Escape node and its sibling are last, and any other
pair of children weigh at least one each. -/
theorem Tree.Starting.child_behind (s : t.Starting x) (hs : sibling t x ≠ some t.esc) {y c : Handle} (hy : t.has y)
    (hw : (t.get y).weight = (t.get x).weight) (hc : t.has c) (hcy : (t.get c).parent = some y) :
    (t.get x).rank < (t.get c).rank := by
  have w := s.wf
  have hlast := s.rank_lt hs
  obtain ⟨z, p, hz, hzr, hzp, hep, hcz, hce⟩ := s.siblings.escape_sibling w s.one_lt
  have hi := (w.parentsInternal c y hc hcy).2
  by_cases hyp : y = p
  · subst hyp
    obtain rfl | rfl := w.eq_child hcz hce hc hcy
    · omega
    · rw [w.escape.rank]; omega
  · obtain ⟨a, b, ha, hb, _, haa, hba, hap, hbp⟩ := w.children hy hi
    have sum := s.sums.sum hy ha hb (by rintro rfl; exact s.not_internal hi)
    have positive (d : Handle) (hd : t.has d) (hdy : (t.get d).parent = some y) : 1 ≤ (t.get d).weight :=
      s.siblings.positive w (s.all_counted hs) hd fun h => hyp (Option.some.inj (hdy.symm.trans (h ▸ hep)))
    have ha1 := positive a haa hap
    have hb1 := positive b hba hbp
    refine s.siblings.rank_lt_of_weight_lt hc s.has ?_
    obtain rfl | rfl := w.eq_child ha hb hc hcy <;> omega

/-- The root weighs more than a Leaf that is not the Escape node's sibling. -/
theorem Tree.Starting.root_heavier (s : t.Starting x) (hs : sibling t x ≠ some t.esc) :
    (t.get x).weight < (t.get root).weight := by
  have w := s.wf
  refine lt_of_le_of_ne (s.siblings.weight_le_root w s.has) fun h => ?_
  obtain ⟨p, hp⟩ := Option.ne_none_iff_exists'.mp (mt (w.links.rootParent x s.has).1 s.ne_root)
  have hpa := (w.linked.up x p s.has hp).1
  have h1 := s.siblings.weights p x hpa s.has (s.siblings.parents x p s.has hp).le
  have h2 := s.siblings.weight_le_root w hpa
  rw [Tree.rootWeight] at h2
  exact lt_irrefl _ (s.child_behind hs hpa (by omega) s.has hp)

/-- The block a Leaf slides past: Internal nodes of its weight (R198). -/
theorem Tree.VitterStarting.member (s : t.VitterStarting x) {y : Handle}
    (hb : inBlock t y x (t.get x).weight = true) : (t.get y).role = .internal ∧ (t.get y).weight = (t.get x).weight :=
  (inBlock_of_childless s.starting.not_internal).1 hb

/-- Before the block every node weighs more than the Leaf. -/
theorem Tree.VitterStarting.before (s : t.VitterStarting x) (hs : sibling t x ≠ some t.esc) (l : t.Slid u x top σ)
    {y : Handle} (hy : t.has y) (hr : (t.get y).rank < top) : (t.get x).weight < (t.get y).weight := by
  have w := s.starting.wf
  have h1 := l.two_le
  have h2 := l.le
  have hroot := s.starting.root_heavier hs
  obtain ⟨z, hz, hzr⟩ := w.ranks.onto (top - 1) (by omega) (by have := (w.ranks.range x s.starting.has).2; omega)
  have heavier : (t.get x).weight < (t.get z).weight := by
    by_cases hz2 : 2 ≤ (t.get z).rank
    · have out := l.stop z hz (by omega) hz2
      by_cases hi : (t.get z).role = .internal
      · refine lt_of_le_of_ne (s.starting.siblings.weights z x hz s.starting.has (by omega)) fun h => ?_
        rw [(inBlock_of_childless s.starting.not_internal).2 ⟨hi, h.symm⟩] at out
        cases out
      · exact s.leaf_heavier hz hi (by omega)
    · have := w.ranks.root
      have := (w.ranks.range z hz).1
      rwa [w.ranks.inj z root hz w.root_has (by omega)]
  exact heavier.trans_le (s.starting.siblings.weights y z hy hz (by omega))

/-- After the Leaf's slide and increment the position of the block's first node `c` holds one more, and no other does. -/
theorem Tree.VitterStarting.raised (s : t.VitterStarting x) (l : t.Slid u x top σ) {c : Handle} (hc : t.has c)
    (hcr : (t.get c).rank = top) : t.Raised u σ c := by
  intro h hh
  have w := s.starting.wf
  have hx := s.starting.has
  have h2 := l.le
  -- from the block's top to the Leaf all weigh the same
  have same {y : Handle} (hy : t.has y) (h1 : top ≤ (t.get y).rank) (h2 : (t.get y).rank ≤ (t.get x).rank) :
      (t.get y).weight = (t.get x).weight := by
    by_cases hyx : y = x
    · rw [hyx]
    · have hne : (t.get y).rank ≠ (t.get x).rank := fun e => hyx (w.ranks.inj y x hy hx e)
      exact (s.member (l.block y hy h1 (by omega))).2
  have hhc (hne : (t.get h).rank ≠ top) : h ≠ c := fun e => hne (by rw [e, hcr])
  obtain ⟨hr, hσ⟩ | ⟨hgt, hle, y, hy, hσ, hyx, hyr, hb⟩ | ⟨hr, hhx, hσ⟩ := l.occupant w hx hh
  · rw [hσ, l.own, if_pos rfl, w.ranks.inj h c hh hc (by omega), if_pos rfl, same hc (by omega) (by omega)]
  · rw [hσ, l.own, if_neg hyx, if_neg (hhc (by omega)), (s.member hb).2, same hh (by omega) hle]
  · rw [hσ, l.own, if_neg hhx, if_neg (hhc (by omega))]

/-- What the Leaf's slide does to the rank of an Internal node: one more in the block, and nothing elsewhere. -/
theorem Tree.VitterStarting.internal_rank (s : t.VitterStarting x) (l : t.Slid u x top σ) {y : Handle} (hy : t.has y)
    (hi : (t.get y).role = .internal) :
    ((u.get y).rank = (t.get y).rank + 1 ∧ (t.get y).weight = (t.get x).weight ∧ top ≤ (t.get y).rank ∧
      (t.get y).rank < (t.get x).rank) ∨ (u.get y).rank = (t.get y).rank := by
  obtain ⟨rfl, _⟩ | ⟨_, h1, h2, hr, hb⟩ | ⟨_, hr, _⟩ := l.place s.starting.wf s.starting.has hy
  · exact absurd hi s.starting.not_internal
  · exact .inl ⟨hr, (s.member hb).2, h1, h2⟩
  · exact .inr hr

/-- The block order after the Leaf's slide and increment (R43). -/
theorem Tree.VitterStarting.order_slid (s : t.VitterStarting x) (l : t.Slid u x top σ) : u.BlockOrder := by
  intro p h hp hh hw hi hn
  have w := s.starting.wf
  have hx := s.starting.has
  have m := l.slid.moved
  have h2 := l.le
  rw [m.shape.has_iff] at hp hh
  rw [m.shape.role] at hi hn
  have hpx : p ≠ x := by rintro rfl; exact s.starting.not_internal hi
  rw [l.own, l.own, if_neg hpx] at hw
  by_cases hhx : h = x
  · subst hhx
    rw [if_pos rfl] at hw
    have hpr := l.place w hx hp
    have rankX := (l.slid.ranks w hx (by have := l.two_le; omega) l.le).1
    have hlt := s.starting.siblings.rank_lt_of_weight_lt hx hp (by omega)
    obtain ⟨h', _⟩ | ⟨_, _, _, _, hb⟩ | ⟨_, hr, hplace⟩ := hpr
    · exact absurd h' hpx
    · have := (s.member hb).2; omega
    · omega
  · rw [if_neg hhx] at hw
    have before := s.order p h hp hh hw hi hn
    have hhr : (u.get h).rank = (t.get h).rank := by
      obtain ⟨h', _⟩ | ⟨_, _, _, _, hb⟩ | ⟨_, hr, _⟩ := l.place w hx hh
      · exact absurd h' hhx
      · exact absurd (s.member hb).1 hn
      · exact hr
    rw [hhr]
    obtain ⟨hr, hpw, _, hlt⟩ | hr := s.internal_rank l hp hi
    · have := s.leading h hh hn (by omega)
      have hne : (t.get h).rank ≠ (t.get x).rank := fun e => hhx (w.ranks.inj h x hh hx e)
      omega
    · omega

/-- The order of the parents after the Leaf's slide: it keeps the order of the Internal nodes (log 10). -/
theorem Tree.VitterStarting.parents_slid (s : t.VitterStarting x) (l : t.Slid u x top σ) : u.ParentsInOrder := by
  intro h h' p p' hh hh' hp hp' hr
  have w := s.starting.wf
  have m := l.slid.moved
  obtain ⟨a, rfl⟩ := σ.surjective h
  obtain ⟨b, rfl⟩ := σ.surjective h'
  rw [m.shape.has_iff, m.has] at hh hh'
  rw [m.parent] at hp hp'
  rw [m.rank, m.rank] at hr
  have before := s.parents a b p p' hh hh' hp hp' hr
  obtain ⟨hpa, hpi⟩ := w.parentsInternal a p hh hp
  obtain ⟨hpa', hpi'⟩ := w.parentsInternal b p' hh' hp'
  by_cases hpp : p = p'
  · rw [hpp]
  · have hne : (t.get p).rank ≠ (t.get p').rank := fun e => hpp (w.ranks.inj p p' hpa hpa' e)
    obtain ⟨h1, _⟩ | h1 := s.internal_rank l hpa hpi <;> obtain ⟨h2, _⟩ | h2 := s.internal_rank l hpa' hpi' <;> omega

/-- The first round of the climb, at the Leaf itself (R193, R197, R200). -/
theorem Tree.VitterStarting.level (s : t.VitterStarting x) (hs : sibling t x ≠ some t.esc) {wmax : Nat}
    (hw : t.rootWeight < wmax) :
    ∃ u p, slideAndIncrement wmax t x = .ok (u, some p) ∧ u.VitterCursor p none ∧ u.rootWeight = t.rootWeight ∧
      (u.get p).rank < (t.get x).rank := by
  have st := s.starting
  have w := st.wf
  have hx := st.has
  obtain ⟨u, top, σ, l, e⟩ := slideAndIncrement_slid (wmax := wmax) w st.siblings.parents hx st.ne_esc st.ne_root
    ((st.siblings.weight_le_root w hx).trans_lt hw)
    fun y hy _ hb c hc hcy => st.child_behind hs hy (s.member hb).2 hc hcy
  have m := l.slid.moved
  have h1 := l.two_le
  have h2 := l.le
  obtain ⟨c, hc, hcr⟩ := w.ranks.onto top (by omega) (by have := (w.ranks.range x hx).2; omega)
  have raised := s.raised l hc hcr
  have hσ : σ c = x := l.slid.front c hc hcr
  have hcroot : c ≠ root := by rintro rfl; rw [w.ranks.root] at hcr; omega
  obtain ⟨p, hp⟩ := Option.ne_none_iff_exists'.mp (mt (w.links.rootParent c hc).1 hcroot)
  obtain ⟨hpa, hslot⟩ := w.linked.up c p hc hp
  obtain ⟨_, hpi⟩ := w.parentsInternal c p hc hp
  have hpar : (u.get x).parent = some p := by rw [← hσ, m.parent, hp]
  have hrank : (u.get x).rank = top := by rw [← hσ, m.rank, hcr]
  have hcw : (t.get c).weight = (t.get x).weight := by
    have := raised c hc
    rw [hσ, l.own, if_pos rfl, if_pos rfl] at this
    omega
  have siblings : u.SiblingProperty := m.siblings w st.siblings l.first raised hc fun y hy hr => by
    rw [hcw]; exact s.before hs l hy (by omega)
  have sums : u.SumsAt p none := m.sumsAt w.localLinks st.sums raised l.own hpa hslot (fun _ h => by cases h)
  have order := s.order_slid l
  have parents := s.parents_slid l
  have hua : u.has p := (m.shape.has_iff p).2 hpa
  have hui : (u.get p).role = .internal := (m.shape.role p).trans hpi
  have hlt := l.first x p ((m.shape.has_iff x).2 hx) hpar
  rw [if_neg st.not_internal, hpar] at e
  refine ⟨u, p, e, ?_, l.rootWeight st.ne_root, by omega⟩
  refine
    { wf := l.wf, siblings := siblings, sums := sums, order := order, parents := parents, has := hua, internal := hui
      counted := fun h hh hne _ hi => ?_
      leads := Tree.leads_of_short l.wf siblings sums order parents hua hui nofun
      deferred := nofun }
  rw [m.shape.has_iff] at hh
  rw [m.shape.esc] at hne
  rw [m.shape.role] at hi
  rw [l.own]
  exact (st.all_counted hs h hh hne hi).trans (Nat.le_add_right _ _)

/-- The Leaf beside the Escape node is deferred, and the climb starts at their parent (R191, R193). -/
theorem Tree.VitterStarting.cursor (s : t.VitterStarting x) (hs : sibling t x = some t.esc) {p : Handle}
    (hp : (t.get x).parent = some p) : t.VitterCursor p (some x) := by
  have st := s.starting
  have w := st.wf
  have hx := st.has
  have hrank := (w.sibling_escape st.siblings st.one_lt hx).1 hs
  obtain ⟨z, q, hz, hzr, hzp, hep, hcz, hce⟩ := st.siblings.escape_sibling w st.one_lt
  have hxz : x = z := w.ranks.inj x z hx hz (by omega)
  subst hxz
  cases hp.symm.trans hzp
  obtain ⟨hpa, hpi⟩ := w.parentsInternal x p hx hp
  have hpw := st.parent_weight hp hep
  have hpr := st.siblings.parents x p hx hp
  have heavier (y : Handle) (hy : t.has y) (hr : (t.get y).rank < (t.get x).rank) (hyp : y ≠ p) :
      (t.get x).weight < (t.get y).weight := by
    by_cases hi : (t.get y).role = .internal
    · exact st.internal_heavier hrank hy hi fun h => hyp (Option.some.inj (h.symm.trans hep))
    · exact s.leaf_heavier hy hi hr
  refine
    { wf := w, siblings := st.siblings, order := s.order, parents := s.parents, has := hpa, internal := hpi
      sums := fun q' a b hq ha hb => ?_
      counted := fun h hh hne hd hi => st.positive h hh hne (fun e => hd (congrArg some e.symm)) fun hpar => hi ?_
      leads := fun y hy hr => ?_
      deferred := fun y hy => ?_ }
  · have hqi := (w.localLinks.child hq ha).2.2.2
    have sum := st.sums.sum hq ha hb (by rintro rfl; exact st.not_internal hqi)
    by_cases hqp : q' = p
    · subst hqp
      cases ha.symm.trans hcz
      cases hb.symm.trans hce
      simp only [Tree.weightWith, if_true, Option.some.injEq, if_neg st.ne_esc]
      omega
    · have notX {b : Bool} {d : Handle} (hd : t.child q' b = some d) : x ≠ d := by
        rintro rfl
        exact hqp (Option.some.inj ((w.localLinks.child hq hd).2.1.symm.trans hp))
      simp only [Tree.weightWith, Option.some.injEq, if_neg hqp, if_neg (notX ha), if_neg (notX hb)]
      omega
  · exact (w.parentsInternal t.esc h w.escape.allocated hpar).2
  · rw [hpw]
    exact heavier y hy (by omega) (by rintro rfl; omega)
  · cases hy
    refine ⟨hx, st.leaf, hrank, fun y hy hyx hye => ?_⟩
    have h1 : (t.get y).rank ≠ (t.get x).rank := fun h => hyx (w.ranks.inj y x hy hx h)
    have h2 : (t.get y).rank ≠ (t.get t.esc).rank := fun h => hye (w.ranks.inj y t.esc hy w.escape.allocated h)
    rw [w.escape.rank] at h2
    have h3 := (w.ranks.range y hy).2
    by_cases hyp : y = p
    · rw [if_pos hyp, hyp]; omega
    · exact (heavier y hy (by omega) hyp).trans_le (Nat.le_add_right _ _)

end

/-! ### The end of the update -/

section
variable {t u : Tree} {d : Option Handle} {wmax : Nat}

/-- The block order after the root's increment: the root has rank 1 (R43). -/
theorem Tree.VitterCursor.order_root (c : t.VitterCursor root d) (e : incWeight wmax t root = .ok u) : u.BlockOrder := by
  intro p h hp hh hw hi hn
  have w := c.wf
  have m := incWeight_moved e
  have rank (y) : (u.get y).rank = (t.get y).rank := m.rank y
  rw [m.shape.has_iff] at hp hh
  rw [m.shape.role] at hi hn
  have hhr : h ≠ root := by rintro rfl; exact hn c.internal
  rw [incWeight_weight e, incWeight_weight e, if_neg hhr] at hw
  rw [rank, rank]
  by_cases hpr : p = root
  · have h1 : (t.get h).rank ≠ (t.get root).rank := fun he => hhr (w.ranks.inj h root hh w.root_has he)
    have := (w.ranks.range h hh).1
    rw [w.ranks.root] at h1
    rw [hpr, w.ranks.root]
    omega
  · rw [if_neg hpr] at hw
    exact c.order p h hp hh hw hi hn

/-- The root's increment ends an update without a deferred leaf (R195). -/
theorem Tree.VitterCursor.coding (c : t.VitterCursor root none) (e : incWeight wmax t root = .ok u) : u.Coding .vitter := by
  have m := incWeight_moved e
  refine
    { wf := incWeight_wellFormed c.wf c.ne_esc e
      siblings := incWeight_root_siblings c.wf c.siblings e
      sums := ⟨fun p x y hp hx hy => ?_, fun h hh hne hi => ?_⟩
      fgk := nofun
      vitterOrder := fun _ => c.order_root e
      vitterParents := fun _ => c.parents.of_moved m }
  · simpa [Tree.weightWith] using incWeight_root_sums c.wf c.sums e hp hx hy
  · rw [m.shape.has_iff] at hh
    rw [m.shape.esc] at hne
    rw [m.shape.role] at hi
    rw [incWeight_weight e]
    exact (c.counted h hh hne nofun hi).trans (Nat.le_add_right _ _)

/-- The deferred leaf's increment ends the update: every other node but the Escape node weighs more (R196). -/
theorem Tree.VitterCursor.coding_deferred {x : Handle} (c : t.VitterCursor root (some x)) {v : Tree}
    (e : incWeight wmax t root = .ok u) (e' : incWeight wmax u x = .ok v) : v.Coding .vitter := by
  have w := c.wf
  obtain ⟨hx, leaf, hrank, lightest⟩ := c.deferred x rfl
  have m := incWeight_moved e
  have m' := incWeight_moved e'
  obtain ⟨sym, hrole⟩ := (Role.isLeaf_iff _).1 leaf
  have hxi : (t.get x).role ≠ .internal := by rw [hrole]; nofun
  have hxe : x ≠ t.esc := by rintro rfl; rw [w.escape.role] at hrole; cases hrole
  have w1 := incWeight_wellFormed w c.ne_esc e
  have s1 := incWeight_root_siblings w c.siblings e
  have rank (y) : (u.get y).rank = (t.get y).rank := m.rank y
  have rank' (y) : (v.get y).rank = (u.get y).rank := m'.rank y
  refine
    { wf := incWeight_wellFormed w1 (by rwa [m.shape.esc]) e'
      siblings := m'.siblings w1 s1 (m'.parentsFirst_of_one s1.parents) (fun h _ => incWeight_weight e' h)
        ((m.shape.has_iff x).2 hx) fun y hy hr => ?_
      sums := ⟨fun p a b hp ha hb => ?_, fun h hh hne hi => ?_⟩
      fgk := nofun
      vitterOrder := fun _ p h hp hh hw hi hn => ?_
      vitterParents := fun _ => (c.parents.of_moved m).of_moved m' }
  · rw [m.shape.has_iff] at hy
    rw [rank, rank] at hr
    have hye : y ≠ t.esc := w.ne_esc_of_rank_lt hx hr
    have := lightest y hy (by rintro rfl; omega) hye
    have hxr : x ≠ root := by rintro rfl; exact hxi c.internal
    rw [incWeight_weight e, incWeight_weight e, if_neg hxr]
    exact this
  · rw [m'.shape.has_iff] at hp
    have ha' : u.child p false = some a := by rw [← m'.child_of_one hp]; exact ha
    have hb' : u.child p true = some b := by rw [← m'.child_of_one hp]; exact hb
    have hpx : p ≠ x := by
      rintro rfl
      exact hxi (by rw [← m.shape.role]; exact (w1.localLinks.child hp ha').2.2.2)
    have sum := incWeight_root_sums w c.sums e hp ha' hb'
    simp only [Tree.weightWith, Option.some.injEq] at sum
    simpa only [incWeight_weight e', if_neg (Ne.symm hpx), Nat.add_zero, eq_comm (b := x)] using sum
  · rw [m'.shape.has_iff, m.shape.has_iff] at hh
    rw [m'.shape.esc, m.shape.esc] at hne
    rw [m'.shape.role, m.shape.role] at hi
    rw [incWeight_weight e', incWeight_weight e]
    by_cases hhx : h = x
    · rw [if_pos hhx]; omega
    · have := c.counted h hh hne (fun he => hhx (Option.some.inj he).symm) hi
      omega
  · have order := c.order_root e
    rw [m'.shape.has_iff] at hp hh
    rw [m'.shape.role] at hi hn
    rw [rank', rank']
    have hpx : p ≠ x := by rintro rfl; exact hxi ((m.shape.role p).symm.trans hi)
    by_cases hhx : h = x
    · subst hhx
      rw [m.shape.has_iff] at hp
      rw [m.shape.role] at hi
      have hpe : p ≠ t.esc := by rintro rfl; rw [w.escape.role] at hi; cases hi
      have h1 : (t.get p).rank ≠ (t.get h).rank := fun he => hpx (w.ranks.inj p h hp hx he)
      have h2 : (t.get p).rank ≠ (t.get t.esc).rank := fun he => hpe (w.ranks.inj p t.esc hp w.escape.allocated he)
      rw [w.escape.rank] at h2
      have h3 := (w.ranks.range p hp).2
      rw [rank, rank]
      omega
    · rw [incWeight_weight e', incWeight_weight e', if_neg hpx, if_neg hhx] at hw
      exact order p h hp hh hw hi hn

/-- From the end of the climb on, the update completes with a coding tree (R195, R196). -/
theorem Tree.VitterCursor.finish (c : t.VitterCursor root d) (hw : t.rootWeight < wmax) :
    ∃ v u, incWeight wmax t root = .ok v ∧ vitterDeferred wmax v d = .ok u ∧ u.Coding .vitter := by
  obtain ⟨v, e⟩ := incWeight_of_ne (t := t) (h := root) (Nat.ne_of_lt hw)
  cases d with
  | none => exact ⟨v, v, e, rfl, c.coding e⟩
  | some x =>
    have w := c.wf
    obtain ⟨hx, leaf, _, lightest⟩ := c.deferred x rfl
    have m := incWeight_moved e
    have hxi : (t.get x).role ≠ .internal := by intro h; rw [h] at leaf; cases leaf
    have hxr : x ≠ root := by rintro rfl; exact hxi c.internal
    have rank (y) : (v.get y).rank = (t.get y).rank := m.rank y
    have hxw : (v.get x).weight = (t.get x).weight := by rw [incWeight_weight e, if_neg hxr]; rfl
    have hle := (c.siblings.weight_le_root w hx).trans_lt hw
    obtain ⟨u, q, e', e''⟩ := slideAndIncrement_in_place (wmax := wmax) (incWeight_wellFormed w c.ne_esc e)
      ((m.shape.has_iff x).2 hx) hxr (by omega) fun y hy hr => by
        rw [m.shape.has_iff] at hy
        rw [rank, rank] at hr
        have light := lightest y hy (by rintro rfl; omega) (w.ne_esc_of_rank_lt hx hr)
        rw [← incWeight_weight e] at light
        rw [Bool.eq_false_iff]
        intro hb
        have := ((inBlock_of_childless (by rwa [m.shape.role])).1 hb).2
        omega
    exact ⟨v, u, e, except_bind_ok.2 ⟨(u, q), e'', rfl⟩, c.coding_deferred e e'⟩

end

/-- The climb, the root's increment and the deferred leaf's, for an update whose cursor is ready (R194 to R196). -/
theorem Tree.VitterCursor.complete {t : Tree} {q : Handle} {d : Option Handle} (c : t.VitterCursor q d) {wmax fuel : Nat}
    (hw : t.rootWeight < wmax) (hf : (t.get q).rank ≤ fuel) :
    ∃ b v u, vitterClimb wmax fuel t q = .ok b ∧ incWeight wmax b root = .ok v ∧ vitterDeferred wmax v d = .ok u ∧
      u.Coding .vitter := by
  obtain ⟨b, e, c', hroot⟩ := c.climb hw hf
  obtain ⟨v, u, e', e'', coding⟩ := c'.finish (hroot ▸ hw)
  exact ⟨b, v, u, e, e', e'', coding⟩

/-- The Vitter update from the deferral test on (R193 to R196). -/
theorem Tree.VitterStarting.complete {t : Tree} {x : Handle} (s : t.VitterStarting x) {wmax : Nat}
    (hw : t.rootWeight < wmax) :
    ∃ q d b v u, ((sibling t x = some t.esc ∧ (t.get x).parent = some q ∧ d = some x) ∨
        (sibling t x ≠ some t.esc ∧ q = x ∧ d = none)) ∧
      vitterClimb wmax nodeCap t q = .ok b ∧ incWeight wmax b root = .ok v ∧ vitterDeferred wmax v d = .ok u ∧
      u.Coding .vitter := by
  have st := s.starting
  have w := st.wf
  by_cases hs : sibling t x = some t.esc
  · obtain ⟨p, hp⟩ := Option.ne_none_iff_exists'.mp (mt (w.links.rootParent x st.has).1 st.ne_root)
    have c := s.cursor hs hp
    obtain ⟨b, v, u, rest⟩ := c.complete hw (w.rank_le_nodeCap c.has)
    exact ⟨p, some x, b, v, u, .inl ⟨hs, hp, rfl⟩, rest⟩
  · obtain ⟨t1, p, e, c, hroot, hr⟩ := s.level hs hw
    have hcap : (t.get x).rank ≤ 512 + 1 := w.rank_le_nodeCap st.has
    obtain ⟨b, v, u, e', rest⟩ := c.complete (fuel := 512) (hroot ▸ hw) (by omega)
    refine ⟨x, none, b, v, u, .inr ⟨hs, rfl, rfl⟩, ?_, rest⟩
    show vitterClimb wmax (512 + 1) t x = _
    rw [vitterClimb, if_neg st.ne_root]
    exact except_bind_ok.2 ⟨(t1, some p), e, except_bind_ok.2 ⟨p, rfl, e'⟩⟩

/-- Settles O32: from the promoted Leaf of the symbol, or from the Leaf `introduce` makes, the climb and the increments of
the root and of a deferred leaf complete and leave a coding tree. -/
theorem vitterUpdateKeepsCoding : Obligations.VitterUpdateKeepsCoding := by
  unfold Obligations.VitterUpdateKeepsCoding
  intro wmax t h sym c hw hl
  have w := c.wf
  have parts : ∃ u, updateVitter wmax t h sym (h = t.esc) = .ok u ∧ u.Coding .vitter := by
    obtain ⟨hh, hr, hne⟩ | ⟨rfl, r, e⟩ := w.locate_cases hl
    · obtain ⟨t1, e, s, hroot⟩ := c.promote_starting hh hr
      obtain ⟨q, d, b, v, u, start, e1, e2, e3, coding⟩ := s.complete (hroot ▸ hw)
      refine ⟨u, except_bind_ok.2 ⟨(t1, q, d), ?_, except_bind_ok.2 ⟨b, e1, except_bind_ok.2 ⟨v, e2, e3⟩⟩⟩, coding⟩
      rw [vitterStart, if_neg (by simp [hne])]
      refine except_bind_ok.2 ⟨t1, e, ?_⟩
      obtain ⟨hs, hp, rfl⟩ | ⟨hs, rfl, rfl⟩ := start
      · rw [if_pos hs]
        exact except_bind_ok.2 ⟨q, followed_ok_iff.2 hp, rfl⟩
      · rw [if_neg hs]
    · have s := c.introduce_vitterStarting e
      have hsib : sibling r.1 r.2 = some r.1.esc := by
        rw [s.starting.wf.sibling_escape s.starting.siblings s.starting.one_lt s.starting.has,
          introduce_get_leaf e w.escape.allocated, (introduce_ok e).2.2.2.1]
      obtain ⟨q, d, b, v, u, start, e1, e2, e3, coding⟩ := s.complete (introduce_rootWeight w e ▸ hw)
      obtain ⟨_, hp, rfl⟩ := start.resolve_right fun h => h.1 hsib
      refine ⟨u, except_bind_ok.2 ⟨(r.1, q, some r.2), ?_, except_bind_ok.2 ⟨b, e1, except_bind_ok.2 ⟨v, e2, e3⟩⟩⟩, coding⟩
      rw [vitterStart, if_pos (by simp)]
      exact except_bind_ok.2 ⟨r, e, except_bind_ok.2 ⟨q, followed_ok_iff.2 hp, rfl⟩⟩
  obtain ⟨u, e, coding⟩ := parts
  exact ⟨u, e, coding, (update_keeps (strategy := .vitter) w (w.isNodeOf_of_locate hl) e).2.2⟩

end Sys2Proof.Machine
end

section
/-! What `DECODE` reads (spec/45_decoder_commands.md R240 to R242): the descent follows the bits left from the root, lands on
a leaf with one more bit in hand, or runs out of bits; and the eight raw bits after the Escape path are a symbol. -/

namespace Sys2Proof.Machine

/-! ### One bit in hand -/

/-- The bit in hand and the bits ahead of `s` are `bits`; without a bit in hand there is none ahead (R122, R240). -/
structure State.Reading (s : State) (bit : Option Bool) (bits : List Bool) : Prop where
  cnt : s.cnt.toNat ≤ 8
  bits : bit.toList ++ s.bitsAhead = bits
  eos : bit = none → s.bitsAhead = []

theorem State.Reading.cons {s : State} {bit : Option Bool} {b : Bool} {bits : List Bool}
    (r : s.Reading bit (b :: bits)) : bit = some b ∧ s.bitsAhead = bits := by
  obtain ⟨_, h, eos⟩ := r
  cases bit with
  | none => rw [eos rfl] at h; cases h
  | some c =>
    simp only [Option.toList_some, List.singleton_append, List.cons.injEq] at h
    exact ⟨congrArg some h.1, h.2⟩

theorem State.Reading.nil {s : State} {bit : Option Bool} (r : s.Reading bit []) : bit = none := by
  cases bit with
  | none => rfl
  | some c => cases r.bits

/-- Behind the bit in hand there is one bit less. -/
theorem State.Reading.ahead_length {s : State} {bit : Option Bool} {bits : List Bool} (r : s.Reading bit bits) :
    s.bitsAhead.length = bits.length - 1 := by
  obtain ⟨_, rfl, eos⟩ := r
  cases bit with
  | none => rw [eos rfl]; rfl
  | some c => rfl

theorem getBitOpt_reading {s : State} (hc : s.cnt.toNat ≤ 8) :
    (getBitOpt s).2.Reading (getBitOpt s).1 s.bitsAhead ∧ (getBitOpt s).2.cnt.toNat ≤ 7 := by
  obtain ⟨hnil, h⟩ | ⟨b, t, hb, h, ht⟩ := getBitOpt_bitsAhead hc
  · have hcnt : s.cnt.toNat ≤ 7 := by
      simp [State.bitsAhead, symbolBits_length] at hnil
      omega
    rw [h]
    exact ⟨⟨hc, rfl, fun _ => hnil⟩, hcnt⟩
  · rw [h]
    exact ⟨⟨Nat.le_succ_of_le ht, hb.symm, nofun⟩, ht⟩

theorem firstBit_reading {s : State} (hc : s.cnt.toNat ≤ 8) : (firstBit s).2.Reading (firstBit s).1 s.bitsLeft := by
  obtain ⟨hp, h⟩ | ⟨hp, h⟩ := firstBit_cases s
  · rw [h]
    exact ⟨hc, by rw [State.bitsLeft, if_pos hp]; rfl, nofun⟩
  · rw [h, State.bitsLeft, if_neg (by simp [hp])]
    exact (getBitOpt_reading hc).1

/-- The bit in hand becomes the pending bit: the bits left are as they were (R240). -/
theorem State.Reading.holdBit_bitsLeft {s : State} {bit : Option Bool} {bits : List Bool} (r : s.Reading bit bits) :
    (holdBit s bit).bitsLeft = bits := by
  rw [← r.bits]
  cases bit <;> rfl

/-- `CNT` bits are ahead in `ACC`, and 8 in every unread byte. -/
theorem State.bitsAhead_length {s : State} (hc : s.cnt.toNat ≤ 8) :
    s.bitsAhead.length = s.cnt.toNat + 8 * (s.src.length - s.srcPos) := by
  simp [State.bitsAhead, symbolBits_length, byteBits_length]
  omega

/-! ### The descent -/

/-- The descent along a path to a leaf lands there, with the next bit in hand (R240). -/
theorem descend_of_path {fuel : Nat} {s : State} {cur h : Handle} {bit : Option Bool} {path rest : List Bool}
    (l : s.tree.LocalLinks) (hcur : s.tree.has cur) (e : s.tree.walk cur path = some h)
    (hi : (s.tree.get h).role ≠ .internal) (hf : path.length ≤ fuel) (r : s.Reading bit (path ++ rest)) :
    ∃ bit' v, descend fuel cur bit s = .ok (h, bit') v ∧ v.Reading bit' rest ∧ (path ≠ [] → v.cnt.toNat ≤ 7) := by
  induction path generalizing fuel s cur bit with
  | nil =>
    cases e
    exact ⟨bit, s, descend_leaf hi, r, fun h => absurd rfl h⟩
  | cons b path ih =>
    rw [Tree.walk_cons] at e
    obtain ⟨c, hc, e⟩ := Option.bind_eq_some_iff.mp e
    obtain ⟨hca, _, _, hcur'⟩ := l.child hcur hc
    obtain ⟨rfl, hahead⟩ := r.cons
    obtain ⟨r', hcnt⟩ := getBitOpt_reading r.cnt
    cases fuel with
    | zero => cases hf
    | succ fuel =>
      rw [descend_step hcur' hc]
      rw [hahead] at r'
      obtain ⟨bit', v, h1, h2, h3⟩ := ih (s := (getBitOpt s).2) (by rwa [getBitOpt_tree]) (by rwa [getBitOpt_tree])
        (by rwa [getBitOpt_tree]) (by rwa [getBitOpt_tree]) (Nat.le_of_succ_le_succ hf) r'
      refine ⟨bit', v, h1, h2, fun _ => ?_⟩
      cases path with
      | nil =>
        rw [descend_leaf (by rw [getBitOpt_tree]; cases e; exact hi)] at h1
        cases h1
        exact hcnt
      | cons b' path => exact h3 (by simp)

/-- When the bits end at an Internal node the descent raises `StreamExhausted` there (R242). -/
theorem descend_exhausted {fuel : Nat} {s : State} {cur x : Handle} {bit : Option Bool} {bits : List Bool}
    (l : s.tree.LocalLinks) (hcur : s.tree.has cur) (e : s.tree.walk cur bits = some x)
    (hi : (s.tree.get x).role = .internal) (hf : bits.length ≤ fuel) (r : s.Reading bit bits) :
    ∃ v, descend fuel cur bit s = .raised .streamExhausted v ∧ v.bitsAhead = [] := by
  induction bits generalizing fuel s cur bit with
  | nil =>
    cases e
    cases r.nil
    exact ⟨s, descend_eos hi, r.eos rfl⟩
  | cons b bits ih =>
    rw [Tree.walk_cons] at e
    obtain ⟨c, hc, e⟩ := Option.bind_eq_some_iff.mp e
    obtain ⟨hca, _, _, hcur'⟩ := l.child hcur hc
    obtain ⟨rfl, hahead⟩ := r.cons
    obtain ⟨r', _⟩ := getBitOpt_reading r.cnt
    cases fuel with
    | zero => cases hf
    | succ fuel =>
      rw [descend_step hcur' hc]
      rw [hahead] at r'
      exact ih (s := (getBitOpt s).2) (by rwa [getBitOpt_tree]) (by rwa [getBitOpt_tree]) (by rwa [getBitOpt_tree])
        (by rwa [getBitOpt_tree]) (Nat.le_of_succ_le_succ hf) r'

/-- Any bits lead from a node to a leaf, perhaps before their end, or end at an Internal node. -/
theorem Tree.LocalLinks.walk_cases {t : Tree} (l : t.LocalLinks) {cur : Handle} (hcur : t.has cur) (bits : List Bool) :
    (∃ path rest h, bits = path ++ rest ∧ t.walk cur path = some h ∧ t.has h ∧ (t.get h).role ≠ .internal) ∨
    ∃ x, t.walk cur bits = some x ∧ (t.get x).role = .internal := by
  induction bits generalizing cur with
  | nil =>
    by_cases hi : (t.get cur).role = .internal
    · exact .inr ⟨cur, rfl, hi⟩
    · exact .inl ⟨[], [], cur, rfl, rfl, hcur, hi⟩
  | cons b bits ih =>
    by_cases hi : (t.get cur).role = .internal
    · obtain ⟨c, hc⟩ := l.child_of_internal hcur hi b
      obtain ⟨path, rest, h, rfl, e, hh⟩ | ⟨x, e, hx⟩ := ih (l.child hcur hc).1
      · exact .inl ⟨b :: path, rest, h, rfl, by rw [Tree.walk_cons, hc]; exact e, hh⟩
      · exact .inr ⟨x, by rw [Tree.walk_cons, hc]; exact e, hx⟩
    · exact .inl ⟨[], b :: bits, cur, rfl, rfl, hcur, hi⟩

/-! ### The raw symbol -/

/-- Every eight bits are the raw bits of a symbol (R97). -/
theorem exists_symbolBits {l : List Bool} (h : l.length = 8) : ∃ sym : Symbol, symbolBits sym = l := by
  match l, h with
  | [a, b, c, d, e, f, g, h], _ =>
    refine ⟨BitVec.ofBoolListLE [h, g, f, e, d, c, b, a], ?_⟩
    simp only [symbolBits, BitVec.getLsbD_ofBoolListLE]
    rfl

/-- `rawBits` reads the low `k` bits of a symbol (R240). -/
theorem rawBits_of_bits {k : Nat} {sym y : Symbol} {s : State} {rest : List Bool} (hk : k ≤ 8)
    (hc : s.cnt.toNat ≤ 8) (hb : s.bitsAhead = (symbolBits y).drop (8 - k) ++ rest)
    (agree : ∀ i, k ≤ i → i < 8 → sym.getLsbD i = y.getLsbD i) :
    ∃ v, rawBits k sym s = .ok y v ∧ v.bitsAhead = rest ∧ (0 < k → v.cnt.toNat ≤ 7) ∧ v.pendValid = s.pendValid := by
  induction k generalizing sym s with
  | zero =>
    have hsym : sym = y := BitVec.eq_of_getLsbD_eq fun i hi => agree i (Nat.zero_le i) hi
    refine ⟨s, by rw [hsym]; rfl, ?_, nofun, rfl⟩
    rw [hb, List.drop_of_length_le (symbolBits_length y).le, List.nil_append]
  | succ k ih =>
    rw [symbolBits_drop_succ y (by omega), List.cons_append] at hb
    obtain ⟨hnil, _⟩ | ⟨b, t, hb', hget, ht⟩ := getBitOpt_bitsAhead hc
    · rw [hnil] at hb; cases hb
    · obtain ⟨rfl, hrest⟩ := List.cons.inj (hb'.symm.trans hb)
      have hg : getBit s = .ok (y.getLsbD k) t := by rw [getBit, hget]
      have hp : t.pendValid = s.pendValid := by rw [← getBitOpt_pendValid s, hget]
      obtain ⟨v, hv, hahead, hcnt, hpend⟩ := ih (sym := setBit sym k (y.getLsbD k)) (by omega) (by omega) hrest
        fun i h1 h2 => by
          rw [getLsbD_setBit _ _ _ _ h2]
          by_cases hik : i = k
          · rw [if_pos hik, hik]
          · rw [if_neg hik]; exact agree i (by omega) h2
      refine ⟨v, by rw [rawBits_succ, hg]; exact hv, hahead, fun _ => ?_, hpend.trans hp⟩
      cases k with
      | zero => exact (Res.ok.inj hv).2 ▸ ht
      | succ k => exact hcnt (Nat.succ_pos k)

/-- With fewer bits left `rawBits` raises `StreamExhausted` (R242). -/
theorem rawBits_exhausted {k : Nat} {sym : Symbol} {s : State} (hc : s.cnt.toNat ≤ 8) (hb : s.bitsAhead.length < k) :
    ∃ v, rawBits k sym s = .raised .streamExhausted v ∧ v.bitsAhead = [] := by
  induction k generalizing sym s with
  | zero => cases hb
  | succ k ih =>
    rw [rawBits_succ]
    obtain ⟨hnil, hget⟩ | ⟨b, t, hb', hget, ht⟩ := getBitOpt_bitsAhead hc
    · have hg : getBit s = .raised .streamExhausted s := by rw [getBit, hget]
      rw [hg]
      exact ⟨s, rfl, hnil⟩
    · have hg : getBit s = .ok b t := by rw [getBit, hget]
      rw [hb', List.length_cons] at hb
      rw [hg]
      exact ih (by omega) (by omega)

/-- After the Escape path the bit in hand and seven more are the symbol (R241). -/
theorem rawSymbol_of_bits {s : State} {bit : Option Bool} {y : Symbol} {rest : List Bool}
    (r : s.Reading bit (symbolBits y ++ rest)) :
    ∃ v, rawSymbol (holdBit s bit) = .ok y v ∧ v.bitsAhead = rest ∧ v.cnt.toNat ≤ 7 ∧ v.pendValid = false := by
  have split : symbolBits y = y.getLsbD 7 :: (symbolBits y).drop 1 := rfl
  rw [split, List.cons_append] at r
  obtain ⟨rfl, hahead⟩ := r.cons
  have hp : (holdBit s (some (y.getLsbD 7))).pendValid = true := rfl
  rw [rawSymbol_pending hp]
  obtain ⟨v, hv, hrest, hcnt, hpend⟩ := rawBits_of_bits (k := 7) (sym := setBit 0 7 (y.getLsbD 7)) (y := y)
    (s := { holdBit s (some (y.getLsbD 7)) with pendValid := false }) (by omega) r.cnt hahead fun i h1 h2 => by
      rw [getLsbD_setBit _ _ _ _ h2, if_pos (by omega), show i = 7 by omega]
  exact ⟨v, hv, hrest, hcnt (by omega), hpend⟩

/-- With fewer than eight bits after the Escape path the raw symbol is missing (R242). -/
theorem rawSymbol_exhausted {s : State} {bit : Option Bool} {bits : List Bool} (r : s.Reading bit bits)
    (hb : bits.length < 8) :
    ∃ v, rawSymbol (holdBit s bit) = .raised .streamExhausted v ∧ v.bitsAhead = [] := by
  cases bit with
  | none => exact ⟨_, rawSymbol_eos rfl, r.eos rfl⟩
  | some b =>
    have hp : (holdBit s (some b)).pendValid = true := rfl
    have hlen := r.ahead_length
    rw [rawSymbol_pending hp]
    refine rawBits_exhausted (s := { holdBit s (some b) with pendValid := false }) r.cnt ?_
    show s.bitsAhead.length < 7
    have := congrArg List.length r.bits
    simp at this
    omega

/-! ### The landing -/

/-- `DECODE` reads from `s` to `w`, lands on `h` and finds the symbol `sym` there (R240). -/
def State.Lands (s : State) (h : Handle) (sym : Symbol) (w : State) : Prop :=
  ∃ bit v, descend 256 root (firstBit s).1 (firstBit s).2 = .ok (h, bit) v ∧ landedSymbol h (holdBit v bit) = .ok sym w

theorem State.Lands.reads {s w : State} {h : Handle} {sym : Symbol} (l : s.Lands h sym w) : s.ReadsUpTo 264 w := by
  obtain ⟨bit, v, hd, hl⟩ := l
  exact landedSymbol_after_descend_reads hd hl

theorem State.Lands.decodeBody_ok {s w : State} {h : Handle} {sym : Symbol} {t : Tree} (l : s.Lands h sym w)
    (hw : weightFull s = false) (e : update s.strategy s.cfg.wmax s.tree h sym = .ok t) :
    decodeBody s = .ok sym (w.withTree t) := by
  have same := l.reads.same
  obtain ⟨bit, v, hd, hl⟩ := l
  refine Machine.decodeBody_ok.2 ⟨hw, h, bit, v, w, t, hd, hl, ?_, rfl⟩
  rw [same.strategy, same.cfg, same.tree]
  exact e

theorem State.Lands.decodeBody_raised {s w : State} {h : Handle} {sym : Symbol} {k : FaultKind} (l : s.Lands h sym w)
    (hw : weightFull s = false) (e : update s.strategy s.cfg.wmax s.tree h sym = .error k) :
    decodeBody s = .raised k w := by
  have same := l.reads.same
  obtain ⟨bit, v, hd, hl⟩ := l
  refine Machine.decodeBody_raised.2 (.inr ⟨hw, .inr ⟨h, bit, v, hd, .inr ⟨sym, hl, ?_⟩⟩⟩)
  rw [same.strategy, same.cfg, same.tree]
  exact e

theorem descend_has {fuel : Nat} {s v : State} {cur h : Handle} {bit bit' : Option Bool} (l : s.tree.LocalLinks)
    (hcur : s.tree.has cur) (e : descend fuel cur bit s = .ok (h, bit') v) : s.tree.has h := by
  induction fuel generalizing s cur bit with
  | zero =>
    by_cases hi : (s.tree.get cur).role = .internal
    · cases bit with
      | none => rw [descend_eos hi] at e; cases e
      | some b =>
        cases hc : s.tree.child cur b with
        | none => rw [descend_childless hi hc] at e; cases e
        | some c => rw [descend_deep hi hc] at e; cases e
    · rw [descend_leaf hi] at e; cases e; exact hcur
  | succ fuel ih =>
    by_cases hi : (s.tree.get cur).role = .internal
    · cases bit with
      | none => rw [descend_eos hi] at e; cases e
      | some b =>
        cases hc : s.tree.child cur b with
        | none => rw [descend_childless hi hc] at e; cases e
        | some c =>
          rw [descend_step hi hc] at e
          have := ih (s := (getBitOpt s).2) (by rwa [getBitOpt_tree]) (by rw [getBitOpt_tree]; exact (l.child hcur hc).1) e
          rwa [getBitOpt_tree] at this
    · rw [descend_leaf hi] at e; cases e; exact hcur

/-- The landing node is the Leaf of the symbol, or the Escape node (R243). -/
theorem State.Lands.isNodeOf {s u : State} {h : Handle} {sym : Symbol} (l : s.Lands h sym u) (w : s.tree.WellFormed) :
    s.tree.IsNodeOf h sym := by
  obtain ⟨bit, v, hd, hl⟩ := l
  have same : (firstBit s).2.tree = s.tree := (firstBit_same s).tree
  have hh : s.tree.has h := same ▸ descend_has (same ▸ w.localLinks) (same ▸ w.root_has) hd
  have held : (holdBit v bit).tree = s.tree := (holdBit_same v bit).tree.trans (descend_firstBit_same hd).tree
  refine ⟨hh, ?_⟩
  cases hr : ((holdBit v bit).tree.get h).role with
  | internal => rw [landedSymbol_internal hr] at hl; cases hl
  | leaf y =>
    rw [landedSymbol_leaf hr] at hl
    cases hl
    rw [held] at hr
    exact .inl hr
  | escape =>
    rw [held] at hr
    exact .inr (w.escape.unique h hh hr)

section
variable {s : State} {h : Handle} {path rest : List Bool} {sym : Symbol}

/-- The descent of `DECODE` along a leaf's code. -/
theorem descend_firstBit_of_path (w : s.tree.WellFormed) (hc : s.cnt.toNat ≤ 8) (e : s.tree.walk root path = some h)
    (hi : (s.tree.get h).role ≠ .internal) (hb : s.bitsLeft = path ++ rest) :
    ∃ bit v, descend 256 root (firstBit s).1 (firstBit s).2 = .ok (h, bit) v ∧ v.Reading bit rest ∧
      (path ≠ [] → v.cnt.toNat ≤ 7) ∧ v.tree = s.tree := by
  have same : (firstBit s).2.tree = s.tree := (firstBit_same s).tree
  have r := firstBit_reading hc
  rw [hb] at r
  obtain ⟨bit, v, hd, r', hcnt⟩ := descend_of_path (same ▸ w.localLinks) (same ▸ w.root_has) (same ▸ e) (same ▸ hi)
    (w.localLinks.path_length_le e) r
  exact ⟨bit, v, hd, r', hcnt, (descend_firstBit_same hd).tree⟩

/-- Bits left that begin with a Leaf's code land on that Leaf, with one bit of lookahead if there is one (R240). -/
theorem State.lands_leaf (w : s.tree.WellFormed) (hc : s.cnt.toNat ≤ 8) (e : s.tree.walk root path = some h)
    (hr : (s.tree.get h).role = .leaf sym) (hb : s.bitsLeft = path ++ rest) :
    ∃ u, s.Lands h sym u ∧ u.bitsLeft = rest ∧ u.cnt.toNat ≤ 7 ∧ u.bitsAhead.length = rest.length - 1 := by
  obtain ⟨bit, v, hd, r, hcnt, same⟩ := descend_firstBit_of_path w hc e (by rw [hr]; nofun) hb
  have hne : path ≠ [] := by
    rintro rfl
    cases e
    have := w.root_not_leaf
    rw [hr] at this
    cases this
  refine ⟨holdBit v bit, ⟨bit, v, hd, landedSymbol_leaf ?_⟩, r.holdBit_bitsLeft, ?_, ?_⟩
  · rw [(holdBit_same v bit).tree, same]; exact hr
  · have := hcnt hne
    cases bit <;> exact this
  · rw [← r.ahead_length]
    cases bit <;> rfl

/-- Bits left that begin with the Escape path and eight bits land on the Escape node with their symbol (R241). -/
theorem State.lands_escape (w : s.tree.WellFormed) (hc : s.cnt.toNat ≤ 8)
    (e : s.tree.walk root path = some s.tree.esc) (hb : s.bitsLeft = path ++ symbolBits sym ++ rest) :
    ∃ u, s.Lands s.tree.esc sym u ∧ u.bitsLeft = rest ∧ u.cnt.toNat ≤ 7 ∧ u.pendValid = false ∧ u.bitsAhead = rest := by
  have hrole := w.escape.role
  rw [List.append_assoc] at hb
  obtain ⟨bit, v, hd, r, _, same⟩ := descend_firstBit_of_path w hc e (by rw [hrole]; nofun) hb
  obtain ⟨u, hu, hahead, hcnt, hpend⟩ := rawSymbol_of_bits r
  refine ⟨u, ⟨bit, v, hd, ?_⟩, by rw [State.bitsLeft, hpend, hahead]; rfl, hcnt, hpend, hahead⟩
  rw [landedSymbol_escape (by rw [(holdBit_same v bit).tree, same]; exact hrole)]
  exact hu

/-- The bits left end at an Internal node, or within the raw bits after the Escape path (R242). -/
def State.OutOfBits (s : State) : Prop :=
  (∃ x, s.tree.walk root s.bitsLeft = some x ∧ (s.tree.get x).role = .internal) ∨
    ∃ path raw, s.tree.walk root path = some s.tree.esc ∧ s.bitsLeft = path ++ raw ∧ raw.length < 8

/-- `DECODE` raises `StreamExhausted` when the bits left run out, with every bit read (R242). -/
theorem State.OutOfBits.decodeBody_raised (o : s.OutOfBits) (w : s.tree.WellFormed) (hc : s.cnt.toNat ≤ 8)
    (hw : weightFull s = false) : ∃ u, decodeBody s = .raised .streamExhausted u ∧ u.bitsAhead = [] := by
  have same : (firstBit s).2.tree = s.tree := (firstBit_same s).tree
  obtain ⟨x, e, hi⟩ | ⟨path, raw, e, hb, hlen⟩ := o
  · obtain ⟨u, hd, hahead⟩ := descend_exhausted (same ▸ w.localLinks) (same ▸ w.root_has) (same ▸ e) (same ▸ hi)
      (w.localLinks.path_length_le e) (firstBit_reading hc)
    exact ⟨u, Machine.decodeBody_raised.2 (.inr ⟨hw, .inl hd⟩), hahead⟩
  · have hrole := w.escape.role
    obtain ⟨bit, v, hd, r, _, same⟩ := descend_firstBit_of_path w hc e (by rw [hrole]; nofun) hb
    obtain ⟨u, hu, hahead⟩ := rawSymbol_exhausted r hlen
    refine ⟨u, Machine.decodeBody_raised.2 (.inr ⟨hw, .inr ⟨_, bit, v, hd, .inl ?_⟩⟩), hahead⟩
    rw [landedSymbol_escape (by rw [(holdBit_same v bit).tree, same]; exact hrole)]
    exact hu

/-- The bits left begin with a Leaf's code, or with the Escape path and a raw symbol, or run out (R100, R242). -/
theorem State.bitsLeft_cases (s : State) (w : s.tree.WellFormed) :
    (∃ h path rest sym, s.tree.has h ∧ s.tree.walk root path = some h ∧ (s.tree.get h).role = .leaf sym ∧
      s.bitsLeft = path ++ rest) ∨
    (∃ path rest sym, s.tree.walk root path = some s.tree.esc ∧ s.bitsLeft = path ++ symbolBits sym ++ rest) ∨
    s.OutOfBits := by
  obtain ⟨path, rest, h, hb, e, hh, hi⟩ | hout := w.localLinks.walk_cases w.root_has s.bitsLeft
  · cases hr : (s.tree.get h).role with
    | internal => exact absurd hr hi
    | leaf sym => exact .inl ⟨h, path, rest, sym, hh, e, hr, hb⟩
    | escape =>
      rw [w.escape.unique h hh hr] at e
      by_cases hlen : rest.length < 8
      · exact .inr (.inr (.inr ⟨path, rest, e, hb, hlen⟩))
      · obtain ⟨sym, hsym⟩ := exists_symbolBits (l := rest.take 8) (by simp; omega)
        refine .inr (.inl ⟨path, rest.drop 8, sym, e, ?_⟩)
        rw [hb, hsym, List.append_assoc, List.take_append_drop]
  · exact .inr (.inr (.inl hout))

end

end Sys2Proof.Machine
end

section
/-! Every outcome of a command word (spec/46_system_commands.md R262 to R266): one predicate that says what a word can do to
the state, and the statements about words that follow from it. -/

namespace Sys2Proof.Machine

theorem weightFull_eq_false_iff {s : State} : weightFull s = false ↔ s.tree.rootWeight ≠ s.cfg.wmax := by
  rw [Bool.eq_false_iff, ne_eq, weightFull_iff]

/-! ### The outcomes of a guarded command -/

/-- A command that is dispatched in the order of R262 is refused, is illegal, or ends as its body does. -/
theorem guarded_finish_cases {α : Type} {legal : Bool} {s t : State} {body : State → Res α} {done : α → State → State}
    (h : guarded legal s (fun s => (body s).finish done) = .next t) :
    (s.engine = .faulted ∧ t = s.refuse) ∨
    (s.engine ≠ .faulted ∧ legal = false ∧ t = s.raiseFault .illegalCommand) ∨
    (legal = true ∧ ((∃ a u, body s = .ok a u ∧ t = done a u) ∨ ∃ k u, body s = .raised k u ∧ t = u.raiseFault k)) := by
  obtain ⟨hf, hg⟩ | ⟨hf, hl, hg⟩ | ⟨_, hl, hg⟩ := guarded_cases legal s (fun s => (body s).finish done) <;> rw [hg] at h
  · exact .inl ⟨hf, (Host.Outcome.next.inj h).symm⟩
  · exact .inr (.inl ⟨hf, hl, (Host.Outcome.next.inj h).symm⟩)
  · obtain ⟨a, u, hb, hd⟩ | ⟨k, u, hb, hd⟩ := Res.finish_cases (body s) done <;> rw [hd] at h
    · exact .inr (.inr ⟨hl, .inl ⟨a, u, hb, (Host.Outcome.next.inj h).symm⟩⟩)
    · exact .inr (.inr ⟨hl, .inr ⟨k, u, hb, (Host.Outcome.next.inj h).symm⟩⟩)

theorem exec_encode_cases {sym : Symbol} {s t : State} (h : exec (.encode sym) s = .next t) :
    (s.engine = .faulted ∧ t = s.refuse) ∨
    (s.engine ≠ .faulted ∧ legalNow (.encode sym) s = false ∧ t = s.raiseFault .illegalCommand) ∨
    (s.engine = .active ∧ s.mode = .enc ∧
      ((∃ u, encodeBody sym s = .ok () u ∧ t = u.respond statusOk 0) ∨
        ∃ k u, encodeBody sym s = .raised k u ∧ t = u.raiseFault k)) := by
  obtain h | h | ⟨hl, h⟩ := guarded_finish_cases h
  · exact .inl h
  · exact .inr (.inl h)
  · obtain ⟨ha, hm⟩ := (encoderLegal_iff s).1 hl
    exact .inr (.inr ⟨ha, hm, h.imp_left fun ⟨_, u, h⟩ => ⟨u, h⟩⟩)

theorem exec_decode_cases {s t : State} (h : exec .decode s = .next t) :
    (s.engine = .faulted ∧ t = s.refuse) ∨
    (s.engine ≠ .faulted ∧ legalNow .decode s = false ∧ t = s.raiseFault .illegalCommand) ∨
    (s.engine = .active ∧ s.mode = .dec ∧
      ((∃ sym u, decodeBody s = .ok sym u ∧ t = u.respond statusOk (sym.setWidth 64)) ∨
        ∃ k u, decodeBody s = .raised k u ∧ t = u.raiseFault k)) := by
  obtain h | h | ⟨hl, h⟩ := guarded_finish_cases h
  · exact .inl h
  · exact .inr (.inl h)
  · obtain ⟨ha, hm⟩ := (decoderLegal_iff s).1 hl
    exact .inr (.inr ⟨ha, hm, h⟩)

theorem exec_flush_cases {s t : State} (h : exec .flush s = .next t) :
    (s.engine = .faulted ∧ t = s.refuse) ∨
    (s.engine ≠ .faulted ∧ legalNow .flush s = false ∧ t = s.raiseFault .illegalCommand) ∨
    (s.engine = .active ∧ s.mode = .enc ∧ t = { flushBits s with engine := .flushed }.respond statusOk 0) := by
  rw [exec, execFlush] at h
  obtain ⟨hf, hg⟩ | ⟨hf, hl, hg⟩ | ⟨_, hl, hg⟩ := guarded_cases (encoderLegal s) s
    (fun s => .next ({ flushBits s with engine := .flushed }.respond statusOk 0)) <;> rw [hg] at h
  · exact .inl ⟨hf, (Host.Outcome.next.inj h).symm⟩
  · exact .inr (.inl ⟨hf, hl, (Host.Outcome.next.inj h).symm⟩)
  · obtain ⟨ha, hm⟩ := (encoderLegal_iff s).1 hl
    exact .inr (.inr ⟨ha, hm, (Host.Outcome.next.inj h).symm⟩)

/-- In an open encoder `ENCODE` is its body. -/
theorem exec_encode_of_legal {s : State} (ha : s.engine = .active) (hm : s.mode = .enc) (sym : Symbol) :
    exec (.encode sym) s = (encodeBody sym s).finish fun _ u => u.respond statusOk 0 := by
  rw [exec, execEncode, (encoderLegal_iff s).2 ⟨ha, hm⟩, guarded_legal _ (by simp [ha])]

/-- In an open decoder `DECODE` is its body. -/
theorem exec_decode_of_legal {s : State} (ha : s.engine = .active) (hm : s.mode = .dec) :
    exec .decode s = (decodeBody s).finish fun sym u => u.respond statusOk (sym.setWidth 64) := by
  rw [exec, execDecode, (decoderLegal_iff s).2 ⟨ha, hm⟩, guarded_legal _ (by simp [ha])]

/-! ### No step stops -/

theorem guarded_next {legal : Bool} {s : State} {body : State → Result} (h : ∃ t, body s = .next t) :
    ∃ t, guarded legal s body = .next t := by
  obtain ⟨_, hg⟩ | ⟨_, _, hg⟩ | ⟨_, _, hg⟩ := guarded_cases legal s body <;> rw [hg]
  · exact ⟨_, rfl⟩
  · exact ⟨_, rfl⟩
  · exact h

theorem Res.finish_next {α : Type} (r : Res α) (done : α → State → State) : ∃ t, r.finish done = .next t := by
  cases r <;> exact ⟨_, rfl⟩

theorem exec_next (i : Instr) (s : State) : ∃ t, exec i s = .next t := by
  cases i with
  | init m st => exact ⟨_, exec_init m st s⟩
  | encode sym => rw [exec, execEncode]; exact guarded_next (Res.finish_next _ _)
  | flush => rw [exec, execFlush]; exact guarded_next ⟨_, rfl⟩
  | decode => rw [exec, execDecode]; exact guarded_next (Res.finish_next _ _)
  | rdreg reg =>
    obtain ⟨v, n, h⟩ := exec_rdreg reg s
    exact ⟨_, h⟩

theorem runWord_next (c : CmdWord) (s : State) : ∃ t, runWord c s = .next t := by
  cases hc : decode c with
  | ok i => rw [runWord_of_decode hc]; exact exec_next i s
  | error e => rw [runWord_of_illegalEncoding hc]; exact guarded_next ⟨_, rfl⟩

theorem runWordCut_of_next {c : CmdWord} {s full : State} (h : runWord c s = .next full) (done : Nat) :
    runWordCut c done s = .next (s.cutByReset full done) := by
  rw [runWordCut, h]

/-- Settles O6: every command word leads to a next state, and the host's other acts are total. -/
theorem stepNeverStops : Obligations.StepNeverStops := by
  unfold Obligations.StepNeverStops
  intro s
  unfold step
  split
  · exact ⟨s, rfl⟩
  · next i rest _ =>
    cases i with
    | command c => exact runWord_next c _
    | reset => exact ⟨_, rfl⟩
    | resetDuring c done =>
      obtain ⟨full, h⟩ := runWord_next c { s with channel := rest }
      exact ⟨_, runWordCut_of_next h done⟩
    | attachSource bytes => exact ⟨_, rfl⟩
    | attachSink bytes => exact ⟨_, rfl⟩

/-- Settles O5: by the equations of `step` and `runWord`, and the dispatch of a word that matches no row. -/
theorem stepRunsDecodedCommand : Obligations.StepRunsDecodedCommand := by
  unfold Obligations.StepRunsDecodedCommand
  intro s c rest hc
  have hstep := step_of_command hc
  refine ⟨hstep, fun i hi => hstep.trans (runWord_of_decode hi _), fun e he => ⟨fun hs => ?_, fun hs => ?_⟩⟩
  · exact hstep.trans (runWord_of_faulted hs (.inl ⟨e, he⟩))
  · exact hstep.trans (runWord_of_illegal hs (.inl ⟨e, he⟩))

/-! ### States within a command -/

/-- `u` is a state within a stream command that began in `s` and has not updated the tree: bits were emitted or read, and
no byte access is undone. -/
structure State.Working (s u : State) : Prop where
  cfg : u.cfg = s.cfg
  tree : u.tree = s.tree
  mode : u.mode = s.mode
  strategy : u.strategy = s.strategy
  engine : u.engine = s.engine
  faultCode : u.faultCode = s.faultCode
  src : u.src = s.src
  channel : u.channel = s.channel
  responses : u.responses = s.responses
  sink : s.sink <+: u.sink
  srcPos : s.srcPos ≤ u.srcPos
  encoder : s.mode = .enc → (s.BufferOk → u.BufferOk) ∧ u.pendValid = s.pendValid ∧ u.pendBit = s.pendBit
  decoder : s.mode = .dec → s.cnt.toNat ≤ 8 → u.cnt.toNat ≤ 8

theorem State.Working.refl (s : State) : s.Working s :=
  ⟨rfl, rfl, rfl, rfl, rfl, rfl, rfl, rfl, rfl, List.prefix_rfl, le_rfl, fun _ => ⟨id, rfl, rfl⟩, fun _ => id⟩

/-- Emitting a code. -/
theorem emitCode_working {s : State} (hm : s.mode = .enc) (h : Handle) (path : List Bool) (sym : Symbol) :
    s.Working (emitCode s h path sym) where
  cfg := by simp
  tree := by simp
  mode := by simp
  strategy := by simp
  engine := by simp
  faultCode := by simp
  src := by simp
  channel := by simp
  responses := by simp
  sink := by
    obtain ⟨bytes, hsink, _⟩ := putBits_sink s (path ++ if h = s.tree.esc then symbolBits sym else [])
    exact ⟨bytes, by rw [emitCode_bits, hsink]⟩
  srcPos := by simp
  encoder := fun _ => ⟨fun hs => (emitCode_bitsOut h path sym hs).2, by simp, by simp⟩
  decoder := fun hd => by rw [hm] at hd; cases hd

/-- Reading bits. -/
theorem State.ReadsUpTo.working {m : Nat} {s u : State} (r : s.ReadsUpTo m u) (hm : s.mode = .dec) : s.Working u := by
  obtain ⟨same, ⟨n, hpos, _, _, hcnt⟩, _⟩ := r
  exact
    { cfg := same.cfg, tree := same.tree, mode := same.mode, strategy := same.strategy, engine := same.engine
      faultCode := same.faultCode, src := same.src, channel := same.channel, responses := same.responses
      sink := by rw [same.sink]
      srcPos := by omega
      encoder := fun he => by rw [hm] at he; cases he
      decoder := fun _ h => by omega }

/-! ### What a word can do -/

/-- What a word can do to a state, by what it decodes to: `INIT`, `RDREG`, the refusal in `FAULTED`, `IllegalCommand`, a
fault within a legal stream command, an `ENCODE` or a `DECODE` that updated the tree, and `FLUSH` (R262 to R266). -/
inductive State.Effect (s : State) : Except DecodeError Instr → State → Prop
  | opened (m : Mode) (st : Strategy) : s.Effect (.ok (.init m st)) ((s.openStream m st).respond statusOk 0)
  | answered (reg : Reg) (v : RegWord) (n : Nat) :
    s.Effect (.ok (.rdreg reg)) ({ s with freeCount := n }.respond statusOk v)
  | refused {r : Except DecodeError Instr} (hs : s.engine = .faulted) (hr : ∀ i, r = .ok i → isStreamCommand i = true) :
    s.Effect r s.refuse
  | illegal {r : Except DecodeError Instr} (hs : s.engine ≠ .faulted)
    (hr : ∀ i, r = .ok i → isStreamCommand i = true ∧ legalNow i s = false) :
    s.Effect r (s.raiseFault .illegalCommand)
  | faulted {i : Instr} (hi : isStreamCommand i = true) (ha : s.engine = .active) {u : State} {k : FaultKind}
    (w : s.Working u)
    (cause : k ≠ .allocationFailure ∨ ∃ h sym, update s.strategy s.cfg.wmax s.tree h sym = .error k) :
    s.Effect (.ok i) (u.raiseFault k)
  | updated {i : Instr} {sym : Symbol} {data : RegWord}
    (hi : i = .encode sym ∧ data = 0 ∨ i = .decode ∧ data = sym.setWidth 64) (ha : s.engine = .active) {u : State}
    (w : s.Working u) (below : s.tree.rootWeight ≠ s.cfg.wmax) {h : Handle} {tree : Tree}
    (node : s.tree.WellFormed → s.tree.IsNodeOf h sym) (e : update s.strategy s.cfg.wmax s.tree h sym = .ok tree) :
    s.Effect (.ok i) ((u.withTree tree).respond statusOk data)
  | flushed (ha : s.engine = .active) (hm : s.mode = .enc) :
    s.Effect (.ok .flush) ({ flushBits s with engine := .flushed }.respond statusOk 0)

/-- The searches and the reading of bits raise no `AllocationFailure`. -/
theorem exactlyOne_error {l : List Handle} {k : FaultKind} (e : exactlyOne l = .error k) : k = .invariantViolation := by
  unfold exactlyOne at e
  split at e
  · cases e
  · exact (Except.error.inj e).symm

theorem locate_error {t : Tree} {sym : Symbol} {k : FaultKind} (e : locate t sym = .error k) : k = .invariantViolation := by
  unfold locate at e
  split at e
  · exact exactlyOne_error e
  · cases e

theorem pathUp_error {t : Tree} {fuel : Nat} {x : Handle} {bits : List Bool} {k : FaultKind}
    (e : pathUp t fuel x bits = .error k) : k = .invariantViolation := by
  induction fuel generalizing x bits with
  | zero =>
    cases hp : (t.get x).parent with
    | none => rw [pathUp_top t hp] at e; cases e
    | some p => unfold pathUp at e; rw [hp] at e; exact (Except.error.inj e).symm
  | succ fuel ih =>
    cases hp : (t.get x).parent with
    | none => rw [pathUp_top t hp] at e; cases e
    | some p => rw [pathUp_step t hp] at e; exact ih e

theorem descend_raised {fuel : Nat} {cur : Handle} {bit : Option Bool} {s u : State} {k : FaultKind}
    (e : descend fuel cur bit s = .raised k u) : k = .streamExhausted ∨ k = .invariantViolation := by
  induction fuel generalizing cur bit s with
  | zero =>
    by_cases hi : (s.tree.get cur).role = .internal
    · cases bit with
      | none => rw [descend_eos hi] at e; cases e; exact .inl rfl
      | some b =>
        cases hc : s.tree.child cur b with
        | none => rw [descend_childless hi hc] at e; cases e; exact .inr rfl
        | some c => rw [descend_deep hi hc] at e; cases e; exact .inr rfl
    · rw [descend_leaf hi] at e; cases e
  | succ fuel ih =>
    by_cases hi : (s.tree.get cur).role = .internal
    · cases bit with
      | none => rw [descend_eos hi] at e; cases e; exact .inl rfl
      | some b =>
        cases hc : s.tree.child cur b with
        | none => rw [descend_childless hi hc] at e; cases e; exact .inr rfl
        | some c => rw [descend_step hi hc] at e; exact ih e
    · rw [descend_leaf hi] at e; cases e

theorem getBit_raised {s u : State} {k : FaultKind} (e : getBit s = .raised k u) : k = .streamExhausted := by
  obtain ⟨b, _, h⟩ | ⟨_, h⟩ := getBit_cases s
  · rw [h] at e; cases e
  · rw [h] at e; cases e; rfl

theorem rawBits_raised {n : Nat} {sym : Symbol} {s u : State} {k : FaultKind} (e : rawBits n sym s = .raised k u) :
    k = .streamExhausted := by
  induction n generalizing sym s with
  | zero => cases e
  | succ n ih =>
    rw [rawBits_succ] at e
    obtain h | ⟨b, v, _, h⟩ := Res.bind_raised.1 e
    · exact getBit_raised h
    · exact ih h

theorem landedSymbol_raised {cur : Handle} {s u : State} {k : FaultKind} (e : landedSymbol cur s = .raised k u) :
    k = .streamExhausted ∨ k = .invariantViolation := by
  cases hr : (s.tree.get cur).role with
  | internal => rw [landedSymbol_internal hr] at e; cases e; exact .inr rfl
  | leaf sym => rw [landedSymbol_leaf hr] at e; cases e
  | escape =>
    rw [landedSymbol_escape hr] at e
    cases hp : s.pendValid with
    | false => rw [rawSymbol_eos hp] at e; cases e; exact .inl rfl
    | true => rw [rawSymbol_pending hp] at e; exact .inl (rawBits_raised e)

theorem exec_encode_effect {sym : Symbol} {s t : State} (h : exec (.encode sym) s = .next t) :
    s.Effect (.ok (.encode sym)) t := by
  obtain ⟨hs, rfl⟩ | ⟨hs, hl, rfl⟩ | ⟨ha, hm, ⟨u, hb, rfl⟩ | ⟨k, u, hb, rfl⟩⟩ := exec_encode_cases h
  · exact .refused hs fun i hi => by cases hi; rfl
  · exact .illegal hs fun i hi => by cases hi; exact ⟨rfl, hl⟩
  · obtain ⟨hw, x, path, tree, hloc, _, hu, rfl⟩ := encodeBody_ok.1 hb
    exact .updated (.inl ⟨rfl, rfl⟩) ha (emitCode_working hm x path sym)
      (weightFull_eq_false_iff.1 hw) (fun w => w.isNodeOf_of_locate hloc) hu
  · obtain ⟨_, rfl, rfl⟩ | ⟨_, ⟨hloc, rfl⟩ | ⟨x, _, hp, rfl⟩ | ⟨x, path, _, _, hu, rfl⟩⟩ := encodeBody_raised.1 hb
    · exact .faulted rfl ha (.refl _) (.inl nofun)
    · exact .faulted rfl ha (.refl _) (.inl (by rw [locate_error hloc]; nofun))
    · exact .faulted rfl ha (.refl _) (.inl (by rw [pathUp_error hp]; nofun))
    · exact .faulted rfl ha (emitCode_working hm x path sym) (.inr ⟨x, sym, hu⟩)

theorem exec_decode_effect {s t : State} (h : exec .decode s = .next t) : s.Effect (.ok .decode) t := by
  obtain ⟨hs, rfl⟩ | ⟨hs, hl, rfl⟩ | ⟨ha, hm, ⟨sym, u, hb, rfl⟩ | ⟨k, u, hb, rfl⟩⟩ := exec_decode_cases h
  · exact .refused hs fun i hi => by cases hi; rfl
  · exact .illegal hs fun i hi => by cases hi; exact ⟨rfl, hl⟩
  · obtain ⟨hw, cur, bit, v, u, tree, hd, hl, hu, rfl⟩ := decodeBody_ok.1 hb
    have lands : s.Lands cur sym u := ⟨bit, v, hd, hl⟩
    have same := lands.reads.same
    rw [same.strategy, same.cfg, same.tree] at hu
    exact .updated (.inr ⟨rfl, rfl⟩) ha (lands.reads.working hm)
      (weightFull_eq_false_iff.1 hw) lands.isNodeOf hu
  · obtain ⟨_, rfl, rfl⟩ | ⟨_, hd | ⟨cur, bit, v, hd, hl | ⟨sym, hl, hu⟩⟩⟩ := decodeBody_raised.1 hb
    · exact .faulted rfl ha (.refl _) (.inl nofun)
    · refine .faulted rfl ha ((descend_firstBit_reads hd).working hm) (.inl ?_)
      obtain rfl | rfl := descend_raised hd <;> nofun
    · refine .faulted rfl ha ((landedSymbol_after_descend_reads hd hl).working hm) (.inl ?_)
      obtain rfl | rfl := landedSymbol_raised hl <;> nofun
    · have reads := landedSymbol_after_descend_reads hd hl
      have same : s.SameStream u := reads.same
      rw [same.strategy, same.cfg, same.tree] at hu
      exact .faulted rfl ha (reads.working hm) (.inr ⟨cur, sym, hu⟩)

theorem exec_effect {i : Instr} {s t : State} (h : exec i s = .next t) : s.Effect (.ok i) t := by
  cases i with
  | init m st => cases h; exact .opened m st
  | encode sym => exact exec_encode_effect h
  | flush =>
    obtain ⟨hs, rfl⟩ | ⟨hs, hl, rfl⟩ | ⟨ha, hm, rfl⟩ := exec_flush_cases h
    · exact .refused hs fun i hi => by cases hi; rfl
    · exact .illegal hs fun i hi => by cases hi; exact ⟨rfl, hl⟩
    · exact .flushed ha hm
  | decode => exact exec_decode_effect h
  | rdreg reg =>
    obtain ⟨v, n, hv⟩ := exec_rdreg reg s
    rw [hv] at h
    cases h
    exact .answered reg v n

theorem runWord_effect {c : CmdWord} {s t : State} (h : runWord c s = .next t) : s.Effect (decode c) t := by
  cases hc : decode c with
  | ok i => exact exec_effect (runWord_of_decode hc s ▸ h)
  | error e =>
    rw [runWord_of_illegalEncoding hc, illegalEncoding] at h
    obtain ⟨hs, hg⟩ | ⟨hs, _, hg⟩ | ⟨_, hl, _⟩ := guarded_cases false s (fun t => .next t)
    · rw [hg] at h; cases h; exact .refused hs nofun
    · rw [hg] at h; cases h; exact .illegal hs nofun
    · cases hl

/-! ### Statements about one word -/

/-- No word takes back a byte access, or alters the source's bytes (R61, R62, R290). -/
theorem State.Effect.keepsBytes {s t : State} {r : Except DecodeError Instr} (e : s.Effect r t) :
    s.sink <+: t.sink ∧ s.srcPos ≤ t.srcPos ∧ t.src = s.src := by
  cases e with
  | opened | answered | refused | illegal => exact ⟨List.prefix_rfl, le_rfl, rfl⟩
  | faulted _ _ w | updated _ _ w => exact ⟨w.sink, w.srcPos, w.src⟩
  | flushed =>
    obtain ⟨bytes, hsink, _⟩ := flushBits_sink s
    exact ⟨⟨bytes, hsink.symm⟩, (flushBits_srcPos s).ge, flushBits_src s⟩

/-- Settles O11: the word enters `FAULTED` with its code, and no word takes back a byte access. -/
theorem faultEntry : Obligations.FaultEntry := by
  unfold Obligations.FaultEntry
  intro c s t h hs ht
  obtain ⟨k, hcode, hresp⟩ := runWord_faultEntered hs h ht
  exact ⟨k, hcode, hresp, (runWord_effect h).keepsBytes⟩

/-- Settles O13: the whole word only adds byte accesses, and the reset keeps the first of them. -/
theorem resetDuringCommand : Obligations.ResetDuringCommand := by
  unfold Obligations.ResetDuringCommand
  intro s c done rest hc
  obtain ⟨full, h⟩ := runWord_next c { s with channel := rest }
  obtain ⟨hsink, hpos, _⟩ := (runWord_effect h).keepsBytes
  refine ⟨full, { s with channel := rest }.cutByReset full done, h, ?_, hsink, hpos, rfl, rfl, rfl, rfl, rfl, rfl, rfl, rfl⟩
  rw [step, hc]
  exact runWordCut_of_next h done

/-- Settles O7: by what a word can do; in `FAULTED` the refusal repeats a fault's code. -/
theorem oneResponsePerWord : Obligations.OneResponsePerWord := by
  unfold Obligations.OneResponsePerWord
  intro s c ok
  obtain ⟨t, h⟩ := runWord_next c s
  have e := runWord_effect h
  refine ⟨t, ?_⟩
  generalize decode c = r at e
  cases e with
  | opened m st => exact ⟨_, h, rfl, .inl rfl, nofun, fun _ => rfl, fun _ hn => absurd rfl (hn m st)⟩
  | answered reg v n => exact ⟨_, h, rfl, .inl rfl, fun _ => rfl, nofun, fun hn => absurd rfl (hn reg)⟩
  | refused hs hr =>
    refine ⟨_, h, rfl, .inr (ok.faulted hs), ?_, ?_, fun _ _ => .inl ⟨hs, rfl⟩⟩
    · rintro ⟨_, hi⟩; exact nomatch hr _ hi
    · rintro ⟨_, _, hi⟩; exact nomatch hr _ hi
  | illegal hs hr =>
    refine ⟨_, h, rfl, .inr ⟨.illegalCommand, rfl⟩, ?_, ?_, fun _ _ => .inl ⟨rfl, rfl⟩⟩
    · rintro ⟨_, hi⟩; exact nomatch (hr _ hi).1
    · rintro ⟨_, _, hi⟩; exact nomatch (hr _ hi).1
  | @faulted i hi _ u k w _ =>
    refine ⟨{ status := k.code, data := 0 }, h, by rw [State.raiseFault_responses, w.responses], .inr ⟨k, rfl⟩, ?_, ?_,
      fun _ _ => .inl ⟨rfl, rfl⟩⟩
    · rintro ⟨_, ⟨⟩⟩; cases hi
    · rintro ⟨_, _, ⟨⟩⟩; cases hi
  | @updated i sym data hi ha u w =>
    refine ⟨{ status := statusOk, data := data }, h, ?_, .inl rfl, fun _ => rfl, ?_, fun _ _ => .inr ⟨?_, rfl, ?_, ?_⟩⟩
    · rw [State.respond_responses, State.withTree_responses, w.responses]
    · rintro ⟨_, _, ⟨⟩⟩
      obtain ⟨hi, _⟩ | ⟨hi, _⟩ := hi <;> cases hi
    · rw [State.respond_engine, State.withTree_engine, w.engine, ha]; nofun
    · intro hn
      obtain ⟨_, hdata⟩ | ⟨rfl, _⟩ := hi
      · exact hdata
      · exact absurd rfl hn
    · rintro ⟨⟩
      obtain ⟨hi, _⟩ | ⟨_, rfl⟩ := hi
      · cases hi
      · rw [BitVec.toNat_setWidth]
        exact (Nat.mod_le _ _).trans_lt (BitVec.isLt _)
  | flushed ha hm =>
    refine ⟨{ status := statusOk, data := 0 }, h, ?_, .inl rfl, fun _ => rfl, nofun,
      fun _ _ => .inr ⟨nofun, rfl, fun _ => rfl, nofun⟩⟩
    rw [State.respond_responses]
    exact congrArg (· ++ _) (flushBits_responses s)

/-- Settles O10: by what a word can do, whose clauses carry the state it was given in. -/
theorem stateTransitions : Obligations.StateTransitions := by
  unfold Obligations.StateTransitions
  refine ⟨fun s t c h => ?_, fun _ => rfl, fun _ _ => ⟨rfl, rfl⟩⟩
  have e := runWord_effect h
  generalize decode c = r at e
  refine ⟨fun m st hr => ?_, fun reg hr => ?_, fun hinit hreg => ?_⟩
  · subst hr
    cases e with
    | opened => rfl
    | refused _ hr => exact nomatch hr _ rfl
    | illegal _ hr => exact nomatch (hr _ rfl).1
    | faulted hi => cases hi
    | updated hi => obtain ⟨hi, _⟩ | ⟨hi, _⟩ := hi <;> cases hi
  · subst hr
    cases e with
    | answered => rfl
    | refused _ hr => exact nomatch hr _ rfl
    | illegal _ hr => exact nomatch (hr _ rfl).1
    | faulted hi => cases hi
    | updated hi => obtain ⟨hi, _⟩ | ⟨hi, _⟩ := hi <;> cases hi
  · cases e with
    | opened m st => exact absurd rfl (hinit m st)
    | answered reg => exact absurd rfl (hreg reg)
    | refused hs => rw [hs]; exact ⟨hs, rfl⟩
    | illegal hs =>
      cases hs' : s.engine with
      | faulted => exact absurd hs' hs
      | uninit | flushed => exact ⟨rfl, rfl⟩
      | active => exact .inl rfl
    | faulted _ ha => rw [ha]; exact .inl rfl
    | updated hi ha w =>
      rw [ha]
      refine .inr (.inr ⟨w.engine.trans ha, ?_⟩)
      obtain ⟨rfl, _⟩ | ⟨rfl, _⟩ := hi
      · exact .inl ⟨_, rfl⟩
      · exact .inr rfl
    | flushed ha => rw [ha]; exact .inr (.inl ⟨rfl, rfl⟩)

/-! ### Reset, `INIT` and `RDREG` -/

/-- Settles O12: the step is `hardwareReset`. -/
theorem hardwareResetStep : Obligations.HardwareResetStep := by
  unfold Obligations.HardwareResetStep
  intro s rest hc
  refine ⟨{ s with channel := rest }.hardwareReset, ?_, rfl, rfl, rfl, rfl, rfl, rfl, rfl, rfl, rfl⟩
  rw [step, hc]
  rfl

/-- Settles O14: both are fields of the reset state. -/
theorem resetState : Obligations.ResetState := ⟨rfl, rfl⟩

/-- Settles O15: in `UNINIT` no stream is live, so the invariants of the tree ask nothing. -/
theorem resetMeetsInvariants : Obligations.ResetMeetsInvariants := by
  unfold Obligations.ResetMeetsInvariants
  have notLive : ¬ State.reset.live := by rintro (h | h) <;> cases h
  exact ⟨⟨fun _ => rfl, nofun, nofun, fun h => absurd h notLive, fun h => absurd h notLive⟩,
    fun h => absurd h notLive, fun h => absurd h notLive, fun h => absurd h notLive⟩

/-- Settles O17: `openStream` writes every register but those outside the engine and the parameters. -/
theorem initErasesThePast : Obligations.InitErasesThePast := by
  unfold Obligations.InitErasesThePast
  intro s₁ s₂ t₁ t₂ m st hcfg h₁ h₂
  cases h₁
  cases h₂
  simp only [State.respond, State.openStream, hcfg]

end Sys2Proof.Machine
end

section
/-! The registers as `RDREG` shows them (spec/46_system_commands.md R261, spec/10_state.md R34, R35), and the weight
pre-check (spec/60_exceptions.md R286). -/

namespace Sys2Proof.Machine

/-! ### The bits of `STATUS` -/

theorem getLsbD_bitWord_shift (b : Bool) {i : Nat} (hi : i < 64) (n : Nat) :
    (bitWord b <<< n).getLsbD i = (decide (i = n) && b) := by
  have word (j : Nat) : (bitWord b).getLsbD j = (decide (j = 0) && b) := by
    cases j with
    | zero => cases b <;> rfl
    | succ j =>
      rw [bitWord, BitVec.getLsbD_setWidth, BitVec.getLsbD_of_ge _ _ (by omega)]
      simp
  rw [BitVec.getLsbD_shiftLeft, word]
  by_cases h : i = n
  · simp [h, h ▸ hi]
  · have : i < n ∨ i - n ≠ 0 := by omega
    rcases this with h' | h' <;> simp [h, h']

theorem getLsbD_field_shift {w : Nat} (v : BitVec w) {i : Nat} (hi : i < 64) (n : Nat) :
    (v.setWidth 64 <<< n).getLsbD i = (decide (n ≤ i) && v.getLsbD (i - n)) := by
  rw [BitVec.getLsbD_shiftLeft, BitVec.getLsbD_setWidth]
  by_cases h : n ≤ i
  · simp [hi, h, Nat.not_lt.2 h, Nat.lt_of_le_of_lt (Nat.sub_le i n) hi]
  · simp [hi, h, Nat.lt_of_not_le h]

/-- A bit of the fields specified in every state (R34). -/
theorem getLsbD_statusAlways (s : State) {i : Nat} (hi : i < 64) :
    (statusAlways s).getLsbD i = (s.engine.code.getLsbD i || (decide (4 ≤ i) && s.faultCode.getLsbD (i - 4))) := by
  rw [statusAlways, BitVec.getLsbD_or, BitVec.getLsbD_setWidth, getLsbD_field_shift _ hi]
  simp [hi]

/-- A bit of `STATUS` in `ACTIVE` and `FLUSHED` (R34). -/
theorem getLsbD_statusSpecified (s : State) {i : Nat} (hi : i < 64) :
    (statusSpecified s).getLsbD i =
      ((s.engine.code.getLsbD i || (decide (4 ≤ i) && s.faultCode.getLsbD (i - 4)))
        || (decide (i = 2) && s.mode.toBit) || (decide (i = 3) && s.strategy.toBit)
        || (decide (8 ≤ i) && s.cnt.getLsbD (i - 8)) || (decide (i = 12) && s.pendValid)
        || (decide (i = 13) && s.pendBit)) := by
  simp only [statusSpecified, BitVec.getLsbD_or, getLsbD_bitWord_shift _ hi, getLsbD_field_shift _ hi,
    getLsbD_statusAlways s hi]

/-- The fields of `STATUS` (R34): each bit belongs to one field, and a field has no bit beyond its width. -/
theorem statusSpecified_fields (s : State) :
    (statusSpecified s).extractLsb' 0 2 = s.engine.code ∧ (statusSpecified s).getLsbD 2 = s.mode.toBit ∧
    (statusSpecified s).getLsbD 3 = s.strategy.toBit ∧ (statusSpecified s).extractLsb' 4 4 = s.faultCode ∧
    (statusSpecified s).extractLsb' 8 4 = s.cnt ∧ (statusSpecified s).getLsbD 12 = s.pendValid ∧
    (statusSpecified s).getLsbD 13 = s.pendBit ∧ (statusSpecified s).extractLsb' 14 50 = 0 := by
  have field (start len i : Nat) (hi : i < len) (h : start + i < 64) :
      ((statusSpecified s).extractLsb' start len).getLsbD i = (statusSpecified s).getLsbD (start + i) := by
    rw [BitVec.getLsbD_extractLsb']; simp [hi]
  refine ⟨?_, ?_, ?_, ?_, ?_, ?_, ?_, ?_⟩
  · refine BitVec.eq_of_getLsbD_eq fun i hi => ?_
    rw [field 0 2 i hi (by omega), getLsbD_statusSpecified s (by omega)]
    have h : i ≠ 2 ∧ i ≠ 3 ∧ i ≠ 12 ∧ i ≠ 13 ∧ ¬ 4 ≤ i ∧ ¬ 8 ≤ i := by omega
    simp [h]
  · rw [getLsbD_statusSpecified s (by omega)]; simp
  · rw [getLsbD_statusSpecified s (by omega)]; simp
  · refine BitVec.eq_of_getLsbD_eq fun i hi => ?_
    rw [field 4 4 i hi (by omega), getLsbD_statusSpecified s (by omega), BitVec.getLsbD_of_ge s.engine.code _ (by omega)]
    have h : 4 + i ≠ 2 ∧ 4 + i ≠ 3 ∧ 4 + i ≠ 12 ∧ 4 + i ≠ 13 ∧ ¬ 8 ≤ 4 + i := by omega
    simp [h]
  · refine BitVec.eq_of_getLsbD_eq fun i hi => ?_
    rw [field 8 4 i hi (by omega), getLsbD_statusSpecified s (by omega), BitVec.getLsbD_of_ge s.engine.code _ (by omega),
      BitVec.getLsbD_of_ge s.faultCode _ (by omega)]
    have h : 8 + i ≠ 2 ∧ 8 + i ≠ 3 ∧ 8 + i ≠ 12 ∧ 8 + i ≠ 13 := by omega
    simp [h]
  · rw [getLsbD_statusSpecified s (by omega)]; simp
  · rw [getLsbD_statusSpecified s (by omega)]; simp
  · refine BitVec.eq_of_getLsbD_eq fun i hi => ?_
    rw [field 14 50 i hi (by omega), getLsbD_statusSpecified s (by omega), BitVec.getLsbD_of_ge s.engine.code _ (by omega),
      BitVec.getLsbD_of_ge s.faultCode _ (by omega), BitVec.getLsbD_of_ge s.cnt _ (by omega)]
    have h : 14 + i ≠ 2 ∧ 14 + i ≠ 3 ∧ 14 + i ≠ 12 ∧ 14 + i ≠ 13 := by omega
    simp [h]

/-- A free value does not reach `STATE` and `FAULT_CODE` (R34, R267). -/
theorem statusUnspecified_fields (s : State) (free : RegWord) :
    (statusUnspecified s free).extractLsb' 0 2 = s.engine.code ∧
      (statusUnspecified s free).extractLsb' 4 4 = s.faultCode := by
  have field (start len i : Nat) (hi : i < len) (h : start + i < 64) (masked : (~~~0xF3#64).getLsbD (start + i) = false) :
      ((statusUnspecified s free).extractLsb' start len).getLsbD i = (statusAlways s).getLsbD (start + i) := by
    rw [BitVec.getLsbD_extractLsb', statusUnspecified, BitVec.getLsbD_or, BitVec.getLsbD_and, masked]
    simp [hi]
  constructor
  · refine BitVec.eq_of_getLsbD_eq fun i hi => ?_
    rw [field 0 2 i hi (by omega) (by interval_cases i <;> rfl), getLsbD_statusAlways s (by omega)]
    have h : ¬ 4 ≤ i := by omega
    simp [h]
  · refine BitVec.eq_of_getLsbD_eq fun i hi => ?_
    rw [field 4 4 i hi (by omega) (by interval_cases i <;> rfl), getLsbD_statusAlways s (by omega),
      BitVec.getLsbD_of_ge s.engine.code _ (by omega)]
    simp

/-! ### `RDREG` -/

/-- Settles O18: the response carries `readRegSpecified`, register by register. -/
theorem rdregValue : Obligations.RdregValue := by
  unfold Obligations.RdregValue
  intro s reg hl
  refine ⟨readRegSpecified s reg, ?_, fun h => ?_, fun h => ?_, fun h hw => ?_, fun h => ?_⟩
  · rw [exec, execRdreg, if_pos ((registersSpecified_iff s).2 hl)]
    rfl
  · rw [h]; exact statusSpecified_fields s
  · rw [h]; rfl
  · rw [h]; exact (BitVec.toNat_ofNat _ _).trans (Nat.mod_eq_of_lt hw)
  · have := s.tree.nodeCount.isLt
    rw [h]; exact (BitVec.toNat_ofNat _ _).trans (Nat.mod_eq_of_lt (by omega))

/-- Settles O19: of `STATUS` the free value reaches only the unspecified bits. -/
theorem rdregUnspecified : Obligations.RdregUnspecified := by
  unfold Obligations.RdregUnspecified
  intro s reg hl
  refine ⟨readRegUnspecified s (Sys2Proof.Config.freeRegWord s.freeCount) reg, s.freeCount + 1, ?_, fun h => ?_⟩
  · rw [exec, execRdreg, if_neg (mt (registersSpecified_iff s).1 hl)]
    rfl
  · rw [h]; exact statusUnspecified_fields s _

/-! ### The weight pre-check -/

theorem encodeBody_full {s : State} (h : weightFull s = true) (sym : Symbol) :
    encodeBody sym s = .raised .weightOverflow s := if_pos h

theorem decodeBody_full {s : State} (h : weightFull s = true) : decodeBody s = .raised .weightOverflow s := if_pos h

/-- Settles O45: both bodies raise `WeightOverflow` in the state they begin with. -/
theorem weightOverflowPrecheck : Obligations.WeightOverflowPrecheck := by
  unfold Obligations.WeightOverflowPrecheck
  intro s i ha hfull hi
  have hw := (weightFull_iff s).2 hfull
  obtain ⟨⟨sym, rfl⟩, hm⟩ | ⟨rfl, hm⟩ := hi
  · rw [exec_encode_of_legal ha hm, encodeBody_full hw]; rfl
  · rw [exec_decode_of_legal ha hm, decodeBody_full hw]; rfl

end Sys2Proof.Machine
end

section
/-! What every step keeps (spec/10_state.md R24, R28 to R33, R41 to R44): each invariant through one word, the resets and
the host's other acts. -/

namespace Sys2Proof.Machine

/-! ### Steps -/

/-- A property that attaching streams, the reset and every word keep is kept by every step: a reset during a command is a
reset after some byte accesses. -/
theorem step_keeps {P : State → Prop}
    (host : ∀ s sink src pos channel, P s → P { s with sink := sink, src := src, srcPos := pos, channel := channel })
    (reset : ∀ s, P s → P s.hardwareReset) (word : ∀ s t r, P s → s.Effect r t → P t) {s t : State} (hs : P s)
    (h : step s = .next t) : P t := by
  unfold step at h
  split at h
  · cases h; exact hs
  · next i rest _ =>
    have moved : P { s with channel := rest } := host s s.sink s.src s.srcPos rest hs
    cases i with
    | command c => exact word _ t _ moved (runWord_effect h)
    | reset => cases h; exact reset _ moved
    | resetDuring c done =>
      obtain ⟨full, hfull⟩ := runWord_next c { s with channel := rest }
      cases (runWordCut_of_next hfull done).symm.trans h
      exact reset _ (host _ _ s.src _ rest moved)
    | attachSource bytes => cases h; exact host _ s.sink bytes 0 rest moved
    | attachSink bytes => cases h; exact host _ bytes s.src s.srcPos rest moved

/-- Settles O57: no word, reset or act of the host writes `cfg`. -/
theorem parametersFixed : Obligations.ParametersFixed := by
  unfold Obligations.ParametersFixed
  intro s t h
  refine step_keeps (P := fun u => u.cfg = s.cfg) (fun _ _ _ _ _ h => h) (fun _ h => h) (fun u v r hu e => ?_) rfl h
  cases e with
  | opened | answered | refused | illegal => exact hu
  | faulted _ _ w | updated _ _ w => exact w.cfg.trans hu
  | flushed => exact (flushBits_cfg u).trans hu

/-! ### The control registers -/

theorem State.not_live_of_faulted {s : State} (h : s.engine = .faulted) : ¬ s.live := by
  rintro (h' | h') <;> rw [h] at h' <;> cases h'

theorem State.not_live_of_uninit {s : State} (h : s.engine = .uninit) : ¬ s.live := by
  rintro (h' | h') <;> rw [h] at h' <;> cases h'

/-- A raised fault leaves nothing live, and its code (R284). -/
theorem State.raiseFault_controlOk (s : State) (k : FaultKind) : (s.raiseFault k).ControlOk where
  noFault := fun h => absurd rfl h
  faulted := fun _ => ⟨k, rfl⟩
  flushed := nofun
  encoder := fun h => absurd h (State.not_live_of_faulted rfl)
  decoder := fun h => absurd h (State.not_live_of_faulted rfl)

theorem State.empty_bufferOk {s : State} (hacc : s.acc = 0) (hcnt : s.cnt = 0) : s.BufferOk := by
  rw [State.BufferOk, hacc, hcnt]
  exact ⟨by decide, fun i _ => by simp⟩

theorem State.Effect.controlOk {s t : State} {r : Except DecodeError Instr} (e : s.Effect r t) (c : s.ControlOk) :
    t.ControlOk := by
  cases e with
  | opened m st =>
    exact
      { noFault := fun _ => rfl, faulted := nofun, flushed := nofun
        encoder := fun _ _ => ⟨State.empty_bufferOk rfl rfl, rfl, rfl⟩
        decoder := fun _ _ => Nat.zero_le 8 }
  | answered | refused => exact ⟨c.noFault, c.faulted, c.flushed, c.encoder, c.decoder⟩
  | illegal | faulted => exact State.raiseFault_controlOk _ _
  | @updated _ _ _ _ ha u w =>
    have active : u.engine = .active := w.engine.trans ha
    have free : u.faultCode = 0 := w.faultCode.trans (c.noFault (by simp [ha]))
    exact
      { noFault := fun _ => free
        faulted := fun h => by cases active.symm.trans h
        flushed := fun h => by cases active.symm.trans h
        encoder := fun _ hm => by
          have hm' : s.mode = .enc := w.mode.symm.trans hm
          obtain ⟨buffer, pendValid, pendBit⟩ := w.encoder hm'
          obtain ⟨hb, hv, hp⟩ := c.encoder (.inl ha) hm'
          exact ⟨buffer hb, pendValid.trans hv, pendBit.trans hp⟩
        decoder := fun _ hm => by
          have hm' : s.mode = .dec := w.mode.symm.trans hm
          exact w.decoder hm' (c.decoder (.inl ha) hm') }
  | flushed ha hm =>
    obtain ⟨hb, hv, hp⟩ := c.encoder (.inl ha) hm
    obtain ⟨hacc, hcnt⟩ := flushBits_buffer_empty hb
    have hmode : (flushBits s).mode = .enc := (flushBits_mode s).trans hm
    exact
      { noFault := fun _ => (flushBits_faultCode s).trans (c.noFault (by simp [ha]))
        faulted := nofun
        flushed := fun _ => ⟨hmode, hcnt⟩
        encoder := fun _ _ => ⟨State.empty_bufferOk hacc hcnt, (flushBits_pendValid s).trans hv,
          (flushBits_pendBit s).trans hp⟩
        decoder := fun _ hd => by cases hmode.symm.trans hd }

/-- Settles O49: every word keeps the control registers in form, and nothing is live after a reset. -/
theorem controlInvariant : Obligations.ControlInvariant := by
  unfold Obligations.ControlInvariant
  refine fun s t hs h => step_keeps (fun s _ _ _ _ c => ?_) (fun s c => ?_) (fun s t r c e => e.controlOk c) hs h
  · exact ⟨c.noFault, c.faulted, c.flushed, c.encoder, c.decoder⟩
  · exact ⟨fun _ => rfl, nofun, nofun, fun h => absurd h (State.not_live_of_uninit rfl),
      fun h => absurd h (State.not_live_of_uninit rfl)⟩

/-! ### The tree -/

/-- The tree and strategy of a live state after a word: a fresh stream's, those from before, or what an update made of the
tree, whose root weight was not `WMAX`. -/
theorem State.Effect.tree_cases {s t : State} {r : Except DecodeError Instr} (e : s.Effect r t) (ht : t.live) :
    t.tree = Tree.fresh ∨ (s.live ∧ t.tree = s.tree ∧ t.strategy = s.strategy ∧ t.cfg = s.cfg) ∨
    (s.live ∧ s.tree.rootWeight ≠ s.cfg.wmax ∧ t.strategy = s.strategy ∧ t.cfg = s.cfg ∧ ∃ h sym,
      (s.tree.WellFormed → s.tree.IsNodeOf h sym) ∧ update s.strategy s.cfg.wmax s.tree h sym = .ok t.tree) := by
  cases e with
  | opened => exact .inl rfl
  | answered => exact .inr (.inl ⟨ht, rfl, rfl, rfl⟩)
  | refused hs => exact absurd ht (State.not_live_of_faulted hs)
  | illegal | faulted => exact absurd ht (State.not_live_of_faulted rfl)
  | updated _ ha w below node e => exact .inr (.inr ⟨.inl ha, below, w.strategy, w.cfg, _, _, node, e⟩)
  | flushed ha => exact .inr (.inl ⟨.inl ha, flushBits_tree s, flushBits_strategy s, flushBits_cfg s⟩)

/-- A property of the live tree that holds in a fresh stream and that updates keep is kept by every step. -/
theorem step_keeps_tree {P : Tree → Prop} (fresh : P Tree.fresh)
    (update : ∀ st wmax t u h sym, P t → (t.WellFormed → t.IsNodeOf h sym) → update st wmax t h sym = .ok u → P u)
    {s t : State} (hs : s.live → P s.tree) (h : step s = .next t) : t.live → P t.tree := by
  refine step_keeps (P := fun s => s.live → P s.tree) (fun _ _ _ _ _ h => h)
    (fun s _ hl => absurd hl (State.not_live_of_uninit rfl)) (fun s t r hs e ht => ?_) hs h
  obtain hf | ⟨hl, htree, _⟩ | ⟨hl, _, _, _, x, sym, node, hu⟩ := e.tree_cases ht
  · rw [hf]; exact fresh
  · rw [htree]; exact hs hl
  · exact update _ _ _ _ x sym (hs hl) node hu

/-- The single Escape root is a coding tree of either strategy (R47). -/
theorem Tree.coding_fresh (st : Strategy) : Tree.fresh.Coding st := by
  cases st <;> exact Tree.checkCoding_sound (by decide +kernel)

/-- Settles O50: an update keeps R41. -/
theorem treeInvariant : Obligations.TreeInvariant := by
  unfold Obligations.TreeInvariant
  exact fun s t hs h => step_keeps_tree (P := Tree.WellFormed) (Tree.coding_fresh .fgk).wf
    (fun _ _ _ _ _ _ w node e => (update_keeps w (node w) e).1) hs h

/-- Settles O53: an update of a well-formed tree writes no unallocated entry. -/
theorem canonicalInvariant : Obligations.CanonicalInvariant := by
  unfold Obligations.CanonicalInvariant
  intro s t hwf hs h ht
  refine (step_keeps_tree (P := fun t => t.WellFormed ∧ t.Canonical) ⟨(Tree.coding_fresh .fgk).wf, Tree.canonical_fresh⟩
    (fun _ _ _ _ _ _ ⟨w, c⟩ node e => ?_) (fun hl => ⟨hwf hl, hs hl⟩) h ht).2
  obtain ⟨w', c', _⟩ := update_keeps w (node w) e
  exact ⟨w', c' c⟩

/-! ### The count of the seen symbols -/

/-- One more bit of a bit vector counts one more. -/
theorem countP_setBit {n : Nat} {v : BitVec n} {i : Nat} (hi : v.getLsbD i = false) {m : Nat} (hm : m ≤ n) :
    (List.range m).countP (fun j => (setBit v i true).getLsbD j) =
      (List.range m).countP (fun j => v.getLsbD j) + if i < m then 1 else 0 := by
  induction m with
  | zero => rfl
  | succ m ih =>
    simp only [List.range_succ, List.countP_append, List.countP_singleton, ih (by omega), getLsbD_setBit _ _ _ _ hm]
    by_cases him : m = i
    · subst him; simp [hi]
    · have : i < m + 1 ↔ i < m := by omega
      simp [him, this]
      omega

theorem Tree.seenCount_of_introduce {t : Tree} {sym : Symbol} {r : Tree × Handle} (e : introduce t sym = .ok r) :
    r.1.seenCount = t.seenCount + 1 := by
  obtain ⟨hs, _, _, _, _, hseen⟩ := introduce_ok e
  rw [Tree.seenCount, hseen, countP_setBit hs le_rfl, if_pos sym.isLt]
  rfl

theorem Tree.SameShape.seenCount {t u : Tree} (s : t.SameShape u) : u.seenCount = t.seenCount := by
  rw [Tree.seenCount, s.seen]; rfl

/-- An update keeps `NODE_COUNT = 2k + 1` (R24): it introduces two nodes and one symbol, or none. -/
theorem update_seenCount {st : Strategy} {wmax : Nat} {t u : Tree} {h : Handle} {sym : Symbol}
    (hn : t.nodeCount.val = 2 * t.seenCount + 1) (e : update st wmax t h sym = .ok u) :
    u.nodeCount.val = 2 * u.seenCount + 1 := by
  obtain ⟨_, s⟩ | ⟨_, r, hr, s⟩ := update_shape e
  · rw [s.nodeCount, s.seenCount, hn]
  · rw [s.nodeCount, s.seenCount, Tree.seenCount_of_introduce hr, (introduce_ok hr).2.2.2.1]
    omega

/-- Settles O51: a fresh stream has one node and no symbol, and an update keeps the count. -/
theorem countInvariant : Obligations.CountInvariant := by
  unfold Obligations.CountInvariant
  have fresh : Tree.fresh.seenCount = 0 := by rw [Tree.seenCount, Tree.fresh_seen]; simp
  exact fun s t hs h => step_keeps_tree (P := fun t => t.nodeCount.val = 2 * t.seenCount + 1) (by rw [fresh]; rfl)
    (fun _ _ _ _ _ _ hn _ e => update_seenCount hn e) hs h

/-- An update keeps every bit of `SEEN` that is set (R27). -/
theorem update_seen {st : Strategy} {wmax : Nat} {t u : Tree} {h : Handle} {sym : Symbol}
    (e : update st wmax t h sym = .ok u) (x : Symbol) (hx : t.seen.getLsbD x.toNat = true) :
    u.seen.getLsbD x.toNat = true := by
  obtain ⟨_, s⟩ | ⟨_, r, hr, s⟩ := update_shape e
  · rw [s.seen]; exact hx
  · rw [s.seen, introduce_seen hr, hx]; rfl

/-- Settles O56: of the words only `INIT` replaces the tree by one with fewer symbols. -/
theorem seenGrows : Obligations.SeenGrows := by
  unfold Obligations.SeenGrows
  intro i s t x hi h hx
  have e := exec_effect h
  generalize hr : Except.ok i = r at e
  cases e with
  | opened m st => cases hr; exact absurd rfl (hi m st)
  | answered | refused | illegal => exact hx
  | faulted _ _ w => rw [State.raiseFault_tree, w.tree]; exact hx
  | updated _ _ _ _ _ e => exact update_seen e x hx
  | flushed => exact (flushBits_tree s).symm ▸ hx

/-! ### The coding tree -/

/-- A node an update of which succeeds is the one `locate` answers: of a seen symbol `introduce` is refused (R143, R145). -/
theorem Tree.IsNodeOf.locate {t u : Tree} {h : Handle} {sym : Symbol} {st : Strategy} {wmax : Nat} (n : t.IsNodeOf h sym)
    (w : t.WellFormed) (e : update st wmax t h sym = .ok u) : locate t sym = .ok h := by
  obtain ⟨hh, hr | rfl⟩ := n
  · have hs := (w.leaves.seen sym).2 ⟨h, hh, hr⟩
    exact (locate_seen_ok_iff t sym h hs).2 ⟨hh, hr, fun x hx hxr => w.leaves.unique sym x h hx hh hxr hr⟩
  · obtain ⟨hne, _⟩ | ⟨_, r, hr, _⟩ := update_shape e
    · exact absurd rfl hne
    · exact locate_unseen t sym (introduce_ok hr).1

/-- Either strategy's update completes on a coding tree below `WMAX`, and leaves one (R170 to R200). -/
theorem Tree.Coding.update {t : Tree} {st : Strategy} (c : t.Coding st) {wmax : Nat} {h : Handle} {sym : Symbol}
    (hw : t.rootWeight < wmax) (hl : locate t sym = .ok h) :
    ∃ u, update st wmax t h sym = .ok u ∧ u.Coding st ∧ u.rootWeight = t.rootWeight + 1 := by
  cases st with
  | fgk => exact fgkUpdateKeepsCoding wmax t h sym c hw hl
  | vitter => exact vitterUpdateKeepsCoding wmax t h sym c hw hl

/-- An update of a coding tree below `WMAX` that ended is the one that completes. -/
theorem Tree.Coding.of_update {t u : Tree} {st : Strategy} (c : t.Coding st) {wmax : Nat} {h : Handle} {sym : Symbol}
    (hw : t.rootWeight < wmax) (hn : t.IsNodeOf h sym) (e : Machine.update st wmax t h sym = .ok u) :
    u.Coding st ∧ u.rootWeight = t.rootWeight + 1 := by
  obtain ⟨v, e', done⟩ := c.update hw (hn.locate c.wf e)
  cases e.symm.trans e'
  exact done

theorem State.Effect.codingOk {s t : State} {r : Except DecodeError Instr} (e : s.Effect r t) (c : s.CodingOk) :
    t.CodingOk := by
  intro ht
  obtain hf | ⟨hl, htree, hst, hcfg⟩ | ⟨hl, below, hst, hcfg, x, sym, node, hu⟩ := e.tree_cases ht
  · rw [hf]
    have hroot : Tree.fresh.rootWeight = 0 := by rw [Tree.rootWeight, Tree.get_fresh]; rfl
    exact ⟨Tree.coding_fresh _, hroot ▸ Nat.zero_le _⟩
  · rw [htree, hst, hcfg]; exact c hl
  · obtain ⟨coding, hle⟩ := c hl
    obtain ⟨coding', hroot⟩ := coding.of_update (by omega) (node coding.wf) hu
    rw [hst, hcfg]
    exact ⟨coding', by omega⟩

/-- Settles O52: an update of a coding tree below `WMAX` leaves a coding tree whose root weight is one more. -/
theorem codingInvariant : Obligations.CodingInvariant := by
  unfold Obligations.CodingInvariant
  exact fun s t hs h => step_keeps (P := State.CodingOk) (fun _ _ _ _ _ c => c)
    (fun s _ hl => absurd hl (State.not_live_of_uninit rfl)) (fun s t r c e => e.codingOk c) hs h

/-! ### One successful ENCODE or DECODE -/

/-- A successful `ENCODE` or `DECODE` updated the tree with the symbol it answers or was given (R220, R240). -/
theorem State.Effect.updates {s t : State} {i : Instr} (e : s.Effect (.ok i) t) (ha : s.engine = .active)
    (hi : (∃ sym, i = .encode sym) ∨ i = .decode) (hs : s.succeeded t) :
    ∃ h sym data, (i = .encode sym ∧ data = 0 ∨ i = .decode ∧ data = sym.setWidth 64) ∧
      t.responses = s.responses ++ [{ status := statusOk, data := data }] ∧ t.engine = .active ∧
      (s.tree.WellFormed → s.tree.IsNodeOf h sym) ∧ Machine.update s.strategy s.cfg.wmax s.tree h sym = .ok t.tree := by
  obtain ⟨data, hresp⟩ := hs
  cases e with
  | opened | answered => obtain ⟨_, hi⟩ | hi := hi <;> cases hi
  | refused hs => rw [ha] at hs; cases hs
  | illegal =>
    simp [FaultKind.code, statusOk] at hresp
  | @faulted _ _ _ _ k w =>
    rw [State.raiseFault_responses, w.responses] at hresp
    cases k <;> simp [FaultKind.code, statusOk] at hresp
  | @updated _ sym data' hi' _ _ w _ h _ node e =>
    refine ⟨h, sym, data', hi', ?_, w.engine.trans ha, node, e⟩
    rw [State.respond_responses, State.withTree_responses, w.responses]
  | flushed => obtain ⟨_, hi⟩ | hi := hi <;> cases hi

/-- Settles O55: an update adds one to the root weight. -/
theorem symbolCountAdvances : Obligations.SymbolCountAdvances := by
  unfold Obligations.SymbolCountAdvances
  intro s t i ha w hi h hs
  obtain ⟨x, sym, data, _, _, _, node, e⟩ := (exec_effect h).updates ha hi hs
  exact (update_keeps w (node w) e).2.2

/-- The data of `DECODE`'s response names its symbol (R240). -/
theorem responseData_injective {x y : Symbol} (h : x.setWidth 64 = y.setWidth 64) : x = y := by
  have := congrArg (BitVec.setWidth 8) h
  simpa using this

/-- Settles O58: an update counts one more occurrence of its symbol, and the response of `DECODE` names it. -/
theorem leafWeightAdvances : Obligations.LeafWeightAdvances := by
  unfold Obligations.LeafWeightAdvances
  intro s t n sym ha w hn
  have count {i : Instr} (hi : (∃ sym, i = .encode sym) ∨ i = .decode) (h : exec i s = .next t) (hs : s.succeeded t) :
      ∃ sym' data, (i = .encode sym' ∧ data = 0 ∨ i = .decode ∧ data = sym'.setWidth 64) ∧
        t.responses = s.responses ++ [{ status := statusOk, data := data }] ∧ t.tree.LeafWeights (countOne n sym') := by
    obtain ⟨x, sym', data, hi', hresp, _, node, e⟩ := (exec_effect h).updates ha hi hs
    obtain ⟨hx, hr⟩ := node w
    exact ⟨sym', data, hi', hresp, update_leafWeights w hx hr hn e⟩
  refine ⟨fun h hs => ?_, fun h hresp => ?_⟩
  · obtain ⟨sym', data, ⟨hi, _⟩ | ⟨hi, _⟩, _, hc⟩ := count (.inl ⟨sym, rfl⟩) h hs
    · cases hi; exact hc
    · cases hi
  · obtain ⟨sym', data, ⟨hi, _⟩ | ⟨_, hd⟩, hresp', hc⟩ := count (.inr rfl) h ⟨_, hresp⟩
    · cases hi
    · have heq := hresp'.symm.trans hresp
      simp only [List.append_cancel_left_eq, List.cons.injEq, Response.mk.injEq, and_true] at heq
      rw [hd] at heq
      rw [← responseData_injective heq.2]; exact hc

end Sys2Proof.Machine
end

section
/-! `ENCODE` (spec/44_encoder_commands.md R220 to R224): what a successful one did, that it completes on every coding tree,
its bounds and its frame. -/

namespace Sys2Proof.Machine

/-! ### A successful ENCODE -/

/-- `locate` answers in every well-formed tree (R143). -/
theorem Tree.WellFormed.locate_ok {t : Tree} (w : t.WellFormed) (sym : Symbol) : ∃ h, locate t sym = .ok h := by
  cases hs : t.seen.getLsbD sym.toNat with
  | true =>
    obtain ⟨h, hh, hr⟩ := (w.leaves.seen sym).1 hs
    exact ⟨h, (locate_seen_ok_iff t sym h hs).2 ⟨hh, hr, fun x hx hxr => w.leaves.unique sym x h hx hh hxr hr⟩⟩
  | false => exact ⟨t.esc, locate_unseen t sym hs⟩

/-- `locate` answers the Escape node just for an unseen symbol (R143). -/
theorem Tree.WellFormed.locate_esc_iff {t : Tree} (w : t.WellFormed) {h : Handle} {sym : Symbol}
    (e : locate t sym = .ok h) : h = t.esc ↔ t.seen.getLsbD sym.toNat = false := by
  cases hs : t.seen.getLsbD sym.toNat with
  | true =>
    obtain ⟨_, hr, _⟩ := (locate_seen_ok_iff t sym h hs).1 e
    refine iff_of_false ?_ nofun
    rintro rfl
    rw [w.escape.role] at hr
    cases hr
  | false =>
    rw [locate_unseen t sym hs] at e
    exact iff_of_true (Except.ok.inj e).symm rfl

/-- The state in which a successful `ENCODE` ends (R220). -/
def State.encoded (s : State) (h : Handle) (path : List Bool) (sym : Symbol) (u : Tree) : State :=
  ((emitCode s h path sym).withTree u).respond statusOk 0

/-- `ENCODE` succeeds just when its search, its path code and its update do, below `WMAX` (R220). -/
theorem exec_encode_succeeded {s t : State} {sym : Symbol} (ha : s.engine = .active) (hm : s.mode = .enc)
    (h : exec (.encode sym) s = .next t) (hs : s.succeeded t) :
    s.tree.rootWeight ≠ s.cfg.wmax ∧ ∃ x path u, locate s.tree sym = .ok x ∧ pathTo s.tree x = .ok path ∧
      update s.strategy s.cfg.wmax s.tree x sym = .ok u ∧ t = s.encoded x path sym u := by
  rw [exec_encode_of_legal ha hm] at h
  obtain ⟨_, v, hb, hd⟩ | ⟨k, v, hb, hd⟩ := Res.finish_cases (encodeBody sym s) fun _ u => u.respond statusOk 0
  · rw [hd] at h
    cases h
    obtain ⟨hw, x, path, u, hl, hp, hu, rfl⟩ := encodeBody_ok.1 hb
    exact ⟨weightFull_eq_false_iff.1 hw, x, path, u, hl, hp, hu, rfl⟩
  · rw [hd] at h
    cases h
    obtain ⟨data, hresp⟩ := hs
    have responses : v.responses = s.responses := by
      have := (encodeBody_inProgress sym s).responses
      rwa [hb] at this
    rw [State.raiseFault_responses, responses] at hresp
    cases k <;> simp [FaultKind.code, statusOk] at hresp

theorem exec_encode_of_ok {s : State} {sym : Symbol} {x : Handle} {path : List Bool} {u : Tree} (ha : s.engine = .active)
    (hm : s.mode = .enc) (hw : s.tree.rootWeight ≠ s.cfg.wmax) (hl : locate s.tree sym = .ok x)
    (hp : pathTo s.tree x = .ok path) (hu : update s.strategy s.cfg.wmax s.tree x sym = .ok u) :
    exec (.encode sym) s = .next (s.encoded x path sym u) := by
  rw [exec_encode_of_legal ha hm, encodeBody_ok.2 ⟨weightFull_eq_false_iff.2 hw, x, path, u, hl, hp, hu, rfl⟩]
  rfl

section
variable {s : State} {x : Handle} {path : List Bool} {sym : Symbol} {u : Tree}

@[simp] theorem State.encoded_tree : (s.encoded x path sym u).tree = u := rfl

@[simp] theorem State.encoded_responses :
    (s.encoded x path sym u).responses = s.responses ++ [{ status := 0, data := 0 }] := by
  simp [State.encoded, statusOk]

@[simp] theorem State.encoded_engine : (s.encoded x path sym u).engine = s.engine := by simp [State.encoded]

@[simp] theorem State.encoded_mode : (s.encoded x path sym u).mode = s.mode := by simp [State.encoded]

@[simp] theorem State.encoded_strategy : (s.encoded x path sym u).strategy = s.strategy := by simp [State.encoded]

@[simp] theorem State.encoded_cfg : (s.encoded x path sym u).cfg = s.cfg := by simp [State.encoded]

/-- The bits it emitted: the path code, and after the Escape path the raw symbol (R220, R96). -/
theorem State.encoded_bitsOut (hs : s.BufferOk) :
    (s.encoded x path sym u).bitsOut = s.bitsOut ++ path ++ (if x = s.tree.esc then symbolBits sym else []) ∧
      (s.encoded x path sym u).BufferOk := emitCode_bitsOut x path sym hs

end

/-- Settles O33: by the state in which a successful `ENCODE` ends. -/
theorem encodeResult : Obligations.EncodeResult := by
  unfold Obligations.EncodeResult
  intro s t sym ha hm hs h hsucc
  obtain ⟨_, x, path, u, hl, hp, hu, rfl⟩ := exec_encode_succeeded ha hm h hsucc
  obtain ⟨hbits, hbuffer⟩ := State.encoded_bitsOut (x := x) (path := path) (sym := sym) (u := u) hs
  exact ⟨x, path, hl, hp, hbits, hu, by simp, by simp [ha], hbuffer⟩

/-- Settles O35: on a coding tree the search, the path code and the update complete. -/
theorem encodeCompletes : Obligations.EncodeCompletes := by
  unfold Obligations.EncodeCompletes
  intro s sym ha hm c hs hw
  obtain ⟨x, hl⟩ := c.wf.locate_ok sym
  obtain ⟨path, hp, _⟩ := c.wf.pathTo_ok (c.wf.isNodeOf_of_locate hl).1
  obtain ⟨u, hu, coding, _⟩ := c.update hw hl
  refine ⟨x, path, u, _, hl, hp, hu, coding, exec_encode_of_ok ha hm hw.ne hl hp hu, rfl, by simp [ha], by simp, ?_⟩
  rw [(State.encoded_bitsOut hs).1]
  congr 1
  cases hseen : s.tree.seen.getLsbD sym.toNat with
  | true => rw [if_neg fun h => by rw [(c.wf.locate_esc_iff hl).1 h] at hseen; cases hseen]; rfl
  | false => rw [if_pos ((c.wf.locate_esc_iff hl).2 hseen)]; rfl

/-! ### The bounds -/

/-- The code of a symbol has 1 to 264 bits: only the Escape node can be the root, and its symbol follows (R222). -/
theorem Tree.WellFormed.code_length {t : Tree} (w : t.WellFormed) {x : Handle} {path : List Bool} {sym : Symbol}
    (hl : locate t sym = .ok x) (hp : pathTo t x = .ok path) :
    1 ≤ (path ++ if x = t.esc then symbolBits sym else []).length ∧
      (path ++ if x = t.esc then symbolBits sym else []).length ≤ 264 := by
  have hlen := pathTo_length hp
  rw [List.length_append]
  by_cases hx : x = t.esc
  · rw [if_pos hx, symbolBits_length]; omega
  · obtain ⟨hh, hr⟩ := w.isNodeOf_of_locate hl
    have hne : path ≠ [] := by
      rintro rfl
      have hroot : root = x := Option.some.inj (w.walk_of_pathTo hh hp)
      have := w.root_not_leaf
      rw [hroot, hr.resolve_right hx] at this
      cases this
    have := List.length_pos_of_ne_nil hne
    rw [if_neg hx, List.length_nil]; omega

/-- Settles O36: at most 264 bits after at most 7 buffered ones complete at most 33 bytes. -/
theorem encodeBounds : Obligations.EncodeBounds := by
  unfold Obligations.EncodeBounds
  intro s t sym ha hm hs w h hsucc
  obtain ⟨_, x, path, u, hl, hp, hu, rfl⟩ := exec_encode_succeeded ha hm h hsucc
  obtain ⟨h1, h264⟩ := w.code_length hl hp
  refine ⟨⟨_, ?_, h1, h264⟩, ?_⟩
  · rw [(State.encoded_bitsOut hs).1, List.append_assoc]
  · obtain ⟨bytes, hsink, hcount, hlen⟩ := putBits_bytes (path ++ if x = s.tree.esc then symbolBits sym else []) hs
    rw [← emitCode_bits] at hsink hcount
    have := hs.1
    exact ⟨bytes, hsink, by omega, hcount⟩

/-! ### The frame -/

/-- What the body of `ENCODE` leaves unchanged, and that its bytes are appended and counted (R220, R224). -/
structure State.Emits (s u : State) : Prop where
  pendValid : u.pendValid = s.pendValid
  pendBit : u.pendBit = s.pendBit
  mode : u.mode = s.mode
  strategy : u.strategy = s.strategy
  src : u.src = s.src
  srcPos : u.srcPos = s.srcPos
  cfg : u.cfg = s.cfg
  channel : u.channel = s.channel
  freeCount : u.freeCount = s.freeCount
  engine : u.engine = s.engine
  faultCode : u.faultCode = s.faultCode
  responses : u.responses = s.responses
  bytes : ∃ bytes, u.sink = s.sink ++ bytes ∧ u.byteCount = s.byteCount + BitVec.ofNat 64 bytes.length

theorem State.Emits.refl (s : State) : s.Emits s :=
  ⟨rfl, rfl, rfl, rfl, rfl, rfl, rfl, rfl, rfl, rfl, rfl, rfl, ⟨[], by simp, by simp⟩⟩

theorem emitCode_emits (s : State) (x : Handle) (path : List Bool) (sym : Symbol) : s.Emits (emitCode s x path sym) where
  pendValid := by simp
  pendBit := by simp
  mode := by simp
  strategy := by simp
  src := by simp
  srcPos := by simp
  cfg := by simp
  channel := by simp
  freeCount := by simp
  engine := by simp
  faultCode := by simp
  responses := by simp
  bytes := by rw [emitCode_bits]; exact putBits_sink s _

/-- The body of `ENCODE`: what it emits, and its tree, the one it began with or one an update made of that. -/
theorem encodeBody_emits (sym : Symbol) (s : State) :
    s.Emits (encodeBody sym s).state ∧ ((encodeBody sym s).state.tree = s.tree ∨
      ∃ x, locate s.tree sym = .ok x ∧
        update s.strategy s.cfg.wmax s.tree x sym = .ok (encodeBody sym s).state.tree) := by
  cases hr : encodeBody sym s with
  | ok a u =>
    obtain ⟨_, x, path, t, hl, _, hu, rfl⟩ := encodeBody_ok.1 hr
    obtain ⟨h1, h2, h3, h4, h5, h6, h7, h8, h9, h10, h11, h12, h13⟩ := emitCode_emits s x path sym
    exact ⟨⟨h1, h2, h3, h4, h5, h6, h7, h8, h9, h10, h11, h12, h13⟩, .inr ⟨x, hl, hu⟩⟩
  | raised k u =>
    obtain ⟨_, _, rfl⟩ | ⟨_, ⟨_, rfl⟩ | ⟨_, _, _, rfl⟩ | ⟨x, path, _, _, _, rfl⟩⟩ := encodeBody_raised.1 hr
    · exact ⟨.refl _, .inl rfl⟩
    · exact ⟨.refl _, .inl rfl⟩
    · exact ⟨.refl _, .inl rfl⟩
    · exact ⟨emitCode_emits s x path sym, .inl (emitCode_tree s x path sym)⟩

/-- The state a body leaves, and the state its command ends in: one response, and `FAULTED` if a fault was raised. -/
theorem exec_encode_frame {s t : State} {sym : Symbol} (h : exec (.encode sym) s = .next t) :
    ∃ u, s.Emits u ∧ ((∃ status data, t = u.respond status data) ∨ ∃ k, t = u.raiseFault k) ∧
      (u.tree = s.tree ∨ ∃ x, locate s.tree sym = .ok x ∧ update s.strategy s.cfg.wmax s.tree x sym = .ok u.tree) := by
  obtain ⟨_, rfl⟩ | ⟨_, _, rfl⟩ | ⟨_, _, hb⟩ := exec_encode_cases h
  · exact ⟨s, .refl s, .inl ⟨_, _, rfl⟩, .inl rfl⟩
  · exact ⟨s, .refl s, .inr ⟨_, rfl⟩, .inl rfl⟩
  · obtain ⟨emits, tree⟩ := encodeBody_emits sym s
    obtain ⟨u, hb, rfl⟩ | ⟨k, u, hb, rfl⟩ := hb <;> rw [hb] at emits tree
    · exact ⟨u, emits, .inl ⟨_, _, rfl⟩, tree⟩
    · exact ⟨u, emits, .inr ⟨k, rfl⟩, tree⟩

/-- An update of the Leaf of a seen symbol changes no handle, no role and no bit of `SEEN` (R149). -/
theorem update_sameShape_of_seen {st : Strategy} {wmax : Nat} {t u : Tree} {x : Handle} {sym : Symbol} (w : t.WellFormed)
    (hs : t.seen.getLsbD sym.toNat = true) (hl : locate t sym = .ok x) (e : update st wmax t x sym = .ok u) :
    t.SameShape u := by
  obtain ⟨_, shape⟩ | ⟨hesc, _⟩ := update_shape e
  · exact shape
  · rw [(w.locate_esc_iff hl).1 hesc] at hs
    cases hs

/-- Settles O37: the body only emits and updates the tree, and the command adds one response. -/
theorem encodeFrame : Obligations.EncodeFrame := by
  unfold Obligations.EncodeFrame
  intro s t sym h
  obtain ⟨u, emits, ends, tree⟩ := exec_encode_frame h
  have shape (hs : s.tree.seen.getLsbD sym.toNat = true) (w : s.tree.WellFormed) : s.tree.SameShape u.tree := by
    obtain same | ⟨x, hl, hu⟩ := tree
    · rw [same]; exact .refl _
    · exact update_sameShape_of_seen w hs hl hu
  obtain ⟨h1, h2, h3, h4, h5, h6, h7, h8, h9, engine, faultCode, responses, bytes⟩ := emits
  obtain ⟨status, data, rfl⟩ | ⟨k, rfl⟩ := ends
  · refine ⟨h1, h2, h3, h4, h5, h6, h7, h8, h9, bytes, ⟨_, congrArg (· ++ _) responses⟩, .inl ⟨engine, faultCode⟩,
      fun hs w => ?_⟩
    have := shape hs w
    exact ⟨this.nodeCount, this.esc, this.seen, this.role⟩
  · refine ⟨h1, h2, h3, h4, h5, h6, h7, h8, h9, bytes, ⟨_, congrArg (· ++ _) responses⟩, .inr rfl, fun hs w => ?_⟩
    have := shape hs w
    exact ⟨this.nodeCount, this.esc, this.seen, this.role⟩

end Sys2Proof.Machine
end

section
/-! The first symbol of a stream (spec/44_encoder_commands.md R220, spec/45_decoder_commands.md R244): the three-node tree
is the only coding tree with those roles, so both strategies give it. -/

namespace Sys2Proof.Machine

/-! ### The root's side -/

/-- The root takes no part in an exchange, so it keeps its child side. -/
theorem Tree.UpdateStep.root_isLeft {t u : Tree} (h : t.UpdateStep u) (w : t.WellFormed) :
    (u.get root).isLeft = (t.get root).isLeft := by
  cases h with
  | swap ha hb _ _ e =>
    obtain ⟨hne, hne'⟩ := w.linked.ne_root_of_swapPositions e
    have := (swapPositions_moved w.linked ha hb e).isLeft root
    rwa [Equiv.swap_apply_of_ne_of_ne hne.symm hne'.symm] at this
  | inc _ _ _ e => exact (incWeight_moved e).isLeft root

theorem Tree.Updated.root_isLeft {t u : Tree} (h : t.Updated u) (w : t.WellFormed) :
    (u.get root).isLeft = (t.get root).isLeft := by
  induction h with
  | refl => rfl
  | tail h hs ih => exact (hs.root_isLeft (Tree.Updated.wellFormed h w)).trans ih

theorem Tree.UpdatedAll.root_isLeft {t u : Tree} (h : t.UpdatedAll u) (w : t.WellFormed) (hr : root ≠ t.esc) :
    (u.get root).isLeft = (t.get root).isLeft := by
  obtain ⟨_, v, d, h1, h2, h3⟩ := h
  have w1 := incWeight_wellFormed (h1.wellFormed w) (by rwa [h1.shape.esc]) h2
  have hd : (d.get root).isLeft = (v.get root).isLeft := (incWeight_moved h2).isLeft root
  exact ((h3.root_isLeft w1).trans hd).trans (h1.root_isLeft w)

/-! ### The three-node tree -/

theorem Node.eq_of_fields {n m : Node} (weight : n.weight = m.weight) (rank : n.rank = m.rank) (role : n.role = m.role)
    (isLeft : n.isLeft = m.isLeft) (parent : n.parent = m.parent) (left : n.left = m.left) (right : n.right = m.right) :
    n = m := by
  cases n; cases m; simp_all

/-- A coding tree of three nodes and root weight 1, with the Escape node at handle 2 and a Leaf at handle 1, is the tree
after the first symbol: the pair of ranks 2 and 3 are the root's children (R41, R42, R44). -/
theorem Tree.Coding.afterFirst {u : Tree} {st : Strategy} {sym : Symbol} (c : u.Coding st) (hn : u.nodeCount.val = 3)
    (hesc : u.esc = 2) (hseen : u.seen = setBit 0 sym.toNat true) (hleaf : (u.get 1).role = .leaf sym)
    (hroot : (u.get root).role = .internal) (hside : (u.get root).isLeft = false) (hw : u.rootWeight = 1) :
    u.AfterFirst sym := by
  have w := c.wf
  have has (h : Handle) : u.has h ↔ h.val < 3 := by rw [Tree.has, hn]
  have h1 : u.has 1 := (has 1).2 (by decide)
  have h2 : u.has 2 := hesc ▸ w.escape.allocated
  have role2 : (u.get 2).role = .escape := hesc ▸ w.escape.role
  have weight2 : (u.get 2).weight = 0 := hesc ▸ w.escape.weight
  have rank2 : (u.get 2).rank = 3 := by rw [← hesc, w.escape.rank, hn]
  have rank1 : (u.get 1).rank = 2 := by
    have range := w.ranks.range 1 h1
    have ne1 : (u.get 1).rank ≠ 1 := fun h => by
      have : (1 : Handle) = root := w.ranks.inj 1 root h1 w.root_has (h.trans w.ranks.root.symm)
      revert this; decide
    have ne3 : (u.get 1).rank ≠ 3 := fun h => by
      have : (1 : Handle) = 2 := w.ranks.inj 1 2 h1 h2 (h.trans rank2.symm)
      revert this; decide
    omega
  obtain ⟨hparent, left1, left2⟩ := c.siblings.pairs 1 1 2 le_rfl h1 h2 rank1 rank2
  obtain ⟨p, hp⟩ := Option.ne_none_iff_exists'.mp (mt (w.links.rootParent 1 h1).1 (by decide))
  have hp0 : p = root := by
    obtain ⟨hpa, hpi⟩ := w.parentsInternal 1 p h1 hp
    have lt := (has p).1 hpa
    have ne1 : p ≠ 1 := by rintro rfl; rw [hleaf] at hpi; cases hpi
    have ne2 : p ≠ 2 := by rintro rfl; rw [role2] at hpi; cases hpi
    rw [ne_eq, Fin.ext_iff] at ne1 ne2
    have v1 : (1 : Handle).val = 1 := rfl
    have v2 : (2 : Handle).val = 2 := rfl
    exact Fin.ext (by show p.val = 0; omega)
  subst hp0
  have hp2 : (u.get 2).parent = some root := hparent.symm.trans hp
  have child1 := (w.linked.up 1 root h1 hp).2
  have child2 := (w.linked.up 2 root h2 hp2).2
  rw [left1] at child1
  rw [left2] at child2
  obtain ⟨l1, r1⟩ := w.links.childless 1 h1 (by rw [hleaf]; nofun)
  obtain ⟨l2, r2⟩ := w.links.childless 2 h2 (by rw [role2]; nofun)
  have sum := c.sums.sum root 1 2 w.root_has child1 child2
  rw [Tree.rootWeight] at hw
  have top : (u.get root).parent = none := (w.links.rootParent root w.root_has).2 rfl
  exact
    { count := hn, esc := hesc, seen := hseen
      root := Node.eq_of_fields hw w.ranks.root hroot hside top child1 child2
      leaf := Node.eq_of_fields (by show (u.get 1).weight = 1; omega) rank1 hleaf left1 hp l1 r1
      escape := Node.eq_of_fields weight2 rank2 role2 left2 hp2 l2 r2 }

/-- The first update of a stream completes and gives the three-node tree, under either strategy (R220, R244). -/
theorem update_fresh (st : Strategy) {wmax : Nat} (hw : 0 < wmax) (sym : Symbol) :
    ∃ u, update st wmax Tree.fresh root sym = .ok u ∧ u.AfterFirst sym := by
  have c := Tree.coding_fresh st
  have hl : locate Tree.fresh sym = .ok Tree.fresh.esc := locate_unseen _ _ (by simp)
  have hweight : Tree.fresh.rootWeight = 0 := by rw [Tree.rootWeight, Tree.get_fresh]; rfl
  obtain ⟨u, hu, coding, hroot⟩ := c.update (wmax := wmax) (by rw [hweight]; exact hw) hl
  obtain ⟨r, hr, up⟩ := update_first_updated c.wf hu
  have hasEsc := c.wf.escape.allocated
  obtain ⟨_, _, hleaf, hcount, hesc, hseen⟩ := introduce_ok hr
  have leafHandle : r.2 = 1 := Fin.ext hleaf
  have split := introduce_get_split hr hasEsc
  have leaf := introduce_get_leaf hr hasEsc
  have w1 := introduce_wellFormed c.wf hr
  rw [leafHandle] at leaf
  rw [Tree.fresh_esc] at split
  refine ⟨u, hu, coding.afterFirst (sym := sym) ?_ ?_ ?_ ?_ ?_ ?_ (by rw [hroot, hweight])⟩
  · rw [up.shape.nodeCount, hcount]; rfl
  · rw [up.shape.esc]; exact Fin.ext hesc
  · rw [up.shape.seen, hseen]; rfl
  · rw [up.shape.role, leaf]
  · rw [up.shape.role, split]
  · rw [up.root_isLeft w1 (w1.root_ne_esc (by rw [hcount, Tree.fresh_nodeCount]; decide)), split, Tree.get_fresh]; rfl

/-- `WMAX` is at least 1 (R6). -/
theorem Config.wmax_pos {c : Sys2Proof.Config} (h : 1 ≤ c.weightW) : 0 < c.wmax := by
  have := Nat.pow_le_pow_right (n := 2) (by omega) h
  rw [Sys2Proof.Config.wmax]
  omega

theorem Tree.rootWeight_fresh : Tree.fresh.rootWeight = 0 := by rw [Tree.rootWeight, Tree.get_fresh]; rfl

/-! ### ENCODE -/

theorem symbolBits_injective {x y : Symbol} (h : symbolBits x = symbolBits y) : x = y := by
  refine BitVec.eq_of_getLsbD_eq fun i hi => ?_
  have hx := symbolBits_getElem x (7 - i) (by rw [symbolBits_length]; omega)
  have hy := symbolBits_getElem y (7 - i) (by rw [symbolBits_length]; omega)
  have hi7 : 7 - (7 - i) = i := by omega
  rw [hi7] at hx hy
  rw [← hx, ← hy]
  exact getElem_congr_coll h

/-- A symbol put when nothing is buffered is a byte of its own (R124). -/
theorem putSymbol_of_empty {s : State} (hacc : s.acc = 0) (hcnt : s.cnt = 0) (sym : Symbol) :
    (putSymbol s sym).sink = s.sink ++ [sym] ∧ (putSymbol s sym).acc = 0 ∧ (putSymbol s sym).cnt = 0 ∧
      (putSymbol s sym).byteCount = s.byteCount + 1 := by
  have hs := State.empty_bufferOk hacc hcnt
  obtain ⟨hbits, hcnt', ⟨b, hsink⟩, hcount⟩ := putSymbolWritesOneByte s sym hs
  obtain ⟨_, hzero⟩ : (putSymbol s sym).BufferOk := (putBits_bitsOut (symbolBits sym) hs).2
  replace hcnt' := hcnt'.trans hcnt
  rw [State.bitsOut_of_empty hcnt', State.bitsOut_of_empty hcnt, hsink, byteBits_append, byteBits_singleton] at hbits
  have hb : b = sym := symbolBits_injective (List.append_cancel_left hbits)
  have hacc' : ∀ i < 8, (putSymbol s sym).acc.getLsbD i = (0 : Byte).getLsbD i := fun i hi => by
    rw [hcnt'] at hzero
    rw [hzero i hi]
    simp
  generalize putSymbol s sym = t at hsink hcnt' hcount hacc' ⊢
  exact ⟨hb ▸ hsink, BitVec.eq_of_getLsbD_eq hacc', hcnt', hcount⟩

/-- The first `ENCODE` of a stream writes the symbol's byte. -/
theorem State.encoded_first {s : State} (hacc : s.acc = 0) (hcnt : s.cnt = 0) (hesc : s.tree.esc = root) (sym : Symbol)
    (u : Tree) :
    (s.encoded root [] sym u).sink = s.sink ++ [sym] ∧ (s.encoded root [] sym u).acc = 0 ∧
      (s.encoded root [] sym u).cnt = 0 ∧ (s.encoded root [] sym u).byteCount = s.byteCount + 1 := by
  have code : emitCode s root [] sym = putSymbol s sym := by
    unfold emitCode
    rw [if_pos hesc.symm, putBits]
  have hput := putSymbol_of_empty hacc hcnt sym
  rw [← code] at hput
  exact hput

/-- Settles O34: the Escape path is empty, the symbol is a byte of its own, and the update gives the three-node tree. -/
theorem encodeFirstSymbol : Obligations.EncodeFirstSymbol := by
  unfold Obligations.EncodeFirstSymbol
  intro s st sym hw
  have hpos := Config.wmax_pos hw
  obtain ⟨u, hu, after⟩ := update_fresh st hpos sym
  have hl : locate Tree.fresh sym = .ok root := locate_unseen _ _ (by simp)
  have hp : pathTo Tree.fresh root = .ok [] := pathUp_top _ (by rw [Tree.get_fresh]; rfl)
  have hne : Tree.fresh.rootWeight ≠ s.cfg.wmax := by rw [Tree.rootWeight_fresh]; omega
  have hx := exec_encode_of_ok (s := s.openStream .enc st) rfl rfl hne hl hp hu
  have eng := State.encoded_engine (s := s.openStream .enc st) (x := root) (path := []) (sym := sym) (u := u)
  have resp := State.encoded_responses (s := s.openStream .enc st) (x := root) (path := []) (sym := sym) (u := u)
  obtain ⟨hsink, hacc, hcnt, hcount⟩ := State.encoded_first (s := s.openStream .enc st) rfl rfl rfl sym u
  have htree : ((s.openStream .enc st).encoded root [] sym u).tree = u := rfl
  generalize (s.openStream .enc st).encoded root [] sym u = t at *
  exact ⟨t, hx, resp, eng, hsink, hacc, hcnt, hcount.trans (by simp), htree ▸ after⟩

/-! ### DECODE -/

/-- With exactly the `k` bits it needs in `ACC`, `rawBits` takes them from there (R240). -/
theorem rawBits_of_buffered {k : Nat} {sym y : Symbol} {s : State} (hk : k ≤ 8) (hc : s.cnt.toNat = k)
    (agree : ∀ i, i < 8 → y.getLsbD i = if i < k then s.acc.getLsbD i else sym.getLsbD i) :
    rawBits k sym s = .ok y { s with cnt := 0 } := by
  induction k generalizing sym s with
  | zero =>
    have hcnt : s.cnt = 0 := BitVec.eq_of_toNat_eq hc
    have hsym : sym = y := BitVec.eq_of_getLsbD_eq fun i hi => by rw [agree i hi, if_neg (by omega)]
    rw [hsym, ← hcnt]
    rfl
  | succ k ih =>
    have hg : getBit s = .ok (s.acc.getLsbD k) { s with cnt := BitVec.ofNat 4 k } := by
      rw [getBit, getBitOpt_of_cnt_succ hc]
    rw [rawBits_succ, hg]
    refine ih (s := { s with cnt := BitVec.ofNat 4 k }) (by omega)
      ((BitVec.toNat_ofNat _ _).trans (Nat.mod_eq_of_lt (by omega))) fun i hi => ?_
    rw [agree i hi, getLsbD_setBit _ _ _ _ hi]
    by_cases hik : i = k
    · subst hik; simp
    · have : i < k + 1 ↔ i < k := by omega
      simp only [this, if_neg hik]

/-- The state of a fresh decoder once the first byte is read as a raw symbol (R244). -/
def State.firstByteRead (s : State) (st : Strategy) (b : Byte) : State :=
  { s.openStream .dec st with
    acc := b, cnt := 0, srcPos := s.srcPos + 1, byteCount := 1, pendValid := false, pendBit := b.getLsbD 7 }

/-- The first byte is fetched, its top bit pends, and the other seven follow. -/
theorem State.lands_firstByte {s : State} {b : Byte} (st : Strategy) (hb : s.src[s.srcPos]? = some b) :
    (s.openStream .dec st).Lands root b (s.firstByteRead st b) := by
  obtain ⟨hlt, rfl⟩ := List.getElem?_eq_some_iff.mp hb
  have hesc : (Tree.fresh.get root).role = .escape := by rw [Tree.get_fresh]; rfl
  have first : firstBit (s.openStream .dec st) = _ := getBitOpt_fetches (s.openStream .dec st) rfl hlt
  rw [State.Lands, first]
  refine ⟨_, _, descend_leaf (by rw [State.openStream_tree, hesc]; nofun), ?_⟩
  rw [landedSymbol_escape hesc, rawSymbol_pending rfl]
  refine rawBits_of_buffered (k := 7) (by omega) rfl fun i hi => ?_
  by_cases hi7 : i < 7
  · rw [if_pos hi7]; rfl
  · rw [if_neg hi7, getLsbD_setBit _ _ _ _ hi, if_pos (by omega), show i = 7 by omega]; rfl

/-- Settles O40: the first byte is the raw symbol, and the update gives the three-node tree. -/
theorem decodeFirstSymbol : Obligations.DecodeFirstSymbol := by
  unfold Obligations.DecodeFirstSymbol
  intro s st b hw hb
  have hpos := Config.wmax_pos hw
  obtain ⟨u, hu, after⟩ := update_fresh st hpos b
  have hne : weightFull (s.openStream .dec st) = false := by
    rw [weightFull_eq_false_iff, State.openStream_tree, Tree.rootWeight_fresh]
    exact hpos.ne
  have hbody := (State.lands_firstByte st hb).decodeBody_ok hne hu
  refine ⟨((s.firstByteRead st b).withTree u).respond statusOk (b.setWidth 64), ?_, rfl, rfl, rfl, rfl, rfl, rfl, rfl, after⟩
  rw [exec_decode_of_legal rfl rfl, hbody]
  rfl

end Sys2Proof.Machine
end

section
/-! `AllocationFailure` (spec/60_exceptions.md R285): only `introduce` raises it, and only without room for two more nodes. -/

namespace Sys2Proof.Machine

/-- An operation on the tree that does not raise `AllocationFailure`. -/
def AvoidsAllocation {α : Type} (r : Except FaultKind α) : Prop := r ≠ .error .allocationFailure

section
variable {α β : Type}

theorem AvoidsAllocation.ok (a : α) : AvoidsAllocation (.ok a) := nofun

theorem AvoidsAllocation.invariantViolation : AvoidsAllocation (.error .invariantViolation : Except FaultKind α) := nofun

theorem AvoidsAllocation.bind {r : Except FaultKind α} {f : α → Except FaultKind β} (h : AvoidsAllocation r)
    (hf : ∀ a, AvoidsAllocation (f a)) : AvoidsAllocation (r >>= f) := by
  cases r with
  | error k => exact fun e => h (congrArg Except.error (Except.error.inj e))
  | ok a => exact hf a

theorem AvoidsAllocation.ite {c : Prop} [Decidable c] {r r' : Except FaultKind α} (h : AvoidsAllocation r)
    (h' : AvoidsAllocation r') : AvoidsAllocation (if c then r else r') := by
  split
  · exact h
  · exact h'

end

/-! ### The operations -/

section
variable (t : Tree) (x : Handle)

theorem followed_avoids (o : Option Handle) : AvoidsAllocation (followed o) := by cases o <;> nofun

theorem exactlyOne_avoids (l : List Handle) : AvoidsAllocation (exactlyOne l) := fun e => nomatch exactlyOne_error e

theorem onChain_avoids (fuel : Nat) (o : Option Handle) : AvoidsAllocation (onChain t x fuel o) := by
  induction fuel generalizing o with
  | zero =>
    cases o with
    | none => exact .ok _
    | some y => exact .ite (.ok _) .invariantViolation
  | succ fuel ih =>
    cases o with
    | none => exact .ok _
    | some y => exact .ite (.ok _) (ih _)

theorem swapPositions_avoids (y : Handle) : AvoidsAllocation (swapPositions t x y) := by
  unfold swapPositions
  refine .ite .invariantViolation ?_
  split
  · exact .bind (onChain_avoids _ _ _ _) fun _ => .ite .invariantViolation
      (.bind (onChain_avoids _ _ _ _) fun _ => .ite .invariantViolation (.ok _))
  · exact .invariantViolation

theorem incWeight_avoids (wmax : Nat) : AvoidsAllocation (incWeight wmax t x) := .ite nofun (.ok _)

theorem promote_avoids (leavesOnly : Bool) : AvoidsAllocation (promote t x leavesOnly) :=
  .bind (followed_avoids _) fun _ => .ite (.ok _) (swapPositions_avoids _ _ _)

end

/-! ### The updates -/

/-- `introduce` raises `AllocationFailure` only for an unseen symbol and without room (R145). -/
theorem introduce_avoids {t : Tree} {sym : Symbol}
    (room : t.seen.getLsbD sym.toNat = false → t.nodeCount.val + 2 ≤ 513) : AvoidsAllocation (introduce t sym) := by
  cases hs : t.seen.getLsbD sym.toNat with
  | true => rw [introduce_of_seen hs]; exact .invariantViolation
  | false =>
    obtain ⟨r, hr⟩ := introduce_of_fits hs (room hs)
    rw [hr]; exact .ok r

theorem fgkLevel_avoids (wmax : Nat) (t : Tree) (x : Handle) (leavesOnly : Bool) :
    AvoidsAllocation (fgkLevel wmax t x leavesOnly) :=
  .bind (promote_avoids _ _ _) fun _ => .bind (incWeight_avoids _ _ _) fun _ => .bind (followed_avoids _) fun _ => .ok _

theorem fgkClimb_avoids (wmax fuel : Nat) (t : Tree) (x : Handle) : AvoidsAllocation (fgkClimb wmax fuel t x) := by
  induction fuel generalizing t x with
  | zero => exact .ite (.ok _) .invariantViolation
  | succ fuel ih => exact .ite (.ok _) (.bind (fgkLevel_avoids _ _ _ _) fun _ => ih _ _)

theorem updateFGK_avoids {wmax : Nat} {t : Tree} {h : Handle} {sym : Symbol} {first : Bool}
    (hi : AvoidsAllocation (introduce t sym)) : AvoidsAllocation (updateFGK wmax t h sym first) :=
  .bind (.ite hi (.ok _)) fun _ => .bind (.ite (fgkLevel_avoids _ _ _ _) (.ok _)) fun _ =>
    .bind (fgkClimb_avoids _ _ _ _) fun _ => incWeight_avoids _ _ _

theorem blockTop_avoids (t : Tree) (p : Handle) (w r : Nat) : AvoidsAllocation (blockTop t p w r) := by
  induction r with
  | zero => exact .ok _
  | succ r ih => exact .ite (.bind (exactlyOne_avoids _) fun _ => .ite ih (.ok _)) (.ok _)

theorem slideLoop_avoids (p : Handle) (count j : Nat) (t : Tree) : AvoidsAllocation (slideLoop p count j t) := by
  induction count generalizing j t with
  | zero => exact .ok _
  | succ count ih => exact .bind (exactlyOne_avoids _) fun _ => .bind (swapPositions_avoids _ _ _) fun _ => ih _ _

theorem slideAndIncrement_avoids (wmax : Nat) (t : Tree) (p : Handle) : AvoidsAllocation (slideAndIncrement wmax t p) :=
  .bind (blockTop_avoids _ _ _ _) fun _ =>
    .ite (.bind (slideLoop_avoids _ _ _ _) fun _ => .bind (incWeight_avoids _ _ _) fun _ => .ok _)
      (.bind (.ok _) fun _ => .bind (incWeight_avoids _ _ _) fun _ => .ok _)

theorem vitterClimb_avoids (wmax fuel : Nat) (t : Tree) (q : Handle) : AvoidsAllocation (vitterClimb wmax fuel t q) := by
  induction fuel generalizing t q with
  | zero => exact .ite (.ok _) .invariantViolation
  | succ fuel ih =>
    exact .ite (.ok _) (.bind (slideAndIncrement_avoids _ _ _) fun _ => .bind (followed_avoids _) fun _ => ih _ _)

theorem vitterStart_avoids {t : Tree} {h : Handle} {sym : Symbol} {first : Bool}
    (hi : AvoidsAllocation (introduce t sym)) : AvoidsAllocation (vitterStart t h sym first) :=
  .ite (.bind hi fun _ => .bind (followed_avoids _) fun _ => .ok _)
    (.bind (promote_avoids _ _ _) fun _ => .ite (.bind (followed_avoids _) fun _ => .ok _) (.ok _))

theorem vitterDeferred_avoids (wmax : Nat) (t : Tree) (leaf : Option Handle) :
    AvoidsAllocation (vitterDeferred wmax t leaf) := by
  cases leaf with
  | none => exact .ok _
  | some lf => exact .bind (slideAndIncrement_avoids _ _ _) fun _ => .ok _

theorem updateVitter_avoids {wmax : Nat} {t : Tree} {h : Handle} {sym : Symbol} {first : Bool}
    (hi : AvoidsAllocation (introduce t sym)) : AvoidsAllocation (updateVitter wmax t h sym first) :=
  .bind (vitterStart_avoids hi) fun _ => .bind (vitterClimb_avoids _ _ _ _) fun _ =>
    .bind (incWeight_avoids _ _ _) fun _ => vitterDeferred_avoids _ _ _

theorem update_avoids {st : Strategy} {wmax : Nat} {t : Tree} {h : Handle} {sym : Symbol}
    (hi : AvoidsAllocation (introduce t sym)) : AvoidsAllocation (update st wmax t h sym) := by
  cases st with
  | fgk => exact updateFGK_avoids hi
  | vitter => exact updateVitter_avoids hi

/-! ### The room -/

/-- With an unseen symbol at most 255 are seen: there is room for two more nodes (R24). -/
theorem Tree.room_of_unseen {t : Tree} {sym : Symbol} (hn : t.nodeCount.val = 2 * t.seenCount + 1)
    (hs : t.seen.getLsbD sym.toNat = false) : t.nodeCount.val + 2 ≤ 513 := by
  have hcount := countP_setBit hs le_rfl
  rw [if_pos sym.isLt] at hcount
  have hle : (List.range 256).countP (fun j => (setBit t.seen sym.toNat true).getLsbD j) ≤ 256 :=
    List.countP_le_length.trans_eq List.length_range
  have : t.seenCount + 1 ≤ 256 := hcount.symm.trans_le hle
  omega

/-- No other fault has its code (R280). -/
theorem FaultKind.eq_allocationFailure {k : FaultKind} (h : k.code = FaultKind.allocationFailure.code) :
    k = .allocationFailure := by
  cases k with
  | allocationFailure => rfl
  | _ => exact absurd h (by decide)

/-- Settles O54: a fault of the tree's update is not `AllocationFailure` where the count leaves room, and no other is. -/
theorem allocationNeverFails : Obligations.AllocationNeverFails := by
  unfold Obligations.AllocationNeverFails
  intro s t c count hs h r hr hstatus
  have e := runWord_effect h
  have answer {a : Response} (ht : t.responses = s.responses ++ [a]) :
      a.status = FaultKind.allocationFailure.code := by
    cases List.append_cancel_left (ht.symm.trans hr)
    exact hstatus
  have okNe : statusOk ≠ FaultKind.allocationFailure.code := by decide
  generalize decode c = word at e
  cases e with
  | opened | answered => exact okNe (answer rfl)
  | refused hf => exact hs hf
  | illegal => exact nomatch FaultKind.eq_allocationFailure (k := .illegalCommand) (answer rfl)
  | @faulted _ _ ha u k w cause =>
    obtain rfl := FaultKind.eq_allocationFailure
      (answer (a := { status := k.code, data := 0 }) (by rw [State.raiseFault_responses, w.responses]))
    obtain hne | ⟨x, sym, hu⟩ := cause
    · exact hne rfl
    · exact update_avoids (introduce_avoids (Tree.room_of_unseen (count (.inl ha)))) hu
  | @updated _ _ data _ _ u w =>
    exact okNe (answer (a := { status := statusOk, data := data })
      (by rw [State.respond_responses, State.withTree_responses, w.responses]))
  | flushed =>
    refine okNe (answer (a := { status := statusOk, data := 0 }) ?_)
    rw [State.respond_responses]
    exact congrArg (· ++ _) (flushBits_responses s)

end Sys2Proof.Machine
end

section
/-! `DECODE` (spec/45_decoder_commands.md R240 to R246): what a successful one did, that it completes on every coding tree,
its faults and its frame; that it inverts `ENCODE`; and the byte accesses of a fault (spec/60_exceptions.md R284, R290). -/

namespace Sys2Proof.Machine

/-! ### Codewords -/

/-- The bits left begin with the code of node `h` for `sym`: a Leaf's path code, or the Escape path and eight raw bits
(R96, R97). -/
structure State.Codeword (s : State) (h : Handle) (path : List Bool) (sym : Symbol) (rest : List Bool) : Prop where
  has : s.tree.has h
  walk : s.tree.walk root path = some h
  bits : (s.tree.get h).role = .leaf sym ∧ s.bitsLeft = path ++ rest ∨
    h = s.tree.esc ∧ s.bitsLeft = path ++ symbolBits sym ++ rest

theorem State.codeword_or_outOfBits (s : State) (w : s.tree.WellFormed) :
    (∃ h path sym rest, s.Codeword h path sym rest) ∨ s.OutOfBits := by
  obtain ⟨h, path, rest, sym, hh, e, hr, hb⟩ | ⟨path, rest, sym, e, hb⟩ | out := s.bitsLeft_cases w
  · exact .inl ⟨h, path, sym, rest, hh, e, .inl ⟨hr, hb⟩⟩
  · exact .inl ⟨s.tree.esc, path, sym, rest, w.escape.allocated, e, .inr ⟨rfl, hb⟩⟩
  · exact .inr out

section
variable {s : State} {h : Handle} {path rest : List Bool} {sym : Symbol}

/-- `DECODE` reads a codeword and lands on its node: at a Leaf with one bit of lookahead, after the raw bits with none. -/
theorem State.Codeword.lands (c : s.Codeword h path sym rest) (w : s.tree.WellFormed) (hc : s.cnt.toNat ≤ 8) :
    ∃ u, s.Lands h sym u ∧ u.bitsLeft = rest ∧ u.cnt.toNat ≤ 7 ∧
      ((s.tree.get h).role = .leaf sym → u.bitsAhead.length = rest.length - 1) ∧
      (h = s.tree.esc → u.pendValid = false ∧ u.bitsAhead = rest) := by
  obtain ⟨_, e, ⟨hr, hb⟩ | ⟨rfl, hb⟩⟩ := c
  · obtain ⟨u, l, hleft, hcnt, hahead⟩ := State.lands_leaf w hc e hr hb
    refine ⟨u, l, hleft, hcnt, fun _ => hahead, ?_⟩
    rintro rfl
    rw [w.escape.role] at hr
    cases hr
  · obtain ⟨u, l, hleft, hcnt, hpend, hahead⟩ := State.lands_escape w hc e hb
    exact ⟨u, l, hleft, hcnt, fun hr => (nomatch w.escape.role.symm.trans hr), fun _ => ⟨hpend, hahead⟩⟩

/-- The node of a codeword is the one `locate` answers, when the raw symbol is not seen (R143). -/
theorem State.Codeword.locate (c : s.Codeword h path sym rest) (w : s.tree.WellFormed)
    (hs : h = s.tree.esc → s.tree.seen.getLsbD sym.toNat = false) : locate s.tree sym = .ok h := by
  obtain ⟨hh, _, ⟨hr, _⟩ | ⟨rfl, _⟩⟩ := c
  · have seen := (w.leaves.seen sym).2 ⟨h, hh, hr⟩
    exact (locate_seen_ok_iff s.tree sym h seen).2 ⟨hh, hr, fun x hx hxr => w.leaves.unique sym x h hx hh hxr hr⟩
  · exact locate_unseen _ _ (hs rfl)

end

/-! ### The outcomes of DECODE -/

/-- The state in which a successful `DECODE` ends that read up to `u` (R240). -/
def State.decodedTo (u : State) (sym : Symbol) (t : Tree) : State :=
  (u.withTree t).respond statusOk (sym.setWidth 64)

section
variable {s u : State} {h : Handle} {sym : Symbol} {t : Tree} {k : FaultKind}

theorem State.decodedTo_responses :
    (u.decodedTo sym t).responses = u.responses ++ [{ status := 0, data := sym.setWidth 64 }] := rfl

theorem State.Lands.exec_decode (l : s.Lands h sym u) (ha : s.engine = .active) (hm : s.mode = .dec)
    (hw : s.tree.rootWeight ≠ s.cfg.wmax) (e : update s.strategy s.cfg.wmax s.tree h sym = .ok t) :
    exec .decode s = .next (u.decodedTo sym t) := by
  rw [exec_decode_of_legal ha hm, l.decodeBody_ok (weightFull_eq_false_iff.2 hw) e]
  rfl

theorem State.Lands.exec_decode_raised (l : s.Lands h sym u) (ha : s.engine = .active) (hm : s.mode = .dec)
    (hw : s.tree.rootWeight ≠ s.cfg.wmax) (e : update s.strategy s.cfg.wmax s.tree h sym = .error k) :
    exec .decode s = .next (u.raiseFault k) := by
  rw [exec_decode_of_legal ha hm, l.decodeBody_raised (weightFull_eq_false_iff.2 hw) e]
  rfl

/-- A `DECODE` that landed succeeds or fails with its update. -/
theorem State.Lands.exec_decode_cases (l : s.Lands h sym u) (ha : s.engine = .active) (hm : s.mode = .dec)
    (hw : s.tree.rootWeight ≠ s.cfg.wmax) :
    (∃ t, update s.strategy s.cfg.wmax s.tree h sym = .ok t ∧ exec .decode s = .next (u.decodedTo sym t)) ∨
    ∃ k, update s.strategy s.cfg.wmax s.tree h sym = .error k ∧ exec .decode s = .next (u.raiseFault k) := by
  cases e : update s.strategy s.cfg.wmax s.tree h sym with
  | ok t => exact .inl ⟨t, rfl, l.exec_decode ha hm hw e⟩
  | error k => exact .inr ⟨k, rfl, l.exec_decode_raised ha hm hw e⟩

/-- A fault within `DECODE` has read no more bits than it may (R242). -/
theorem decodeBody_raised_reads (e : decodeBody s = .raised k u) : s.ReadsUpTo 264 u := by
  obtain ⟨_, _, rfl⟩ | ⟨_, hd | ⟨cur, bit, v, hd, hl | ⟨sym, hl, _⟩⟩⟩ := decodeBody_raised.1 e
  · exact .refl _ _
  · exact (descend_firstBit_reads hd).mono (by omega)
  · exact landedSymbol_after_descend_reads hd hl
  · exact landedSymbol_after_descend_reads hd hl

/-- When the bits left run out `DECODE` raises `StreamExhausted` with every bit read (R242). -/
theorem State.OutOfBits.exec_decode (o : s.OutOfBits) (w : s.tree.WellFormed) (hc : s.cnt.toNat ≤ 8)
    (ha : s.engine = .active) (hm : s.mode = .dec) (hw : s.tree.rootWeight ≠ s.cfg.wmax) :
    ∃ u, exec .decode s = .next (u.raiseFault .streamExhausted) ∧ s.ReadsUpTo 264 u ∧ u.src.length ≤ u.srcPos := by
  obtain ⟨u, hb, hahead⟩ := o.decodeBody_raised w hc (weightFull_eq_false_iff.2 hw)
  have reads := decodeBody_raised_reads hb
  refine ⟨u, by rw [exec_decode_of_legal ha hm, hb]; rfl, reads, ?_⟩
  have hcnt : u.cnt.toNat ≤ 8 := by obtain ⟨_, _, _, _, h⟩ := reads.bytes; omega
  have hlen := State.bitsAhead_length hcnt
  rw [hahead, List.length_nil] at hlen
  omega

/-- Below 8 buffered bits, the unread bytes are the whole bytes of the bits ahead. -/
theorem State.ReadsUpTo.srcPos_add {m : Nat} (r : s.ReadsUpTo m u) (hin : s.srcPos ≤ s.src.length)
    (hc : u.cnt.toNat ≤ 7) : u.srcPos + u.bitsAhead.length / 8 = s.src.length := by
  have hlen := State.bitsAhead_length (s := u) (by omega)
  have hpos := r.within hin
  rw [r.same.src] at hlen hpos
  omega

/-- After the Escape path a symbol already seen is refused by the update, under either strategy (R145). -/
theorem update_of_seen_escape {st : Strategy} {wmax : Nat} {t : Tree} {sym : Symbol}
    (hs : t.seen.getLsbD sym.toNat = true) : update st wmax t t.esc sym = .error .invariantViolation := by
  have hi := introduce_of_seen hs
  cases st with
  | fgk => simp only [update, updateFGK, startNode, decide_true, if_true, hi]; rfl
  | vitter => simp only [update, updateVitter, vitterStart, decide_true, if_true, hi]; rfl

end

/-! ### The statements about DECODE -/

/-- Settles O39: the bits left begin with a codeword, since they do not run out, and the landing reads exactly it. -/
theorem decodeResult : Obligations.DecodeResult := by
  unfold Obligations.DecodeResult
  intro s t ha hm w hc hx hsucc
  obtain ⟨data, hresp⟩ := hsucc
  have hw : s.tree.rootWeight ≠ s.cfg.wmax := fun hfull => by
    cases (weightOverflowPrecheck s .decode ha hfull (.inr ⟨rfl, hm⟩)).symm.trans hx
    simp [statusOk] at hresp
  obtain ⟨h, path, sym, rest, c⟩ | out := s.codeword_or_outOfBits w
  · obtain ⟨u, l, rfl, hcnt, _, hesc⟩ := c.lands w hc
    have same := l.reads.same
    obtain ⟨tree, e, hx'⟩ | ⟨k, e, hx'⟩ := l.exec_decode_cases ha hm hw
    · cases hx.symm.trans hx'
      refine ⟨h, path, sym, c.walk, c.has, ?_, e, ?_, same.engine.trans ha, Nat.le_succ_of_le hcnt⟩
      · exact c.bits.imp_right fun ⟨h, hb⟩ => ⟨h, hb, (hesc h).1⟩
      · rw [State.decodedTo_responses, same.responses]
    · cases hx.symm.trans hx'
      rw [State.raiseFault_responses, same.responses] at hresp
      cases k <;> simp [FaultKind.code, statusOk] at hresp
  · obtain ⟨u, hx', reads, _⟩ := out.exec_decode w hc ha hm hw
    cases hx.symm.trans hx'
    rw [State.raiseFault_responses, reads.same.responses] at hresp
    simp [FaultKind.code, statusOk] at hresp

/-- Settles O41: the landing reads the codeword, and the update completes on a coding tree. -/
theorem decodeCompletes : Obligations.DecodeCompletes := by
  unfold Obligations.DecodeCompletes
  intro s h path rest sym ha hm coding hc hw hh hwalk hbits
  have w := coding.wf
  have c : s.Codeword h path sym rest := ⟨hh, hwalk, hbits.imp_right fun ⟨he, _, hb⟩ => ⟨he, hb⟩⟩
  have hl : locate s.tree sym = .ok h := c.locate w fun he => by
    obtain ⟨hr, _⟩ | ⟨_, hs, _⟩ := hbits
    · rw [he, w.escape.role] at hr; cases hr
    · exact hs
  obtain ⟨u, l, hleft, _⟩ := c.lands w hc
  obtain ⟨tree, e, coding', _⟩ := coding.update hw hl
  have same := l.reads.same
  refine ⟨tree, u.decodedTo sym tree, e, coding', l.exec_decode ha hm hw.ne e, rfl, same.engine.trans ha, hleft, ?_⟩
  rw [State.decodedTo_responses, same.responses]

/-- Settles O42: the bits left run out, and reading them all leaves the tree as it is. -/
theorem decodeExhausted : Obligations.DecodeExhausted := by
  unfold Obligations.DecodeExhausted
  intro s ha hm w hc hw out
  obtain ⟨u, hx, reads, hpos⟩ := State.OutOfBits.exec_decode out w hc ha hm hw
  refine ⟨_, hx, rfl, rfl, ?_, hpos, reads.same.tree⟩
  rw [State.raiseFault_responses, reads.same.responses]
  rfl

/-- Settles O43: the landing reads the codeword, and the update refuses the symbol. -/
theorem decodeSeenSymbolFaults : Obligations.DecodeSeenSymbolFaults := by
  unfold Obligations.DecodeSeenSymbolFaults
  intro s path rest sym ha hm w hc hw hwalk hbits hs
  have c : s.Codeword s.tree.esc path sym rest := ⟨w.escape.allocated, hwalk, .inr ⟨rfl, hbits⟩⟩
  obtain ⟨u, l, _, hcnt, _, hesc⟩ := c.lands w hc
  obtain ⟨_, rfl⟩ := hesc rfl
  have reads := l.reads
  refine ⟨_, l.exec_decode_raised ha hm hw (update_of_seen_escape hs), rfl, rfl, ?_, reads.same.src, fun hin =>
    reads.srcPos_add hin hcnt⟩
  rw [State.raiseFault_responses, reads.same.responses]
  rfl

/-- Settles O44: every outcome is the state before it, or one that read at most 264 bits, answered. -/
theorem decodeFrame : Obligations.DecodeFrame := by
  unfold Obligations.DecodeFrame
  intro s t h
  obtain ⟨_, rfl⟩ | ⟨_, _, rfl⟩ | ⟨_, _, ⟨sym, u, hb, rfl⟩ | ⟨k, u, hb, rfl⟩⟩ := exec_decode_cases h
  · exact ⟨rfl, rfl, rfl, rfl, rfl, rfl, rfl, ⟨0, by omega, rfl, by simp [State.refuse]⟩, ⟨_, rfl⟩, .inl ⟨rfl, rfl⟩⟩
  · exact ⟨rfl, rfl, rfl, rfl, rfl, rfl, rfl, ⟨0, by omega, rfl, by simp⟩, ⟨_, rfl⟩, .inr rfl⟩
  · obtain ⟨_, cur, bit, v, u, tree, hd, hl, _, rfl⟩ := decodeBody_ok.1 hb
    have reads : s.ReadsUpTo 264 u := State.Lands.reads ⟨bit, v, hd, hl⟩
    have same := reads.same
    exact ⟨same.sink, same.mode, same.strategy, same.src, same.cfg, same.channel, same.freeCount,
      reads.bytes_le le_rfl, ⟨_, congrArg (· ++ _) same.responses⟩, .inl ⟨same.engine, same.faultCode⟩⟩
  · have reads := decodeBody_raised_reads hb
    have same := reads.same
    exact ⟨same.sink, same.mode, same.strategy, same.src, same.cfg, same.channel, same.freeCount,
      reads.bytes_le le_rfl, ⟨_, congrArg (· ++ _) same.responses⟩, .inr rfl⟩

/-! ### DECODE inverts ENCODE -/

/-- The code of a symbol in a tree: its node's path code, and after the Escape path the raw symbol (R220). -/
def Tree.codeAt (t : Tree) (h : Handle) (path : List Bool) (sym : Symbol) : List Bool :=
  path ++ if h = t.esc then symbolBits sym else []

/-- Bits left that begin with the code of the located node are a codeword of that node. -/
theorem State.codeword_of_located {d : State} (w : d.tree.WellFormed) {h : Handle} {path rest : List Bool} {sym : Symbol}
    (hl : Machine.locate d.tree sym = .ok h) (hp : pathTo d.tree h = .ok path)
    (hb : d.bitsLeft = d.tree.codeAt h path sym ++ rest) : d.Codeword h path sym rest := by
  obtain ⟨hh, hr⟩ := w.isNodeOf_of_locate hl
  refine ⟨hh, w.walk_of_pathTo hh hp, ?_⟩
  rw [Tree.codeAt] at hb
  by_cases he : h = d.tree.esc
  · rw [if_pos he] at hb
    exact .inr ⟨he, hb⟩
  · rw [if_neg he, List.append_nil] at hb
    exact .inl ⟨hr.resolve_right he, hb⟩

/-- `DECODE` inverts one symbol's code: it reads exactly the code and updates the tree with the symbol (R245). -/
theorem exec_decode_of_code {d : State} {h : Handle} {path rest : List Bool} {sym : Symbol} {u : Tree}
    (ha : d.engine = .active) (hm : d.mode = .dec) (w : d.tree.WellFormed) (hc : d.cnt.toNat ≤ 8)
    (hw : d.tree.rootWeight ≠ d.cfg.wmax) (hl : Machine.locate d.tree sym = .ok h) (hp : pathTo d.tree h = .ok path)
    (e : update d.strategy d.cfg.wmax d.tree h sym = .ok u) (hb : d.bitsLeft = d.tree.codeAt h path sym ++ rest) :
    ∃ d', exec .decode d = .next d' ∧ d'.responses = d.responses ++ [{ status := 0, data := sym.setWidth 64 }] ∧
      d'.tree = u ∧ d'.bitsLeft = rest ∧ d'.engine = .active ∧ d'.mode = .dec ∧ d'.strategy = d.strategy ∧
      d'.cfg = d.cfg ∧ d'.cnt.toNat ≤ 8 := by
  obtain ⟨v, l, hleft, hcnt, _⟩ := (State.codeword_of_located w hl hp hb).lands w hc
  have same := l.reads.same
  refine ⟨v.decodedTo sym u, l.exec_decode ha hm hw e, ?_, rfl, hleft, same.engine.trans ha, same.mode.trans hm,
    same.strategy, same.cfg, Nat.le_succ_of_le hcnt⟩
  rw [State.decodedTo_responses, same.responses]

/-- Settles O46: the bits the encoder emitted are the symbol's code in the tree both hold. -/
theorem decodeInvertsEncode : Obligations.DecodeInvertsEncode := by
  unfold Obligations.DecodeInvertsEncode
  intro e e' d sym code rest hea hem hbuf w hda hdm hc htree hst hcfg hx hsucc hcode hbits
  obtain ⟨hw, h, path, u, hl, hp, hu, rfl⟩ := exec_encode_succeeded hea hem hx hsucc
  rw [(State.encoded_bitsOut hbuf).1, List.append_assoc] at hcode
  have hb : d.bitsLeft = d.tree.codeAt h path sym ++ rest := by
    rw [hbits, ← List.append_cancel_left hcode, Tree.codeAt, htree]
  rw [← htree, ← hst, ← hcfg] at hu
  rw [← htree] at hl hp w
  rw [← htree, ← hcfg] at hw
  obtain ⟨d', hx', hresp, htree', hleft, hact, _, _, _, hcnt⟩ := exec_decode_of_code hda hdm w hc hw hl hp hu hb
  exact ⟨d', hx', hresp, htree', hleft, hact, hcnt⟩

/-! ### The byte accesses of a fault -/

/-- An `ENCODE` that ends in `FAULTED` in an open encoder raised its fault in the body. -/
theorem exec_encode_faulted {s t : State} {sym : Symbol} (ha : s.engine = .active) (hm : s.mode = .enc)
    (hx : exec (.encode sym) s = .next t) (ht : t.engine = .faulted) :
    ∃ k u, encodeBody sym s = .raised k u ∧ t = u.raiseFault k := by
  obtain ⟨hf, _⟩ | ⟨_, hl, _⟩ | ⟨_, _, ⟨u, hb, rfl⟩ | hraised⟩ := exec_encode_cases hx
  · cases ha.symm.trans hf
  · cases hl.symm.trans ((encoderLegal_iff s).2 ⟨ha, hm⟩)
  · have engine : u.engine = s.engine := by
      have := (encodeBody_inProgress sym s).engine
      rwa [hb] at this
    cases (engine.trans ha).symm.trans ht
  · exact hraised

/-- Settles O60: the emitted bits are the whole bytes of the sink and fewer than 8 buffered; the unread bytes of the source
are the whole bytes of the bits ahead. -/
theorem faultKeepsByteAccesses : Obligations.FaultKeepsByteAccesses := by
  unfold Obligations.FaultKeepsByteAccesses
  refine ⟨fun s t sym ha hm hs hx ht => ?_, fun s t ha hm w hc hin hx ht => ?_⟩
  · obtain ⟨k, u, hb, rfl⟩ := exec_encode_faulted ha hm hx ht
    obtain ⟨hw, rfl, rfl⟩ | ⟨hw, hcase⟩ := encodeBody_raised.1 hb
    · exact .inl ⟨(weightFull_iff _).1 hw, rfl, rfl⟩
    refine .inr ⟨weightFull_eq_false_iff.1 hw, k, rfl, ?_⟩
    obtain ⟨hloc, rfl⟩ | ⟨x, hloc, hp, rfl⟩ | ⟨x, path, hloc, hp, hu, rfl⟩ := hcase
    · exact .inl ⟨hloc, rfl⟩
    · exact .inr (.inl ⟨x, hloc, hp, rfl⟩)
    · obtain ⟨hbits, hbuffer⟩ := emitCode_bitsOut x path sym hs
      refine .inr (.inr ⟨x, path, _, hloc, hp, hu, ?_, hbits.symm⟩)
      rw [List.length_take]
      exact (Nat.min_le_left _ _).trans_lt hbuffer.1
  · by_cases hfull : s.tree.rootWeight = s.cfg.wmax
    · cases (weightOverflowPrecheck s .decode ha hfull (.inr ⟨rfl, hm⟩)).symm.trans hx
      exact .inl ⟨hfull, rfl, rfl⟩
    refine .inr ⟨hfull, ?_⟩
    obtain ⟨h, path, sym, rest, c⟩ | out := s.codeword_or_outOfBits w
    · obtain ⟨u, l, _, hcnt, hleaf, hesc⟩ := c.lands w hc
      have pos := l.reads.srcPos_add hin hcnt
      obtain ⟨tree, _, hx'⟩ | ⟨k, e, hx'⟩ := l.exec_decode_cases ha hm hfull
      · cases hx.symm.trans hx'
        cases (l.reads.same.engine.trans ha).symm.trans ht
      · cases hx.symm.trans hx'
        refine .inr ⟨k, h, path, sym, rest, rfl, c.has, c.walk, e, c.bits.imp ?_ ?_⟩
        · exact fun ⟨hr, hb⟩ => ⟨hr, hb, hleaf hr ▸ pos⟩
        · exact fun ⟨he, hb⟩ => ⟨he, hb, (hesc he).2 ▸ pos⟩
    · obtain ⟨u, hx', reads, hpos⟩ := out.exec_decode w hc ha hm hfull
      cases hx.symm.trans hx'
      have hle := reads.within hin
      rw [reads.same.src] at hle hpos
      exact .inl ⟨rfl, le_antisymm hle hpos⟩

end Sys2Proof.Machine
end

section
/-! Runs (spec/70_reset_and_hazards.md R324): the encoding run of at most `WMAX` symbols succeeds, the decoding run returns
what a successful encoding run was given, and the weights count what was processed (spec/10_state.md R44). -/

namespace Sys2Proof.Machine

/-! ### Commands one after another -/

theorem execAll_of_next {i : Instr} {is : List Instr} {s t : State} (h : exec i s = .next t) :
    execAll (i :: is) s = execAll is t := by
  rw [execAll, h]

theorem execAll_cons_some {i : Instr} {is : List Instr} {s v : State} (h : execAll (i :: is) s = some v) :
    ∃ t, exec i s = .next t ∧ execAll is t = some v := by
  obtain ⟨t, ht⟩ := exec_next i s
  exact ⟨t, ht, by rwa [execAll_of_next ht] at h⟩

theorem execAll_append_some {is js : List Instr} {s v : State} (h : execAll (is ++ js) s = some v) :
    ∃ t, execAll is s = some t ∧ execAll js t = some v := by
  induction is generalizing s with
  | nil => exact ⟨s, rfl, h⟩
  | cons i is ih =>
    obtain ⟨u, hu, h⟩ := execAll_cons_some h
    obtain ⟨t, ht, hv⟩ := ih h
    exact ⟨t, (execAll_of_next hu).trans ht, hv⟩

theorem execAll_append_of_some {is js : List Instr} {s t : State} (h : execAll is s = some t) :
    execAll (is ++ js) s = execAll js t := by
  induction is generalizing s with
  | nil => cases h; rfl
  | cons i is ih =>
    obtain ⟨u, hu, h⟩ := execAll_cons_some h
    rw [List.cons_append, execAll_of_next hu, ih h]

/-- Every command is answered by one response (R94). -/
theorem State.Effect.responds {s t : State} {r : Except DecodeError Instr} (e : s.Effect r t) :
    ∃ a, t.responses = s.responses ++ [a] := by
  cases e with
  | opened | answered | refused | illegal => exact ⟨_, rfl⟩
  | faulted _ _ w => exact ⟨_, congrArg (· ++ _) w.responses⟩
  | updated _ _ w => exact ⟨_, congrArg (· ++ _) w.responses⟩
  | flushed => exact ⟨_, congrArg (· ++ _) (flushBits_responses s)⟩

theorem execAll_responds {is : List Instr} {s t : State} (h : execAll is s = some t) : s.responses <+: t.responses := by
  induction is generalizing s with
  | nil => cases h; exact List.prefix_rfl
  | cons i is ih =>
    obtain ⟨u, hu, h⟩ := execAll_cons_some h
    obtain ⟨a, ha⟩ := (exec_effect hu).responds
    exact (List.prefix_append _ _).trans (ha ▸ ih h)

/-- The first response of a run is its first command's. -/
theorem execAll_cons_responses {i : Instr} {is : List Instr} {s t v : State} {a : Response} {as : List Response}
    (hi : exec i s = .next t) (h : execAll is t = some v) (hv : v.responses = s.responses ++ a :: as) :
    t.responses = s.responses ++ [a] ∧ v.responses = t.responses ++ as := by
  obtain ⟨b, hb⟩ := (exec_effect hi).responds
  obtain ⟨bs, hbs⟩ := execAll_responds h
  rw [hb, List.append_assoc] at hbs
  obtain ⟨rfl, rfl⟩ := List.cons.inj (List.append_cancel_left (hbs.trans hv))
  exact ⟨hb, by rw [hb, hv, List.append_assoc]; rfl⟩

/-- Every response given from `s` to `t` has status 0. -/
def State.Succeeds (s t : State) : Prop := ∀ r ∈ t.responses.drop s.responses.length, r.status = 0

/-- A run that succeeds is a first command that succeeds and a rest that does. -/
theorem State.Succeeds.cons {i : Instr} {is : List Instr} {s t v : State} (ok : s.Succeeds v) (hi : exec i s = .next t)
    (h : execAll is t = some v) : s.succeeded t ∧ t.Succeeds v := by
  obtain ⟨⟨status, data⟩, hb⟩ := (exec_effect hi).responds
  obtain ⟨bs, hbs⟩ := execAll_responds h
  rw [State.Succeeds, ← hbs, hb, List.append_assoc, List.drop_left] at ok
  obtain rfl : status = 0 := ok _ List.mem_cons_self
  refine ⟨⟨data, hb⟩, ?_⟩
  rw [State.Succeeds, ← hbs, List.drop_left]
  exact fun r hr => ok r (List.mem_cons_of_mem _ hr)

/-- What a run that succeeds began with has succeeded. -/
theorem State.Succeeds.start {is : List Instr} {s t v : State} (ok : s.Succeeds v) (h : execAll is t = some v) :
    s.Succeeds t := by
  obtain ⟨bs, hbs⟩ := execAll_responds h
  intro r hr
  refine ok r ?_
  rw [← hbs]
  exact (List.drop_append ▸ List.mem_append_left _ hr)

/-! ### The encoding run succeeds -/

/-- An open encoder whose tree is a coding tree, with room for `k` more symbols below `WMAX` (R286). -/
structure State.EncoderWithRoom (s : State) (k : Nat) : Prop where
  active : s.engine = .active
  enc : s.mode = .enc
  buffer : s.BufferOk
  coding : s.tree.Coding s.strategy
  room : s.tree.rootWeight + k ≤ s.cfg.wmax

/-- In such a state `ENCODE` succeeds and leaves one. -/
theorem State.EncoderWithRoom.encode {s : State} {k : Nat} (c : s.EncoderWithRoom (k + 1)) (sym : Symbol) :
    ∃ t, exec (.encode sym) s = .next t ∧ t.EncoderWithRoom k ∧
      t.responses = s.responses ++ [{ status := 0, data := 0 }] := by
  obtain ⟨ha, hm, hs, coding, room⟩ := c
  obtain ⟨x, hl⟩ := coding.wf.locate_ok sym
  obtain ⟨path, hp, _⟩ := coding.wf.pathTo_ok (coding.wf.isNodeOf_of_locate hl).1
  obtain ⟨u, hu, coding', weight⟩ := coding.update (wmax := s.cfg.wmax) (by omega) hl
  refine ⟨s.encoded x path sym u, exec_encode_of_ok ha hm (by omega) hl hp hu, ?_, State.encoded_responses⟩
  exact ⟨State.encoded_engine.trans ha, State.encoded_mode.trans hm, (State.encoded_bitsOut hs).2,
    by rw [State.encoded_strategy]; exact coding', by rw [State.encoded_tree, State.encoded_cfg]; omega⟩

theorem State.EncoderWithRoom.execAll {xs : List Symbol} {s : State} (c : s.EncoderWithRoom xs.length) :
    ∃ t, execAll (xs.map .encode) s = some t ∧ t.EncoderWithRoom 0 ∧
      t.responses = s.responses ++ List.replicate xs.length { status := 0, data := 0 } := by
  induction xs generalizing s with
  | nil => exact ⟨s, rfl, c, (List.append_nil _).symm⟩
  | cons x xs ih =>
    obtain ⟨u, hu, c', hresp⟩ := c.encode x
    obtain ⟨t, ht, done, hresp'⟩ := ih c'
    refine ⟨t, (execAll_of_next hu).trans ht, done, ?_⟩
    rw [hresp', hresp, List.append_assoc]
    rfl

/-- Settles O48: `INIT` opens an encoder with room for the input, every `ENCODE` succeeds, and so does `FLUSH`. -/
theorem encodingRunSucceeds : Obligations.EncodingRunSucceeds := by
  unfold Obligations.EncodingRunSucceeds
  intro st input e hlen
  have opened : ((e.openStream .enc st).respond statusOk 0).EncoderWithRoom input.length :=
    ⟨rfl, rfl, State.empty_bufferOk rfl rfl, Tree.coding_fresh st, by
      rw [State.respond_tree, State.openStream_tree, Tree.rootWeight_fresh, Nat.zero_add]; exact hlen⟩
  obtain ⟨t, ht, ⟨ha, hm, hs, _, _⟩, hresp⟩ := opened.execAll
  obtain ⟨e', hflush, _, _, hfinal, _⟩ := flushCompletes t ha hm hs
  refine ⟨e', ?_, ?_⟩
  · rw [encodingRun, execAll_of_next (exec_init .enc st e), execAll_append_of_some ht, execAll_of_next hflush]
    rfl
  · rw [hfinal, hresp, List.replicate_succ, List.replicate_succ', State.respond_responses, State.openStream_responses]
    simp [statusOk]

/-! ### The round trip -/

/-- An open encoder over a well-formed tree. -/
structure State.OpenEncoder (s : State) : Prop where
  active : s.engine = .active
  enc : s.mode = .enc
  buffer : s.BufferOk
  wf : s.tree.WellFormed

/-- An open decoder that holds the encoder's tree, strategy and parameters (R149). -/
structure State.Mirrors (d e : State) : Prop where
  active : d.engine = .active
  dec : d.mode = .dec
  cnt : d.cnt.toNat ≤ 8
  tree : d.tree = e.tree
  strategy : d.strategy = e.strategy
  cfg : d.cfg = e.cfg

/-- A successful `ENCODE` emitted a code that the `DECODE` of every mirroring decoder inverts (R245). -/
theorem State.OpenEncoder.encode {e t : State} {sym : Symbol} (o : e.OpenEncoder) (h : exec (.encode sym) e = .next t)
    (hs : e.succeeded t) :
    ∃ code, t.OpenEncoder ∧ t.bitsOut = e.bitsOut ++ code ∧
      ∀ (d : State) (rest : List Bool), d.Mirrors e → d.bitsLeft = code ++ rest →
        ∃ d', exec .decode d = .next d' ∧ d'.Mirrors t ∧ d'.bitsLeft = rest ∧
          d'.responses = d.responses ++ [{ status := 0, data := sym.setWidth 64 }] := by
  obtain ⟨ha, hm, hbuf, w⟩ := o
  obtain ⟨hw, x, path, u, hl, hp, hu, rfl⟩ := exec_encode_succeeded ha hm h hs
  obtain ⟨hbits, hbuf'⟩ := State.encoded_bitsOut (x := x) (path := path) (sym := sym) (u := u) hbuf
  refine ⟨e.tree.codeAt x path sym, ⟨State.encoded_engine.trans ha, State.encoded_mode.trans hm, hbuf', ?_⟩,
    hbits.trans (List.append_assoc _ _ _), fun d rest m hb => ?_⟩
  · exact (update_keeps w (w.isNodeOf_of_locate hl) hu).1
  · obtain ⟨hda, hdm, hc, htree, hst, hcfg⟩ := m
    rw [← htree] at w hl hp hb hw
    rw [← htree, ← hst, ← hcfg] at hu
    rw [← hcfg] at hw
    obtain ⟨d', hx, hresp, htree', hleft, ha', hm', hst', hcfg', hc'⟩ := exec_decode_of_code hda hdm w hc hw hl hp hu hb
    exact ⟨d', hx, ⟨ha', hm', hc', htree', by rw [hst', hst, State.encoded_strategy],
      by rw [hcfg', hcfg, State.encoded_cfg]⟩, hleft, hresp⟩

/-- The same for a list of symbols: a simulation of the encoder by the decoder. -/
theorem State.OpenEncoder.execAll {xs : List Symbol} {e t : State} (o : e.OpenEncoder)
    (h : Machine.execAll (xs.map .encode) e = some t) (hs : e.Succeeds t) :
    ∃ codes, t.OpenEncoder ∧ t.bitsOut = e.bitsOut ++ codes ∧
      ∀ (d : State) (rest : List Bool), d.Mirrors e → d.bitsLeft = codes ++ rest →
        ∃ d', Machine.execAll (List.replicate xs.length .decode) d = some d' ∧
          d'.responses = d.responses ++ xs.map fun x => { status := 0, data := x.setWidth 64 } := by
  induction xs generalizing e with
  | nil =>
    cases h
    exact ⟨[], o, (List.append_nil _).symm, fun d _ _ _ => ⟨d, rfl, (List.append_nil _).symm⟩⟩
  | cons x xs ih =>
    obtain ⟨u, hu, h⟩ := execAll_cons_some h
    obtain ⟨first, hs⟩ := hs.cons hu h
    obtain ⟨code, o', hbits, inverts⟩ := o.encode hu first
    obtain ⟨codes, done, hbits', invert⟩ := ih o' h hs
    refine ⟨code ++ codes, done, by rw [hbits', hbits, List.append_assoc], fun d rest m hb => ?_⟩
    obtain ⟨d₁, hd₁, m₁, hleft, hresp₁⟩ := inverts d (codes ++ rest) m (by rw [hb, List.append_assoc])
    obtain ⟨d', hd', hresp⟩ := invert d₁ rest m₁ hleft
    refine ⟨d', (execAll_of_next hd₁).trans hd', ?_⟩
    rw [hresp, hresp₁, List.append_assoc]
    rfl

/-- Settles O47: a fresh decoder mirrors a fresh encoder, and the sink holds the codes and the padding. -/
theorem roundTrip : Obligations.RoundTrip := by
  unfold Obligations.RoundTrip
  intro st input e e' d out hrun hsucc hsink hsrc hpos hcfg
  obtain ⟨e₁, h₁, hrun⟩ := execAll_cons_some hrun
  obtain ⟨_, hsucc⟩ := State.Succeeds.cons hsucc h₁ hrun
  cases (exec_init .enc st e).symm.trans h₁
  obtain ⟨f, hf, hflush⟩ := execAll_append_some hrun
  have opened : ((e.openStream .enc st).respond statusOk 0).OpenEncoder :=
    ⟨rfl, rfl, State.empty_bufferOk rfl rfl, (Tree.coding_fresh st).wf⟩
  have mirrors : ((d.openStream .dec st).respond statusOk 0).Mirrors ((e.openStream .enc st).respond statusOk 0) :=
    ⟨rfl, rfl, Nat.zero_le 8, rfl, rfl, hcfg⟩
  obtain ⟨codes, ⟨hfa, hfm, hfb, _⟩, hcodes, inverts⟩ := opened.execAll hf (hsucc.start hflush)
  obtain ⟨e₂, hflush', hbits, _⟩ := flushCompletes f hfa hfm hfb
  rw [execAll_of_next hflush'] at hflush
  cases hflush
  have hout : byteBits out = codes ++ List.replicate ((8 - f.cnt.toNat) % 8) false := by
    rw [hsink, byteBits_append, hcodes, State.bitsOut_of_empty rfl, List.append_assoc] at hbits
    exact List.append_cancel_left hbits
  obtain ⟨d', hd', hresp⟩ := inverts _ _ mirrors (by
    show byteBits (d.src.drop d.srcPos) = _
    rw [hsrc, hpos, List.drop_zero, hout])
  refine ⟨d', (execAll_of_next (exec_init .dec st d)).trans hd', ?_⟩
  rw [hresp, List.append_cons]
  rfl

/-! ### The weights count what was processed -/

/-- An open stream whose tree counts `n x` occurrences of each symbol `x`, and `k` symbols in all (R44). -/
structure State.Counted (s : State) (n : Symbol → Nat) (k : Nat) : Prop where
  active : s.engine = .active
  coding : s.CodingOk
  leaves : s.tree.LeafWeights n
  root : s.tree.rootWeight = k

theorem State.counted_openStream (s : State) (m : Mode) (st : Strategy) :
    ((s.openStream m st).respond statusOk 0).Counted (fun _ => 0) 0 where
  active := rfl
  coding := fun _ => ⟨Tree.coding_fresh st, Tree.rootWeight_fresh.trans_le (Nat.zero_le _)⟩
  leaves := Tree.leafWeights_fresh
  root := Tree.rootWeight_fresh

/-- A successful `ENCODE` or `DECODE` counts the symbol it was given or answers. -/
theorem State.Counted.exec {s t : State} {n : Symbol → Nat} {k : Nat} {i : Instr} (c : s.Counted n k)
    (h : exec i s = .next t) (hi : (∃ sym, i = .encode sym) ∨ i = .decode) (hs : s.succeeded t) :
    ∃ sym data, (i = .encode sym ∧ data = 0 ∨ i = .decode ∧ data = sym.setWidth 64) ∧
      t.responses = s.responses ++ [{ status := statusOk, data := data }] ∧ t.Counted (countOne n sym) (k + 1) := by
  have e := exec_effect h
  obtain ⟨x, sym, data, hi', hresp, active, node, hu⟩ := e.updates c.active hi hs
  have w := (c.coding (.inl c.active)).1.wf
  obtain ⟨hx, hr⟩ := node w
  exact ⟨sym, data, hi', hresp, active, e.codingOk c.coding, update_leafWeights w hx hr c.leaves hu,
    by rw [(update_keeps w ⟨hx, hr⟩ hu).2.2, c.root]⟩

/-- Counting one symbol, then a list, counts the longer list. -/
theorem countOne_add_count (n : Symbol → Nat) (x : Symbol) (xs : List Symbol) :
    (fun y => countOne n x y + xs.count y) = fun y => n y + (x :: xs).count y := by
  funext y
  have same : (x == y) = true ↔ y = x := by rw [beq_iff_eq, eq_comm]
  simp only [countOne, List.count_cons, same]
  omega

theorem State.Counted.encodeAll {xs : List Symbol} {s t : State} {n : Symbol → Nat} {k : Nat} (c : s.Counted n k)
    (h : execAll (xs.map .encode) s = some t) (hs : s.Succeeds t) :
    t.Counted (fun x => n x + xs.count x) (k + xs.length) := by
  induction xs generalizing s n k with
  | nil => cases h; exact c
  | cons x xs ih =>
    obtain ⟨u, hu, h⟩ := execAll_cons_some h
    obtain ⟨first, hs⟩ := hs.cons hu h
    obtain ⟨sym, _, ⟨hi, _⟩ | ⟨hi, _⟩, _, c'⟩ := c.exec hu (.inl ⟨x, rfl⟩) first
    · cases hi
      have := ih c' h hs
      rwa [countOne_add_count, Nat.add_assoc, Nat.add_comm 1] at this
    · cases hi

theorem State.Counted.decodeAll {xs : List Symbol} {s t : State} {n : Symbol → Nat} {k : Nat} (c : s.Counted n k)
    (h : execAll (List.replicate xs.length .decode) s = some t)
    (hresp : t.responses = s.responses ++ xs.map fun x => { status := 0, data := x.setWidth 64 }) :
    t.Counted (fun x => n x + xs.count x) (k + xs.length) := by
  induction xs generalizing s n k with
  | nil => cases h; exact c
  | cons x xs ih =>
    obtain ⟨u, hu, hrun⟩ := execAll_cons_some h
    obtain ⟨first, hrest⟩ := execAll_cons_responses hu hrun hresp
    obtain ⟨sym, data, ⟨hi, _⟩ | ⟨_, rfl⟩, hresp', c'⟩ := c.exec hu (.inr rfl) ⟨_, first⟩
    · cases hi
    · obtain ⟨hdata, _⟩ := List.cons.inj (List.append_cancel_left (hresp'.symm.trans first))
      obtain rfl := responseData_injective (Response.mk.inj hdata).2
      have := ih c' hrun hrest
      rwa [countOne_add_count, Nat.add_assoc, Nat.add_comm 1] at this

/-- What the counts say of the live tree (R44). -/
theorem State.Counted.weights {s : State} {xs : List Symbol} (c : s.Counted (fun x => 0 + xs.count x) (0 + xs.length)) :
    s.tree.LeafWeights (fun x => xs.count x) ∧ s.tree.WeightSums ∧ s.tree.rootWeight = xs.length := by
  simp only [Nat.zero_add] at c
  exact ⟨c.leaves, (c.coding (.inl c.active)).1.sums, c.root⟩

/-- Settles O59: `INIT` opens a stream that has counted nothing, and every symbol is counted. -/
theorem weightsCountOccurrences : Obligations.WeightsCountOccurrences := by
  unfold Obligations.WeightsCountOccurrences
  refine ⟨fun st xs e e' h hs => ?_, fun st xs d d' h hresp => ?_⟩
  · obtain ⟨t, ht, h⟩ := execAll_cons_some h
    obtain ⟨_, hs⟩ := State.Succeeds.cons hs ht h
    cases (exec_init .enc st e).symm.trans ht
    exact ((e.counted_openStream .enc st).encodeAll h hs).weights
  · obtain ⟨t, ht, h⟩ := execAll_cons_some h
    obtain ⟨_, hrest⟩ := execAll_cons_responses ht h hresp
    cases (exec_init .dec st d).symm.trans ht
    exact ((d.counted_openStream .dec st).decodeAll h hrest).weights

end Sys2Proof.Machine
end
